-- ==== Sys2Proof/Word.lean ====
section
/-!
DEFINITION. The word types of the CL-24's lines, and the two index types of its tables.
Bit vectors are used for what crosses a line as bits or wraps as bits (bytes, card numbers, minute stamps, session
numbers); quantities that the manual counts are `Nat` or `Int`.
-/
namespace Sys2Proof

/-- One byte of a record (00_scope.md 0.7.4). -/
abbrev Byte := BitVec 8
/-- A two-byte field. -/
abbrev Half := BitVec 16
/-- A four-byte field. -/
abbrev Word := BitVec 32
/-- A position: index `p` stands for the position numbered `p + 1`, so 1 to 24 (R1). -/
abbrev Pos := Fin 24
/-- A program id, 0 to 15 (R27). -/
abbrev ProgramId := Fin 16

/-- The number of a position, 1 to 24. -/
def posNumber (p : Pos) : Nat := p.val + 1

/-- The position that a number names, where it names one. -/
def posOfNumber (n : Nat) : Option Pos :=
  if h : 1 ≤ n ∧ n ≤ 24 then some ⟨n - 1, by omega⟩ else none

/-- The 24 positions in ascending order. -/
def allPositions : List Pos :=
  [0, 1, 2, 3, 4, 5, 6, 7, 8, 9, 10, 11, 12, 13, 14, 15, 16, 17, 18, 19, 20, 21, 22, 23]

/-- To clamp a value to a range (00_scope.md 0.7.2). -/
def clampNat (lo hi n : Nat) : Nat := max lo (min hi n)

/-- The same for signed values. -/
def clampInt (lo hi n : Int) : Int := max lo (min hi n)

end Sys2Proof
end

