-- ==== Sys2Proof/Names.lean ====
section
/-!
DEFINITION. The names of the manual: terminals, classes, states, outcomes, causes, reasons, error codes, flags, and
what comes home for a sweep.
Each list stands in the order in which the manual gives it; the bytes that code them are in Machine/Wire.lean (R181).
-/
namespace Sys2Proof

/-- The two pay terminals (R67). -/
inductive Terminal where
  | one | two
  deriving DecidableEq, Repr, Inhabited

/-- The class of a position or a program (R1, R28). -/
inductive MachineClass where
  | washer | dryer
  deriving DecidableEq, Repr, Inhabited

/-- The class of a card that may hold a session (Table 1-3). -/
inductive CardClass where
  | account | free | service
  deriving DecidableEq, Repr, Inhabited

/-- The class a range entry gives (Table 3-1). -/
inductive RangeClass where
  | blocked | free | service
  deriving DecidableEq, Repr, Inhabited

/-- Presence of a position (Table 1-1). -/
inductive Presence where
  | absent | enrolled | duplicate
  deriving DecidableEq, Repr, Inhabited

/-- The host's service marking (Table 1-1). -/
inductive Service where
  | inService | outOfService
  deriving DecidableEq, Repr, Inhabited

/-- The four live states of a session (Table 1-4). -/
inductive LiveState where
  | waitingBudget | starting | running | suspended
  deriving DecidableEq, Repr, Inhabited

/-- Where an account entry's balance came from (Table 3-2). -/
inductive Origin where
  | host | provisional
  deriving DecidableEq, Repr, Inhabited

/-- Whether new starts may be charged to an account (Table 3-2). -/
inductive AccountStatus where
  | good | suspended
  deriving DecidableEq, Repr, Inhabited

/-- The outcomes of a live session, in the order of Table 1-5. -/
inductive EndOutcome where
  | completed | userAbort | fault | roomStop | hostCancel | powerLost | warmReset | startFailed | budgetTimeout | withdrawn
  deriving DecidableEq, Repr, Inhabited

/-- The three charge bases of Table 1-5. -/
inductive ChargeBasis where
  | full | prorated | zero
  deriving DecidableEq, Repr, Inhabited

/-- The twelve fault causes, by rank (Table 7-1). -/
inductive Cause where
  | leak | overtemp | heaterOverdraw | drumBlocked | doorOpenRunning | machineCode | adapterSilent | contextLost
  | sequence | heaterDead | overrun | startTimeout
  deriving DecidableEq, Repr, Inhabited

/-- The events of the input lines (Table 7-2). -/
inductive InputEvent where
  | floodActive | floodReleased | stopActive | stopReleased
  deriving DecidableEq, Repr, Inhabited

/-- The reasons of a terminal refusal, in the order of Table 4-2, then NOT_YOURS (R181). -/
inductive Reason where
  | badRequest | terminalBusy | roomAlarm | roomClosed | positionUnknown | cardBlocked | roomQuiet
  | positionOutOfService | positionBusy | programInvalid | lateStart | demandExceedsFeed | journalFull | queueFull
  | cardLimit | tableFull | accountUnavailable | cardSuspended | fundsLow | withdrawn | cancelled | positionFault
  | notYours
  deriving DecidableEq, Repr, Inhabited

/-- The error codes of Table 11-1. -/
inductive ErrorCode where
  | unknownType | badLength | badValue | notCached | pinned | tableFull | causePresent | state | range | linkBusy
  deriving DecidableEq, Repr, Inhabited

/-- The attention flags, in the order of Table 11-2. -/
inductive AttnFlag where
  | accountWanted | journalHigh | faultNew | logOverrun | flood | stopInput | loopBroken | rosterChange | overCap
  | demandExpired | partReset
  deriving DecidableEq, Repr, Inhabited

/-- The room mode (R162). -/
inductive RoomMode where
  | opened | closed | alarm
  deriving DecidableEq, Repr, Inhabited

/-- The effective mode, in the order of the table of R163. -/
inductive EffectiveMode where
  | opened | quiet | closed | alarm
  deriving DecidableEq, Repr, Inhabited

/-- The two values of PowerUpMode (R162). -/
inductive PowerUpMode where
  | opened | closed
  deriving DecidableEq, Repr, Inhabited

/-- The states of the room loop (R105). -/
inductive LoopState where
  | down | enrolling | running | broken
  deriving DecidableEq, Repr, Inhabited

/-- Door state of a report (Table 6-2). -/
inductive Door where
  | opened | closed | locked
  deriving DecidableEq, Repr, Inhabited

/-- Drum state of a report (Table 6-2). -/
inductive Drum where
  | stopped | turning | blocked
  deriving DecidableEq, Repr, Inhabited

/-- Leak field of a report (Table 6-2). -/
inductive Leak where
  | dry | wet
  deriving DecidableEq, Repr, Inhabited

/-- Cycle state of a report or an enrol record (R112). -/
inductive Cycle where
  | idle | running | waitStep | ended
  deriving DecidableEq, Repr, Inhabited

/-- The level of an input line (R144). -/
inductive Level where
  | high | low
  deriving DecidableEq, Repr, Inhabited

/-- Polarity of an input line (R144). -/
inductive Polarity where
  | activeHigh | activeLow
  deriving DecidableEq, Repr, Inhabited

/-- A report-release setting (R144). -/
inductive OnOff where
  | on | off
  deriving DecidableEq, Repr, Inhabited

/-- The blocks that offer directives to RLC's queue (R115). -/
inductive Block where
  | sm | lba | fm | rlc
  deriving DecidableEq, Repr, Inhabited

/-- The kinds of terminal request that wait on the wanted list (R53). -/
inductive WaitKind where
  | start | balance
  deriving DecidableEq, Repr, Inhabited

/-- The two kinds of sweep (R106, R107). -/
inductive SweepKind where
  | running | enrol
  deriving DecidableEq, Repr, Inhabited

/-- What comes home on LOOP_IN for a sweep: its bytes, and whether they are those of a sweep that Loop Restart discarded
while it was in flight (R104, R124; log 18). -/
structure SweepHome where
  discarded : Bool
  bytes : List Byte
  deriving DecidableEq, Repr

end Sys2Proof
end

