-- ==== Sys2Proof/Requests.lean ====
section
/-!
DEFINITION. The host's request records with the fields of their bodies (Table 12-2, R181). Fields keep the widths
in which they cross the line, since a request field may carry any value its width holds (R181).
-/
namespace Sys2Proof

/-- One phase as Program Write carries it (R181): LU, WU, minutes, flag byte, shed draw LU. -/
structure PhaseFields where
  lu : Byte
  wu : Byte
  minutes : Byte
  flags : Byte
  shedLu : Byte
  deriving DecidableEq, Repr

/-- The further fields of a Program Write with presence present (R31). The phase count is the list's length. -/
structure ProgramFields where
  cls : Byte
  base : Half
  rate : Byte
  phases : List PhaseFields
  deriving DecidableEq, Repr

/-- The further fields of a Band Write with presence present (R159). -/
structure BandFields where
  start : Half
  mult : Byte
  quiet : Bool
  deriving DecidableEq, Repr

/-- The further fields of a Range Write with presence present (R45). -/
structure RangeFields where
  low : Word
  high : Word
  cls : Byte
  deriving DecidableEq, Repr

/-- The requests of Table 11-3. -/
inductive Request where
  | identify
  | status
  | attentionRead
  | attentionClear (mask : Half)
  | attentionEnable (mask : Half)
  | clockSet (epoch : Word) (minuteOfWeek : Half)
  | roomModeSet (mode : Byte)
  | programWrite (id : Byte) (record : Option ProgramFields)
  | programRead (id : Byte)
  | bandWrite (index : Byte) (entry : Option BandFields)
  | rangeWrite (index : Byte) (entry : Option RangeFields)
  | settingsWrite (settings : List (Byte × Half))
  | trimSet (position trim : Byte)
  | feedSet (feedCap waterCap : Half)
  | demandLimit (cap : Half) (minutes : Byte)
  | accountLoad (card balance : Word) (status : Byte) (horizon : Word)
  | accountCredit (card amount : Word)
  | accountEvict (card : Word)
  | accountStatus (card : Word) (status : Byte)
  | wantedRead
  | positionService (position marking : Byte)
  | positionClearLockout (position : Byte)
  | positionRead (position : Byte)
  | sessionCancel (position : Byte) (number : Half)
  | journalRead (start : Word) (count : Byte)
  | journalRelease (number : Word)
  | faultRead (count : Byte)
  | rosterRead
  | rosterClear
  | loopRestart
  | partReset
  deriving DecidableEq, Repr

/-- A good frame as HLP holds it: a request that passed the type and length tests, or one that is answered with an
error code when it is taken (R173), with its type byte. -/
inductive HostRequest where
  | good (r : Request)
  | bad (type : Byte) (code : ErrorCode)
  deriving DecidableEq, Repr

end Sys2Proof
end

