-- ==== Sys2Proof/Syntax.lean ====
section
/-!
DEFINITION. The commands of the CL-24: one constructor for each row of spec/opcode_table.json, in the table's order.
A command is a record that arrives, an input line that changes, or a timer of the part that runs out
(00_scope.md 0.1). The table gives no operands; those below are the fields that the rows' rules name.
-/
namespace Sys2Proof

/-- A command of the block. -/
inductive Instr where
  /-- R166: power is applied, or the supply rises above its threshold. -/
  | powerUp
  /-- R165: the supply falls below its threshold. `cut` of the retained writes of the latest taking had not been made
  when it fell (log 15); 0 when it fell between takings. -/
  | powerFail (cut : Nat)
  /-- R169: RESET_N becomes active. `cut` of the retained writes of the latest taking had not been made, where that
  taking was a recovery (R169, log 15). -/
  | resetNAsserted (cut : Nat)
  /-- R169: RESET_N is released, or the Part Reset reply has been sent. -/
  | warmReset
  /-- R172: bytes arrive on HOST_RX that make a good frame. -/
  | hostFrame (bytes : List Byte)
  /-- R171: more than 10 ms pass between two bytes of a host frame. -/
  | hostFrameGapTimeout
  /-- R172: the last byte of a reply leaves HOST_TX. -/
  | hostReplySent
  /-- R176. -/
  | identify
  /-- R177. -/
  | status
  /-- R175. -/
  | attentionRead
  /-- R175: one bit per flag in the order of Table 11-2. -/
  | attentionClear (mask : Half)
  /-- R175. -/
  | attentionEnable (mask : Half)
  /-- R157. -/
  | clockSet (epoch : Word) (minuteOfWeek : Half)
  /-- R164. -/
  | roomModeSet (mode : Byte)
  /-- R31: `none` is presence absent. -/
  | programWrite (id : Byte) (record : Option ProgramFields)
  /-- R33. -/
  | programRead (id : Byte)
  /-- R159. -/
  | bandWrite (index : Byte) (entry : Option BandFields)
  /-- R45. -/
  | rangeWrite (index : Byte) (entry : Option RangeFields)
  /-- R178: setting numbers with their values. -/
  | settingsWrite (settings : List (Byte × Half))
  /-- R101: the trim is a two's complement byte. -/
  | trimSet (position trim : Byte)
  /-- R81. -/
  | feedSet (feedCap waterCap : Half)
  /-- R82. -/
  | demandLimit (cap : Half) (minutes : Byte)
  /-- R83. -/
  | demandExpiry
  /-- R59. -/
  | accountLoad (card balance : Word) (status : Byte) (horizon : Word)
  /-- R63. -/
  | accountCredit (card amount : Word)
  /-- R64. -/
  | accountEvict (card : Word)
  /-- R65. -/
  | accountStatus (card : Word) (status : Byte)
  /-- R53. -/
  | wantedRead
  /-- R179. -/
  | positionService (position marking : Byte)
  /-- R143. -/
  | positionClearLockout (position : Byte)
  /-- R180. -/
  | positionRead (position : Byte)
  /-- R26. -/
  | sessionCancel (position : Byte) (number : Half)
  /-- R152. -/
  | journalRead (start : Word) (count : Byte)
  /-- R153. -/
  | journalRelease (number : Word)
  /-- R140. -/
  | faultRead (count : Byte)
  /-- R141. -/
  | rosterRead
  /-- R142. -/
  | rosterClear
  /-- R124. -/
  | loopRestart
  /-- R169. -/
  | partReset
  /-- R67: more than 10 ms pass between two bytes of a terminal frame. -/
  | terminalFrameGapTimeout (terminal : Terminal)
  /-- R68: a record has left the terminal's line. -/
  | terminalRecordSent (terminal : Terminal)
  /-- R71. -/
  | tapStart (terminal : Terminal) (card : Word) (position program extension : Byte)
  /-- R77. -/
  | tapBalance (terminal : Terminal) (card : Word)
  /-- R78. -/
  | tapAbort (terminal : Terminal) (card : Word) (position : Byte)
  /-- R55: the wanted entry of the card expires. -/
  | wantedExpiry (card : Word)
  /-- R156: the minute timer expires. -/
  | minuteBoundary
  /-- R20: the limit of a waiting session at the boundary. -/
  | budgetTimeout (position : Pos)
  /-- R20: the limit of a running session at the boundary. -/
  | overrun (position : Pos)
  /-- R107: the sweep timer expires. -/
  | runningSweepSend
  /-- R115: the block offers again the directive at a place of its held-back list. -/
  | heldBackOffer (block : Block) (place : Nat)
  /-- R104: 100 ms pass and the sweep has not returned. -/
  | sweepReturnTimeout
  /-- R111: the bytes of a running sweep come home, discarded at a Loop Restart or not (R124). -/
  | runningSweepReturn (home : SweepHome)
  /-- R107: the count of bad sweeps or of failed tries has reached 3. -/
  | loopBreak
  /-- R118: a directive of the position has reached its good-sweep count of 2. -/
  | directiveResendDue (position : Pos)
  /-- R121: the position's count of missing marks has reached 6. -/
  | missingMarkLimit (position : Pos)
  /-- R131: the position's low-draw count has reached 6. -/
  | heaterDead (position : Pos)
  /-- R132: the position's start count has reached 20. -/
  | startTimeout (position : Pos)
  /-- R106: 2 s have passed since a failed try. -/
  | enrolRetryTimer
  /-- R106: the bytes of an enrol sweep come home, discarded at a Loop Restart or not (R124). -/
  | enrolSweepReturn (home : SweepHome)
  /-- R122: the position's silence reaches SilenceLimit. -/
  | silenceLimit (position : Pos)
  /-- R145: FLOOD_IN has held its active level for 50 ms. -/
  | floodInActivation
  /-- R145. -/
  | floodInRelease
  /-- R146. -/
  | stopInActivation
  /-- R146. -/
  | stopInRelease
  /-- R171: bytes arrive on HOST_RX whose frame is abandoned. -/
  | hostBadFrame (bytes : List Byte)
  /-- R67, R69: bytes arrive on a terminal line whose frame is discarded, or is answered BAD_REQUEST. -/
  | terminalBadFrame (terminal : Terminal) (bytes : List Byte)
  deriving DecidableEq, Repr

end Sys2Proof
end

