-- ==== Sys2Proof/Decode.lean ====
section
/-!
DEFINITION. The command that a table word spells. No row of spec/opcode_table.json gives bits, so no word spells a
command. The bytes of the frames and sweeps are read in Machine/Operands.lean.
-/
namespace Sys2Proof

/-- No row of the table gives bits (98_reader.md: n_rows_with_fixed 0, n_rows_with_fields 0). -/
def decodeTableWord (_nbits _w : Nat) : Option Instr := none

end Sys2Proof
end

