-- ==== Sys2Proof/Config.lean ====
section
/-!
DEFINITION. What the spec leaves to each part, and the free values. None has a body, so nothing in Lean can evaluate
one, and whatever is proved holds for every value. Each stands in the log entry its docstring names.
-/
namespace Sys2Proof

/-- The part's serial number, "different for every part" (R176; log 12). -/
opaque Config.serialNumber : Word

/-- Which of the blocks that still have an offer to make makes the next one, when the order of their offers is open
(R115; log 6). Applied to a counter of State and read modulo the number of blocks. -/
opaque Config.nextOfferer : Nat → Nat

/-- What a reserved code byte of a sweep record stands for (log 7). -/
opaque Config.reservedDoor : Byte → Door
opaque Config.reservedDrum : Byte → Drum
opaque Config.reservedLeak : Byte → Leak
opaque Config.reservedCycle : Byte → Cycle
opaque Config.reservedClass : Byte → MachineClass

/-- The measured draw of a report whose field stands above 4,095 (log 7). -/
opaque Config.reservedDraw : Half → BitVec 12

/-- How the snapshot's 4 bits of water level and 3 bits of step request show a field above 15 and above 7 (log 7). -/
opaque Config.reservedWater : Byte → BitVec 4
opaque Config.reservedStep : Byte → BitVec 3

/-- The card and position in the head of a BAD_REQUEST record, whose frame names none in a known place (log 10). -/
opaque Config.badRequestCard : Byte → List Byte → Word
opaque Config.badRequestPosition : Byte → List Byte → Byte

/-- The nominal minutes, peak LU and peak WU in the reply to a Program Write that makes the record absent (log 11). -/
opaque Config.absentFigures : Byte → Byte × Byte × Byte

/-- The LEN byte of a frame whose body is above 250 bytes (log 9). -/
opaque Config.oversizeLen : Nat → Byte

end Sys2Proof
end

