-- ==== Sys2Proof/Machine/State.lean ====
section
/-!
DEFINITION. The state of the CL-24 as plain data, block by block, the reasons a step can stop, and the machine right
after its first power-up. INVENTORY.md lists every field with its rule and its value after reset.
Three things have no field, because they are functions of others: ATTN (R174), the band in force (R160) and the
effective mode (R163).
-/
namespace Sys2Proof.Machine

/-- No condition stops the part: every arrival of the spec has an effect, so no meaning raises a fault. -/
inductive Fault where
  deriving DecidableEq, Repr

/-- Why a command has no meaning. -/
inductive Refusal where
  /-- Raised by an arm of Machine/Dispatch.lean whose command has no meaning yet. Safe: nothing is claimed of it. -/
  | notModelled (mnemonic : String)
  deriving DecidableEq, Repr

/-! ### The retained store (R165, Table 10-1) -/

/-- A phase record (Table 2-2). -/
structure Phase where
  lu : Nat
  wu : Nat
  minutes : Nat
  heating : Bool
  sheddable : Bool
  shedLu : Nat
  deriving DecidableEq, Repr, Inhabited

/-- A present program record (Table 2-1). -/
structure Program where
  cls : MachineClass
  base : Nat
  rate : Nat
  phases : List Phase
  deriving DecidableEq, Repr, Inhabited

/-- A present range entry (Table 3-1). -/
structure RangeEntry where
  low : Word
  high : Word
  cls : RangeClass
  deriving DecidableEq, Repr, Inhabited

/-- A present band entry (R159). -/
structure Band where
  start : Nat
  mult : Nat
  quiet : Bool
  deriving DecidableEq, Repr, Inhabited

/-- The retained settings (Table 11-4). -/
structure Settings where
  extensionMax : Nat
  quoteCeiling : Nat
  graceMinutes : Nat
  overrunTolerance : Nat
  startWaitLimit : Nat
  silenceLimit : Nat
  offlineAllowance : Nat
  cardSessionLimit : Nat
  powerUpMode : PowerUpMode
  floodPolarity : Polarity
  stopPolarity : Polarity
  floodReportRelease : OnOff
  stopReportRelease : OnOff
  deriving DecidableEq, Repr, Inhabited

/-- A live session (Table 1-3), and its snapshot, which has no terminal and no pending step (R6). The position is the
index under which it is held. -/
structure Session where
  number : Half
  terminal : Option Terminal
  card : Word
  cls : CardClass
  origin : Option Origin
  program : ProgramId
  ext : Nat
  mult : Nat
  quote : Nat
  nominal : Nat
  phase : Nat
  shed : Bool
  pendingStep : Option Nat
  r : Nat
  s : Nat
  z : Nat
  u : Nat
  w : Nat
  holdMinute : Word
  startMinute : Option Word
  state : LiveState
  deriving DecidableEq, Repr, Inhabited

/-- A settlement record (Table 8-1). -/
structure SettlementRecord where
  seq : Nat
  number : Half
  position : Pos
  terminal : Option Terminal
  card : Word
  cls : CardClass
  origin : Option Origin
  program : ProgramId
  mult : Nat
  ext : Nat
  quote : Nat
  nominal : Nat
  charge : Nat
  outcome : EndOutcome
  cause : Option Cause
  run : Nat
  shed : Nat
  stalled : Nat
  waited : Nat
  holdMinute : Word
  startMinute : Option Word
  endMinute : Word
  deriving DecidableEq, Repr, Inhabited

/-- The Retained Store. -/
structure Retained where
  programs : Vector (Option Program) 16
  ranges : Vector (Option RangeEntry) 8
  bands : Vector (Option Band) 8
  settings : Settings
  feedCap : Nat
  waterCap : Nat
  trims : Vector Int 24
  service : Vector Service 24
  lockout : Vector Bool 24
  sessionCounter : Half
  slots : Vector (Option Session) 24
  journal : List SettlementRecord
  nextSeq : Nat
  exhausted : Bool
  serial : Word
  deriving DecidableEq, Repr

/-! ### The lines (chapters 4, 11 and 12) -/

/-- A frame assembler: hunting for the sync byte, or assembling with the bytes after it (R171, R67). -/
inductive Assembler where
  | hunting
  | assembling (bytes : List Byte)
  deriving DecidableEq, Repr, Inhabited

/-- A record the part sends, by the type and body of its frame (Table 12-1). -/
structure Frame where
  kind : Byte
  body : List Byte
  deriving DecidableEq, Repr, Inhabited

/-- The request being served with the reply that its taking put together (R172). -/
structure Served where
  request : HostRequest
  reply : Frame
  deriving DecidableEq, Repr

/-- The Host Link Port. `ahead` is how many of the held LINK_BUSY replies arose before the served reply, and so leave the
line before it (R172; log 33). -/
structure Hlp where
  assembler : Assembler
  served : Option Served
  waiting : Option HostRequest
  busy : List Frame
  ahead : Nat
  flags : BitVec 11
  enables : BitVec 11
  deriving DecidableEq, Repr

/-- The request in flight of a terminal in WAITING (R70). -/
inductive InFlight where
  | start (card : Word) (pos : Pos)
  | balance (card : Word)
  deriving DecidableEq, Repr, Inhabited

/-- One terminal line: its assembler, its state (IDLE is no request in flight) and its output queue, whose head is
the record leaving the line (R67, R68, R70). -/
structure TerminalLine where
  assembler : Assembler
  flight : Option InFlight
  out : List Frame
  deriving DecidableEq, Repr, Inhabited

/-- The two terminal lines. -/
structure Tli where
  one : TerminalLine
  two : TerminalLine
  deriving DecidableEq, Repr

/-! ### The Room Clock and Schedule (chapter 9) -/

/-- The clock, the minute timer in tenths of a second, and the room mode. -/
structure Rcs where
  clockSet : Bool
  epoch : Word
  minuteOfWeek : Nat
  minuteLeft : Nat
  mode : RoomMode
  deriving DecidableEq, Repr

/-! ### The Card Resolution Unit (chapter 3) -/

/-- An account entry (Table 3-2). -/
structure Account where
  card : Word
  balance : Int
  held : Nat
  status : AccountStatus
  origin : Origin
  stamp : Nat
  deriving DecidableEq, Repr, Inhabited

/-- A wanted entry; its age stands for its creation time, in tenths of a second (R53). -/
structure Wanted where
  card : Word
  age : Nat
  waiters : List (Terminal × WaitKind)
  deriving DecidableEq, Repr, Inhabited

/-- The account cache by set and way (way `w` of set `i` stands at index `3 * i + w`), the use counter and the wanted
list, oldest first. -/
structure Cru where
  cache : Vector (Option Account) 48
  useCounter : Nat
  wanted : List Wanted
  deriving DecidableEq, Repr

/-! ### The Load Budget Arbiter (chapter 5) -/

/-- A demand limit with the tenths of a second before its expiry (R82). -/
structure Demand where
  cap : Nat
  left : Nat
  deriving DecidableEq, Repr, Inhabited

/-- An entry of the restore list or the start queue with its bypass count (R88, R91, R95). -/
structure WaitEntry where
  pos : Pos
  bypass : Nat
  deriving DecidableEq, Repr, Inhabited

/-- An entry of the step list (R90, R95). -/
structure StepEntry where
  pos : Pos
  target : Nat
  bypass : Nat
  deriving DecidableEq, Repr, Inhabited

/-- The demand limit, the three collections and OVER_CAP. `evalDue` is the model's own: an evaluation is owed in this
taking (R92; log 5). -/
structure Lba where
  demand : Option Demand
  restoreList : List WaitEntry
  stepList : List StepEntry
  startQueue : List WaitEntry
  overCap : Bool
  evalDue : Bool
  deriving DecidableEq, Repr

/-! ### The Room Loop Controller (chapter 6) -/

/-- The draws of one phase as START carries them: LU, WU and shed draw LU (Table 12-3). -/
structure PhaseDraw where
  lu : Nat
  wu : Nat
  shedLu : Nat
  deriving DecidableEq, Repr, Inhabited

/-- A directive's kind with its body (Table 6-3). -/
inductive Order where
  | start (tag : Byte) (program : ProgramId) (ext : Nat) (draws : List PhaseDraw)
  | stepGrant (phase : Nat)
  | shed
  | restore
  | stop (tag : Byte)
  | haltWater
  | lockDoor
  | releaseDoor
  | identify
  deriving DecidableEq, Repr, Inhabited

/-- A directive before it joins the queue. -/
structure Directive where
  pos : Pos
  order : Order
  deriving DecidableEq, Repr, Inhabited

/-- An entry of the directive queue (R115). `flying` marks the entries that the sweep in flight carries, and `since`
counts the good running sweeps since the entry was last carried (R117, R119). -/
structure QueueEntry where
  dir : Directive
  seq : Option (BitVec 4)
  sends : Nat
  good : Nat
  since : Nat
  flying : Bool
  withdrawn : Bool
  deriving DecidableEq, Repr, Inhabited

/-- A directive as a sweep carries it; an IDENTIFY carries no sequence (R114). -/
structure Carried where
  dir : Directive
  seq : Option (BitVec 4)
  deriving DecidableEq, Repr, Inhabited

/-- A sweep as the part sent it (Table 12-3). -/
structure Sweep where
  kind : SweepKind
  number : Byte
  lastGood : Byte
  restart : Bool
  carried : List Carried
  deriving DecidableEq, Repr, Inhabited

/-- Loop state, sweeps, directive queue and the blocks' held-back lists. `lost` is the model's own: positions owed
ADAPTER_SILENT at the close of the taking because a directive of theirs could not be kept (R115; log 24). -/
structure Rlc where
  loop : LoopState
  sweepNo : Byte
  lastGood : Byte
  restartFlag : Bool
  failedTries : Nat
  badSweeps : Nat
  inFlight : Option Sweep
  sweepClock : Nat
  retryLeft : Option Nat
  queue : List QueueEntry
  heldSm : List Directive
  heldLba : List Directive
  heldFm : List Directive
  heldRlc : List Directive
  lost : List Pos
  deriving DecidableEq, Repr

/-! ### The Fault Monitor (chapter 7) -/

/-- A report (Table 6-2). A step request of 0 is none, and a machine code of 0 is none. -/
structure Report where
  door : Door
  water : Byte
  drum : Drum
  temp : Byte
  leak : Leak
  draw : Nat
  cycle : Cycle
  tag : Byte
  phase : Byte
  step : Byte
  code : Byte
  deriving DecidableEq, Repr, Inhabited

/-- A last report: the report with the corrected figure and reserved LU given with it (R127). -/
structure LastReport where
  report : Report
  corrected : Nat
  reserved : Nat
  deriving DecidableEq, Repr, Inhabited

/-- The primary cause of a fault record, or its input event (R137). -/
inductive FaultEvent where
  | cause (c : Cause)
  | input (e : InputEvent)
  deriving DecidableEq, Repr, Inhabited

/-- A fault record (Table 7-2); position `none` is 0. -/
structure FaultRecord where
  seq : Half
  position : Option Pos
  session : Option Half
  primary : FaultEvent
  causes : List Cause
  sweep : Byte
  epoch : Word
  gap : Nat
  snapshot : Option LastReport
  deriving DecidableEq, Repr, Inhabited

/-- A roster entry: a position number, 0 for the input lines, with its count of records (R141). -/
structure RosterEntry where
  position : Fin 25
  count : Nat
  deriving DecidableEq, Repr, Inhabited

/-- The line states, the fault ring (oldest first), the next fault sequence number and the fault roster. -/
structure Fm where
  floodActive : Bool
  stopActive : Bool
  ring : List FaultRecord
  faultSeq : Half
  roster : List RosterEntry
  deriving DecidableEq, Repr

/-! ### The positions -/

/-- A CLAIMED session (R9): the fields of Table 1-3 that are set at the claim. -/
structure Claim where
  number : Half
  terminal : Terminal
  card : Word
  cls : CardClass
  program : ProgramId
  ext : Nat
  deriving DecidableEq, Repr, Inhabited

/-- Occupancy with what it holds (R2, R3). -/
inductive Occupancy where
  | vacant
  | claimed (c : Claim)
  | live (s : Session)
  | unloading (tag : Byte)
  deriving DecidableEq, Repr, Inhabited

/-- The volatile state of a position, over all blocks. -/
structure Position where
  /-- RLC's roster and loop state of the position (R109, R111, R116, R121, R122). -/
  presence : Presence
  serial : Option Word
  cls : Option MachineClass
  silence : Nat
  silent : Bool
  hold : Bool
  counter : BitVec 4
  accepted : Byte
  missing : Nat
  /-- SM's occupancy (R2). -/
  occupancy : Occupancy
  /-- LBA's reservation, metering and settled count (R85, R102, R103). -/
  lu : Nat
  wu : Nat
  shed : Bool
  measured : Nat
  corrected : Nat
  settle : Nat
  /-- FM's present-cause set in rank order, low-draw count, start count and last report (R127). -/
  causes : List Cause
  low : Nat
  startCount : Option Nat
  lastReport : Option LastReport
  deriving DecidableEq, Repr, Inhabited

/-! ### The machine -/

/-- The whole part with its queue of waiting commands. `undo`, `recovering`, `boundary` and `freeIndex` are the
model's own (logs 15, 3 and 6): the retained store before each retained write of the latest taking, newest first; whether
that taking was a recovery; whether it was a minute boundary; and the counter that free values are applied to. -/
structure State where
  pending : List Instr
  supply : Bool
  resetHeld : Bool
  floodLevel : Level
  stopLevel : Level
  nv : Retained
  undo : List Retained
  recovering : Bool
  boundary : Bool
  hlp : Hlp
  rcs : Rcs
  fm : Fm
  tli : Tli
  cru : Cru
  lba : Lba
  rlc : Rlc
  positions : Vector Position 24
  freeIndex : Nat
  deriving DecidableEq, Repr

/-! ### Values after reset -/

/-- The settings at first power-up (Table 11-4). -/
def Settings.first : Settings where
  extensionMax := 60
  quoteCeiling := 20000
  graceMinutes := 3
  overrunTolerance := 10
  startWaitLimit := 10
  silenceLimit := 120
  offlineAllowance := 500
  cardSessionLimit := 2
  powerUpMode := .closed
  floodPolarity := .activeLow
  stopPolarity := .activeLow
  floodReportRelease := .off
  stopReportRelease := .off

/-- The Retained Store as a part leaves the factory (first power-up values of R1, R7, R27, R45, R81, R101, R148, R159,
R178; the serial number is log 12). -/
def Retained.first : Retained where
  programs := Vector.replicate 16 none
  ranges := Vector.replicate 8 none
  bands := (Vector.replicate 8 none).set 0 (some { start := 0, mult := 100, quiet := false })
  settings := Settings.first
  feedCap := 300
  waterCap := 60
  trims := Vector.replicate 24 0
  service := Vector.replicate 24 .inService
  lockout := Vector.replicate 24 false
  sessionCounter := 1
  slots := Vector.replicate 24 none
  journal := []
  nextSeq := 1
  exhausted := false
  serial := Config.serialNumber

/-- A position's volatile state after power-up (R1, R85, R102, R103, R109, R111, R116, R121, R122, R127). -/
def Position.fresh : Position where
  presence := .absent
  serial := none
  cls := none
  silence := 0
  silent := false
  hold := false
  counter := 0
  accepted := 0
  missing := 0
  occupancy := .vacant
  lu := 0
  wu := 0
  shed := false
  measured := 0
  corrected := 0
  settle := 2
  causes := []
  low := 0
  startCount := none
  lastReport := none

/-- HLP after power-up and warm reset (R170 to R172): PART_RESET, the last flag of Table 11-2, is the only one set. -/
def Hlp.fresh : Hlp where
  assembler := .hunting
  served := none
  waiting := none
  busy := []
  ahead := 0
  flags := 0x400#11
  enables := 0x7FF#11

/-- A terminal line after power-up (R67, R68). -/
def TerminalLine.fresh : TerminalLine := { assembler := .hunting, flight := none, out := [] }

/-- Both terminal lines after power-up. -/
def Tli.fresh : Tli := { one := TerminalLine.fresh, two := TerminalLine.fresh }

/-- CRU after power-up (R47, R48, R53). -/
def Cru.fresh : Cru := { cache := Vector.replicate 48 none, useCounter := 0, wanted := [] }

/-- LBA after power-up (R82, R88, R90, R91, R100). -/
def Lba.fresh : Lba :=
  { demand := none, restoreList := [], stepList := [], startQueue := [], overCap := false, evalDue := false }

/-- RLC after power-up (R105, R108, R115). -/
def Rlc.fresh : Rlc where
  loop := .down
  sweepNo := 0
  lastGood := 255
  restartFlag := true
  failedTries := 0
  badSweeps := 0
  inFlight := none
  sweepClock := 0
  retryLeft := none
  queue := []
  heldSm := []
  heldLba := []
  heldFm := []
  heldRlc := []
  lost := []

/-- FM after power-up (R138, R139, R141, R144). -/
def Fm.fresh : Fm := { floodActive := false, stopActive := false, ring := [], faultSeq := 1, roster := [] }

/-- The machine right after its first power-up: recovery has found no slot to close, the minute timer has started, the
lines are released, and the first enrol sweep is on its way (R166 to R168; logs 12, 13 and 14). -/
def State.reset : State where
  pending := []
  supply := true
  resetHeld := false
  floodLevel := .high
  stopLevel := .high
  nv := Retained.first
  undo := []
  recovering := true
  boundary := false
  hlp := Hlp.fresh
  rcs := { clockSet := false, epoch := 0, minuteOfWeek := 0, minuteLeft := 600, mode := .closed }
  fm := Fm.fresh
  tli := Tli.fresh
  cru := Cru.fresh
  lba := Lba.fresh
  rlc := { Rlc.fresh with
    loop := .enrolling
    sweepNo := 1
    inFlight := some { kind := .enrol, number := 0, lastGood := 255, restart := true, carried := [] } }
  positions := Vector.replicate 24 Position.fresh
  freeIndex := 0

end Sys2Proof.Machine
end

