-- ==== Sys2Proof/Machine/Wire.lean ====
section
/-!
DEFINITION. The bytes of the lines: field codings, the CRC-16, frames and the enumerated codes (R181, R182).
-/
namespace Sys2Proof.Machine

/-! ### Fields, most significant byte first (R181) -/

/-- A one-byte field. -/
def u8 (n : Nat) : List Byte := [BitVec.ofNat 8 n]
/-- The two bytes of a two-byte field. -/
def halfBytes (h : Half) : List Byte := [h.extractLsb' 8 8, h.extractLsb' 0 8]
/-- The four bytes of a four-byte field. -/
def wordBytes (w : Word) : List Byte :=
  [w.extractLsb' 24 8, w.extractLsb' 16 8, w.extractLsb' 8 8, w.extractLsb' 0 8]
/-- A number in two bytes. -/
def u16 (n : Nat) : List Byte := halfBytes (BitVec.ofNat 16 n)
/-- A number in four bytes. -/
def u32 (n : Nat) : List Byte := wordBytes (BitVec.ofNat 32 n)
/-- A signed number in one byte, two's complement. -/
def i8 (i : Int) : List Byte := [BitVec.ofInt 8 i]
/-- A signed number in two bytes. -/
def i16 (i : Int) : List Byte := halfBytes (BitVec.ofInt 16 i)
/-- A signed number in four bytes. -/
def i32 (i : Int) : List Byte := wordBytes (BitVec.ofInt 32 i)
/-- A flag. -/
def flagByte (b : Bool) : List Byte := [if b then 1 else 0]
/-- The two-byte field of two bytes. -/
def halfOf (hi lo : Byte) : Half := hi ++ lo
/-- The four-byte field of four bytes. -/
def wordOf (a b c d : Byte) : Word := a ++ b ++ c ++ d
/-- An optional field of `width` bytes: a flag byte, then the field, or zeros (R182). -/
def optional (width : Nat) (field : Option (List Byte)) : List Byte :=
  match field with
  | some bytes => 1 :: bytes
  | none => 0 :: List.replicate width 0
/-- A list: a one-byte count followed by its items (R182). -/
def counted (items : List (List Byte)) : List Byte := u8 items.length ++ items.flatten

/-! ### CRC-16 (R181) -/

/-- One left shift of the CRC register. -/
def crcShift (reg : Half) : Half :=
  if reg.msb then (reg <<< 1) ^^^ 0x1021#16 else reg <<< 1

/-- One byte taken into the CRC register. -/
def crcByte (reg : Half) (b : Byte) : Half :=
  let r := reg ^^^ (b ++ 0x00#8)
  crcShift (crcShift (crcShift (crcShift (crcShift (crcShift (crcShift (crcShift r)))))))

/-- The CRC of a run of bytes, from LEN to the last body byte. -/
def crcOf (bytes : List Byte) : Half := bytes.foldl crcByte 0xFFFF#16

/-- The LEN byte of a body; a body above 250 bytes fits no LEN (log 9). -/
def lenByte (n : Nat) : Byte := if n ≤ 250 then BitVec.ofNat 8 n else Config.oversizeLen n

/-- A frame's bytes (Table 12-1). -/
def frameBytes (kind : Byte) (body : List Byte) : List Byte :=
  let covered := lenByte body.length :: kind :: body
  0xA5#8 :: (covered ++ halfBytes (crcOf covered))

/-- The body length of each terminal request type (R181), or none for a type that is not one. -/
def terminalBodyLength (kind : Byte) : Option Nat :=
  if kind = 1 then some 7 else if kind = 2 then some 4 else if kind = 3 then some 5 else none

/-! ### Enumerated codes: from 0 in the order of listing, unless R181 says otherwise -/

/-- Class of a position or a program. -/
def classCode : MachineClass → Byte
  | .washer => 0
  | .dryer => 1
/-- Class of a card. -/
def cardClassCode : CardClass → Byte
  | .account => 0
  | .free => 1
  | .service => 2
/-- Class of a range entry. -/
def rangeClassCode : RangeClass → Byte
  | .blocked => 0
  | .free => 1
  | .service => 2
/-- The range class of a byte, if it is one of them. -/
def rangeClassOf (b : Byte) : Option RangeClass :=
  if b = 0 then some .blocked else if b = 1 then some .free else if b = 2 then some .service else none
/-- The machine class of a byte, if it is one of them. -/
def classOf (b : Byte) : Option MachineClass :=
  if b = 0 then some .washer else if b = 1 then some .dryer else none
/-- Presence of a position. -/
def presenceCode : Presence → Byte
  | .absent => 0
  | .enrolled => 1
  | .duplicate => 2
/-- Service marking. -/
def serviceCode : Service → Byte
  | .inService => 0
  | .outOfService => 1
/-- The service marking of a byte, if it is one of them. -/
def serviceOf (b : Byte) : Option Service :=
  if b = 0 then some .inService else if b = 1 then some .outOfService else none
/-- Live state. -/
def liveCode : LiveState → Byte
  | .waitingBudget => 0
  | .starting => 1
  | .running => 2
  | .suspended => 3
/-- Origin of an account balance. -/
def originCode : Origin → Byte
  | .host => 0
  | .provisional => 1
/-- Account status. -/
def accountStatusCode : AccountStatus → Byte
  | .good => 0
  | .suspended => 1
/-- The account status of a byte, if it is one of them. -/
def accountStatusOf (b : Byte) : Option AccountStatus :=
  if b = 0 then some .good else if b = 1 then some .suspended else none
/-- Outcomes, 0 to 9 in the order of Table 1-5. -/
def outcomeCode : EndOutcome → Byte
  | .completed => 0
  | .userAbort => 1
  | .fault => 2
  | .roomStop => 3
  | .hostCancel => 4
  | .powerLost => 5
  | .warmReset => 6
  | .startFailed => 7
  | .budgetTimeout => 8
  | .withdrawn => 9
/-- The rank of a cause, 1 to 12 (Table 7-1), which is also its code. -/
def causeRank : Cause → Nat
  | .leak => 1
  | .overtemp => 2
  | .heaterOverdraw => 3
  | .drumBlocked => 4
  | .doorOpenRunning => 5
  | .machineCode => 6
  | .adapterSilent => 7
  | .contextLost => 8
  | .sequence => 9
  | .heaterDead => 10
  | .overrun => 11
  | .startTimeout => 12
/-- Input events, 13 to 16. -/
def inputEventCode : InputEvent → Nat
  | .floodActive => 13
  | .floodReleased => 14
  | .stopActive => 15
  | .stopReleased => 16
/-- Refusal reasons, 1 to 22 in the order of Table 4-2, then NOT_YOURS. -/
def reasonCode : Reason → Byte
  | .badRequest => 1
  | .terminalBusy => 2
  | .roomAlarm => 3
  | .roomClosed => 4
  | .positionUnknown => 5
  | .cardBlocked => 6
  | .roomQuiet => 7
  | .positionOutOfService => 8
  | .positionBusy => 9
  | .programInvalid => 10
  | .lateStart => 11
  | .demandExceedsFeed => 12
  | .journalFull => 13
  | .queueFull => 14
  | .cardLimit => 15
  | .tableFull => 16
  | .accountUnavailable => 17
  | .cardSuspended => 18
  | .fundsLow => 19
  | .withdrawn => 20
  | .cancelled => 21
  | .positionFault => 22
  | .notYours => 23
/-- Error codes, from 1 in the order of Table 11-1. -/
def errorCode : ErrorCode → Byte
  | .unknownType => 1
  | .badLength => 2
  | .badValue => 3
  | .notCached => 4
  | .pinned => 5
  | .tableFull => 6
  | .causePresent => 7
  | .state => 8
  | .range => 9
  | .linkBusy => 10
/-- The place of an attention flag in Table 11-2, which is its bit (R181). -/
def attnIndex : AttnFlag → Fin 11
  | .accountWanted => 0
  | .journalHigh => 1
  | .faultNew => 2
  | .logOverrun => 3
  | .flood => 4
  | .stopInput => 5
  | .loopBroken => 6
  | .rosterChange => 7
  | .overCap => 8
  | .demandExpired => 9
  | .partReset => 10
/-- Room mode. -/
def roomModeCode : RoomMode → Byte
  | .opened => 0
  | .closed => 1
  | .alarm => 2
/-- Effective mode, in the order of the table of R163. -/
def effectiveModeCode : EffectiveMode → Byte
  | .opened => 0
  | .quiet => 1
  | .closed => 2
  | .alarm => 3
/-- State of an input line, in the order of R144: active, released (log 8). -/
def lineStateCode (active : Bool) : Byte := if active then 0 else 1
/-- Loop state. -/
def loopCode : LoopState → Byte
  | .down => 0
  | .enrolling => 1
  | .running => 2
  | .broken => 3
/-- Door state. -/
def doorCode : Door → Nat
  | .opened => 0
  | .closed => 1
  | .locked => 2
/-- The door state of a sweep byte; a reserved code is free (log 7). -/
def doorOf (b : Byte) : Door :=
  if b = 0 then .opened else if b = 1 then .closed else if b = 2 then .locked else Config.reservedDoor b
/-- Drum state. -/
def drumCode : Drum → Nat
  | .stopped => 0
  | .turning => 1
  | .blocked => 2
/-- The drum state of a sweep byte (log 7). -/
def drumOf (b : Byte) : Drum :=
  if b = 0 then .stopped else if b = 1 then .turning else if b = 2 then .blocked else Config.reservedDrum b
/-- Leak field. -/
def leakCode : Leak → Nat
  | .dry => 0
  | .wet => 1
/-- The leak field of a sweep byte (log 7). -/
def leakOf (b : Byte) : Leak :=
  if b = 0 then .dry else if b = 1 then .wet else Config.reservedLeak b
/-- Cycle state. -/
def cycleCode : Cycle → Nat
  | .idle => 0
  | .running => 1
  | .waitStep => 2
  | .ended => 3
/-- The cycle state of a sweep byte (log 7). -/
def cycleOf (b : Byte) : Cycle :=
  if b = 0 then .idle else if b = 1 then .running else if b = 2 then .waitStep else if b = 3 then .ended
  else Config.reservedCycle b
/-- The machine class of a sweep byte (log 7). -/
def sweepClassOf (b : Byte) : MachineClass :=
  if b = 0 then .washer else if b = 1 then .dryer else Config.reservedClass b
/-- The measured draw of a report field, 0 to 4,095 (log 7). -/
def drawOf (h : Half) : Nat := if h.toNat ≤ 4095 then h.toNat else (Config.reservedDraw h).toNat
/-- Terminal number, as Table 12-4 carries it. -/
def terminalCode : Terminal → Byte
  | .one => 1
  | .two => 2

/-- The twelve causes in rank order. -/
def allCauses : List Cause :=
  [.leak, .overtemp, .heaterOverdraw, .drumBlocked, .doorOpenRunning, .machineCode, .adapterSilent, .contextLost,
    .sequence, .heaterDead, .overrun, .startTimeout]

/-- A set of causes in two bytes: bit (rank - 1) for each (R182). -/
def causeMask (causes : List Cause) : Half :=
  causes.foldl (fun m c => m ||| (1#16 <<< (causeRank c - 1))) 0#16

end Sys2Proof.Machine
end

