-- ==== Sys2Proof/Machine/Ops.lean ====
section
/-!
DEFINITION. The named operations over the state that every block uses: a position's volatile state, a retained write,
the session at a position with its snapshot, and the stamp of the moment.
-/
namespace Sys2Proof.Machine

/-! ### Positions -/

/-- The volatile state of a position. -/
def posAt (s : State) (p : Pos) : Position := s.positions[p]

/-- A change to one position's volatile state. -/
def modPos (p : Pos) (f : Position → Position) (s : State) : State :=
  { s with positions := s.positions.set p (f (posAt s p)) }

/-- An action taken for each position of a list, one after another. -/
def forPositions (ps : List Pos) (act : Pos → State → State) (s : State) : State := ps.foldl (fun s p => act p s) s

/-- The positions in ascending order that satisfy a test. -/
def positionsWhere (test : Pos → Bool) : List Pos := allPositions.filter test

/-! ### The Retained Store (R165) -/

/-- A retained write: one record replaced whole. The store before it is kept, so that a fall of the supply inside the
taking leaves the write made or not made (log 15). -/
def writeNv (f : Retained → Retained) (s : State) : State := { s with nv := f s.nv, undo := s.nv :: s.undo }

/-- A program record of the table (R27). -/
def programAt (s : State) (id : ProgramId) : Option Program := s.nv.programs[id]

/-- The trim of a position (R101). -/
def trimAt (s : State) (p : Pos) : Int := s.nv.trims[p]

/-- The service marking of a position (R1). -/
def serviceAt (s : State) (p : Pos) : Service := s.nv.service[p]

/-- The lockout flag of a position (R127). -/
def lockoutAt (s : State) (p : Pos) : Bool := s.nv.lockout[p]

/-- A position is out of use while it is OUT_OF_SERVICE or locked out (R120). -/
def outOfUse (s : State) (p : Pos) : Bool := serviceAt s p == .outOfService || lockoutAt s p

/-! ### Sessions (R6, R21) -/

/-- The live session at a position. -/
def sessionAt (s : State) (p : Pos) : Option Session :=
  match (posAt s p).occupancy with
  | .live ses => some ses
  | _ => none

/-- The claim at a position. -/
def claimAt (s : State) (p : Pos) : Option Claim :=
  match (posAt s p).occupancy with
  | .claimed c => some c
  | _ => none

/-- The card class of the session at a position, CLAIMED or live. -/
def sessionClassAt (s : State) (p : Pos) : Option CardClass :=
  match (posAt s p).occupancy with
  | .claimed c => some c.cls
  | .live ses => some ses.cls
  | _ => none

/-- The session number at a position, CLAIMED or live. -/
def sessionNumberAt (s : State) (p : Pos) : Option Half :=
  match (posAt s p).occupancy with
  | .claimed c => some c.number
  | .live ses => some ses.number
  | _ => none

/-- The live sessions in ascending order of position. -/
def liveSessions (s : State) : List Session := allPositions.filterMap (sessionAt s)

/-- A session's tag: the low 8 bits of its number (R7). -/
def tagOf (number : Half) : Byte := number.setWidth 8

/-- A change of occupancy. -/
def setOccupancy (p : Pos) (o : Occupancy) : State → State := modPos p fun q => { q with occupancy := o }

/-- A session's snapshot: the record without its terminal and its pending step target (R6). -/
def snapshotOf (ses : Session) : Session := { ses with terminal := none, pendingStep := none }

/-- A slot written or emptied (R21). -/
def writeSlot (p : Pos) (snapshot : Option Session) : State → State :=
  writeNv fun nv => { nv with slots := nv.slots.set p snapshot }

/-- A session record changed without a rewrite of its snapshot. -/
def setSession (p : Pos) (ses : Session) : State → State := setOccupancy p (.live ses)

/-- A session record changed with its snapshot rewritten (R21). -/
def putSession (p : Pos) (ses : Session) (s : State) : State :=
  writeSlot p (some (snapshotOf ses)) (setSession p ses s)

/-- A change to the live session at a position, with its snapshot rewritten; nothing where there is none. -/
def updateSession (p : Pos) (f : Session → Session) (s : State) : State :=
  match sessionAt s p with
  | some ses => putSession p (f ses) s
  | none => s

/-- Whether a session holds a reservation: STARTING, RUNNING or SUSPENDED (R85). -/
def holdsReservation (ses : Session) : Bool := ses.state != .waitingBudget

/-- The stamp of the moment: the epoch minute, or 0 while the clock is unset (R158). -/
def stampNow (s : State) : Word := if s.rcs.clockSet then s.rcs.epoch else 0

/-- A phase that is never read: what stands in for a phase of an absent program. -/
def noPhase : Phase := { lu := 0, wu := 0, minutes := 0, heating := false, sheddable := false, shedLu := 0 }

/-- The phases of the program a session names. A program in use is never removed (R32). -/
def phasesOf (s : State) (id : ProgramId) : List Phase :=
  match programAt s id with
  | some prog => prog.phases
  | none => []

/-- A phase of the program a session names. -/
def phaseOf (s : State) (id : ProgramId) (j : Nat) : Phase := (phasesOf s id).getD j noPhase

/-- The phase that a session's current phase index names (R86). -/
def currentPhase (s : State) (ses : Session) : Phase := phaseOf s ses.program ses.phase

end Sys2Proof.Machine
end

