-- ==== Sys2Proof/Machine/Clock.lean ====
section
/-!
DEFINITION. The Room Clock and Schedule: the clock (R156), the band in force (R160), the late-start distance (R161)
and the effective mode (R163).
-/
namespace Sys2Proof.Machine

/-- The indexes of the band table. -/
def allBandIndexes : List (Fin 8) := [0, 1, 2, 3, 4, 5, 6, 7]

/-- The present entries of the band table with their indexes. -/
def presentBands (bands : Vector (Option Band) 8) : List (Fin 8 × Band) :=
  allBandIndexes.filterMap fun i => (bands[i]).map fun b => (i, b)

/-- The entry with the greatest start. -/
def latestBand : List (Fin 8 × Band) → Option (Fin 8 × Band)
  | [] => none
  | e :: rest =>
    match latestBand rest with
    | none => some e
    | some best => if best.2.start ≤ e.2.start then some e else some best

/-- The band in force at a minute of week: the greatest start not above it, or else the greatest start (R160). -/
def bandAt (bands : Vector (Option Band) 8) (minute : Nat) : Option (Fin 8 × Band) :=
  match latestBand ((presentBands bands).filter fun e => e.2.start ≤ minute) with
  | some e => some e
  | none => latestBand (presentBands bands)

/-- The minute of week by which the band is selected: 0 while the clock is unset (R158, R160). -/
def bandMinute (s : State) : Nat := if s.rcs.clockSet then s.rcs.minuteOfWeek else 0

/-- What stands for the band in force if no entry were present, which R159 excludes. -/
def noBand : Fin 8 × Band := (0, { start := 0, mult := 100, quiet := false })

/-- The band in force with its index. -/
def bandInForce (s : State) : Fin 8 × Band := (bandAt s.nv.bands (bandMinute s)).getD noBand

/-- The effective mode (R163). -/
def effectiveMode (s : State) : EffectiveMode :=
  match s.rcs.mode with
  | .opened => if s.rcs.clockSet && (bandInForce s).2.quiet then .quiet else .opened
  | .closed => .closed
  | .alarm => .alarm

/-- The distance from a minute of week to the next coming of a start (R161). -/
def distanceTo (minute start : Nat) : Nat := (start + 10080 - minute - 1) % 10080 + 1

/-- The late-start distance, where one is given (R161). -/
def lateDistance (s : State) : Option Nat :=
  if s.rcs.clockSet then
    (((presentBands s.nv.bands).filter fun e => e.2.quiet).map fun e =>
      distanceTo s.rcs.minuteOfWeek e.2.start).min?
  else none

/-- The clock's advance at a minute boundary (R156). -/
def advanceClock (s : State) : State :=
  if s.rcs.clockSet then
    { s with rcs := { s.rcs with
        epoch := s.rcs.epoch + 1
        minuteOfWeek := if s.rcs.minuteOfWeek = 10079 then 0 else s.rcs.minuteOfWeek + 1 } }
  else s

/-- The whole seconds to the next minute boundary, 1 to 60 (R156). -/
def secondsToBoundary (s : State) : Nat := (s.rcs.minuteLeft + 9) / 10

/-- A change of room mode. -/
def setMode (m : RoomMode) (s : State) : State := { s with rcs := { s.rcs with mode := m } }

end Sys2Proof.Machine
end

