-- ==== Sys2Proof/Machine/Tariff.lean ====
section
/-!
DEFINITION. The Tariff Unit: a program's derived figures (R30), extension minutes (R35), the quote (R36, R37) and the
charge (R38 to R40).
-/
namespace Sys2Proof.Machine

/-- The program nominal minutes: the sum of the phases' minutes (R30). -/
def nominalMinutes (prog : Program) : Nat := (prog.phases.map Phase.minutes).sum

/-- The greatest electrical draw among the phases (R30). -/
def peakLu (prog : Program) : Nat := (prog.phases.map Phase.lu).foldl max 0

/-- The greatest water draw among the phases (R30). -/
def peakWu (prog : Program) : Nat := (prog.phases.map Phase.wu).foldl max 0

/-- The extension minutes in force (R35). -/
def extensionOf (settings : Settings) (prog : Program) (requested : Nat) : Nat :=
  if prog.cls = .dryer ∧ prog.phases.any Phase.heating = true then min requested settings.extensionMax else 0

/-- The quote of an ACCOUNT session (R36). -/
def quoteOf (prog : Program) (ext mult ceiling : Nat) : Nat :=
  min ((mult * (prog.base + ext * prog.rate) + 50) / 100) ceiling

/-- The charge basis of an outcome (Table 1-5). -/
def basisOf : EndOutcome → ChargeBasis
  | .completed => .full
  | .userAbort => .full
  | .fault => .prorated
  | .roomStop => .prorated
  | .hostCancel => .prorated
  | .powerLost => .prorated
  | .warmReset => .prorated
  | .startFailed => .zero
  | .budgetTimeout => .zero
  | .withdrawn => .zero

/-- The shed credit C (R38). -/
def shedCredit (ses : Session) : Nat := ses.quote * ses.s / (2 * ses.nominal)

/-- The basis P (R39). -/
def basisAmount (grace : Nat) (outcome : EndOutcome) (ses : Session) : Nat :=
  let run := min ses.r ses.nominal
  match basisOf outcome with
  | .full => ses.quote
  | .prorated => if run < grace then 0 else ses.quote * run / ses.nominal
  | .zero => 0

/-- The charge (R40). Subtraction of naturals is the lower bound at 0. -/
def chargeOf (grace : Nat) (outcome : EndOutcome) (ses : Session) : Nat :=
  min (basisAmount grace outcome ses - shedCredit ses) ses.quote

end Sys2Proof.Machine
end

