-- ==== Sys2Proof/Machine/Accounts.lean ====
section
/-!
DEFINITION. The Card Resolution Unit's tables: range lookup (R46), the account cache (R47 to R50), settlement (R42,
R43), the card counts (R51, R58) and the wanted list (R53, R54).
-/
namespace Sys2Proof.Machine

/-! ### The range table -/

/-- The indexes of the range table. -/
def allRangeIndexes : List (Fin 8) := [0, 1, 2, 3, 4, 5, 6, 7]

/-- Range lookup: the class of the first present entry that includes the card, if one does (R46). -/
def rangeClassAt (nv : Retained) (card : Word) : Option RangeClass :=
  allRangeIndexes.findSome? fun i =>
    match nv.ranges[i] with
    | some e => if e.low.toNat ≤ card.toNat ∧ card.toNat ≤ e.high.toNat then some e.cls else none
    | none => none

/-- The class a session takes from a range lookup; none for a BLOCKED card. -/
def cardClassOf : Option RangeClass → Option CardClass
  | none => some .account
  | some .blocked => none
  | some .free => some .free
  | some .service => some .service

/-! ### The account cache -/

/-- A way of a card's set. -/
def wayOf (card : Word) (w : Fin 3) : Fin 48 := ⟨3 * (card.toNat % 16) + w.val, by omega⟩

/-- The three ways of a card's set, lowest first. -/
def waysOf (card : Word) : List (Fin 48) := [wayOf card 0, wayOf card 1, wayOf card 2]

/-- The entry in a way. -/
def entryAt (s : State) (i : Fin 48) : Option Account := s.cru.cache[i]

/-- A way written or emptied. -/
def setEntry (i : Fin 48) (a : Option Account) (s : State) : State :=
  { s with cru := { s.cru with cache := s.cru.cache.set i a } }

/-- The way that holds a card's entry (R47). -/
def findWay (s : State) (card : Word) : Option (Fin 48) :=
  (waysOf card).find? fun i =>
    match entryAt s i with
    | some a => a.card == card
    | none => false

/-- The way and the entry of a card. -/
def findEntry (s : State) (card : Word) : Option (Fin 48 × Account) :=
  match findWay s card with
  | some i => (entryAt s i).map fun a => (i, a)
  | none => none

/-- An entry is pinned while its held amount is above 0 (R49). -/
def isPinned (a : Account) : Bool := decide (0 < a.held)

/-- The floor of an entry (R49). -/
def floorOf (settings : Settings) (a : Account) : Int :=
  match a.origin with
  | .host => 0
  | .provisional => -(settings.offlineAllowance : Int)

/-- The available amount: balance less held (R49). -/
def availableOf (a : Account) : Int := a.balance - a.held

/-- The ways in ascending order. -/
def allWays : List (Fin 48) := List.finRange 48

/-- The entries present in the cache. -/
def cachedAccounts (s : State) : List Account := allWays.filterMap (entryAt s)

/-- Before a use at the counter's top, the entries take the stamps 1, 2 and onward in the order of their existing
stamps, and the counter the number of entries (R48). -/
def renumber (s : State) : State :=
  let present := cachedAccounts s
  let renumbered := allWays.foldl (fun cache i =>
      match s.cru.cache[i] with
      | some a => cache.set i (some { a with stamp := 1 + (present.filter fun b => decide (b.stamp < a.stamp)).length })
      | none => cache) s.cru.cache
  { s with cru := { s.cru with cache := renumbered, useCounter := present.length } }

/-- The use counter's top. -/
def topStamp : Nat := 4294967295

/-- The entry of a way is used: the counter advances, and the stamp takes its new value (R48). -/
def useEntry (i : Fin 48) (s : State) : State :=
  let s := if s.cru.useCounter = topStamp then renumber s else s
  let next := s.cru.useCounter + 1
  let s := { s with cru := { s.cru with useCounter := next } }
  match entryAt s i with
  | some a => setEntry i (some { a with stamp := next }) s
  | none => s

/-- Of the unpinned entries of some ways, the way of the oldest (R48). -/
def oldestUnpinned (s : State) : List (Fin 48) → Option (Fin 48 × Account)
  | [] => none
  | i :: rest =>
    match entryAt s i with
    | some a =>
      if isPinned a then oldestUnpinned s rest
      else match oldestUnpinned s rest with
        | some (j, b) => if b.stamp < a.stamp then some (j, b) else some (i, a)
        | none => some (i, a)
    | none => oldestUnpinned s rest

/-- Allocation: the lowest empty way, or the way of the oldest unpinned entry, or none (R50). -/
def allocate (s : State) (card : Word) : Option (Fin 48) :=
  match (waysOf card).find? fun i => (entryAt s i).isNone with
  | some i => some i
  | none => (oldestUnpinned s (waysOf card)).map Prod.fst

/-- Every way of the card's set holds a pinned entry (R52). -/
def setAllPinned (s : State) (card : Word) : Bool := (allocate s card).isNone

/-- A new entry written into a way and used at once (R50). Its stamp is the one its use gives it; a renumbering that
this use sets off does not count it among the entries present (R48; log 44). -/
def createEntry (i : Fin 48) (card : Word) (balance : Int) (status : AccountStatus) (origin : Origin) (s : State) :
    State :=
  let cleared := setEntry i none s
  let cleared := if cleared.cru.useCounter = topStamp then renumber cleared else cleared
  useEntry i (setEntry i (some { card, balance, held := 0, status, origin, stamp := 0 }) cleared)

/-- The least and greatest balance (Table 3-2). -/
def clampBalance (b : Int) : Int := clampInt (-999999) 999999 b

/-- Settlement of an ending ACCOUNT session: the balance falls by the charge and the held amount by the quote (R42).
Where no entry names the card nothing is settled (R43). -/
def settleAccount (ses : Session) (charge : Nat) (s : State) : State :=
  if ses.cls = .account then
    match findEntry s ses.card with
    | some (i, a) =>
      setEntry i (some { a with balance := clampBalance (a.balance - charge), held := a.held - ses.quote }) s
    | none => s
  else s

/-- The hold raises the held amount by the quote (R56). -/
def raiseHeld (card : Word) (quote : Nat) (s : State) : State :=
  match findEntry s card with
  | some (i, a) => setEntry i (some { a with held := a.held + quote }) s
  | none => s

/-! ### Counts over sessions -/

/-- The card and class of the session at a position, CLAIMED or live. -/
def cardAt (s : State) (p : Pos) : Option (Word × CardClass) :=
  match (posAt s p).occupancy with
  | .claimed c => some (c.card, c.cls)
  | .live ses => some (ses.card, ses.cls)
  | _ => none

/-- The positions whose session, CLAIMED or live, names the card with class ACCOUNT or FREE (R51). -/
def limitedPositions (s : State) (card : Word) : List Pos :=
  positionsWhere fun p =>
    match cardAt s p with
    | some (c, cls) => c == card && cls != .service
    | none => false

/-- The greatest count of claimed or live ACCOUNT or FREE sessions that name any one card (R51). -/
def greatestCardCount (s : State) : Nat :=
  (allPositions.map fun p =>
    match cardAt s p with
    | some (c, _) => (limitedPositions s c).length
    | none => 0).foldl max 0

/-- The live ACCOUNT sessions that name a card (R58). -/
def liveAccountCount (s : State) (card : Word) : Nat :=
  ((liveSessions s).filter fun ses => ses.card == card && ses.cls == .account).length

/-! ### The wanted list -/

/-- A change to the wanted list. -/
def setWanted (l : List Wanted) (s : State) : State := { s with cru := { s.cru with wanted := l } }

/-- The wanted entry of a card. -/
def wantedFor (s : State) (card : Word) : Option Wanted := s.cru.wanted.find? fun w => w.card == card

/-- The wanted entry of a card leaves the list. -/
def removeWanted (card : Word) (s : State) : State := setWanted (s.cru.wanted.filter fun w => w.card != card) s

/-- A terminal is withdrawn from the waiters of the entry that names it; the entry stays (R54). -/
def withdrawWaiter (t : Terminal) (s : State) : State :=
  setWanted (s.cru.wanted.map fun w => { w with waiters := w.waiters.filter fun e => e.1 != t }) s

end Sys2Proof.Machine
end

