-- ==== Sys2Proof/Machine/Directives.lean ====
section
/-!
DEFINITION. RLC's directive queue: joining, holding back, withdrawal (R115, R119), and what the other blocks queue.
-/
namespace Sys2Proof.Machine

/-- START, STEP_GRANT, SHED and RESTORE change the machine's draw (R103, R114). -/
def drawChanging : Order → Bool
  | .start .. => true
  | .stepGrant _ => true
  | .shed => true
  | .restore => true
  | _ => false

/-- Whether an order is a START. -/
def isStart : Order → Bool
  | .start .. => true
  | _ => false

/-- Whether an order is a STEP_GRANT. -/
def isStepGrant : Order → Bool
  | .stepGrant _ => true
  | _ => false

/-- A change to RLC's own state. -/
def modRlc (f : Rlc → Rlc) (s : State) : State := { s with rlc := f s.rlc }

/-- A change to the directive queue. -/
def setQueue (q : List QueueEntry) (s : State) : State := { s with rlc := { s.rlc with queue := q } }

/-- The directives a block holds back, in the order in which their refusals arose. -/
def heldOf (b : Block) (s : State) : List Directive :=
  match b with
  | .sm => s.rlc.heldSm
  | .lba => s.rlc.heldLba
  | .fm => s.rlc.heldFm
  | .rlc => s.rlc.heldRlc

/-- A change to the directives a block holds back. -/
def setHeld (b : Block) (l : List Directive) (s : State) : State :=
  match b with
  | .sm => { s with rlc := { s.rlc with heldSm := l } }
  | .lba => { s with rlc := { s.rlc with heldLba := l } }
  | .fm => { s with rlc := { s.rlc with heldFm := l } }
  | .rlc => { s with rlc := { s.rlc with heldRlc := l } }

/-- The four blocks that offer directives. -/
def allBlocks : List Block := [.sm, .lba, .fm, .rlc]

/-- Whether a directive satisfying a test stands in the queue. -/
def inQueue (s : State) (test : Directive → Bool) : Bool := s.rlc.queue.any fun e => test e.dir

/-- A directive is refused by a queue of 32, and a START by a queue that holds one for its position (R115). -/
def queueRefuses (s : State) (d : Directive) : Bool :=
  decide (32 ≤ s.rlc.queue.length) || (isStart d.order && inQueue s fun e => e.pos == d.pos && isStart e.order)

/-- A directive joins the queue at the tail, not yet carried (R115). -/
def joinQueue (d : Directive) (s : State) : State :=
  setQueue (s.rlc.queue ++
    [{ dir := d, seq := none, sends := 0, good := 0, since := 0, flying := false, withdrawn := false }]) s

/-- A STOP, LOCK_DOOR or RELEASE_DOOR that could not be kept is queued again by a later report (R115). -/
def queuedAgain : Order → Bool
  | .stop _ => true
  | .lockDoor => true
  | .releaseDoor => true
  | _ => false

/-- A settling event at a position (R103). -/
def settlingEvent (p : Pos) : State → State := modPos p fun q => { q with settle := 0 }

/-- A directive that no list can keep departs as one dropped after its third send: ADAPTER_SILENT is owed for its
position, and a draw-changing one is a settling event there (R103, R115, R118; log 24). -/
def loseDirective (d : Directive) (s : State) : State :=
  let s := modRlc (fun r => { r with lost := r.lost ++ [d.pos] }) s
  if drawChanging d.order then settlingEvent d.pos s else s

/-- A refused directive is held back by its block. A list of 64 keeps no more: any but a STOP, LOCK_DOOR or
RELEASE_DOOR is then lost (R115), a draw-changing one with a settling event (log 24). -/
def holdBack (b : Block) (d : Directive) (s : State) : State :=
  if (heldOf b s).length < 64 then setHeld b (heldOf b s ++ [d]) s
  else if queuedAgain d.order then s
  else loseDirective d s

/-- A block offers a directive (R115). -/
def offer (b : Block) (d : Directive) (s : State) : State :=
  if queueRefuses s d then holdBack b d s else joinQueue d s

/-- A block discards the directives it holds back that satisfy a test; the loss of a draw-changing one is a settling
event (R96, R103). -/
def discardHeld (b : Block) (test : Directive → Bool) (s : State) : State :=
  let gone := (heldOf b s).filter test
  let s := setHeld b ((heldOf b s).filter fun d => !test d) s
  forPositions ((gone.filter fun d => drawChanging d.order).map Directive.pos) settlingEvent s

/-- A block withdraws queued directives: one not yet carried leaves, one carried stays with its withdrawn flag set
(R119). The withdrawal of a draw-changing directive is a settling event (R103). -/
def withdrawQueued (test : Directive → Bool) (s : State) : State :=
  let gone := s.rlc.queue.filter fun e => test e.dir && !e.withdrawn
  let kept := s.rlc.queue.filterMap fun e =>
    if test e.dir then (if e.seq.isNone then none else some { e with withdrawn := true }) else some e
  forPositions ((gone.filter fun e => drawChanging e.dir.order).map fun e => e.dir.pos) settlingEvent (setQueue kept s)

/-- SM withdraws a START held back or unacknowledged for a position (R12, R22). -/
def withdrawStart (p : Pos) (s : State) : State :=
  withdrawQueued (fun d => d.pos == p && isStart d.order) (discardHeld .sm (fun d => d.pos == p && isStart d.order) s)

/-- Whether a STOP with a tag for a position is queued, or held back by SM (R3, R113). -/
def stopStands (p : Pos) (tag : Byte) (s : State) : Bool :=
  let isIt := fun d : Directive => d.pos == p && d.order == .stop tag
  inQueue s isIt || s.rlc.heldSm.any isIt

/-- SM has a STOP queued (R22). -/
def queueStop (p : Pos) (tag : Byte) : State → State := offer .sm { pos := p, order := .stop tag }

/-- SM has a STOP queued unless one with the tag stands (R3, R16, R113, R123). -/
def queueStrayStop (p : Pos) (tag : Byte) (s : State) : State := if stopStands p tag s then s else queueStop p tag s

/-- Whether a HALT_WATER for a position is queued, one withdrawn among them, or held back by FM (R136; log 23). -/
def haltWaterStands (p : Pos) (s : State) : Bool :=
  let isIt := fun d : Directive => d.pos == p && d.order == .haltWater
  inQueue s isIt || s.rlc.heldFm.any isIt

/-- FM has a HALT_WATER queued unless one stands for the position (R136). -/
def queueHaltWater (p : Pos) (s : State) : State :=
  if haltWaterStands p s then s else offer .fm { pos := p, order := .haltWater } s

/-- RLC's IDENTIFY for a position made DUPLICATE (R120). -/
def queueIdentify (p : Pos) : State → State := offer .rlc { pos := p, order := .identify }

/-- A draw-changing directive is outstanding while it is queued and not withdrawn, or held back (R103). -/
def outstanding (s : State) (p : Pos) : Bool :=
  (s.rlc.queue.any fun e => e.dir.pos == p && drawChanging e.dir.order && !e.withdrawn) ||
    allBlocks.any fun b => (heldOf b s).any fun d => d.pos == p && drawChanging d.order

/-- A position is settled (R103). -/
def isSettled (s : State) (p : Pos) : Bool :=
  match sessionAt s p with
  | some ses => holdsReservation ses && !outstanding s p && decide (2 ≤ (posAt s p).settle)
  | none => false

/-! ### Carriage (R116, R117) -/

/-- A waiting directive is sent again at a good-sweep count of 2 while its send count is below 3 (R118). -/
def carriageDue (e : QueueEntry) : Bool :=
  !e.withdrawn && (decide (e.sends = 0) || (decide (2 ≤ e.good) && decide (e.sends < 3)))

/-- Whether a sweep passes over a directive (R117), given the older entries of the queue. -/
def passedOver (s : State) (older : List QueueEntry) (e : QueueEntry) : Bool :=
  let p := e.dir.pos
  let here := (posAt s p).presence == .enrolled
    || (e.dir.order == .identify && (posAt s p).presence == .duplicate)
  older.any (fun o => o.dir.pos == p) || (posAt s p).hold || !here || !carriageDue e

/-- The sequence a directive takes at its first carriage (R116). -/
def nextSequence (q : Position) : BitVec 4 :=
  let next := q.counter + 1
  if next.setWidth 8 = q.accepted then next + 1 else next

/-- The walk that chooses up to `room` directives, giving each its sequence at its first carriage (R116, R117). It
answers the queue with the chosen entries marked, and the carried directives. -/
def chooseCarried (room : Nat) (older rest : List QueueEntry) (s : State) : State × List Carried :=
  match rest with
  | [] => (setQueue older s, [])
  | e :: rest =>
    if room = 0 || passedOver s older e then chooseCarried room (older ++ [e]) rest s
    else
      let fresh := e.seq.isNone && e.dir.order != .identify
      let seq := if fresh then some (nextSequence (posAt s e.dir.pos)) else e.seq
      let s := if fresh then modPos e.dir.pos (fun q => { q with counter := nextSequence q }) s else s
      let carried := { e with seq, since := 0, flying := true }
      let (s, more) := chooseCarried (room - 1) (older ++ [carried]) rest s
      (s, { dir := e.dir, seq } :: more)

end Sys2Proof.Machine
end

