-- ==== Sys2Proof/Machine/Flags.lean ====
section
/-!
DEFINITION. The attention flags, their enables and ATTN (R174).
-/
namespace Sys2Proof.Machine

/-- The mask of one attention flag. -/
def flagMask (f : AttnFlag) : BitVec 11 := 1#11 <<< (attnIndex f).val

/-- An event sets its flag whatever its enable (R174). -/
def setFlag (f : AttnFlag) (s : State) : State := { s with hlp := { s.hlp with flags := s.hlp.flags ||| flagMask f } }

/-- Whether a flag is set. -/
def flagIsSet (f : AttnFlag) (s : State) : Bool := s.hlp.flags.getLsbD (attnIndex f).val

/-- ATTN is asserted while at least one flag is both set and enabled (R174). -/
def attn (s : State) : Bool := !(s.hlp.flags &&& s.hlp.enables == 0#11)

/-- A set of flags or enables in two bytes, one bit per flag (R182). Bits 11 to 15, of which no rule says what a reply
carries, are sent as 0 (log 56). -/
def flagBytes (v : BitVec 11) : List Byte := halfBytes (v.setWidth 16)

end Sys2Proof.Machine
end

