-- ==== Sys2Proof/Machine/Budget.lean ====
section
/-!
DEFINITION. The Load Budget Arbiter: sums and caps, the grant test, the walk of the waiting order, shedding, OVER_CAP
and step requests (chapter 5).
-/
namespace Sys2Proof.Machine

/-- The electrical and water reservation sums (R85). -/
def electricSum (s : State) : Nat := (allPositions.map fun p => (posAt s p).lu).sum
def waterSum (s : State) : Nat := (allPositions.map fun p => (posAt s p).wu).sum

/-- The effective electrical cap (R82). -/
def effectiveCap (s : State) : Nat :=
  match s.lba.demand with
  | some d => min s.nv.feedCap d.cap
  | none => s.nv.feedCap

/-- The room measured total (R102). -/
def measuredTotal (s : State) : Nat := (allPositions.map fun p => (posAt s p).corrected).sum

/-- Both sums stand at or within their caps (R100). -/
def withinCaps (s : State) : Bool := decide (electricSum s ≤ effectiveCap s ∧ waterSum s ≤ s.nv.waterCap)

/-- A change to LBA's own state. -/
def modLba (f : Lba → Lba) (s : State) : State := { s with lba := f s.lba }

/-- An evaluation is owed in this taking (R92; log 5). -/
def oweEvaluation : State → State := modLba fun l => { l with evalDue := true }

/-- A reservation takes its draws and shed flag (R85). -/
def setReservation (p : Pos) (lu wu : Nat) (shed : Bool) : State → State :=
  modPos p fun q => { q with lu := lu, wu := wu, shed := shed }

/-- A position leaves the restore list. -/
def leaveRestoreList (p : Pos) : State → State :=
  modLba fun l => { l with restoreList := l.restoreList.filter fun e => e.pos != p }

/-! ### The walk (R92 to R95) -/

/-- An entry of the combined waiting order. -/
inductive WalkItem where
  | restore (p : Pos)
  | step (p : Pos)
  | start (p : Pos)
  deriving DecidableEq, Repr

/-- The combined waiting order: restore list, step list, start queue (R92). -/
def waitingOrder (s : State) : List WalkItem :=
  s.lba.restoreList.map (fun e => .restore e.pos) ++ s.lba.stepList.map (fun e => .step e.pos)
    ++ s.lba.startQueue.map (fun e => .start e.pos)

/-- The bypass count of an entry. -/
def bypassOf (s : State) : WalkItem → Nat
  | .restore p => ((s.lba.restoreList.find? fun e => e.pos == p).map WaitEntry.bypass).getD 0
  | .step p => ((s.lba.stepList.find? fun e => e.pos == p).map StepEntry.bypass).getD 0
  | .start p => ((s.lba.startQueue.find? fun e => e.pos == p).map WaitEntry.bypass).getD 0

/-- The bypass count of an entry rises by one and stops at 3 (R95; log 40). -/
def raiseBypass (item : WalkItem) (s : State) : State :=
  let raise := fun n => min (n + 1) 3
  match item with
  | .restore p => modLba (fun l => { l with restoreList := l.restoreList.map fun e =>
      if e.pos = p then { e with bypass := raise e.bypass } else e }) s
  | .step p => modLba (fun l => { l with stepList := l.stepList.map fun e =>
      if e.pos = p then { e with bypass := raise e.bypass } else e }) s
  | .start p => modLba (fun l => { l with startQueue := l.startQueue.map fun e =>
      if e.pos = p then { e with bypass := raise e.bypass } else e }) s

/-- The target of a position's step list entry. -/
def stepTarget (s : State) (p : Pos) : Nat :=
  ((s.lba.stepList.find? fun e => e.pos == p).map StepEntry.target).getD 0

/-- Whether a position steps to a phase shed: it is shed, and the phase sheddable (R87). -/
def staysShed (s : State) (p : Pos) (phase : Phase) : Bool := (posAt s p).shed && phase.sheddable

/-- The draws of a step-up to a phase (R87). -/
def stepDraw (s : State) (p : Pos) (phase : Phase) : Nat := if staysShed s p phase then phase.shedLu else phase.lu

/-- The draws an entry asks for (R87). -/
def askedDraws (s : State) (item : WalkItem) : Nat × Nat :=
  match item with
  | .start p =>
    match sessionAt s p with
    | some ses => ((phaseOf s ses.program 0).lu, (phaseOf s ses.program 0).wu)
    | none => (0, 0)
  | .step p =>
    match sessionAt s p with
    | some ses =>
      let phase := phaseOf s ses.program (stepTarget s p)
      (stepDraw s p phase, phase.wu)
    | none => (0, 0)
  | .restore p =>
    match sessionAt s p with
    | some ses => ((currentPhase s ses).lu, (currentPhase s ses).wu)
    | none => (0, 0)

/-- The position of an entry. -/
def itemPos : WalkItem → Pos
  | .restore p => p
  | .step p => p
  | .start p => p

/-- The reservation an entry's position holds, which the grant test takes off the sums (R87); 0 for a start. -/
def currentDraws (s : State) (item : WalkItem) : Nat × Nat :=
  match item with
  | .start _ => (0, 0)
  | _ => ((posAt s (itemPos item)).lu, (posAt s (itemPos item)).wu)

/-- The grant test (R87). -/
def itemFits (s : State) (item : WalkItem) : Bool :=
  let (ce, cw) := currentDraws s item
  let (le, lw) := askedDraws s item
  decide (electricSum s - ce + le ≤ effectiveCap s ∧ waterSum s - cw + lw ≤ s.nv.waterCap)

/-- A restore whose position has a pending step target is passed over (R91). -/
def walkPasses (s : State) (item : WalkItem) : Bool :=
  match item with
  | .restore p => ((sessionAt s p).map fun ses => ses.pendingStep.isSome).getD false
  | _ => false

/-- The draws of the phases of a program, as START carries them (Table 12-3). -/
def startDraws (s : State) (id : ProgramId) : List PhaseDraw :=
  (phasesOf s id).map fun f => { lu := f.lu, wu := f.wu, shedLu := f.shedLu }

/-- The START directive of a session (R12). -/
def startDirective (s : State) (p : Pos) (ses : Session) : Directive :=
  { pos := p, order := .start (tagOf ses.number) ses.program ses.ext (startDraws s ses.program) }

/-- A start's grant (R12, R94). -/
def grantStart (p : Pos) (ses : Session) (s : State) : State :=
  let phase := phaseOf s ses.program 0
  let s := modLba (fun l => { l with startQueue := l.startQueue.filter fun e => e.pos != p }) s
  let s := setReservation p phase.lu phase.wu false s
  let s := putSession p { ses with state := .starting } s
  offer .sm (startDirective s p ses) s

/-- A position moves to a phase with the draws of R87: its shed flag is kept when it was shed and the phase is
sheddable, and cleared otherwise, with a settling event and its leaving the restore list (R89, R94, R99, R103). -/
def enterPhase (p : Pos) (ses : Session) (j : Nat) (s : State) : State :=
  let phase := phaseOf s ses.program j
  let stays := staysShed s p phase
  let clears := (posAt s p).shed && !stays
  let s := setReservation p (stepDraw s p phase) phase.wu stays s
  let s := if clears then settlingEvent p (leaveRestoreList p s) else s
  putSession p { ses with phase := j, shed := stays } s

/-- A step-up's grant (R94). -/
def grantStep (p : Pos) (ses : Session) (s : State) : State :=
  let j := stepTarget s p
  let s := modLba (fun l => { l with stepList := l.stepList.filter fun e => e.pos != p }) s
  offer .sm { pos := p, order := .stepGrant j } (enterPhase p ses j s)

/-- A restore's grant (R94). -/
def grantRestore (p : Pos) (ses : Session) (s : State) : State :=
  let s := leaveRestoreList p s
  let s := modPos p (fun q => { q with lu := (currentPhase s ses).lu, shed := false }) s
  let s := putSession p { ses with shed := false } s
  offer .lba { pos := p, order := .restore } s

/-- A grant, by the kind of its entry (R94). -/
def grantItem (item : WalkItem) (s : State) : State :=
  match sessionAt s (itemPos item) with
  | none => s
  | some ses =>
    match item with
    | .start p => grantStart p ses s
    | .step p => grantStep p ses s
    | .restore p => grantRestore p ses s

/-- The walk (R93). `earliest` is the earliest entry found not to fit, whose bypass count each grant behind it
raises (R95). -/
def walk (items : List WalkItem) (earliest : Option WalkItem) (s : State) : State :=
  match items with
  | [] => s
  | item :: rest =>
    if walkPasses s item then walk rest earliest s
    else if itemFits s item then
      let s := grantItem item s
      walk rest earliest (match earliest with
        | some e => raiseBypass e s
        | none => s)
    else if 3 ≤ bypassOf s item then s
    else walk rest (earliest <|> some item) s

/-- An evaluation: OVER_CAP is cleared where both sums fit again, and while it is set nothing is granted (R92, R93,
R100). -/
def evaluate (s : State) : State :=
  let s := modLba (fun l => { l with evalDue := false, overCap := l.overCap && !withinCaps s }) s
  if s.lba.overCap then s else walk (waitingOrder s) none s

/-- The evaluation owed in this taking, if one is (R92; log 5). -/
def evaluateIfDue (s : State) : State := if s.lba.evalDue then evaluate s else s

/-! ### Shedding (R97, R98) -/

/-- What a shed of the position would take off the sum; 0 where it is no candidate (R97). -/
def shedReduction (s : State) (p : Pos) : Nat :=
  match sessionAt s p with
  | some ses =>
    let phase := currentPhase s ses
    if holdsReservation ses && phase.sheddable && !(posAt s p).shed then phase.lu - phase.shedLu else 0
  | none => 0

/-- The candidate to shed next: the largest reduction, and of equals the lowest position (R97). -/
def bestShed (s : State) : List Pos → Option Pos
  | [] => none
  | p :: rest =>
    match bestShed s rest with
    | none => if 0 < shedReduction s p then some p else none
    | some best => if shedReduction s best ≤ shedReduction s p then some p else some best

/-- A position is shed (R98). -/
def shedPosition (p : Pos) (s : State) : State :=
  match sessionAt s p with
  | none => s
  | some ses =>
    let s := modPos p (fun q => { q with lu := (currentPhase s ses).shedLu, shed := true }) s
    let s := putSession p { ses with shed := true } s
    let s := modLba (fun l => { l with restoreList := l.restoreList ++ [{ pos := p, bypass := 0 }], evalDue := true }) s
    offer .lba { pos := p, order := .shed } s

/-- The dryer to shed next: none once the sum is within the cap, or where no candidate remains (R97). -/
def nextShed (s : State) : Option Pos :=
  if electricSum s ≤ effectiveCap s then none else bestShed s allPositions

/-- Dryers are shed one after another until the sum is within the cap or no candidate remains; with the number shed
(R97). The first argument bounds the sheds by the 24 positions. -/
def shedDown : Nat → State → State × Nat
  | 0, s => (s, 0)
  | n + 1, s =>
    match nextShed s with
    | none => (s, 0)
    | some p =>
      let (s, count) := shedDown n (shedPosition p s)
      (s, count + 1)

/-- A change of a cap, given the caps before it: shedding, the OVER_CAP judgment and the evaluation, with the number of
dryers shed (R84, R100; log 27). -/
def capChanged (oldCap oldWater : Nat) (s : State) : State × Nat :=
  let cap := effectiveCap s
  let fell := decide (cap < oldCap ∨ s.nv.waterCap < oldWater)
  let rose := decide (oldCap < cap ∨ oldWater < s.nv.waterCap)
  let (s, count) := if cap < oldCap ∧ cap < electricSum s then shedDown 24 s else (s, 0)
  let s :=
    if withinCaps s then modLba (fun l => { l with overCap := false }) s
    else if fell || !s.lba.overCap then setFlag .overCap (modLba (fun l => { l with overCap := true }) s)
    else s
  let s := if rose then oweEvaluation s else s
  (evaluateIfDue s, count)

/-! ### Step requests (R89) -/

/-- What LBA makes of a step request for phase `j`. -/
inductive StepVerdict where
  | drop
  | outOfOrder
  | newStep
  deriving DecidableEq, Repr

/-- A step request judged against the session (R89). -/
def judgeStep (ses : Session) (phases j : Nat) : StepVerdict :=
  match ses.pendingStep with
  | some target => if j = target ∨ j = ses.phase then .drop else .outOfOrder
  | none =>
    if j = ses.phase ∧ 1 ≤ ses.phase then .drop
    else if j = ses.phase + 1 ∧ j < phases then .newStep
    else .outOfOrder

/-- A step that lowers or keeps both draws is applied at once (R89, R97, R99). -/
def stepAtOnce (p : Pos) (ses : Session) (j : Nat) (s : State) : State :=
  let before := s
  let s := settlingEvent p (enterPhase p ses j s)
  let lowered := decide ((posAt s p).lu < (posAt before p).lu ∨ (posAt s p).wu < (posAt before p).wu)
  let left := (posAt before p).shed && !(posAt s p).shed
  let s := if lowered || left then oweEvaluation s else s
  if s.lba.overCap && (phaseOf s ses.program j).sheddable && !(posAt s p).shed then (shedDown 24 s).1 else s

/-- A step that raises a draw joins the step list (R89, R90). -/
def joinStepList (p : Pos) (ses : Session) (j : Nat) (s : State) : State :=
  let s := modLba (fun l => { l with
    stepList := l.stepList ++ [{ pos := p, target := j, bypass := 0 }], evalDue := true }) s
  putSession p { ses with pendingStep := some j } s

/-- A new step (R89). -/
def newStep (p : Pos) (ses : Session) (j : Nat) (s : State) : State :=
  let phase := phaseOf s ses.program j
  if stepDraw s p phase ≤ (posAt s p).lu ∧ phase.wu ≤ (posAt s p).wu then stepAtOnce p ses j s
  else joinStepList p ses j s

/-- A step request, with whether it is handed to FM as SEQUENCE (R89). -/
def stepRequest (p : Pos) (ses : Session) (j : Nat) (s : State) : State × Bool :=
  match judgeStep ses (phasesOf s ses.program).length j with
  | .drop => (s, false)
  | .outOfOrder => (s, true)
  | .newStep => (newStep p ses j s, false)

/-! ### Metering (R102) -/

/-- The corrected figure: the measured one and the trim, clamped (R102). -/
def correctedFigure (measured : Nat) (trim : Int) : Nat := (clampInt 0 4095 (measured + trim)).toNat

/-- LBA stores a report's measured draw (R102). -/
def meter (p : Pos) (draw : Nat) (s : State) : State :=
  modPos p (fun q => { q with measured := draw, corrected := correctedFigure draw (trimAt s p) }) s

end Sys2Proof.Machine
end

