-- ==== Sys2Proof/Machine/Journal.lean ====
section
/-!
DEFINITION. The Settlement Journal: its numbers, the append, the admission guard's occupancy and the horizon scan
(chapter 8).
-/
namespace Sys2Proof.Machine

/-- The greatest sequence number (R148). -/
def lastSeq : Nat := 4294967295

/-- The store with a record appended: the record takes the next number, and the counter advances or the exhausted
flag is set, in one write (R150). A spent series takes no record (log 28). -/
def appended (r : SettlementRecord) (nv : Retained) : Retained :=
  if nv.exhausted then nv
  else if nv.nextSeq = lastSeq then
    { nv with journal := nv.journal ++ [{ r with seq := nv.nextSeq }], exhausted := true }
  else { nv with journal := nv.journal ++ [{ r with seq := nv.nextSeq }], nextSeq := nv.nextSeq + 1 }

/-- An append outside recovery, with JOURNAL_HIGH where it leaves 224 or more records (R150). -/
def appendRecord (r : SettlementRecord) (s : State) : State :=
  let s := writeNv (appended r) s
  if 224 ≤ s.nv.journal.length then setFlag .journalHigh s else s

/-- The sequence numbers left (R151). -/
def numbersLeft (nv : Retained) : Nat := if nv.exhausted then 0 else lastSeq - nv.nextSeq + 1

/-- The journal occupancy of the JOURNAL_FULL check (R151). -/
def journalOccupancy (nv : Retained) : Nat :=
  if numbersLeft nv < 256 then max nv.journal.length (256 - numbersLeft nv) else nv.journal.length

/-- The records that the horizon scan of an Account Load counts (R155). -/
def horizonRecords (nv : Retained) (card horizon : Word) : List SettlementRecord :=
  nv.journal.filter fun r => r.card == card && decide (horizon.toNat < r.seq)

/-- The oldest and newest sequence numbers held. -/
def oldestSeq (nv : Retained) : Option Nat := nv.journal.head?.map SettlementRecord.seq
def newestSeq (nv : Retained) : Option Nat := nv.journal.getLast?.map SettlementRecord.seq

end Sys2Proof.Machine
end

