-- ==== Sys2Proof/Machine/Outbox.lean ====
section
/-!
DEFINITION. The Terminal Line Interface's records and output queues (R68 to R70, R75, R76, R181).
-/
namespace Sys2Proof.Machine

/-- A terminal's line. -/
def lineOf (s : State) : Terminal → TerminalLine
  | .one => s.tli.one
  | .two => s.tli.two

/-- A change to one terminal's line. -/
def modLine (t : Terminal) (f : TerminalLine → TerminalLine) (s : State) : State :=
  match t with
  | .one => { s with tli := { s.tli with one := f s.tli.one } }
  | .two => { s with tli := { s.tli with two := f s.tli.two } }

/-- PENDING, and the final record of a request that had one, always join (R68). -/
def pushRecord (t : Terminal) (f : Frame) : State → State := modLine t fun l => { l with out := l.out ++ [f] }

/-- A record that answers in the taking of its request joins only while fewer than 6 wait (R68). -/
def pushAnswer (t : Terminal) (f : Frame) : State → State :=
  modLine t fun l => if l.out.length < 6 then { l with out := l.out ++ [f] } else l

/-- The three kinds of terminal request, by type byte (R181). -/
def tapStartType : Byte := 1
def tapBalanceType : Byte := 2
def tapAbortType : Byte := 3

/-- The head of every record to a terminal: request type, card, position (R181). -/
def recordHead (request : Byte) (card : Word) (position : Byte) : List Byte := request :: wordBytes card ++ [position]

/-- The byte of a position's number. -/
def posByte (p : Pos) : Byte := BitVec.ofNat 8 (posNumber p)

/-- REFUSED with its reason. -/
def refusedRecord (request : Byte) (card : Word) (position : Byte) (reason : Reason) : Frame :=
  { kind := 0x93, body := recordHead request card position ++ [reasonCode reason] }

/-- PENDING. -/
def pendingRecord (request : Byte) (card : Word) (position : Byte) : Frame :=
  { kind := 0x90, body := recordHead request card position }

/-- ACCEPTED for a start, or QUEUED with the place (R75). -/
def startRecord (p : Pos) (ses : Session) (place : Option Nat) : Frame :=
  let common := recordHead tapStartType ses.card (posByte p) ++ [cardClassCode ses.cls] ++ halfBytes ses.number
    ++ u8 ses.program.val ++ u8 ses.ext ++ u16 ses.nominal ++ u8 ses.mult ++ u32 ses.quote
  match place with
  | none => { kind := 0x91, body := common }
  | some n => { kind := 0x92, body := common ++ u8 n }

/-- ACCEPTED for a balance enquiry of a FREE or SERVICE card (R77). -/
def balanceClassRecord (card : Word) (cls : CardClass) : Frame :=
  { kind := 0x91, body := recordHead tapBalanceType card 0 ++ [cardClassCode cls] }

/-- ACCEPTED for a balance enquiry of an ACCOUNT card (R77). -/
def balanceRecord (card : Word) (available floor : Int) (live : Nat) : Frame :=
  { kind := 0x91,
    body := recordHead tapBalanceType card 0 ++ [cardClassCode .account] ++ i32 available ++ i32 floor ++ u8 live }

/-- ACCEPTED for an abort (R79). -/
def abortRecord (card : Word) (p : Pos) (outcome : EndOutcome) (number : Half) (quote charge seq : Nat) : Frame :=
  { kind := 0x91,
    body := recordHead tapAbortType card (posByte p) ++ [outcomeCode outcome] ++ halfBytes number ++ u32 quote
      ++ u32 charge ++ u32 seq }

/-- The final record of a request in flight, which sets its terminal IDLE (R70, R76). -/
def finishFlight (t : Terminal) (f : Frame) (s : State) : State :=
  pushRecord t f (modLine t (fun l => { l with flight := none }) s)

/-- The final record of a start or balance request: one in flight had a PENDING record and ends its wait, any other
is answered in its own taking (R68, R70). -/
def answerTap (t : Terminal) (f : Frame) (s : State) : State :=
  if (lineOf s t).flight.isSome then finishFlight t f s else pushAnswer t f s

/-- PENDING joins, and the terminal is WAITING (R73). -/
def beginFlight (t : Terminal) (flight : InFlight) (s : State) : State :=
  let record := match flight with
    | .start card p => pendingRecord tapStartType card (posByte p)
    | .balance card => pendingRecord tapBalanceType card 0
  pushRecord t record (modLine t (fun l => { l with flight := some flight }) s)

end Sys2Proof.Machine
end

