-- ==== Sys2Proof/Machine/Sessions.lean ====
section
/-!
DEFINITION. The Session Manager: dropping a claim (R10), confirmation, suspension and resumption (R13 to R15), the
minute counts (R19), and the end of a session (R22).
-/
namespace Sys2Proof.Machine

/-- Whether the silence measure of a position runs: it is ENROLLED, holds a session, or is UNLOADING (R122). -/
def silenceRuns (q : Position) : Bool := q.presence == .enrolled || q.occupancy != .vacant

/-- For a position whose measure does not run, it stands at 0 (R122). -/
def restSilence (p : Pos) : State → State :=
  modPos p fun q => if silenceRuns q then q else { q with silence := 0, silent := false }

/-- A position becomes VACANT (R3, R10). -/
def vacate (p : Pos) (s : State) : State := restSilence p (setOccupancy p .vacant s)

/-- A claim is dropped: CRU withdraws its terminal, and its TAP_START is answered REFUSED (R10, R54, R76). -/
def dropClaim (p : Pos) (reason : Reason) (s : State) : State :=
  match claimAt s p with
  | none => s
  | some c =>
    answerTap c.terminal (refusedRecord tapStartType c.card (posByte p) reason)
      (withdrawWaiter c.terminal (vacate p s))

/-! ### The end of a session (R22) -/

/-- The record of a session that ends now (R149). -/
def settlementOf (s : State) (p : Pos) (ses : Session) (outcome : EndOutcome) (cause : Option Cause) :
    SettlementRecord where
  seq := s.nv.nextSeq
  number := ses.number
  position := p
  terminal := ses.terminal
  card := ses.card
  cls := ses.cls
  origin := ses.origin
  program := ses.program
  mult := ses.mult
  ext := ses.ext
  quote := ses.quote
  nominal := ses.nominal
  charge := chargeOf s.nv.settings.graceMinutes outcome ses
  outcome := outcome
  cause := cause
  run := min ses.r ses.nominal
  shed := ses.s
  stalled := ses.z
  waited := ses.w
  holdMinute := ses.holdMinute
  startMinute := ses.startMinute
  endMinute := stampNow s

/-- Step 3 of an end: LBA removes the position's entries, releases its reservation and discards its held-back SHED,
RESTORE and STEP_GRANT; an evaluation is owed where an entry left or a sum fell (R22, R92, R96). -/
def releaseBudget (p : Pos) (s : State) : State :=
  let due := (s.lba.startQueue.any fun e => e.pos == p) || (s.lba.stepList.any fun e => e.pos == p)
    || (s.lba.restoreList.any fun e => e.pos == p) || decide (0 < (posAt s p).lu ∨ 0 < (posAt s p).wu)
  let s := modLba (fun l => { l with
    startQueue := l.startQueue.filter fun e => e.pos != p
    stepList := l.stepList.filter fun e => e.pos != p
    restoreList := l.restoreList.filter fun e => e.pos != p
    evalDue := l.evalDue || due }) s
  let s := setReservation p 0 0 false s
  let s := discardHeld .lba (fun d => d.pos == p && (d.order == .shed || d.order == .restore)) s
  discardHeld .sm (fun d => d.pos == p && isStepGrant d.order) s

/-- Steps 1 to 6 of R22. An end that comes from the adapter's own report of cycle state ENDED is the outcome COMPLETED,
which queues no STOP (Table 1-5). -/
def endHere (p : Pos) (ses : Session) (outcome : EndOutcome) (cause : Option Cause) (s : State) : State :=
  let record := settlementOf s p ses outcome cause
  let s := setOccupancy p (.unloading (tagOf ses.number)) s
  let s := modPos p (fun q => { q with startCount := none }) s
  let s := releaseBudget p s
  let s := if outcome = .completed then s else queueStop p (tagOf ses.number) (withdrawStart p s)
  let s := settleAccount ses record.charge s
  let s := appendRecord record s
  writeSlot p none s

/-- The end of the live session at a position. The evaluation that it owes, with any that the taking owes already,
follows the other changes (R92). Where no live session stands, the arrival ends nothing (R23). -/
def endSession (p : Pos) (outcome : EndOutcome) (cause : Option Cause) (s : State) : State :=
  match sessionAt s p with
  | some ses => endHere p ses outcome cause s
  | none => s

/-- A room stop at a position: a claim is dropped with the reason, and a live session ends, once the evaluation of the end
before it has run (R25, R92). -/
def stopAt (p : Pos) (reason : Reason) (s : State) : State :=
  dropClaim p reason
    (if (sessionAt s p).isSome then endSession p .roomStop none (evaluateIfDue s) else s)

/-! ### Confirmation, suspension and resumption -/

/-- A STARTING session is confirmed (R13); its start count ends (R132). -/
def confirmSession (p : Pos) (ses : Session) (s : State) : State :=
  modPos p (fun q => { q with startCount := none })
    (putSession p { ses with state := .running, startMinute := some (stampNow s) } s)

/-- The figure at which a session overruns: T plus OverrunTolerance (R20). -/
def overrunLimit (s : State) (ses : Session) : Nat := ses.nominal + s.nv.settings.overrunTolerance

/-- The addition of U to R at a resumption (R15). -/
def addSuspended (s : State) (ses : Session) : Session :=
  let limit := overrunLimit s ses
  { ses with r := if limit ≤ ses.r then ses.r else min (ses.r + ses.u) limit, u := 0 }

/-- A SUSPENDED session resumes, with whether OVERRUN follows (R15). -/
def resumeSession (p : Pos) (ses : Session) (s : State) : State × Bool :=
  let ses' := { addSuspended s ses with state := .running }
  (putSession p ses' s, decide (overrunLimit s ses ≤ ses'.r))

/-- The adapter's own end of a STARTING, RUNNING or SUSPENDED session: COMPLETED, with the start minute recorded or U
added first (R13, R15, R16, R17). -/
def completeSession (p : Pos) (ses : Session) (s : State) : State :=
  let s := match ses.state with
    | .starting => confirmSession p ses s
    | .suspended => putSession p { addSuspended s ses with state := .running } s
    | _ => s
  endSession p .completed none s

/-- A RUNNING session becomes SUSPENDED; any other is unchanged (R14). -/
def suspendSession (p : Pos) (s : State) : State :=
  match sessionAt s p with
  | some ses => if ses.state = .running then putSession p { ses with state := .suspended } s else s
  | none => s

/-! ### Minute counting (R19) -/

/-- The counts of a session after a minute boundary (Table 1-5a). -/
def countMinute (tolerance : Nat) (ses : Session) : Session :=
  match ses.state with
  | .waitingBudget => { ses with w := ses.w + 1 }
  | .starting => ses
  | .suspended => { ses with u := min (ses.u + 1) 65535 }
  | .running =>
    if ses.nominal + tolerance ≤ ses.r then ses
    else if ses.pendingStep.isSome then { ses with z := min (ses.z + 1) 65535 }
    else if ses.shed then { ses with r := ses.r + 1, s := ses.s + 1 }
    else { ses with r := ses.r + 1 }

/-- Every live session's counts advance, and its snapshot is rewritten, before any limit of R20 is taken (R19, R21; the
order, log 38), in ascending order of position (log 59). -/
def countMinutes (s : State) : State :=
  forPositions allPositions (fun p s => updateSession p (countMinute s.nv.settings.overrunTolerance) s) s

/-- A WAITING_BUDGET session whose W stands at its limit (R20). -/
def waitedOut (s : State) (ses : Session) : Bool :=
  ses.state == .waitingBudget && decide (s.nv.settings.startWaitLimit ≤ ses.w)

/-- A RUNNING session whose R stands at its limit (R20). -/
def overran (s : State) (ses : Session) : Bool := ses.state == .running && decide (overrunLimit s ses ≤ ses.r)

end Sys2Proof.Machine
end

