-- ==== Sys2Proof/Machine/Faults.lean ====
section
/-!
DEFINITION. The Fault Monitor: the causes, judgments and onsets, the fault ring and roster, the room actions, the
close of a taking and the input lines (chapter 7).
-/
namespace Sys2Proof.Machine

/-! ### Sets of causes (R127, R128) -/

/-- The causes that lock: the lockout-class causes (Table 7-1). -/
def locks : Cause → Bool
  | .leak => true
  | .overtemp => true
  | .heaterOverdraw => true
  | .drumBlocked => true
  | .doorOpenRunning => false
  | .machineCode => true
  | .adapterSilent => true
  | .contextLost => false
  | .sequence => true
  | .heaterDead => true
  | .overrun => false
  | .startTimeout => false

/-- The event causes (Table 7-1). -/
def isEvent : Cause → Bool
  | .adapterSilent => true
  | .contextLost => true
  | .sequence => true
  | .overrun => true
  | .startTimeout => true
  | _ => false

/-- A set of causes, held in rank order, with a cause joined. -/
def addCause (c : Cause) (set : List Cause) : List Cause := allCauses.filter fun d => d == c || set.contains d

/-- A change to a position's present-cause set. -/
def setCauses (p : Pos) (set : List Cause) : State → State := modPos p fun q => { q with causes := set }

/-! ### The ring and the roster (R137 to R141) -/

/-- A change to FM's own state. -/
def modFm (f : Fm → Fm) (s : State) : State := { s with fm := f s.fm }

/-- The oldest record leaves a full ring, and the gap of the next rises by its gap plus one (R139). -/
def overwriteOldest : List FaultRecord → List FaultRecord
  | old :: next :: rest => { next with gap := min (next.gap + old.gap + 1) 255 } :: rest
  | _ => []

/-- A position's number in the roster: 0 stands for the input lines (R141). -/
def rosterNumber : Option Pos → Fin 25
  | none => 0
  | some p => p.succ

/-- A position joins the roster with a count of 1, or its count rises, stopping at 255 (R141). -/
def joinRoster (n : Fin 25) : List RosterEntry → List RosterEntry
  | [] => [{ position := n, count := 1 }]
  | e :: rest =>
    if e.position = n then { e with count := min (e.count + 1) 255 } :: rest
    else if n < e.position then { position := n, count := 1 } :: e :: rest
    else e :: joinRoster n rest

/-- A fault record is written: it takes the next fault sequence number and joins the ring, whose oldest record it
overwrites at 64; FAULT_NEW is set and its position joins the roster (R135, R137 to R139, R141). -/
def writeFault (position : Option Pos) (session : Option Half) (primary : FaultEvent) (causes : List Cause)
    (snapshot : Option LastReport) (s : State) : State :=
  let full := decide (64 ≤ s.fm.ring.length)
  let record : FaultRecord :=
    { seq := s.fm.faultSeq, position, session, primary, causes, sweep := s.rlc.lastGood, epoch := stampNow s, gap := 0,
      snapshot }
  let s := if full then setFlag .logOverrun s else s
  let s := modFm (fun f => { f with
    ring := (if full then overwriteOldest f.ring else f.ring) ++ [record]
    faultSeq := f.faultSeq + 1
    roster := joinRoster (rosterNumber position) f.roster }) s
  setFlag .faultNew s

/-! ### The room actions (R136, R145) -/

/-- Whether the position's class is WASHER. -/
def isWasher (s : State) (p : Pos) : Bool := (posAt s p).cls == some .washer

/-- FM puts the room into ALARM: the washer sessions end and the washer claims are dropped, then every ENROLLED WASHER
position has a HALT_WATER queued (R136, R145). -/
def enterAlarm (s : State) : State :=
  let s := setMode .alarm s
  let s := forPositions allPositions (fun p s => if isWasher s p then stopAt p .roomAlarm s else s) s
  forPositions allPositions (fun p s =>
    if isWasher s p && (posAt s p).presence == .enrolled then queueHaltWater p s else s) s

/-- The room enters ALARM where it is in another mode (R136, R145). -/
def raiseAlarm (s : State) : State := if s.rcs.mode = .alarm then s else enterAlarm s

/-- FM's actions on a LEAK onset (R136). -/
def leakActions (p : Pos) (s : State) : State :=
  raiseAlarm (if isWasher s p then queueHaltWater p s else s)

/-- The room leaves ALARM: FM withdraws the HALT_WATERs it has queued and discards those it holds back (R136). -/
def withdrawHaltWater (s : State) : State :=
  withdrawQueued (fun d => d.order == .haltWater) (discardHeld .fm (fun d => d.order == .haltWater) s)

/-! ### Judgments with onsets (R135) -/

/-- Step 2 of R135: a locking onset sets the lockout flag, unless the position holds a SERVICE session. -/
def lockPosition (onsets : List Cause) (p : Pos) (s : State) : State :=
  if onsets.any locks && !(sessionClassAt s p == some .service) && !lockoutAt s p then
    writeNv (fun nv => { nv with lockout := nv.lockout.set p true }) s
  else s

/-- The outcome FM gives an ending live session (R135). -/
def faultOutcome (ses : Session) : EndOutcome :=
  match ses.state with
  | .waitingBudget => .startFailed
  | .starting => .startFailed
  | .running => .fault
  | .suspended => .fault

/-- Step 3 of R135: FM has SM end the position's session. -/
def endByFault (p : Pos) (primary : Cause) (s : State) : State :=
  match sessionAt s p with
  | some ses => endSession p (faultOutcome ses) (some primary) s
  | none => dropClaim p .positionFault s

/-- A judgment with onsets, given in rank order, acts; one with none does nothing (R134, R135). -/
def actOnOnsets (p : Pos) (onsets : List Cause) (snapshot : Option LastReport) (s : State) : State :=
  match onsets with
  | [] => s
  | primary :: _ =>
    let s := writeFault (some p) (sessionNumberAt s p) (.cause primary) onsets snapshot s
    let s := lockPosition onsets p s
    let s := endByFault p primary s
    if onsets.contains .leak then leakActions p s else s

/-- A handed judgment: an event cause is an onset each time it is raised (R133, R134). -/
def handCause (p : Pos) (c : Cause) (s : State) : State :=
  let s := setCauses p (addCause c (posAt s p).causes) s
  evaluateIfDue (actOnOnsets p [c] (posAt s p).lastReport s)

/-! ### The close of a taking (R92, R115) -/

/-- The least position of a list. -/
def leastPos : List Pos → Option Pos
  | [] => none
  | p :: rest =>
    match leastPos rest with
    | some q => if p ≤ q then some p else some q
    | none => some p

/-- ADAPTER_SILENT for the directives that no held-back list could keep, lowest position first (R115; log 24). The
first argument bounds the judgments: each takes one lost directive off, and only the grant of a waiting entry can lose
another. -/
def drainLost : Nat → State → State
  | 0, s => s
  | n + 1, s =>
    match leastPos s.rlc.lost with
    | none => s
    | some p => drainLost n (handCause p .adapterSilent (modRlc (fun r => { r with lost := r.lost.erase p }) s))

/-- The close of a taking: the evaluation it owes, then its lost directives (R92, R115; logs 5 and 24). -/
def closeTaking (s : State) : State :=
  let s := evaluateIfDue s
  drainLost (s.rlc.lost.length + (waitingOrder s).length) s

/-! ### The report judgment (R129, R130, R134) -/

/-- The temperature above which a position's drum is too hot (R129). -/
def tempLimit (s : State) (p : Pos) : Nat := if (posAt s p).cls = some .dryer then 85 else 95

/-- HEATER_OVERDRAW at a report; none where it is not judged (R130). -/
def judgeOverdraw (s : State) (p : Pos) : Option Bool :=
  let q := posAt s p
  if isSettled s p then some (decide (25 * q.lu < 2 * q.corrected))
  else match sessionAt s p with
    | some ses => if holdsReservation ses then none else some false
    | none => some false

/-- A condition cause judged from a report; none where it is not judged (R129, R130). -/
def judgeCause (s : State) (p : Pos) (r : Report) : Cause → Option Bool
  | .leak => some (r.leak == .wet)
  | .overtemp => some (decide (tempLimit s p < r.temp.toNat))
  | .heaterOverdraw => judgeOverdraw s p
  | .drumBlocked => some (r.drum == .blocked)
  | .doorOpenRunning => some ((r.cycle == .running || r.cycle == .waitStep) && (r.door == .opened || r.door == .closed))
  | .machineCode => some (r.code != 0)
  | _ => none

/-- The report judgment, with the causes that SM and LBA handed while they took the same report (R134). -/
def reportJudgment (p : Pos) (r : Report) (handed : List Cause) (s : State) : State :=
  let q := posAt s p
  let before := q.causes.filter fun c => !isEvent c
  let judge := judgeCause s p r
  let onsets := allCauses.filter fun c => handed.contains c || (judge c == some true && !before.contains c)
  let after := allCauses.filter fun c =>
    handed.contains c || judge c == some true || (before.contains c && judge c != some false)
  let last : LastReport := { report := r, corrected := q.corrected, reserved := q.lu }
  let s := modPos p (fun q => { q with causes := after, lastReport := some last }) s
  actOnOnsets p onsets (some last) s

/-! ### The sweep judgment (R131, R132, R134) -/

/-- The low-draw count and what is judged of HEATER_DEAD at a good running sweep (R131). -/
def judgeHeater (s : State) (p : Pos) : Nat × Option Bool :=
  let q := posAt s p
  match sessionAt s p with
  | none => (0, some false)
  | some ses =>
    if holdsReservation ses && (currentPhase s ses).heating then
      if isSettled s p then
        if 2 * q.corrected < 5 * q.lu then (min (q.low + 1) 6, some (decide (6 ≤ q.low + 1))) else (0, some false)
      else (0, none)
    else (0, some false)

/-- The count and set after HEATER_DEAD's judgment at a position whose mark was taken, with whether it is an onset. -/
def takeHeater (p : Pos) (s : State) : State × Bool :=
  let q := posAt s p
  let (low, verdict) := judgeHeater s p
  let set := match verdict with
    | some true => addCause .heaterDead q.causes
    | some false => q.causes.filter fun c => c != .heaterDead
    | none => q.causes
  (modPos p (fun q => { q with low := low, causes := set }) s,
    verdict == some true && !q.causes.contains .heaterDead)

/-- The start count's rise at a good running sweep, with whether START_TIMEOUT is raised (R132). -/
def takeStartCount (p : Pos) (s : State) : State × Bool :=
  match (posAt s p).startCount, sessionAt s p with
  | some n, some ses =>
    if ses.state = .starting then
      if 20 ≤ n + 1 then
        (modPos p (fun q => { q with startCount := none, causes := addCause .startTimeout q.causes }) s, true)
      else (modPos p (fun q => { q with startCount := some (n + 1) }) s, false)
    else (s, false)
  | _, _ => (s, false)

/-- The sweep judgment of a position, given whether its mark was taken and whether its start count began in the sweep
(R131, R132, R134). -/
def sweepJudgment (p : Pos) (marked begun : Bool) (s : State) : State :=
  let (s, dead) := if marked then takeHeater p s else (s, false)
  let (s, late) := if begun then (s, false) else takeStartCount p s
  let onsets := (if dead then [Cause.heaterDead] else []) ++ (if late then [Cause.startTimeout] else [])
  evaluateIfDue (actOnOnsets p onsets (posAt s p).lastReport s)

/-! ### The input lines (R144 to R147) -/

/-- Whether a level is the one a polarity names. -/
def isActiveLevel (l : Level) (pol : Polarity) : Bool :=
  match pol with
  | .activeHigh => l == .high
  | .activeLow => l == .low

/-- The level a polarity names. -/
def activeLevel : Polarity → Level
  | .activeHigh => .high
  | .activeLow => .low

/-- The other level. -/
def releasedLevel : Polarity → Level
  | .activeHigh => .low
  | .activeLow => .high

/-- An input record (R137, R145, R146). -/
def writeInput (e : InputEvent) : State → State := writeFault none none (.input e) [] none

/-- An activation edge of FLOOD_IN (R145). -/
def floodActivation (s : State) : State :=
  raiseAlarm (writeInput .floodActive (setFlag .flood (modFm (fun f => { f with floodActive := true }) s)))

/-- A release edge of FLOOD_IN (R145). -/
def floodRelease (s : State) : State :=
  let s := modFm (fun f => { f with floodActive := false }) s
  if s.nv.settings.floodReportRelease = .on then writeInput .floodReleased (setFlag .flood s) else s

/-- An activation edge of STOP_IN (R146). -/
def stopActivation (s : State) : State :=
  let s := writeInput .stopActive (setFlag .stopInput (modFm (fun f => { f with stopActive := true }) s))
  let s := if s.rcs.mode = .alarm then s else setMode .closed s
  forPositions allPositions (fun p => stopAt p .roomClosed) s

/-- A release edge of STOP_IN (R146). -/
def stopRelease (s : State) : State :=
  let s := modFm (fun f => { f with stopActive := false }) s
  if s.nv.settings.stopReportRelease = .on then writeInput .stopReleased (setFlag .stopInput s) else s

/-- FLOOD_IN judged by its level and polarity: a change of state is an edge (R144). -/
def judgeFlood (s : State) : State :=
  let active := isActiveLevel s.floodLevel s.nv.settings.floodPolarity
  if active = s.fm.floodActive then s else if active then floodActivation s else floodRelease s

/-- STOP_IN judged by its level and polarity (R144). -/
def judgeStop (s : State) : State :=
  let active := isActiveLevel s.stopLevel s.nv.settings.stopPolarity
  if active = s.fm.stopActive then s else if active then stopActivation s else stopRelease s

/-- The flood condition (R147). -/
def floodCondition (s : State) : Bool :=
  s.fm.floodActive || allPositions.any fun p => (posAt s p).causes.contains .leak

/-- The stop condition (R147). -/
def stopCondition (s : State) : Bool := s.fm.stopActive

end Sys2Proof.Machine
end

