-- ==== Sys2Proof/Machine/Admission.lean ====
section
/-!
DEFINITION. Admission: the checks of Table 4-1 and of the second pass, the claim, the resolution of a card, the offline
decision and the hold (chapters 3 and 4).
-/
namespace Sys2Proof.Machine

/-! ### Checks -/

/-- Whether a class is tested by the quiet, service and late-start checks (Table 4-1). -/
def isTested (cls : CardClass) : Bool := cls != .service

/-- Checks 2 and 3: the room mode (R71). -/
def checkRoom (s : State) : Option Reason :=
  match s.rcs.mode with
  | .alarm => some .roomAlarm
  | .closed => some .roomClosed
  | .opened => none

/-- Check 6: the effective mode (R71). -/
def checkQuiet (s : State) (cls : CardClass) : Option Reason :=
  if isTested cls && effectiveMode s == .quiet then some .roomQuiet else none

/-- Check 10: the late-start distance against T (R72). -/
def checkLate (s : State) (cls : CardClass) (nominal : Nat) : Option Reason :=
  match lateDistance s with
  | some d => if isTested cls && decide (d < nominal) then some .lateStart else none
  | none => none

/-- Check 11: the program's peaks against FeedCap and WaterCap (R72). -/
def checkFeed (s : State) (prog : Program) : Option Reason :=
  if s.nv.feedCap < peakLu prog ∨ s.nv.waterCap < peakWu prog then some .demandExceedsFeed else none

/-- Check 12: the journal occupancy and the live sessions (R72, R151). -/
def checkJournal (s : State) : Option Reason :=
  if 256 ≤ journalOccupancy s.nv + (liveSessions s).length then some .journalFull else none

/-- Check 13: the start queue (R72). -/
def checkQueue (s : State) : Option Reason := if 8 ≤ s.lba.startQueue.length then some .queueFull else none

/-- What the checks before the claim find: the class, program and figures of the claim. -/
structure Admitted where
  pos : Pos
  cls : CardClass
  program : ProgramId
  prog : Program
  ext : Nat
  deriving DecidableEq, Repr

/-- A program id below 16. -/
def programIdOf (b : Byte) : Option ProgramId := if h : b.toNat < 16 then some ⟨b.toNat, h⟩ else none

/-- The present program of an id and of the position's class (check 9). -/
def validProgram (s : State) (p : Pos) (id : Byte) : Option (ProgramId × Program) :=
  match programIdOf id with
  | some id =>
    match programAt s id with
    | some prog => if (posAt s p).cls = some prog.cls then some (id, prog) else none
    | none => none
  | none => none

/-- The ENROLLED position that a number names (check 4). -/
def enrolledPosition (s : State) (position : Byte) : Option Pos :=
  match posOfNumber position.toNat with
  | some p => if (posAt s p).presence = .enrolled then some p else none
  | none => none

/-- Checks 6 to 8 of Table 4-1. -/
def checkPosition (s : State) (p : Pos) (cls : CardClass) : Option Reason :=
  checkQuiet s cls
    <|> (if isTested cls && outOfUse s p then some .positionOutOfService else none)
    <|> (if (posAt s p).occupancy = .vacant then none else some .positionBusy)

/-- Checks 10 to 13 of Table 4-1. -/
def checkFigures (s : State) (cls : CardClass) (prog : Program) (nominal : Nat) : Option Reason :=
  checkLate s cls nominal <|> checkFeed s prog <|> checkJournal s <|> checkQueue s

/-- The checks before the claim, in the order of Table 4-1; TERMINAL_BUSY, the first, is taken by the caller. -/
def firstPass (s : State) (card : Word) (position program extension : Byte) : Except Reason Admitted :=
  match checkRoom s with
  | some r => .error r
  | none =>
  match enrolledPosition s position with
  | none => .error .positionUnknown
  | some p =>
  match cardClassOf (rangeClassAt s.nv card) with
  | none => .error .cardBlocked
  | some cls =>
  match checkPosition s p cls with
  | some r => .error r
  | none =>
  match validProgram s p program with
  | none => .error .programInvalid
  | some (id, prog) =>
  let ext := extensionOf s.nv.settings prog extension.toNat
  match checkFigures s cls prog (nominalMinutes prog + ext) with
  | some r => .error r
  | none => .ok { pos := p, cls, program := id, prog, ext }

/-- The checks taken again at the hold, in the order of R74. -/
def secondPass (s : State) (cls : CardClass) (nominal : Nat) : Option Reason :=
  checkRoom s <|> checkQuiet s cls <|> checkLate s cls nominal <|> checkJournal s <|> checkQueue s

/-! ### The hold (R11, R36, R56, R75) -/

/-- The session that a hold makes of a claim. -/
def heldSession (s : State) (c : Claim) (quote nominal : Nat) (origin : Option Origin) : Session where
  number := c.number
  terminal := some c.terminal
  card := c.card
  cls := c.cls
  origin := origin
  program := c.program
  ext := c.ext
  mult := (bandInForce s).2.mult
  quote := quote
  nominal := nominal
  phase := 0
  shed := false
  pendingStep := none
  r := 0
  s := 0
  z := 0
  u := 0
  w := 0
  holdMinute := stampNow s
  startMinute := none
  state := .waitingBudget

/-- A session's place in the start queue, counted from 1 at the head (R88). -/
def placeOf (s : State) (p : Pos) : Option Nat :=
  if s.lba.startQueue.any fun e => e.pos == p then
    some ((s.lba.startQueue.takeWhile fun e => e.pos != p).length + 1)
  else none

/-- The session joins the tail of the start queue, and LBA evaluates (R11, R88). -/
def joinStartQueue (p : Pos) (s : State) : State :=
  evaluate (modLba (fun l => { l with startQueue := l.startQueue ++ [{ pos := p, bypass := 0 }] }) s)

/-- The final record of a start whose hold is placed: ACCEPTED, or QUEUED with the place (R75). -/
def answerStart (p : Pos) (t : Terminal) (s : State) : State :=
  match sessionAt s p with
  | some ses => answerTap t (startRecord p ses (placeOf s p)) s
  | none => s

/-- The hold is placed: the held amount rises by the quote of an ACCOUNT session, the session is live and waits, LBA
evaluates, and the terminal has its final record (R11, R56, R75). -/
def placeHold (p : Pos) (c : Claim) (quote nominal : Nat) (origin : Option Origin) (s : State) : State :=
  let ses := heldSession s c quote nominal origin
  let s := if c.cls = .account then raiseHeld c.card quote s else s
  answerStart p c.terminal (joinStartQueue p (putSession p ses s))

/-- The program of a claim; it is present for as long as a claim names it (R32). -/
def claimProgram (s : State) (c : Claim) : Program :=
  (programAt s c.program).getD { cls := .washer, base := 0, rate := 0, phases := [] }

/-- The second pass and the hold (R74). -/
def finishClaim (p : Pos) (c : Claim) (quote : Nat) (origin : Option Origin) (s : State) : State :=
  let nominal := nominalMinutes (claimProgram s c) + c.ext
  match secondPass s c.cls nominal with
  | some r => dropClaim p r s
  | none => placeHold p c quote nominal origin s

/-- The quote of a claim at this moment (R36). -/
def claimQuote (s : State) (c : Claim) : Nat :=
  quoteOf (claimProgram s c) c.ext (bandInForce s).2.mult s.nv.settings.quoteCeiling

/-- The admission tests of an ACCOUNT claim against its card's entry, then the second pass (R56). -/
def admitAccount (p : Pos) (c : Claim) (s : State) : State :=
  match findEntry s c.card with
  | none => s
  | some (_, a) =>
    let quote := claimQuote s c
    if a.status = .suspended then dropClaim p .cardSuspended s
    else if a.balance - a.held - quote < floorOf s.nv.settings a then dropClaim p .fundsLow s
    else finishClaim p c quote (some a.origin) s

/-! ### Resolution (R52 to R58) -/

/-- What a resolution serves: the claim at a position, or a balance enquiry of a terminal. -/
inductive Asker where
  | start (p : Pos)
  | balance (t : Terminal)
  deriving DecidableEq, Repr

/-- A balance enquiry answered from the card's entry (R58, R77). -/
def answerBalance (t : Terminal) (card : Word) (s : State) : State :=
  match findEntry s card with
  | none => s
  | some (_, a) =>
    if a.status = .suspended then answerTap t (refusedRecord tapBalanceType card 0 .cardSuspended) s
    else answerTap t (balanceRecord card (availableOf a) (floorOf s.nv.settings a) (liveAccountCount s card)) s

/-- A request that its card's entry now serves (R56 to R58). -/
def serveAsker (card : Word) (asker : Asker) (s : State) : State :=
  match asker with
  | .start p =>
    match claimAt s p with
    | some c => admitAccount p c s
    | none => s
  | .balance t => answerBalance t card s

/-- A request whose resolution ends with a reason (R55, R73, R77). -/
def failAsker (card : Word) (reason : Reason) (asker : Asker) (s : State) : State :=
  match asker with
  | .start p => dropClaim p reason s
  | .balance t => answerTap t (refusedRecord tapBalanceType card 0 reason) s

/-- The waiters of a wanted entry as what they ask, by their terminals' requests in flight (R53). -/
def askersOf (s : State) (waiters : List (Terminal × WaitKind)) : List Asker :=
  waiters.filterMap fun w =>
    match (lineOf s w.1).flight, w.2 with
    | some (.start _ p), .start => some (.start p)
    | some (.balance _), .balance => some (.balance w.1)
    | _, _ => none

/-- Requests resume one after another, each completed before the next (R57). -/
def serveAskers (card : Word) (askers : List Asker) (s : State) : State :=
  askers.foldl (fun s a => serveAsker card a s) s

/-- The offline decision for the requests given (R55). -/
def offlineDecision (card : Word) (askers : List Asker) (s : State) : State :=
  if s.nv.settings.offlineAllowance = 0 then
    askers.foldl (fun s a => failAsker card .accountUnavailable a s) s
  else match allocate s card with
    | some i => serveAskers card askers (createEntry i card 0 .good .provisional s)
    | none => askers.foldl (fun s a => failAsker card .tableFull a s) s

/-- The expiry of a card's wanted entry: it leaves the list, and the offline decision is taken for its waiters, if it
has any (R55). -/
def expireWanted (card : Word) (s : State) : State :=
  match wantedFor s card with
  | none => s
  | some w =>
    let askers := askersOf s w.waiters
    let s := removeWanted card s
    if w.waiters.isEmpty then s else offlineDecision card askers s

/-- The terminal and kind of wait of a request, with what it waits on. -/
def askerFlight (card : Word) (asker : Asker) : InFlight × WaitKind :=
  match asker with
  | .start p => (.start card p, .start)
  | .balance _ => (.balance card, .balance)

/-- A miss (R52). -/
def resolveMiss (t : Terminal) (card : Word) (asker : Asker) (s : State) : State :=
  let (flight, kind) := askerFlight card asker
  if setAllPinned s card then failAsker card .tableFull asker s
  else if (wantedFor s card).isSome then
    beginFlight t flight (setWanted (s.cru.wanted.map fun w =>
      if w.card = card then { w with waiters := w.waiters ++ [(t, kind)] } else w) s)
  else if s.cru.wanted.length < 4 then
    beginFlight t flight (setFlag .accountWanted
      (setWanted (s.cru.wanted ++ [{ card, age := 0, waiters := [(t, kind)] }]) s))
  else offlineDecision card [asker] s

/-- The lookup of an ACCOUNT card: a hit uses the entry and serves the request (R48, R52). -/
def resolveAccount (t : Terminal) (card : Word) (asker : Asker) (s : State) : State :=
  match findWay s card with
  | some i => serveAsker card asker (useEntry i s)
  | none => resolveMiss t card asker s

/-- The limit test, which leaves out the session just claimed (R51). -/
def overCardLimit (s : State) (p : Pos) (c : Claim) : Bool :=
  c.cls != .service &&
    decide (s.nv.settings.cardSessionLimit ≤ ((limitedPositions s c.card).filter fun q => q != p).length)

/-- Resolution of a claim in the taking of the claim (R51, R52, R56). -/
def resolveClaim (t : Terminal) (p : Pos) (c : Claim) (s : State) : State :=
  if overCardLimit s p c then dropClaim p .cardLimit s
  else if c.cls = .account then resolveAccount t c.card (.start p) s
  else finishClaim p c 0 none s

/-- The claim: SM numbers the session and advances the counter (R7, R9). -/
def claimPosition (t : Terminal) (card : Word) (a : Admitted) (s : State) : State × Claim :=
  let c : Claim :=
    { number := s.nv.sessionCounter, terminal := t, card, cls := a.cls, program := a.program, ext := a.ext }
  (setOccupancy a.pos (.claimed c) (writeNv (fun nv => { nv with sessionCounter := nv.sessionCounter + 1 }) s), c)

end Sys2Proof.Machine
end

