-- ==== Sys2Proof/Machine/Layouts.lean ====
section
/-!
DEFINITION. The byte layouts of records: sweeps as sent (R183), and the records the host reads (R184, Table 12-4).
-/
namespace Sys2Proof.Machine

/-! ### Sweeps as sent (R183, Table 12-3) -/

/-- The kind byte of a directive, in the order of Table 6-3. -/
def orderCode : Order → Byte
  | .start .. => 0
  | .stepGrant _ => 1
  | .shed => 2
  | .restore => 3
  | .stop _ => 4
  | .haltWater => 5
  | .lockDoor => 6
  | .releaseDoor => 7
  | .identify => 8

/-- The body of a directive. -/
def orderBody : Order → List Byte
  | .start tag program ext draws =>
    [tag] ++ u8 program.val ++ u8 ext ++ counted (draws.map fun d => u8 d.lu ++ u8 d.wu ++ u8 d.shedLu)
  | .stepGrant phase => u8 phase
  | .stop tag => [tag]
  | _ => []

/-- A directive as the header carries it; an IDENTIFY carries sequence 0xFF. -/
def carriedBytes (c : Carried) : List Byte :=
  let seq : Byte := match c.seq with
    | some q => q.setWidth 8
    | none => 0xFF
  u8 (posNumber c.dir.pos) ++ [seq, orderCode c.dir.order] ++ counted ((orderBody c.dir.order).map fun b => [b])

/-- The kind byte of a sweep's header. -/
def sweepKindCode : SweepKind → Byte
  | .running => 0
  | .enrol => 1

/-- The sum of bytes modulo 256. -/
def byteSum (bytes : List Byte) : Byte := bytes.foldl (· + ·) 0

/-- A sweep as it leaves LOOP_OUT, its check byte last. Bits 1 to 7 of the header's flags byte, of which Table 12-3
names bit 0 alone, are sent as 0 (log 58). -/
def sweepBytes (sweep : Sweep) : List Byte :=
  let content := [sweepKindCode sweep.kind, sweep.number, sweep.lastGood] ++ flagByte sweep.restart
    ++ counted (sweep.carried.map carriedBytes)
  content ++ [-(byteSum content)]

/-! ### Records read by the host (R184) -/

/-- Byte 1 of a snapshot: door, drum, leak and cycle state; bit 7, which no rule names, is sent as 0 (log 56). -/
def snapshotByteOne (r : Report) : Byte :=
  BitVec.ofNat 8 (doorCode r.door + 4 * drumCode r.drum + 16 * leakCode r.leak + 32 * cycleCode r.cycle)

/-- Byte 2 of a snapshot: water level and step request (log 7 for fields the bits do not hold); bit 7, which no rule
names, is sent as 0 (log 56). -/
def snapshotByteTwo (r : Report) : Byte :=
  let water : BitVec 4 := if r.water.toNat ≤ 15 then r.water.setWidth 4 else Config.reservedWater r.water
  let step : BitVec 3 := if r.step.toNat ≤ 7 then r.step.setWidth 3 else Config.reservedStep r.step
  (0#1 ++ step ++ water : BitVec 8)

/-- The eleven bytes of a snapshot, which is also the layout of a last report. -/
def snapshotBytes (l : LastReport) : List Byte :=
  [snapshotByteOne l.report, snapshotByteTwo l.report, l.report.temp] ++ u16 l.report.draw
    ++ [l.report.tag, l.report.phase, l.report.code] ++ u16 l.corrected ++ u8 l.reserved

/-- An optional minute stamp: the start-present flag and the stamp. -/
def startMinuteBytes : Option Word → List Byte
  | some w => 1 :: wordBytes w
  | none => [0, 0, 0, 0, 0]

/-- A journal record, 45 bytes. -/
def journalBytes (r : SettlementRecord) : List Byte :=
  let terminal : Byte := match r.terminal with
    | some t => terminalCode t
    | none => 0
  let origin : Byte := match r.origin with
    | some o => originCode o
    | none => 0xFF
  let cause : List Byte := match r.cause with
    | some c => u8 (causeRank c)
    | none => [0]
  u32 r.seq ++ halfBytes r.number ++ u8 (posNumber r.position) ++ [terminal] ++ wordBytes r.card
    ++ [cardClassCode r.cls, origin] ++ u8 r.program.val ++ u8 r.mult ++ u8 r.ext ++ u16 r.quote ++ u16 r.nominal
    ++ u16 r.charge ++ [outcomeCode r.outcome] ++ cause ++ u16 r.run ++ u16 r.shed ++ u16 (min r.stalled 65535)
    ++ u8 r.waited ++ wordBytes r.holdMinute ++ startMinuteBytes r.startMinute ++ wordBytes r.endMinute

/-- The code of a primary cause or input event. -/
def faultEventCode : FaultEvent → Nat
  | .cause c => causeRank c
  | .input e => inputEventCode e

/-- The cause set of a fault record; an input record holds the one bit (code - 1) of its event. -/
def faultCauseBytes (r : FaultRecord) : List Byte :=
  match r.primary with
  | .cause _ => halfBytes (causeMask r.causes)
  | .input e => halfBytes (1#16 <<< (inputEventCode e - 1))

/-- A fault record, 26 bytes. Bits 2 to 7 of its flags byte, which no rule names, are sent as 0 (log 56). -/
def faultBytes (r : FaultRecord) : List Byte :=
  let position : List Byte := match r.position with
    | some p => u8 (posNumber p)
    | none => [0]
  let session : List Byte := match r.session with
    | some n => halfBytes n
    | none => [0, 0]
  let snapshot : List Byte := match r.snapshot with
    | some l => snapshotBytes l
    | none => List.replicate 11 0
  halfBytes r.seq ++ position ++ u8 ((if r.session.isSome then 1 else 0) + (if r.snapshot.isSome then 2 else 0))
    ++ session ++ u8 (faultEventCode r.primary) ++ faultCauseBytes r ++ [r.sweep] ++ wordBytes r.epoch ++ u8 r.gap
    ++ snapshot

end Sys2Proof.Machine
end

