-- ==== Sys2Proof/Machine/Operands.lean ====
section
/-!
DEFINITION. Reading what arrives: the frame assembler (R171), the host's requests with HLP's two tests (R173), the
terminal requests (R69), and returned sweeps (R183).
-/
namespace Sys2Proof.Machine

/-! ### The frame assembler (R171) -/

/-- The bytes after sync with the CRC still to come, given as LEN and what followed it. A LEN above 250 abandons the
frame, on a terminal's line too (R171; log 43). -/
def assemblerTake (bytes : List Byte) : Assembler × Option Frame :=
  match bytes with
  | len :: rest =>
    if 250 < len.toNat then (.hunting, none)
    else if rest.length < len.toNat + 3 then (.assembling bytes, none)
    else
      let covered := len :: rest.take (len.toNat + 1)
      if rest.drop (len.toNat + 1) = halfBytes (crcOf covered) then
        (.hunting, some { kind := rest.headD 0, body := (rest.drop 1).take len.toNat })
      else (.hunting, none)
  | [] => (.assembling [], none)

/-- One byte through the assembler, with the frame it completes, if it completes a good one. -/
def assemblerByte (a : Assembler) (b : Byte) : Assembler × Option Frame :=
  match a with
  | .hunting => if b = 0xA5#8 then (.assembling [], none) else (.hunting, none)
  | .assembling bytes => assemblerTake (bytes ++ [b])

/-- Bytes through the assembler, with the good frames they complete, in order. -/
def assemblerFeed (a : Assembler) (bytes : List Byte) : Assembler × List Frame :=
  bytes.foldl
    (fun acc b =>
      let (a', frame) := assemblerByte acc.1 b
      (a', acc.2 ++ frame.toList))
    (a, [])

/-! ### Host requests (R173, Table 12-2) -/

/-- One phase record of Program Write. -/
def phaseFieldsOf : List Byte → List PhaseFields
  | lu :: wu :: minutes :: flags :: shedLu :: rest =>
    { lu, wu, minutes, flags, shedLu } :: phaseFieldsOf rest
  | _ => []

/-- The settings of Settings Write. -/
def settingFieldsOf : List Byte → List (Byte × Half)
  | number :: hi :: lo :: rest => (number, halfOf hi lo) :: settingFieldsOf rest
  | _ => []

/-- A presence byte is a flag: 1 present, 0 absent; another value is none of its values (log 8). -/
def presenceFlag (b : Byte) : Option Bool := if b = 1 then some true else if b = 0 then some false else none

/-- Program Write: 2 bytes with presence absent and with no other (R181), or 7 and 5 for each phase of its count. -/
def programWriteOf (body : List Byte) : HostRequest :=
  match body with
  | [id, presence] => if presence = 0 then .good (.programWrite id none) else .bad 0x12 .badLength
  | id :: presence :: cls :: bh :: bl :: rate :: count :: phases =>
    if phases.length ≠ 5 * count.toNat then .bad 0x12 .badLength
    else match presenceFlag presence with
      | some true =>
        .good (.programWrite id (some { cls, base := halfOf bh bl, rate, phases := phaseFieldsOf phases }))
      | some false => .bad 0x12 .badLength
      | none => .bad 0x12 .badValue
  | _ => .bad 0x12 .badLength

/-- Band Write: 2 bytes with presence absent and with no other (R181), or 6. -/
def bandWriteOf (body : List Byte) : HostRequest :=
  match body with
  | [index, presence] => if presence = 0 then .good (.bandWrite index none) else .bad 0x14 .badLength
  | [index, presence, sh, sl, mult, quiet] =>
    match presenceFlag presence, presenceFlag quiet with
    | some true, some q => .good (.bandWrite index (some { start := halfOf sh sl, mult, quiet := q }))
    | some false, _ => .bad 0x14 .badLength
    | _, _ => .bad 0x14 .badValue
  | _ => .bad 0x14 .badLength

/-- Range Write: 2 bytes with presence absent and with no other (R181), or 11. -/
def rangeWriteOf (body : List Byte) : HostRequest :=
  match body with
  | [index, presence] => if presence = 0 then .good (.rangeWrite index none) else .bad 0x15 .badLength
  | [index, presence, l0, l1, l2, l3, h0, h1, h2, h3, cls] =>
    match presenceFlag presence with
    | some true =>
      .good (.rangeWrite index (some { low := wordOf l0 l1 l2 l3, high := wordOf h0 h1 h2 h3, cls }))
    | some false => .bad 0x15 .badLength
    | none => .bad 0x15 .badValue
  | _ => .bad 0x15 .badLength

/-- Settings Write: a count of 1 to 13, then three bytes for each setting. -/
def settingsWriteOf (body : List Byte) : HostRequest :=
  match body with
  | count :: rest =>
    if count.toNat < 1 ∨ 13 < count.toNat ∨ rest.length ≠ 3 * count.toNat then .bad 0x16 .badLength
    else .good (.settingsWrite (settingFieldsOf rest))
  | [] => .bad 0x16 .badLength

/-- The request of a frame whose body has a fixed length, or none when the type or the length does not fit. -/
def fixedRequestOf (kind : Byte) (body : List Byte) : Option Request :=
  match kind.toNat, body with
  | 0x01, [] => some .identify
  | 0x02, [] => some .status
  | 0x03, [] => some .attentionRead
  | 0x04, [a, b] => some (.attentionClear (halfOf a b))
  | 0x05, [a, b] => some (.attentionEnable (halfOf a b))
  | 0x10, [a, b, c, d, e, f] => some (.clockSet (wordOf a b c d) (halfOf e f))
  | 0x11, [a] => some (.roomModeSet a)
  | 0x13, [a] => some (.programRead a)
  | 0x17, [a, b] => some (.trimSet a b)
  | 0x18, [a, b, c, d] => some (.feedSet (halfOf a b) (halfOf c d))
  | 0x19, [a, b, c] => some (.demandLimit (halfOf a b) c)
  | 0x20, [a, b, c, d, e, f, g, h, i, j, k, l, m] =>
    some (.accountLoad (wordOf a b c d) (wordOf e f g h) i (wordOf j k l m))
  | 0x21, [a, b, c, d, e, f, g, h] => some (.accountCredit (wordOf a b c d) (wordOf e f g h))
  | 0x22, [a, b, c, d] => some (.accountEvict (wordOf a b c d))
  | 0x23, [a, b, c, d, e] => some (.accountStatus (wordOf a b c d) e)
  | 0x24, [] => some .wantedRead
  | 0x30, [a, b] => some (.positionService a b)
  | 0x31, [a] => some (.positionClearLockout a)
  | 0x32, [a] => some (.positionRead a)
  | 0x33, [a, b, c] => some (.sessionCancel a (halfOf b c))
  | 0x40, [a, b, c, d, e] => some (.journalRead (wordOf a b c d) e)
  | 0x41, [a, b, c, d] => some (.journalRelease (wordOf a b c d))
  | 0x42, [a] => some (.faultRead a)
  | 0x43, [] => some .rosterRead
  | 0x44, [] => some .rosterClear
  | 0x50, [] => some .loopRestart
  | 0x51, [] => some .partReset
  | _, _ => none

/-- The request types of Table 12-2. -/
def requestTypes : List Nat :=
  [0x01, 0x02, 0x03, 0x04, 0x05, 0x10, 0x11, 0x12, 0x13, 0x14, 0x15, 0x16, 0x17, 0x18, 0x19, 0x20, 0x21, 0x22, 0x23,
    0x24, 0x30, 0x31, 0x32, 0x33, 0x40, 0x41, 0x42, 0x43, 0x44, 0x50, 0x51]

/-- HLP's two tests: type, then length (R173). -/
def requestOf (frame : Frame) : HostRequest :=
  let kind := frame.kind
  if kind.toNat ∉ requestTypes then .bad kind .unknownType
  else if kind = 0x12 then programWriteOf frame.body
  else if kind = 0x14 then bandWriteOf frame.body
  else if kind = 0x15 then rangeWriteOf frame.body
  else if kind = 0x16 then settingsWriteOf frame.body
  else match fixedRequestOf kind frame.body with
    | some r => .good r
    | none => .bad kind .badLength

/-- The type byte of a request (Table 12-2). -/
def requestType : Request → Byte
  | .identify => 0x01
  | .status => 0x02
  | .attentionRead => 0x03
  | .attentionClear _ => 0x04
  | .attentionEnable _ => 0x05
  | .clockSet _ _ => 0x10
  | .roomModeSet _ => 0x11
  | .programWrite _ _ => 0x12
  | .programRead _ => 0x13
  | .bandWrite _ _ => 0x14
  | .rangeWrite _ _ => 0x15
  | .settingsWrite _ => 0x16
  | .trimSet _ _ => 0x17
  | .feedSet _ _ => 0x18
  | .demandLimit _ _ => 0x19
  | .accountLoad _ _ _ _ => 0x20
  | .accountCredit _ _ => 0x21
  | .accountEvict _ => 0x22
  | .accountStatus _ _ => 0x23
  | .wantedRead => 0x24
  | .positionService _ _ => 0x30
  | .positionClearLockout _ => 0x31
  | .positionRead _ => 0x32
  | .sessionCancel _ _ => 0x33
  | .journalRead _ _ => 0x40
  | .journalRelease _ => 0x41
  | .faultRead _ => 0x42
  | .rosterRead => 0x43
  | .rosterClear => 0x44
  | .loopRestart => 0x50
  | .partReset => 0x51

/-- The type byte of a held request. -/
def hostRequestType : HostRequest → Byte
  | .good r => requestType r
  | .bad kind _ => kind

/-! ### Terminal requests (R69) -/

/-- A terminal frame with a good CRC: a request, or one answered BAD_REQUEST. -/
inductive TapRequest where
  | start (card : Word) (position program extension : Byte)
  | balance (card : Word)
  | abort (card : Word) (position : Byte)
  | bad (kind : Byte) (body : List Byte)
  deriving DecidableEq, Repr

/-- The request that a terminal frame carries. -/
def tapOf (frame : Frame) : TapRequest :=
  match frame.kind.toNat, frame.body with
  | 0x01, [a, b, c, d, p, q, e] => .start (wordOf a b c d) p q e
  | 0x02, [a, b, c, d] => .balance (wordOf a b c d)
  | 0x03, [a, b, c, d, p] => .abort (wordOf a b c d) p
  | _, _ => .bad frame.kind frame.body

/-! ### Returned sweeps (R183, Table 12-3) -/

/-- The fields of an enrol record or a join record (R106, R110). -/
structure EnrolRecord where
  switch : Byte
  cls : MachineClass
  serial : Word
  cycle : Cycle
  tag : Byte
  phase : Byte
  deriving DecidableEq, Repr

/-- A presence mark with the report that follows it, if one does (R111). -/
structure Mark where
  position : Byte
  hold : Bool
  accepted : Byte
  report : Option Report
  deriving DecidableEq, Repr

/-- A record that an adapter appended. -/
inductive LoopRecord where
  | mark (m : Mark)
  | join (e : EnrolRecord)
  | enrol (e : EnrolRecord)
  deriving DecidableEq, Repr

/-- A sweep as it came home, read as far as the part reads it. -/
structure Returned where
  kind : Byte
  number : Byte
  records : List LoopRecord
  deriving DecidableEq, Repr

/-- The directives declared by the header are passed over; none when the sweep ends before them. -/
def skipDirectives : Nat → List Byte → Option (List Byte)
  | 0, bytes => some bytes
  | n + 1, _ :: _ :: _ :: len :: rest =>
    if rest.length < len.toNat then none else skipDirectives n (rest.drop len.toNat)
  | _ + 1, _ => none

/-- The adapters' records up to the check byte; none when a kind is unknown or a record is cut short. The first
argument bounds the number of records. Bits 2 to 7 of a mark's flags are ignored (log 53), and a report's temperature,
phase and code are kept as they came (log 7). -/
def recordsOf : Nat → List Byte → Option (List LoopRecord)
  | _, [] => some []
  | 0, _ :: _ => none
  | n + 1, kind :: rest =>
    if kind = 1 then
      match rest with
      | position :: flags :: accepted :: rest =>
        let hold := flags.getLsbD 0
        if flags.getLsbD 1 then
          match rest with
          | door :: water :: drum :: temp :: leak :: dh :: dl :: cycle :: tag :: phase :: step :: code :: rest =>
            let report : Report :=
              { door := doorOf door, water, drum := drumOf drum, temp, leak := leakOf leak, draw := drawOf (halfOf dh dl),
                cycle := cycleOf cycle, tag, phase, step, code }
            (recordsOf n rest).map (.mark { position, hold, accepted, report := some report } :: ·)
          | _ => none
        else (recordsOf n rest).map (.mark { position, hold, accepted, report := none } :: ·)
      | _ => none
    else if kind = 2 ∨ kind = 3 then
      match rest with
      | switch :: cls :: s0 :: s1 :: s2 :: s3 :: cycle :: tag :: phase :: rest =>
        let record : EnrolRecord :=
          { switch, cls := sweepClassOf cls, serial := wordOf s0 s1 s2 s3, cycle := cycleOf cycle, tag, phase }
        (recordsOf n rest).map ((if kind = 2 then .join record else .enrol record) :: ·)
      | _ => none
    else none

/-- The bytes of a returned sweep; none when the sweep is bad (R104, R183; log 19). -/
def returnedOf (bytes : List Byte) : Option Returned :=
  if bytes.foldl (· + ·) 0#8 ≠ 0#8 then none
  else match bytes.dropLast with
    | kind :: number :: _ :: _ :: count :: rest =>
      match skipDirectives count.toNat rest with
      | some body => (recordsOf body.length body).map fun records => { kind, number, records }
      | none => none
    | _ => none

end Sys2Proof.Machine
end

