-- ==== Sys2Proof/Machine/Reports.lean ====
section
/-!
DEFINITION. What a report or an enrolment record does to a position: the three blocks that take a report (R113), RLC's
door rule (R120), and reconciliation (R123).
-/
namespace Sys2Proof.Machine

/-- Whether a cycle runs: RUNNING or WAIT_STEP. -/
def cycleRuns (c : Cycle) : Bool := c == .running || c == .waitStep

/-- A STOP for a cycle that no live session at the position holds, when the adapter runs one (R113, R123). -/
def stopStray (p : Pos) (cycle : Cycle) (tag : Byte) (s : State) : State :=
  if cycleRuns cycle then queueStrayStop p tag s else s

/-- An UNLOADING position is judged (R3). -/
def judgeUnloading (p : Pos) (cycle : Cycle) (tag : Byte) (s : State) : State :=
  if cycle = .idle then vacate p s else stopStray p cycle tag s

/-! ### SM takes a report (R3, R13, R15, R16, R113) -/

/-- What SM makes of a report: the state, the causes it hands to FM, and whether the report agrees with a session. -/
structure SmVerdict where
  state : State
  handed : List Cause
  agrees : Bool

/-- A report at a STARTING session (R13, R113). -/
def smStarting (p : Pos) (ses : Session) (cycle : Cycle) (tag : Byte) (s : State) : SmVerdict :=
  if tag = tagOf ses.number ∧ cycleRuns cycle = true then
    { state := confirmSession p ses s, handed := [], agrees := true }
  else if tag = tagOf ses.number ∧ cycle = .ended then
    { state := completeSession p ses s, handed := [], agrees := false }
  else { state := if tag = tagOf ses.number then s else stopStray p cycle tag s, handed := [], agrees := false }

/-- A report at a RUNNING or SUSPENDED session (R15, R16; the stray STOP is queued first, log 32). -/
def smRunning (p : Pos) (ses : Session) (cycle : Cycle) (tag : Byte) (s : State) : SmVerdict :=
  if tag = tagOf ses.number ∧ cycleRuns cycle = true then
    if ses.state = .suspended then
      let (s, overruns) := resumeSession p ses s
      { state := s, handed := if overruns then [.overrun] else [], agrees := true }
    else { state := s, handed := [], agrees := true }
  else if tag = tagOf ses.number ∧ cycle = .ended then
    { state := completeSession p ses s, handed := [], agrees := false }
  else
    { state := if tag = tagOf ses.number then s else stopStray p cycle tag s, handed := [.contextLost], agrees := false }

/-- SM takes a cycle state and tag at a position (R113). -/
def smTake (p : Pos) (cycle : Cycle) (tag : Byte) (s : State) : SmVerdict :=
  match (posAt s p).occupancy with
  | .vacant => { state := stopStray p cycle tag s, handed := [], agrees := false }
  | .claimed _ => { state := stopStray p cycle tag s, handed := [], agrees := false }
  | .unloading _ => { state := judgeUnloading p cycle tag s, handed := [], agrees := false }
  | .live ses =>
    match ses.state with
    | .waitingBudget =>
      { state := if tag = tagOf ses.number then s else stopStray p cycle tag s, handed := [], agrees := false }
    | .starting => smStarting p ses cycle tag s
    | _ => smRunning p ses cycle tag s

/-! ### LBA takes a report (R89, R102) -/

/-- LBA takes the measured draw, and the step request of a report that agrees with the session, with what it hands. -/
def lbaTake (p : Pos) (r : Report) (agrees : Bool) (s : State) : State × List Cause :=
  let s := meter p r.draw s
  if agrees && r.step != 0 then
    match sessionAt s p with
    | some ses =>
      let (s, wrong) := stepRequest p ses r.step.toNat s
      (s, if wrong then [.sequence] else [])
    | none => (s, [])
  else (s, [])

/-! ### The door rule (R120) -/

/-- Whether a door directive for a position is queued, or held back by RLC (R120). -/
def doorDirectiveStands (p : Pos) (s : State) : Bool :=
  let isIt := fun d : Directive => d.pos == p && (d.order == .lockDoor || d.order == .releaseDoor)
  inQueue s isIt || s.rlc.heldRlc.any isIt

/-- RLC compares the door of an idle VACANT position with its use (R120; after the three blocks, log 21). -/
def doorRule (p : Pos) (r : Report) (s : State) : State :=
  if (posAt s p).occupancy = .vacant ∧ r.cycle = .idle ∧ doorDirectiveStands p s = false then
    if outOfUse s p && r.door == .closed then offer .rlc { pos := p, order := .lockDoor } s
    else if !outOfUse s p && r.door == .locked then offer .rlc { pos := p, order := .releaseDoor } s
    else s
  else s

/-- A report of an ENROLLED position is taken by SM, LBA and FM in turn, then by the door rule, with the evaluation the
report owes before the door rule (R92, R113; logs 5 and 21). -/
def takeReport (p : Pos) (r : Report) (s : State) : State :=
  let sm := smTake p r.cycle r.tag s
  let (s, handed) := lbaTake p r sm.agrees sm.state
  let s := reportJudgment p r (sm.handed ++ handed) s
  doorRule p r (evaluateIfDue s)

/-! ### Roster changes and classes (R5, R109 to R111) -/

/-- The position is heard (R121, R122). -/
def heard (p : Pos) : State → State := modPos p fun q => { q with missing := 0, silence := 0, silent := false }

/-- A position becomes ABSENT or DUPLICATE: it has no serial and no HOLD, its figures are 0, and it has no last report
(R102, R109, R111, R127). -/
def leaveRoster (p : Pos) (presence : Presence) (s : State) : State :=
  restSilence p (modPos p (fun q => { q with
    presence := presence, serial := none, hold := false, measured := 0, corrected := 0, lastReport := none, low := 0 }) s)

/-- A position is made DUPLICATE: its adapters are left out, and an IDENTIFY is queued (R109 to R111, R120). -/
def makeDuplicate (p : Pos) (s : State) : State := queueIdentify p (setFlag .rosterChange (leaveRoster p .duplicate s))

/-- A record leaves a position ENROLLED with its serial: it is heard, and its HOLD is clear (R109 to R111, R121). -/
def enrolPosition (p : Pos) (serial : Word) (s : State) : State :=
  heard p (modPos p (fun q => { q with presence := .enrolled, serial := some serial, hold := false }) s)

/-- A record's class is given to SM, with whether it differs from the one held (R5). -/
def giveClass (p : Pos) (cls : MachineClass) (s : State) : State × Bool :=
  let differs := match (posAt s p).cls with
    | some old => old != cls
    | none => false
  let s := modPos p (fun q => { q with cls := some cls }) s
  (if differs then setFlag .rosterChange s else s, differs)

/-- Whether a position holds a session, CLAIMED or live. -/
def holdsSession (s : State) (p : Pos) : Bool :=
  match (posAt s p).occupancy with
  | .claimed _ => true
  | .live _ => true
  | _ => false

/-! ### Reconciliation (R17, R123) -/

/-- A position newly ENROLLED as a WASHER while the room is in ALARM has a HALT_WATER queued (R136); one that stays
ENROLLED while its class changes has none (log 47). -/
def enrolHaltWater (p : Pos) (newly : Bool) (s : State) : State :=
  if newly && isWasher s p && s.rcs.mode == .alarm then queueHaltWater p s else s

/-- The verdict at a STARTING session: RUNNING, COMPLETED or START_TIMEOUT (Table 6-4). At a START_TIMEOUT beside a stray
cycle the stray STOP is queued before the ended session's own (log 32). -/
def verdictStarting (p : Pos) (ses : Session) (r : EnrolRecord) (s : State) : State :=
  if r.tag = tagOf ses.number ∧ cycleRuns r.cycle = true then confirmSession p ses s
  else if r.tag = tagOf ses.number ∧ r.cycle = .ended then completeSession p ses s
  else handCause p .startTimeout (if r.tag = tagOf ses.number then s else stopStray p r.cycle r.tag s)

/-- The verdict at a RUNNING or SUSPENDED session: RUNNING, COMPLETED or CONTEXT_LOST (Table 6-4). At a CONTEXT_LOST
beside a stray cycle the stray STOP is queued before the ended session's own (log 32). -/
def verdictRunning (p : Pos) (ses : Session) (r : EnrolRecord) (s : State) : State :=
  if r.tag = tagOf ses.number ∧ cycleRuns r.cycle = true then
    if ses.state = .suspended then
      let (s, overruns) := resumeSession p ses s
      if overruns then handCause p .overrun s else s
    else s
  else if r.tag = tagOf ses.number ∧ r.cycle = .ended then completeSession p ses s
  else handCause p .contextLost (if r.tag = tagOf ses.number then s else stopStray p r.cycle r.tag s)

/-- The verdict at a WAITING_BUDGET session: its own tag with ENDED is COMPLETED, and another tag with a running cycle is
a stray cycle; IDLE leaves it waiting, and so does its own tag with a running cycle (Table 6-4; log 25). -/
def verdictWaiting (p : Pos) (ses : Session) (r : EnrolRecord) (s : State) : State :=
  if r.tag = tagOf ses.number then (if r.cycle = .ended then completeSession p ses s else s)
  else stopStray p r.cycle r.tag s

/-- The verdict of Table 6-4 where the class agrees. -/
def verdict (p : Pos) (r : EnrolRecord) (s : State) : State :=
  match (posAt s p).occupancy with
  | .vacant => stopStray p r.cycle r.tag s
  | .claimed _ => stopStray p r.cycle r.tag s
  | .unloading _ => judgeUnloading p r.cycle r.tag s
  | .live ses =>
    match ses.state with
    | .waitingBudget => verdictWaiting p ses r s
    | .starting => verdictStarting p ses r s
    | _ => verdictRunning p ses r s

/-- A position is reconciled against its single record, wholly (R5, R123; the order inside it is log 29). -/
def reconcile (p : Pos) (newly : Bool) (r : EnrolRecord) (s : State) : State :=
  let (s, differs) := giveClass p r.cls s
  let s := enrolHaltWater p newly s
  let s :=
    if differs && holdsSession s p then stopStray p r.cycle r.tag (handCause p .contextLost s)
    else verdict p r s
  evaluateIfDue s

end Sys2Proof.Machine
end

