-- ==== Sys2Proof/Machine/Loop.lean ====
section
/-!
DEFINITION. The Room Loop Controller: sweeps sent and returned, enrolment, joins, the loop's break and Loop Restart
(chapter 6).
-/
namespace Sys2Proof.Machine

/-! ### Sending (R106 to R108, R115, R117) -/

/-- An enrol sweep is sent (R106, R108). -/
def sendEnrol : State → State :=
  modRlc fun r => { r with
    inFlight := some { kind := .enrol, number := r.sweepNo, lastGood := r.lastGood, restart := r.restartFlag, carried := [] }
    sweepNo := r.sweepNo + 1, sweepClock := 0, retryLeft := none }

/-- An offer of a held-back directive: refused, it is held back as before (R115). -/
def offerAgain (b : Block) (d : Directive) (s : State) : State := offer b d s

/-- Which block makes the next offer, of those that still have one. Where several have, the order is free (R115; log
6). -/
def nextOfferer (pending : List (Block × List Directive)) (s : State) : Nat :=
  if pending.length ≤ 1 then 0 else Config.nextOfferer s.freeIndex % pending.length

/-- The held-back directives of all blocks are offered, each block's in its own order (R115). The first argument bounds
the offers. -/
def mergeOffers : Nat → List (Block × List Directive) → State → State
  | 0, _, s => s
  | n + 1, pending, s =>
    let pending := pending.filter fun e => !e.2.isEmpty
    let i := nextOfferer pending s
    let s := if pending.length ≤ 1 then s else { s with freeIndex := s.freeIndex + 1 }
    match pending[i]? with
    | some (b, d :: rest) => mergeOffers n (pending.set i (b, rest)) (offerAgain b d s)
    | _ => s

/-- The offers before a running sweep is put together (R115). -/
def offerHeld (s : State) : State :=
  let pending := allBlocks.map fun b => (b, heldOf b s)
  let count := (pending.map fun e => e.2.length).sum
  let s := allBlocks.foldl (fun s b => setHeld b [] s) s
  mergeOffers (count + 1) pending s

/-- A running sweep is put together and sent (R107, R117); its header's restart bit is clear (log 58). -/
def sendRunning (s : State) : State :=
  let s := offerHeld s
  let (s, carried) := chooseCarried 4 [] s.rlc.queue s
  modRlc (fun r => { r with
    inFlight := some { kind := .running, number := r.sweepNo, lastGood := r.lastGood, restart := false, carried }
    sweepNo := r.sweepNo + 1, sweepClock := 0 }) s

/-! ### The break (R106, R107) -/

/-- The loop becomes BROKEN: LOOP_BROKEN is set, every RUNNING session is suspended, and the next enrol sweep follows
in 2 s (R106, R107; log 20). The snapshots are rewritten in ascending order of position (R14; log 59). -/
def breakLoop (s : State) : State :=
  let s := setFlag .loopBroken (modRlc (fun r => { r with loop := .broken, retryLeft := some 20 }) s)
  forPositions allPositions suspendSession s

/-- The count that breaks the loop has reached 3 (R106, R107). -/
def breakDue (s : State) : Bool :=
  match s.rlc.loop with
  | .running => decide (3 ≤ s.rlc.badSweeps)
  | .enrolling => decide (3 ≤ s.rlc.failedTries)
  | _ => false

/-- The sweep in flight is bad: its carriages are not counted, and the count of bad sweeps or of failed tries rises
(R104, R106, R107, R117). -/
def badReturn (s : State) : State :=
  match s.rlc.inFlight with
  | none => s
  | some _ =>
    let s := modRlc (fun r => { r with
      inFlight := none, queue := r.queue.map fun e => { e with flying := false } }) s
    match s.rlc.loop with
    | .running =>
      let s := modRlc (fun r => { r with badSweeps := r.badSweeps + 1 }) s
      if breakDue s then breakLoop s else s
    | .enrolling =>
      let s := modRlc (fun r => { r with failedTries := r.failedTries + 1, retryLeft := some 20 }) s
      if breakDue s then breakLoop s else s
    | .broken => modRlc (fun r => { r with retryLeft := some 20 }) s
    | .down => s

/-! ### Enrolment (R109, R123) -/

/-- The enrol records of an enrol sweep. -/
def enrolRecords (records : List LoopRecord) : List EnrolRecord :=
  records.filterMap fun r => match r with
    | .enrol e => some e
    | _ => none

/-- The records that name a position. -/
def recordsFor (p : Pos) (records : List EnrolRecord) : List EnrolRecord :=
  records.filter fun e => posOfNumber e.switch.toNat == some p

/-- The roster entry of a position by the records that name it (R109). One that was DUPLICATE already becomes so again,
with both figures 0 and a further IDENTIFY (R102, R120; log 41). -/
def rosterPosition (records : List EnrolRecord) (p : Pos) (s : State) : State :=
  let before := posAt s p
  let s := match recordsFor p records with
    | [] => leaveRoster p .absent s
    | [e] => enrolPosition p e.serial s
    | _ => queueIdentify p (leaveRoster p .duplicate s)
  if (posAt s p).presence = before.presence ∧ (posAt s p).serial = before.serial then s else setFlag .rosterChange s

/-- The positions that were not ENROLLED before the enrolment. -/
def notEnrolled (s : State) : List Pos := positionsWhere fun p => (posAt s p).presence != .enrolled

/-- A position is reconciled after an enrolment; one without a single record has no verdict, and a RUNNING session
there is suspended (R123). -/
def reconcilePosition (records : List EnrolRecord) (newly : List Pos) (p : Pos) (s : State) : State :=
  match recordsFor p records with
  | [e] => reconcile p (newly.contains p) e s
  | _ => suspendSession p s

/-- Every position's count of good sweeps since its last settling event rises, stopping at 2 (R103; log 26). -/
def raiseSettle (s : State) : State :=
  forPositions allPositions (fun p => modPos p fun q => { q with settle := min (q.settle + 1) 2 }) s

/-- A good enrol sweep: the roster is built, the positions are reconciled, and the loop enters RUNNING (R106, R109).
The roster is built in ascending order of position, which orders the IDENTIFYs (log 41). -/
def goodEnrol (number : Byte) (records : List LoopRecord) (s : State) : State :=
  let enrols := enrolRecords records
  let newly := notEnrolled s
  let s := modRlc (fun r => { r with
    inFlight := none, lastGood := number, restartFlag := false, failedTries := 0, badSweeps := 0, retryLeft := none }) s
  let s := raiseSettle s
  let s := if enrols.any fun e => (posOfNumber e.switch.toNat).isNone then setFlag .rosterChange s else s
  let s := forPositions allPositions (rosterPosition enrols) s
  let s := forPositions allPositions (reconcilePosition enrols newly) s
  modRlc (fun r => { r with loop := .running }) s

/-! ### A good running sweep (R110, R111, R116 to R121) -/

/-- What the taking of a running sweep's records carries along: the positions whose mark was taken. -/
structure SweepTaking where
  state : State
  marked : List Pos

/-- The sends of the directives that the sweep carried are counted; an IDENTIFY leaves; the good-sweep counts of the
others rise (R117 to R119). -/
def countSends (queue : List QueueEntry) : List QueueEntry :=
  queue.filterMap fun e =>
    if e.flying then
      if e.dir.order = .identify then none
      else some { e with sends := e.sends + 1, good := 0, since := 0, flying := false }
    else some { e with
      good := if 1 ≤ e.sends then e.good + 1 else e.good
      since := if e.seq.isSome then e.since + 1 else e.since }

/-- The entries whose first counted send this sweep makes. -/
def firstSends (queue : List QueueEntry) : List QueueEntry :=
  queue.filter fun e => e.flying && decide (e.sends = 0) && !e.withdrawn

/-- RLC tells FM of a START's first counted send, and SM of a STEP_GRANT's (R8, R117, R132). A session that an enrol
record has confirmed before it has no start count (log 46). -/
def tellFirstSend (e : QueueEntry) (s : State) : State :=
  let p := e.dir.pos
  match e.dir.order, sessionAt s p with
  | .start .., some ses => if ses.state = .starting then modPos p (fun q => { q with startCount := some 0 }) s else s
  | .stepGrant j, some ses =>
    if ses.pendingStep = some j ∧ ses.phase = j then putSession p { ses with pendingStep := none } s else s
  | _, _ => s

/-- A mark that names a carried directive's sequence acknowledges it (R116). -/
def acknowledge (p : Pos) (accepted : Byte) (s : State) : State :=
  let named := fun e : QueueEntry =>
    e.dir.pos == p && (match e.seq with
      | some q => q.setWidth 8 == accepted
      | none => false)
  let settles := s.rlc.queue.any fun e => named e && drawChanging e.dir.order && !e.withdrawn
  let s := setQueue (s.rlc.queue.filter fun e => !named e) s
  if settles then settlingEvent p s else s

/-- A position's mark is taken. Its last accepted byte is kept whole, and one above 15 is the sequence of no directive
(R111, R116, R121; log 54). -/
def takeMark (p : Pos) (m : Mark) (s : State) : State :=
  let s := heard p (modPos p (fun q => { q with hold := m.hold, accepted := m.accepted }) s)
  let s := acknowledge p m.accepted s
  match m.report with
  | some r => takeReport p r s
  | none => s

/-- The number of marks of a sweep that name a position. -/
def marksFor (records : List LoopRecord) (p : Pos) : Nat :=
  (records.filter fun r => match r with
    | .mark m => posOfNumber m.position.toNat == some p
    | _ => false).length

/-- The number of join records of a sweep that name a position. -/
def joinsFor (records : List LoopRecord) (p : Pos) : Nat :=
  (records.filter fun r => match r with
    | .join e => posOfNumber e.switch.toNat == some p
    | _ => false).length

/-- A join record leaves its position ENROLLED (R110, R116, R123). -/
def joinPosition (p : Pos) (newly : Bool) (e : EnrolRecord) (s : State) : State :=
  let s := enrolPosition p e.serial s
  let s := modPos p (fun q => { q with counter := 0, accepted := 0 }) s
  reconcile p newly e s

/-- A join record is taken (R110). -/
def takeJoin (records : List LoopRecord) (e : EnrolRecord) (s : State) : State :=
  match posOfNumber e.switch.toNat with
  | none => setFlag .rosterChange s
  | some p =>
    match (posAt s p).presence with
    | .duplicate => s
    | .absent =>
      if 2 ≤ joinsFor records p then makeDuplicate p s
      else joinPosition p true e (setFlag .rosterChange s)
    | .enrolled =>
      if 2 ≤ joinsFor records p ∨ (posAt s p).serial ≠ some e.serial then makeDuplicate p s
      else joinPosition p false e s

/-- A record of a good running sweep is taken (R110, R111). A second mark of an ENROLLED position makes it DUPLICATE,
and neither mark is taken; every mark of the sweep that names it counts, one that stood before the position was enrolled
by a join among them (log 57). An enrol record is none of a running sweep's records (log 19). -/
def takeRecord (records : List LoopRecord) (t : SweepTaking) (r : LoopRecord) : SweepTaking :=
  match r with
  | .mark m =>
    match posOfNumber m.position.toNat with
    | none => t
    | some p =>
      if (posAt t.state p).presence = .enrolled then
        if 2 ≤ marksFor records p then { t with state := makeDuplicate p t.state }
        else { state := takeMark p m t.state, marked := p :: t.marked }
      else t
  | .join e => { t with state := takeJoin records e t.state }
  | .enrol _ => t

/-- The count of missing marks rises at a position without a mark taken, one with two marks among them (log 48); at 6 a
RUNNING session there is suspended (R121). -/
def countMissing (marked : List Pos) (p : Pos) (s : State) : State :=
  if marked.contains p then s
  else
    let s := modPos p (fun q => { q with missing := min (q.missing + 1) 6 }) s
    if (posAt s p).missing = 6 then suspendSession p s else s

/-- A withdrawn entry leaves at a count of 2 after its last carriage (R119); one whose count stands there already when
it is withdrawn leaves at the next good running sweep (log 45). -/
def withdrawnDone (e : QueueEntry) : Bool := e.withdrawn && decide (2 ≤ e.since)

/-- An entry is dropped at a count of 2 after its third send (R118). -/
def dropDue (e : QueueEntry) : Bool := !e.withdrawn && decide (3 ≤ e.sends) && decide (2 ≤ e.good)

/-- The entries whose counts say so leave the queue; the drop of a draw-changing one is a settling event (R103, R118,
R119). -/
def dropEntries (test : QueueEntry → Bool) (s : State) : State :=
  let gone := s.rlc.queue.filter test
  let s := setQueue (s.rlc.queue.filter fun e => !(test e || withdrawnDone e)) s
  forPositions ((gone.filter fun e => drawChanging e.dir.order).map fun e => e.dir.pos) settlingEvent s

/-- The judgments of one position at the close of a good running sweep: a dropped directive's, then the sweep's (R118,
R134; log 22). -/
def closePosition (dropped marked begun : List Pos) (p : Pos) (s : State) : State :=
  let s := (dropped.filter fun q => q == p).foldl (fun s _ => handCause p .adapterSilent s) s
  sweepJudgment p (marked.contains p) (begun.contains p) s

/-- A good running sweep is taken: counts, marks, reports and joins in ring order, missing marks, departures, and the
judgments at its close (R107, R111, R117 to R121, R131 to R134; log 22). Missing marks are counted, and the suspensions
of R121 made, in ascending order of position (log 59). -/
def goodRunning (number : Byte) (records : List LoopRecord) (s : State) : State :=
  let first := firstSends s.rlc.queue
  let begun := (first.filter fun e => isStart e.dir.order).map fun e => e.dir.pos
  let s := modRlc (fun r => { r with
    inFlight := none, lastGood := number, badSweeps := 0, queue := countSends r.queue }) s
  let s := raiseSettle s
  let s := first.foldl (fun s e => tellFirstSend e s) s
  let taking := records.foldl (takeRecord records) { state := s, marked := [] }
  let s := forPositions allPositions (countMissing taking.marked) taking.state
  let dropped := (s.rlc.queue.filter dropDue).map fun e => e.dir.pos
  let s := dropEntries dropDue s
  forPositions allPositions (closePosition dropped taking.marked begun) s

/-- Bytes come home at LOOP_IN. What returns from a sweep that Loop Restart discarded, good or bad, is taken by no block,
and so is a sweep other than the one in flight (R104, R124, R126; log 18). -/
def sweepReturn (kind : SweepKind) (home : SweepHome) (s : State) : State :=
  match s.rlc.inFlight with
  | none => s
  | some sent =>
    if sent.kind = kind ∧ home.discarded = false then
      match returnedOf home.bytes with
      | none => badReturn s
      | some r =>
        if r.kind = (if kind = .enrol then 1 else 0) ∧ r.number = sent.number then
          match kind with
          | .running => goodRunning r.number r.records s
          | .enrol => goodEnrol r.number r.records s
        else s
    else s

/-! ### Loop Restart (R124, R125) -/

/-- The block to which Loop Restart hands a directive back, if it does (R125). -/
def handedBackTo : Order → Option Block
  | .stepGrant _ => some .sm
  | .shed => some .lba
  | .restore => some .lba
  | .haltWater => some .fm
  | _ => none

/-- An emptied directive is dealt with by its kind; its departure is a settling event where it changes the draw (R103,
R125). -/
def emptyEntry (e : QueueEntry) (s : State) : State :=
  if e.withdrawn then s
  else
    let s := if drawChanging e.dir.order then settlingEvent e.dir.pos s else s
    match handedBackTo e.dir.order with
    | some b => holdBack b e.dir s
    | none => s

/-- Loop Restart (R124). -/
def restartLoop (s : State) : State :=
  let emptied := s.rlc.queue
  let s := setQueue [] s
  let s := emptied.foldl (fun s e => emptyEntry e s) s
  let s := forPositions allPositions (fun p => modPos p fun q =>
    { q with counter := 0, accepted := 0, missing := 0, hold := false }) s
  sendEnrol (modRlc (fun r => { r with
    loop := .enrolling, sweepNo := 0, lastGood := 255, restartFlag := true, failedTries := 0, badSweeps := 0,
    inFlight := none, retryLeft := none }) s)

/-! ### Silence (R122) -/

/-- A position's silence reaches SilenceLimit: the measure stops there and ADAPTER_SILENT is handed to FM (R122). -/
def silenceReached (p : Pos) (s : State) : State :=
  handCause p .adapterSilent
    (modPos p (fun q => { q with silence := s.nv.settings.silenceLimit * 10, silent := true }) s)

/-- A position's measure runs and stands at or beyond the limit (R122). One that has stopped at a former limit neither
reaches a lowered one nor falls to it (log 31). -/
def silenceDue (s : State) (p : Pos) : Bool :=
  let q := posAt s p
  silenceRuns q && !q.silent && decide (s.nv.settings.silenceLimit * 10 ≤ q.silence)

end Sys2Proof.Machine
end

