-- ==== Sys2Proof/Machine/Requests.lean ====
section
/-!
DEFINITION. The host's requests, each as one taking of its owning block: the state it leaves, and the body of its reply
or the error code with which it is refused (R173, Table 11-3). A refused request changes nothing.
-/
namespace Sys2Proof.Machine

/-- What a request's taking answers: a reply body, or an error code. -/
abbrev Reply := Except ErrorCode (List Byte)

/-- An accepted request whose reply reads what the close of its taking may still change (R173). -/
def acceptClosed (s : State) (body : State → List Byte) : State × Reply :=
  (closeTaking s, .ok (body (closeTaking s)))

/-- A refused request changes nothing (R173). -/
def refuse (code : ErrorCode) (s : State) : State × Reply := (s, .error code)

/-- An accepted request with the body of its reply. -/
def accept (s : State) (body : List Byte) : State × Reply := (s, .ok body)

/-- A request whose position lies outside 1 to 24 is refused with BAD_VALUE. -/
def withPosition (position : Byte) (s : State) (act : Pos → State × Reply) : State × Reply :=
  match posOfNumber position.toNat with
  | some p => act p
  | none => refuse .badValue s

/-! ### Groups of reply fields -/

/-- The band in force: index, multiplier and quiet flag (R157, R159, R177). -/
def bandBytes (s : State) : List Byte :=
  u8 (bandInForce s).1.val ++ u8 (bandInForce s).2.mult ++ flagByte (bandInForce s).2.quiet

/-- An optional sequence number. -/
def optSeq (n : Option Nat) : List Byte := optional 4 (n.map u32)

/-- A demand limit: whether one is in force, its cap, and the whole minutes left, rounded up (R82, R177). With none in
force the cap and the minutes are sent as 0, under the one flag and no flag of their own (log 8). -/
def demandBytes (s : State) : List Byte :=
  match s.lba.demand with
  | some d => flagByte true ++ u16 d.cap ++ u8 ((d.left + 599) / 600)
  | none => flagByte false ++ u16 0 ++ u8 0

/-- One phase record as Program Read gives it, each field by R182; the packed flags of R181 are Program Write's body
alone (R33; log 8). -/
def phaseBytes (f : Phase) : List Byte :=
  u8 f.lu ++ u8 f.wu ++ u8 f.minutes ++ flagByte f.heating ++ flagByte f.sheddable ++ u8 f.shedLu

/-- The three derived figures of a program (R30). -/
def figureBytes (prog : Program) : List Byte := u8 (nominalMinutes prog) ++ u8 (peakLu prog) ++ u8 (peakWu prog)

/-! ### HLP -/

/-- The vendor code, the model code and the revision (R176). -/
def identityBytes : List Byte := u16 4416 ++ u8 24 ++ u8 3

/-- Identify (R176). -/
def reqIdentify (s : State) : State × Reply := accept s (identityBytes ++ wordBytes s.nv.serial)

/-- Part Reset: the identity codes; the reset follows when the reply has been sent (R169). -/
def reqPartReset (s : State) : State × Reply := accept s identityBytes

/-- Attention Read (R175). -/
def reqAttentionRead (s : State) : State × Reply :=
  accept s (flagBytes s.hlp.flags ++ flagBytes s.hlp.enables ++ flagByte (attn s))

/-- Attention Clear; bits 11 to 15 of the mask are ignored (R175, R181). -/
def reqAttentionClear (mask : Half) (s : State) : State × Reply :=
  let s := { s with hlp := { s.hlp with flags := s.hlp.flags &&& ~~~(mask.setWidth 11) } }
  accept s (flagBytes s.hlp.flags ++ flagByte (attn s))

/-- Attention Enable (R175). -/
def reqAttentionEnable (mask : Half) (s : State) : State × Reply :=
  let s := { s with hlp := { s.hlp with enables := mask.setWidth 11 } }
  accept s (flagBytes s.hlp.flags ++ flagBytes s.hlp.enables ++ flagByte (attn s))

/-- How many positions satisfy a test. -/
def countPositions (test : Pos → Bool) : Nat := (positionsWhere test).length

/-- Which occupancy a position has: 0 VACANT, 1 CLAIMED, 2 LIVE, 3 UNLOADING. -/
def occupancyCode : Occupancy → Byte
  | .vacant => 0
  | .claimed _ => 1
  | .live _ => 2
  | .unloading _ => 3

/-- Status: time and mode, and the room lines (R177). -/
def statusTime (s : State) : List Byte :=
  flagByte s.rcs.clockSet ++ wordBytes s.rcs.epoch ++ u16 s.rcs.minuteOfWeek ++ u8 (secondsToBoundary s) ++ bandBytes s
    ++ [roomModeCode s.rcs.mode, effectiveModeCode (effectiveMode s)]
    ++ [lineStateCode s.fm.floodActive, lineStateCode s.fm.stopActive]

/-- Status: positions and sessions (R177). -/
def statusPositions (s : State) : List Byte :=
  let presence := fun k => u8 (countPositions fun p => (posAt s p).presence == k)
  let occupancy := fun k => u8 (countPositions fun p => occupancyCode (posAt s p).occupancy == k)
  let live := fun k => u8 ((liveSessions s).filter fun ses => ses.state == k).length
  presence .absent ++ presence .enrolled ++ presence .duplicate
    ++ occupancy 0 ++ occupancy 1 ++ occupancy 2 ++ occupancy 3
    ++ live .waitingBudget ++ live .starting ++ live .running ++ live .suspended
    ++ u8 (countPositions fun p => lockoutAt s p) ++ u8 (countPositions fun p => serviceAt s p == .outOfService)

/-- Status: the budget (R177). -/
def statusBudget (s : State) : List Byte :=
  u16 s.nv.feedCap ++ u16 s.nv.waterCap ++ demandBytes s ++ u16 (effectiveCap s) ++ u16 (electricSum s)
    ++ u16 (waterSum s) ++ flagByte s.lba.overCap ++ u8 s.lba.restoreList.length ++ u8 s.lba.stepList.length
    ++ u8 s.lba.startQueue.length ++ u32 (measuredTotal s)

/-- The number of directives held back by all blocks together (R115). -/
def heldBackCount (s : State) : Nat := (allBlocks.map fun b => (heldOf b s).length).sum

/-- Status: the loop, and the journal and faults (R177). -/
def statusLoop (s : State) : List Byte :=
  [loopCode s.rlc.loop, s.rlc.sweepNo, s.rlc.lastGood] ++ u8 s.rlc.queue.length ++ u16 (heldBackCount s)
    ++ u16 s.nv.journal.length ++ optSeq (oldestSeq s.nv) ++ optSeq (newestSeq s.nv) ++ u32 s.nv.nextSeq
    ++ flagByte s.nv.exhausted ++ u16 (journalOccupancy s.nv) ++ u8 s.fm.ring.length

/-- Status: terminals, accounts and attention (R177). A terminal's state is IDLE (0) or WAITING (1). -/
def statusLines (s : State) : List Byte :=
  flagByte (lineOf s .one).flight.isSome ++ flagByte (lineOf s .two).flight.isSome ++ u8 s.cru.wanted.length
    ++ u8 (cachedAccounts s).length ++ u8 ((cachedAccounts s).filter isPinned).length
    ++ flagBytes s.hlp.flags ++ flagBytes s.hlp.enables ++ flagByte (attn s)

/-- Status (R177). -/
def reqStatus (s : State) : State × Reply :=
  accept s (statusTime s ++ statusPositions s ++ statusBudget s ++ statusLoop s ++ statusLines s)

/-! ### RCS -/

/-- Clock Set (R157). -/
def reqClockSet (epoch : Word) (minuteOfWeek : Half) (s : State) : State × Reply :=
  if 10079 < minuteOfWeek.toNat then refuse .badValue s
  else
    let s := { s with rcs := { s.rcs with clockSet := true, epoch := epoch, minuteOfWeek := minuteOfWeek.toNat } }
    accept s (wordBytes epoch ++ halfBytes minuteOfWeek ++ u8 (secondsToBoundary s) ++ bandBytes s
      ++ [effectiveModeCode (effectiveMode s)])

/-- The mode that Room Mode Set asks for: OPEN or CLOSED (R164). -/
def askedMode (b : Byte) : Option RoomMode := if b = 0 then some .opened else if b = 1 then some .closed else none

/-- Room Mode Set (R164). Where the room leaves ALARM, FM withdraws its HALT_WATERs (R136). -/
def reqRoomModeSet (mode : Byte) (s : State) : State × Reply :=
  match askedMode mode with
  | none => refuse .badValue s
  | some m =>
    if s.rcs.mode = .alarm ∧ floodCondition s = true then refuse .state s
    else if m = .opened ∧ stopCondition s = true then refuse .state s
    else
      let t := setMode m (if s.rcs.mode = .alarm then withdrawHaltWater s else s)
      accept t [roomModeCode t.rcs.mode, effectiveModeCode (effectiveMode t)]

/-- A band entry's fields, zeros when absent. -/
def bandEntryBytes (b : Option Band) : List Byte :=
  match b with
  | some b => flagByte true ++ u16 b.start ++ u8 b.mult ++ flagByte b.quiet
  | none => [0, 0, 0, 0, 0]

/-- The band table with one entry replaced. -/
def bandsWith (s : State) (i : Fin 8) (b : Option Band) : Vector (Option Band) 8 := s.nv.bands.set i b

/-- An accepted Band Write. -/
def storeBand (i : Fin 8) (b : Option Band) (clamped : Bool) (s : State) : State × Reply :=
  let s := writeNv (fun nv => { nv with bands := nv.bands.set i b }) s
  accept s (bandEntryBytes b ++ flagByte clamped ++ bandBytes s)

/-- An index below 8. -/
def indexOf (b : Byte) : Option (Fin 8) := if h : b.toNat < 8 then some ⟨b.toNat, h⟩ else none

/-- Band Write (R159). -/
def reqBandWrite (index : Byte) (entry : Option BandFields) (s : State) : State × Reply :=
  match indexOf index with
  | none => refuse .badValue s
  | some i =>
    match entry with
    | none => if presentBands (bandsWith s i none) = [] then refuse .badValue s else storeBand i none false s
    | some f =>
      if 10079 < f.start.toNat
          ∨ ((presentBands s.nv.bands).any fun e => e.1 != i && e.2.start == f.start.toNat) = true then
        refuse .badValue s
      else
        let mult := clampNat 50 250 f.mult.toNat
        storeBand i (some { start := f.start.toNat, mult, quiet := f.quiet }) (mult != f.mult.toNat) s

/-! ### TU -/

/-- Whether a session record, CLAIMED or live, names a program (R32). -/
def programUsers (s : State) (id : ProgramId) : Nat :=
  countPositions fun p =>
    match (posAt s p).occupancy with
    | .claimed c => c.program == id
    | .live ses => ses.program == id
    | _ => false

/-- A phase as stored: its shed draw is 0 where it is not sheddable (R31). Bits 2 to 7 of its flag byte, which R181 does
not name, are ignored (log 53). -/
def storedPhase (f : PhaseFields) : Phase :=
  let sheddable := f.flags.getLsbD 1
  { lu := f.lu.toNat, wu := f.wu.toNat, minutes := f.minutes.toNat, heating := f.flags.getLsbD 0, sheddable,
    shedLu := if sheddable then f.shedLu.toNat else 0 }

/-- A phase record that R31 accepts in a program of a class. -/
def phaseValid (cls : MachineClass) (f : PhaseFields) : Bool :=
  decide (f.lu.toNat ≤ 120 ∧ f.wu.toNat ≤ 40 ∧ 1 ≤ f.minutes.toNat ∧ f.minutes.toNat ≤ 120)
    && !(cls == .washer && f.flags.getLsbD 1) && (!f.flags.getLsbD 1 || decide (f.shedLu.toNat ≤ f.lu.toNat))

/-- A program record that R31 accepts, given its class. -/
def programValid (cls : MachineClass) (f : ProgramFields) : Bool :=
  decide (f.base.toNat ≤ 20000) && !(cls == .dryer && decide (200 < f.rate.toNat))
    && decide (1 ≤ f.phases.length ∧ f.phases.length ≤ 6) && f.phases.all (phaseValid cls)
    && decide ((f.phases.map fun x => x.minutes.toNat).sum ≤ 240)

/-- The program as stored: a WASHER's Q is 0 (R31). -/
def storedProgram (cls : MachineClass) (f : ProgramFields) : Program :=
  { cls, base := f.base.toNat, rate := if cls = .washer then 0 else f.rate.toNat, phases := f.phases.map storedPhase }

/-- Whether a value was stored other than as written (R31). -/
def storedOtherwise (cls : MachineClass) (f : ProgramFields) : Bool :=
  (cls == .washer && f.rate != 0) || f.phases.any fun x => !x.flags.getLsbD 1 && x.shedLu != 0

/-- A program record written. -/
def storeProgram (id : ProgramId) (prog : Option Program) : State → State :=
  writeNv fun nv => { nv with programs := nv.programs.set id prog }

/-- Program Write: validation, then the in-use test (R31, R32). -/
def reqProgramWrite (id : Byte) (record : Option ProgramFields) (s : State) : State × Reply :=
  match programIdOf id with
  | none => refuse .badValue s
  | some pid =>
    match record with
    | none =>
      if 0 < programUsers s pid then refuse .state s
      else
        let (nominal, lu, wu) := (Config.absentFigures id)
        accept (storeProgram pid none s) ([id, nominal, lu, wu] ++ flagByte false)
    | some f =>
      match classOf f.cls with
      | none => refuse .badValue s
      | some cls =>
        if programValid cls f = false then refuse .badValue s
        else if 0 < programUsers s pid then refuse .state s
        else accept (storeProgram pid (some (storedProgram cls f)) s)
          ([id] ++ figureBytes (storedProgram cls f) ++ flagByte (storedOtherwise cls f))

/-- Program Read (R33). -/
def reqProgramRead (id : Byte) (s : State) : State × Reply :=
  match programIdOf id with
  | none => refuse .badValue s
  | some pid =>
    match programAt s pid with
    | none => accept s (flagByte false)
    | some prog =>
      accept s (flagByte true ++ [classCode prog.cls] ++ u16 prog.base ++ u8 prog.rate
        ++ counted (prog.phases.map phaseBytes) ++ figureBytes prog ++ u8 (programUsers s pid))

/-! ### CRU -/

/-- A range entry's fields, zeros when absent. -/
def rangeEntryBytes (e : Option RangeEntry) : List Byte :=
  match e with
  | some e => flagByte true ++ wordBytes e.low ++ wordBytes e.high ++ [rangeClassCode e.cls]
  | none => List.replicate 10 0

/-- An accepted Range Write. -/
def storeRange (i : Fin 8) (e : Option RangeEntry) (s : State) : State × Reply :=
  accept (writeNv (fun nv => { nv with ranges := nv.ranges.set i e }) s) (rangeEntryBytes e)

/-- Range Write (R45). -/
def reqRangeWrite (index : Byte) (entry : Option RangeFields) (s : State) : State × Reply :=
  match indexOf index with
  | none => refuse .badValue s
  | some i =>
    match entry with
    | none => storeRange i none s
    | some f =>
      match rangeClassOf f.cls with
      | none => refuse .badValue s
      | some cls =>
        if f.high.toNat < f.low.toNat then refuse .badValue s
        else storeRange i (some { low := f.low, high := f.high, cls }) s

/-- The charges that the horizon scan sums (R59, R155). -/
def horizonSum (nv : Retained) (card horizon : Word) : Nat :=
  ((horizonRecords nv card horizon).map SettlementRecord.charge).sum

/-- A load written onto an existing entry (R60). -/
def loadExisting (i : Fin 48) (a : Account) (balance : Int) (status : AccountStatus) (s : State) : State :=
  useEntry i (setEntry i (some { a with balance, status, origin := .host }) s)

/-- A matched wanted entry leaves the list and its requests resume (R61). -/
def matchWanted (card : Word) (s : State) : State :=
  match wantedFor s card with
  | none => s
  | some w => serveAskers card (askersOf s w.waiters) (removeWanted card s)

/-- The held amount of a card's entry as it stands. -/
def heldAmount (s : State) (card : Word) : Nat := ((findEntry s card).map fun e => e.2.held).getD 0

/-- An accepted load, whose way is known, completes: the waiting requests resume, and the reply follows, with 1 for an
entry that existed before the load (R60, R61; log 8). -/
def finishLoad (card horizon : Word) (balance : Int) (existed : Bool) (before after : State) : State × Reply :=
  acceptClosed (matchWanted card after) fun t =>
    wordBytes card ++ i32 balance ++ u32 (horizonSum before.nv card horizon)
      ++ u16 (horizonRecords before.nv card horizon).length ++ u32 (heldAmount t card) ++ flagByte existed
      ++ flagByte (wantedFor before card).isSome

/-- Account Load (R59 to R61). -/
def reqAccountLoad (card balance : Word) (status : Byte) (horizon : Word) (s : State) : State × Reply :=
  if balance.toInt < -999999 ∨ 999999 < balance.toInt then refuse .badValue s
  else match accountStatusOf status with
    | none => refuse .badValue s
    | some st =>
      let effective := clampBalance (balance.toInt - horizonSum s.nv card horizon)
      match findEntry s card with
      | some (i, a) => finishLoad card horizon effective true s (loadExisting i a effective st s)
      | none =>
        match allocate s card with
        | none => refuse .tableFull s
        | some i => finishLoad card horizon effective false s (createEntry i card effective st .host s)

/-- Account Credit (R63). -/
def reqAccountCredit (card amount : Word) (s : State) : State × Reply :=
  if amount.toNat = 0 ∨ 999999 < amount.toNat then refuse .badValue s
  else match findEntry s card with
    | none => refuse .notCached s
    | some (i, a) =>
      let balance := min (a.balance + amount.toNat) 999999
      accept (setEntry i (some { a with balance }) s) (wordBytes card ++ u32 (balance - a.balance).toNat ++ i32 balance)

/-- Account Evict (R64). -/
def reqAccountEvict (card : Word) (s : State) : State × Reply :=
  match findEntry s card with
  | none => refuse .notCached s
  | some (i, a) =>
    if isPinned a then refuse .pinned s else accept (setEntry i none s) (wordBytes card ++ i32 a.balance)

/-- Account Status (R65). -/
def reqAccountStatus (card : Word) (status : Byte) (s : State) : State × Reply :=
  match accountStatusOf status with
  | none => refuse .badValue s
  | some st =>
    match findEntry s card with
    | none => refuse .notCached s
    | some (i, a) => accept (setEntry i (some { a with status := st }) s) (wordBytes card ++ [accountStatusCode st])

/-- Wanted Read (R53). -/
def reqWantedRead (s : State) : State × Reply :=
  accept s (counted (s.cru.wanted.map fun w => wordBytes w.card ++ u8 w.waiters.length ++ u8 w.age))

/-! ### Settings (R178) -/

/-- What a setting's value stores: the settings with it, or none for a value that is not one of its named values.
CardSessionLimit is clamped and then raised to the greatest count given (R51). -/
def storeSetting (greatest : Nat) (number : Byte) (value : Half) (s : Settings) : Option Settings :=
  let v := value.toNat
  match number.toNat with
  | 1 => some { s with extensionMax := clampNat 0 90 v }
  | 2 => some { s with quoteCeiling := clampNat 1 60000 v }
  | 3 => some { s with graceMinutes := clampNat 0 10 v }
  | 4 => some { s with overrunTolerance := clampNat 0 60 v }
  | 5 => some { s with startWaitLimit := clampNat 1 30 v }
  | 6 => some { s with silenceLimit := clampNat 10 600 v }
  | 7 => some { s with offlineAllowance := clampNat 0 5000 v }
  | 8 => some { s with cardSessionLimit := max (clampNat 1 4 v) greatest }
  | 9 => if v = 0 then some { s with powerUpMode := .opened }
    else if v = 1 then some { s with powerUpMode := .closed } else none
  | 10 => if v = 0 then some { s with floodPolarity := .activeHigh }
    else if v = 1 then some { s with floodPolarity := .activeLow } else none
  | 11 => if v = 0 then some { s with stopPolarity := .activeHigh }
    else if v = 1 then some { s with stopPolarity := .activeLow } else none
  | 12 => if v = 0 then some { s with floodReportRelease := .on }
    else if v = 1 then some { s with floodReportRelease := .off } else none
  | 13 => if v = 0 then some { s with stopReportRelease := .on }
    else if v = 1 then some { s with stopReportRelease := .off } else none
  | _ => none

/-- The stored value of a setting, as a two-byte number. -/
def settingValue (s : Settings) (number : Byte) : Nat :=
  match number.toNat with
  | 1 => s.extensionMax
  | 2 => s.quoteCeiling
  | 3 => s.graceMinutes
  | 4 => s.overrunTolerance
  | 5 => s.startWaitLimit
  | 6 => s.silenceLimit
  | 7 => s.offlineAllowance
  | 8 => s.cardSessionLimit
  | 9 => if s.powerUpMode = .opened then 0 else 1
  | 10 => if s.floodPolarity = .activeHigh then 0 else 1
  | 11 => if s.stopPolarity = .activeHigh then 0 else 1
  | 12 => if s.floodReportRelease = .on then 0 else 1
  | 13 => if s.stopReportRelease = .on then 0 else 1
  | _ => 0

/-- The settings carried, stored together; none when one of them is refused. -/
def storeSettings (greatest : Nat) : List (Byte × Half) → Settings → Option Settings
  | [], s => some s
  | (n, v) :: rest, s => (storeSetting greatest n v s).bind (storeSettings greatest rest)

/-- Whether a setting is named twice. -/
def namedTwice : List (Byte × Half) → Bool
  | [] => false
  | (n, _) :: rest => rest.any (fun e => e.1 == n) || namedTwice rest

/-- What a lowered SilenceLimit sets off: the measures at or beyond it reach it (R122). -/
def silenceTakesEffect (old : Settings) (s : State) : State :=
  if s.nv.settings.silenceLimit < old.silenceLimit then
    forPositions allPositions (fun p s => if silenceDue s p then silenceReached p s else s) s
  else s

/-- What the new settings set off in the taking, given the old: silence at a lowered limit, then each line whose
polarity changed judged afresh (R122, R144, R178; order in log 38). -/
def settingsTakeEffect (old : Settings) (s : State) : State :=
  let s := silenceTakesEffect old s
  let s := if s.nv.settings.floodPolarity = old.floodPolarity then s else judgeFlood s
  if s.nv.settings.stopPolarity = old.stopPolarity then s else judgeStop s

/-- Settings Write (R178). -/
def reqSettingsWrite (settings : List (Byte × Half)) (s : State) : State × Reply :=
  if settings.length < 1 ∨ 13 < settings.length then refuse .badLength s
  else if namedTwice settings then refuse .badValue s
  else match storeSettings (greatestCardCount s) settings s.nv.settings with
    | none => refuse .badValue s
    | some new =>
      let s := settingsTakeEffect s.nv.settings (writeNv (fun nv => { nv with settings := new }) s)
      accept s (counted (settings.map fun e =>
        [e.1] ++ u16 (settingValue new e.1) ++ flagByte (settingValue new e.1 != e.2.toNat)))

/-! ### LBA -/

/-- Trim Set (R101). A byte in two's complement lies within the range. At an ABSENT position the trim is only stored
(R101; log 34). -/
def reqTrimSet (position trim : Byte) (s : State) : State × Reply :=
  withPosition position s fun p =>
    let value := clampInt (-128) 127 trim.toInt
    let s := writeNv (fun nv => { nv with trims := nv.trims.set p value }) s
    let s := modPos p (fun q =>
      if q.presence = .absent then q else { q with corrected := correctedFigure q.measured value }) s
    accept s ([position] ++ i8 value ++ u16 (posAt s p).corrected)

/-- What follows a change of caps in the replies of Feed Set and Demand Limit. -/
def shedBytes (s : State) (count : Nat) : List Byte := u8 count ++ flagByte s.lba.overCap

/-- Feed Set (R81, R84). -/
def reqFeedSet (feedCap waterCap : Half) (s : State) : State × Reply :=
  let feed := clampNat 0 2000 feedCap.toNat
  let water := clampNat 0 500 waterCap.toNat
  let (s, count) := capChanged (effectiveCap s) s.nv.waterCap
    (writeNv (fun nv => { nv with feedCap := feed, waterCap := water }) s)
  acceptClosed s fun t =>
    u16 feed ++ u16 water ++ u16 (effectiveCap t) ++ u16 (electricSum t) ++ u16 (waterSum t) ++ shedBytes t count

/-- A change of the demand limit, with the number of dryers shed (R82 to R84). -/
def setDemand (d : Option Demand) (s : State) : State × Nat :=
  capChanged (effectiveCap s) s.nv.waterCap (modLba (fun l => { l with demand := d }) s)

/-- The demand limit that a request asks for; minutes 0 cancels (R82). -/
def askedDemand (cap : Half) (minutes : Byte) : Option Demand :=
  if minutes = 0 then none else some { cap := min cap.toNat 2000, left := min minutes.toNat 240 * 600 }

/-- Demand Limit (R82, R84). The reply has the fields of R82's list, and not the electrical sum that Event 1 of 5.7 names
beside them (log 55). -/
def reqDemandLimit (cap : Half) (minutes : Byte) (s : State) : State × Reply :=
  let (s, count) := setDemand (askedDemand cap minutes) s
  acceptClosed s fun t => demandBytes t ++ u16 (effectiveCap t) ++ shedBytes t count

/-! ### SM -/

/-- Whether the session at a position is of card class ACCOUNT or FREE (R4). -/
def holdsResident (s : State) (p : Pos) : Bool :=
  match sessionClassAt s p with
  | some cls => cls != .service
  | none => false

/-- Position Service (R4, R179). -/
def reqPositionService (position marking : Byte) (s : State) : State × Reply :=
  withPosition position s fun p =>
    match serviceOf marking with
    | none => refuse .badValue s
    | some m =>
      if m = .outOfService ∧ holdsResident s p = true then refuse .state s
      else
        let before := serviceAt s p
        let t := if before = m then s else writeNv (fun nv => { nv with service := nv.service.set p m }) s
        accept t [position, serviceCode m, serviceCode before]

/-- The result codes of a Session Cancel: CLAIM_DROPPED and ENDED (R26). -/
def claimDroppedCode : Byte := 0
def endedCode : Byte := 1

/-- A Session Cancel at a position (R26). -/
def cancelAt (position : Byte) (number : Half) (p : Pos) (s : State) : State × Reply :=
  match (posAt s p).occupancy with
  | .claimed c =>
    if c.number = number then
      accept (dropClaim p .cancelled s) ([position] ++ halfBytes number ++ [claimDroppedCode])
    else refuse .state s
  | .live ses =>
    if ses.number = number then
      let record := settlementOf s p ses .hostCancel none
      accept (endSession p .hostCancel none s)
        ([position] ++ halfBytes number ++ [endedCode, outcomeCode .hostCancel] ++ u32 record.seq ++ u16 record.charge)
    else refuse .state s
  | _ => refuse .state s

/-- Session Cancel (R26). -/
def reqSessionCancel (position : Byte) (number : Half) (s : State) : State × Reply :=
  withPosition position s fun p => cancelAt position number p s

/-! ### SJ -/

/-- Journal Read (R152, R184). -/
def reqJournalRead (start : Word) (count : Byte) (s : State) : State × Reply :=
  if count.toNat = 0 ∨ 8 < count.toNat then refuse .badValue s
  else
    let records := (s.nv.journal.filter fun r => decide (start.toNat ≤ r.seq)).take count.toNat
    accept s (u8 records.length ++ u16 s.nv.journal.length ++ u32 ((oldestSeq s.nv).getD 0) ++ u32 ((newestSeq s.nv).getD 0)
      ++ u32 s.nv.nextSeq ++ (records.map journalBytes).flatten)

/-- Journal Release (R153). -/
def reqJournalRelease (number : Word) (s : State) : State × Reply :=
  if s.nv.exhausted = false ∧ s.nv.nextSeq ≤ number.toNat then refuse .range s
  else
    let kept := s.nv.journal.filter fun r => decide (number.toNat < r.seq)
    let removed := s.nv.journal.length - kept.length
    let t := if removed = 0 then s else writeNv (fun nv => { nv with journal := kept }) s
    accept t (u16 removed ++ u16 kept.length ++ optSeq (oldestSeq t.nv))

/-! ### FM -/

/-- Fault Read (R140, R184). -/
def reqFaultRead (count : Byte) (s : State) : State × Reply :=
  if count.toNat = 0 ∨ 8 < count.toNat then refuse .badValue s
  else
    let records := s.fm.ring.take count.toNat
    let t := modFm (fun f => { f with ring := f.ring.drop count.toNat }) s
    accept t (u8 records.length ++ u8 t.fm.ring.length ++ (records.map faultBytes).flatten)

/-- The position that a roster entry stands for; none is the input lines. -/
def rosterPos (e : RosterEntry) : Option Pos := posOfNumber e.position.val

/-- A roster entry as Roster Read gives it (R141). The item of position 0 holds no present-cause set (log 8). -/
def rosterBytes (s : State) (e : RosterEntry) : List Byte :=
  match rosterPos e with
  | some p => u8 e.position.val ++ u8 e.count ++ halfBytes (causeMask (posAt s p).causes) ++ flagByte (lockoutAt s p)
  | none => u8 0 ++ u8 e.count ++ flagByte s.fm.floodActive ++ flagByte s.fm.stopActive

/-- Roster Read (R141). -/
def reqRosterRead (s : State) : State × Reply := accept s (counted (s.fm.roster.map (rosterBytes s)))

/-- Whether Roster Clear keeps an entry (R142). -/
def rosterKeeps (s : State) (e : RosterEntry) : Bool :=
  match rosterPos e with
  | some p => !(posAt s p).causes.isEmpty
  | none => s.fm.floodActive || s.fm.stopActive

/-- Roster Clear (R142). -/
def reqRosterClear (s : State) : State × Reply :=
  let kept := s.fm.roster.filter (rosterKeeps s)
  let gone := s.fm.roster.filter fun e => !rosterKeeps s e
  let numbers := fun l : List RosterEntry => counted (l.map fun e => u8 e.position.val)
  accept (modFm (fun f => { f with roster := kept }) s) (numbers gone ++ numbers kept)

/-- Position Clear Lockout (R143). -/
def reqPositionClearLockout (position : Byte) (s : State) : State × Reply :=
  withPosition position s fun p =>
    if (posAt s p).causes.any locks then refuse .causePresent s
    else
      let t := if lockoutAt s p then writeNv (fun nv => { nv with lockout := nv.lockout.set p false }) s else s
      accept t ([position] ++ flagByte (lockoutAt s p))

/-! ### RLC -/

/-- Loop Restart (R124). -/
def reqLoopRestart (s : State) : State × Reply := accept (restartLoop s) (u8 s.rlc.queue.length)

/-! ### Position Read (R180) -/

/-- Position state, with the class or none as an optional field (R180, R182; log 8). -/
def readState (s : State) (p : Pos) : List Byte :=
  let q := posAt s p
  let tag := match q.occupancy with
    | .unloading tag => some [tag]
    | _ => none
  [presenceCode q.presence] ++ optional 4 (q.serial.map wordBytes) ++ optional 1 (q.cls.map fun c => [classCode c])
    ++ [serviceCode (serviceAt s p)] ++ flagByte (lockoutAt s p) ++ [occupancyCode q.occupancy] ++ optional 1 tag

/-- The bypass counts of the position's entries: start queue, step list, restore list (R180). -/
def readBypass (s : State) (p : Pos) : List Byte :=
  let start := (s.lba.startQueue.find? fun e => e.pos == p).map fun e => u8 e.bypass
  let step := (s.lba.stepList.find? fun e => e.pos == p).map fun e => u8 e.bypass
  let restore := (s.lba.restoreList.find? fun e => e.pos == p).map fun e => u8 e.bypass
  optional 1 start ++ optional 1 step ++ optional 1 restore

/-- The state byte of a session: CLAIMED, then the live states (Table 1-4). -/
def sessionStateCode (l : Option LiveState) : Byte :=
  match l with
  | none => 0
  | some k => liveCode k + 1

/-- The session of a position (R180); a position with none gives no session fields. -/
def readSession (s : State) (p : Pos) : List Byte :=
  match (posAt s p).occupancy with
  | .claimed c =>
    halfBytes c.number ++ [sessionStateCode none] ++ wordBytes c.card ++ [cardClassCode c.cls] ++ optional 1 none
      ++ u8 c.program.val ++ u8 c.ext ++ optional 1 none ++ readBypass s p ++ optional 1 (some [terminalCode c.terminal])
  | .live ses =>
    halfBytes ses.number ++ [sessionStateCode (some ses.state)] ++ wordBytes ses.card ++ [cardClassCode ses.cls]
      ++ optional 1 (ses.origin.map fun o => [originCode o]) ++ u8 ses.program.val ++ u8 ses.ext
      ++ u8 ses.mult ++ u16 ses.quote ++ u16 ses.nominal ++ u8 ses.phase ++ flagByte ses.shed
      ++ optional 1 (ses.pendingStep.map u8) ++ u16 ses.r ++ u16 ses.s ++ u16 ses.z ++ u16 ses.u ++ u8 ses.w
      ++ wordBytes ses.holdMinute ++ optional 4 (ses.startMinute.map wordBytes)
      ++ optional 1 ((placeOf s p).map u8) ++ readBypass s p ++ optional 1 none
  | _ => []

/-- The budget of a position (R180). -/
def readBudget (s : State) (p : Pos) : List Byte :=
  let q := posAt s p
  u8 q.lu ++ u8 q.wu ++ flagByte q.shed ++ i8 (trimAt s p) ++ u16 q.measured ++ u16 q.corrected
    ++ flagByte (isSettled s p)

/-- The loop's view of a position; the silence measure is rounded down to whole seconds (R180; log 52). -/
def readLoop (s : State) (p : Pos) : List Byte :=
  let q := posAt s p
  flagByte q.hold ++ u8 q.counter.toNat ++ [q.accepted]
    ++ u8 (s.rlc.queue.filter fun e => e.dir.pos == p).length ++ u8 q.missing ++ u16 (q.silence / 10)

/-- The faults of a position (R180). -/
def readFaults (s : State) (p : Pos) : List Byte :=
  let q := posAt s p
  halfBytes (causeMask q.causes) ++ u8 q.low ++ optional 1 (q.startCount.map u8)
    ++ optional 11 (q.lastReport.map snapshotBytes)

/-- Position Read (R180). -/
def reqPositionRead (position : Byte) (s : State) : State × Reply :=
  withPosition position s fun p =>
    accept s (readState s p ++ readSession s p ++ readBudget s p ++ readLoop s p ++ readFaults s p)

end Sys2Proof.Machine
end

