-- ==== Sys2Proof/Machine/HostLink.lean ====
section
/-!
DEFINITION. The Host Link Port: serving requests, the waiting request, LINK_BUSY, and replies that leave the line
(R171 to R173).
-/
namespace Sys2Proof.Machine

/-- A request's taking by its owning block (Table 11-3). -/
def takeRequest (r : Request) (s : State) : State × Reply :=
  match r with
  | .identify => reqIdentify s
  | .status => reqStatus s
  | .attentionRead => reqAttentionRead s
  | .attentionClear mask => reqAttentionClear mask s
  | .attentionEnable mask => reqAttentionEnable mask s
  | .clockSet epoch minute => reqClockSet epoch minute s
  | .roomModeSet mode => reqRoomModeSet mode s
  | .programWrite id record => reqProgramWrite id record s
  | .programRead id => reqProgramRead id s
  | .bandWrite index entry => reqBandWrite index entry s
  | .rangeWrite index entry => reqRangeWrite index entry s
  | .settingsWrite settings => reqSettingsWrite settings s
  | .trimSet position trim => reqTrimSet position trim s
  | .feedSet feedCap waterCap => reqFeedSet feedCap waterCap s
  | .demandLimit cap minutes => reqDemandLimit cap minutes s
  | .accountLoad card balance status horizon => reqAccountLoad card balance status horizon s
  | .accountCredit card amount => reqAccountCredit card amount s
  | .accountEvict card => reqAccountEvict card s
  | .accountStatus card status => reqAccountStatus card status s
  | .wantedRead => reqWantedRead s
  | .positionService position marking => reqPositionService position marking s
  | .positionClearLockout position => reqPositionClearLockout position s
  | .positionRead position => reqPositionRead position s
  | .sessionCancel position number => reqSessionCancel position number s
  | .journalRead start count => reqJournalRead start count s
  | .journalRelease number => reqJournalRelease number s
  | .faultRead count => reqFaultRead count s
  | .rosterRead => reqRosterRead s
  | .rosterClear => reqRosterClear s
  | .loopRestart => reqLoopRestart s
  | .partReset => reqPartReset s

/-- The frame of a reply: the type plus 0x80 and its body, or an ERROR (R173, R181). -/
def replyFrame (kind : Byte) (reply : Reply) : Frame :=
  match reply with
  | .ok body => { kind := kind + 0x80, body }
  | .error code => { kind := 0xFF, body := [kind, errorCode code] }

/-- A change to HLP's own state. -/
def modHlp (f : Hlp → Hlp) (s : State) : State := { s with hlp := f s.hlp }

/-- The taking of a held request: its effect and its reply; HLP itself answers one that failed its tests (R173). -/
def takeHeld (r : HostRequest) (s : State) : State × Reply :=
  match r with
  | .good request => takeRequest request s
  | .bad _ code => (s, .error code)

/-- A request becomes the request being served and is taken; its reply leaves after the LINK_BUSY replies that arose
first (R172, 11.5). -/
def serve (r : HostRequest) (s : State) : State :=
  let (s, reply) := takeHeld r s
  modHlp (fun h => { h with
    served := some { request := r, reply := replyFrame (hostRequestType r) reply }, ahead := h.busy.length }) s

/-- The ERROR reply of a request that finds both places taken (R172). -/
def linkBusyFrame (r : HostRequest) : Frame := replyFrame (hostRequestType r) (.error .linkBusy)

/-- A good frame arrives: it is served, waits, is answered LINK_BUSY, or is discarded (R172). It waits where no other
does, however many LINK_BUSY replies are held (log 50). -/
def arrive (r : HostRequest) (s : State) : State :=
  if s.hlp.served.isNone then serve r s
  else if s.hlp.waiting.isNone then modHlp (fun h => { h with waiting := some r }) s
  else if s.hlp.busy.length < 4 then modHlp (fun h => { h with busy := h.busy ++ [linkBusyFrame r] }) s
  else s

/-- Bytes arrive on HOST_RX (R171). -/
def hostBytes (bytes : List Byte) (s : State) : State :=
  let (assembler, frames) := assemblerFeed s.hlp.assembler bytes
  frames.foldl (fun s f => arrive (requestOf f) s) (modHlp (fun h => { h with assembler := assembler }) s)

/-- The record leaving HOST_TX is a LINK_BUSY reply: one that arose before the served reply, or any while no reply is
served (R172). -/
def sendingBusy (s : State) : Bool := decide (0 < s.hlp.ahead) || (s.hlp.served.isNone && !s.hlp.busy.isEmpty)

/-- Part Reset is being served (R169). -/
def servesPartReset (s : State) : Bool :=
  match s.hlp.served with
  | some r => r.request == .good .partReset
  | none => false

/-- The last byte of a reply other than Part Reset's leaves HOST_TX (R172). -/
def replySent (s : State) : State :=
  if sendingBusy s then modHlp (fun h => { h with busy := h.busy.drop 1, ahead := h.ahead - 1 }) s
  else
    match s.hlp.served with
    | none => s
    | some _ =>
      let next := s.hlp.waiting
      let s := modHlp (fun h => { h with served := none, waiting := none }) s
      match next with
      | some r => serve r s
      | none => s

end Sys2Proof.Machine
end

