-- ==== Sys2Proof/Machine/Terminals.lean ====
section
/-!
DEFINITION. What the Terminal Line Interface does with each request (R69 to R79).
-/
namespace Sys2Proof.Machine

/-- A TAP_START or TAP_BALANCE whose frame arrives while 6 or more records wait is discarded whole (R68). -/
def lineFull (s : State) (t : Terminal) : Bool := decide (6 ≤ (lineOf s t).out.length)

/-- The terminal is WAITING (R70). -/
def isWaiting (s : State) (t : Terminal) : Bool := (lineOf s t).flight.isSome

/-- A TAP_START is taken (R70 to R73). -/
def takeTapStart (t : Terminal) (card : Word) (position program extension : Byte) (s : State) : State :=
  let refuse := fun r => pushAnswer t (refusedRecord tapStartType card position r) s
  if lineFull s t then s
  else if isWaiting s t then refuse .terminalBusy
  else match firstPass s card position program extension with
    | .error r => refuse r
    | .ok a =>
      let (s, c) := claimPosition t card a s
      resolveClaim t a.pos c s

/-- A TAP_BALANCE is taken (R58, R70, R77). -/
def takeTapBalance (t : Terminal) (card : Word) (s : State) : State :=
  let refuse := fun r => pushAnswer t (refusedRecord tapBalanceType card 0 r) s
  if lineFull s t then s
  else if isWaiting s t then refuse .terminalBusy
  else match cardClassOf (rangeClassAt s.nv card) with
    | none => refuse .cardBlocked
    | some .account => resolveAccount t card (.balance t) s
    | some cls => pushAnswer t (balanceClassRecord card cls) s

/-- The outcome of an abort by the session's state (R79). -/
def abortOutcome (ses : Session) : EndOutcome :=
  match ses.state with
  | .waitingBudget => .withdrawn
  | .starting => .withdrawn
  | .running => .userAbort
  | .suspended => .userAbort

/-- An abort of the session at a position (R79). The two records of one terminal stand in the order of R76. -/
def abortAt (t : Terminal) (card : Word) (p : Pos) (s : State) : State :=
  match (posAt s p).occupancy with
  | .claimed c => pushAnswer t (abortRecord card p .withdrawn c.number 0 0 0) (dropClaim p .withdrawn s)
  | .live ses =>
    let record := settlementOf s p ses (abortOutcome ses) none
    pushAnswer t (abortRecord card p record.outcome ses.number ses.quote record.charge record.seq)
      (endSession p (abortOutcome ses) none s)
  | _ => s

/-- Whether the session at a position names a card (R78). -/
def namesCard (s : State) (p : Pos) (card : Word) : Bool :=
  match cardAt s p with
  | some (c, _) => c == card
  | none => false

/-- A TAP_ABORT is taken, whatever the terminal's state (R70, R78, R79). -/
def takeTapAbort (t : Terminal) (card : Word) (position : Byte) (s : State) : State :=
  let refuse := fun r => pushAnswer t (refusedRecord tapAbortType card position r) s
  match posOfNumber position.toNat with
  | none => refuse .positionUnknown
  | some p => if namesCard s p card then abortAt t card p s else refuse .notYours

/-- The position byte in the head of a BAD_REQUEST: 0 for a balance enquiry, and for another type what the frame gives
no known place for (R181; log 10). -/
def badPosition (kind : Byte) (body : List Byte) : Byte :=
  if kind = tapBalanceType then 0 else Config.badRequestPosition kind body

/-- A good terminal frame is taken (R69). The card in the head of a BAD_REQUEST is what the frame gives no known place
for (log 10). -/
def takeTap (t : Terminal) (frame : Frame) (s : State) : State :=
  match tapOf frame with
  | .start card position program extension => takeTapStart t card position program extension s
  | .balance card => takeTapBalance t card s
  | .abort card position => takeTapAbort t card position s
  | .bad kind body =>
    pushAnswer t (refusedRecord kind (Config.badRequestCard kind body) (badPosition kind body) .badRequest) s

/-- Bytes arrive on a terminal's line (R67). -/
def terminalBytes (t : Terminal) (bytes : List Byte) (s : State) : State :=
  let (assembler, frames) := assemblerFeed (lineOf s t).assembler bytes
  frames.foldl (fun s f => takeTap t f s) (modLine t (fun l => { l with assembler := assembler }) s)

end Sys2Proof.Machine
end

