-- ==== Sys2Proof/Machine/Taking.lean ====
section
/-!
DEFINITION. One whole taking (00_scope.md 0.7.6, R165), the part's timers, power-up, warm reset and recovery
(chapter 10), and what passes while no command waits (log 1).
-/
namespace Sys2Proof.Machine

/-! ### A taking -/

/-- The part takes arrivals while its supply stands and RESET_N is not held (R165, R169). -/
def takes (s : State) : Bool := s.supply && !s.resetHeld

/-- A new event: every earlier taking's writes are complete, and those that follow are its own (R165; log 15). -/
def beginTaking (s : State) : State := { s with undo := [], recovering := false, boundary := false }

/-- One whole taking. While the part takes nothing, the arrival has no effect. -/
def taking (act : State → State) (s : State) : State :=
  if takes s then closeTaking (act (beginTaking s)) else beginTaking s

/-! ### Timers -/

/-- A demand limit expires (R83, R84). -/
def expireDemand (s : State) : State :=
  match s.lba.demand with
  | some _ => (setDemand none (setFlag .demandExpired s)).1
  | none => s

/-- The limits of R20 at a minute boundary, for one position. -/
def takeLimit (p : Pos) (s : State) : State :=
  match sessionAt s p with
  | some ses =>
    if waitedOut s ses then evaluateIfDue (endSession p .budgetTimeout none s)
    else if overran s ses then handCause p .overrun s
    else s
  | none => s

/-- A minute boundary (R156, R19, R20; order in log 38). The taking is marked as a boundary's own (log 3). -/
def minuteBoundary (s : State) : State :=
  let s := { s with boundary := true, rcs := { s.rcs with minuteLeft := 600 } }
  forPositions allPositions takeLimit (countMinutes (advanceClock s))

/-- The sweep timers of a tenth of a second: the return time of the sweep in flight, the retry of an enrol sweep, and
the sending of a running sweep (R104, R106, R107). -/
def sweepTimers (s : State) : State :=
  let s := if s.rlc.inFlight.isSome && decide (1 ≤ s.rlc.sweepClock) then badReturn s else s
  let s := if s.rlc.retryLeft = some 0 then sendEnrol s else s
  if s.rlc.loop = .running ∧ s.rlc.inFlight = none ∧ 5 ≤ s.rlc.sweepClock then sendRunning s else s

/-- A tenth of a second passes on every running timer, and a gap ends every half-assembled frame (R67, R171; logs 1
and 36). -/
def passTenth (s : State) : State :=
  let s := { s with
    rcs := { s.rcs with minuteLeft := s.rcs.minuteLeft - 1 }
    lba := { s.lba with demand := s.lba.demand.map fun d => { d with left := d.left - 1 } }
    cru := { s.cru with wanted := s.cru.wanted.map fun w => { w with age := min (w.age + 1) 80 } }
    rlc := { s.rlc with sweepClock := min (s.rlc.sweepClock + 1) 5, retryLeft := s.rlc.retryLeft.map (· - 1) }
    hlp := { s.hlp with assembler := .hunting }
    tli := { one := { s.tli.one with assembler := .hunting }, two := { s.tli.two with assembler := .hunting } } }
  forPositions allPositions (fun p => modPos p fun q =>
    if silenceRuns q && !q.silent then { q with silence := q.silence + 1 } else q) s

/-- The timers that run out in this tenth of a second, in the fixed order of log 1. -/
def fireTimers (s : State) : State :=
  let s := match s.lba.demand with
    | some d => if d.left = 0 then expireDemand s else s
    | none => s
  let expired := (s.cru.wanted.filter fun w => decide (80 ≤ w.age)).map Wanted.card
  let s := expired.foldl (fun s card => expireWanted card s) s
  let s := forPositions allPositions (fun p s => if silenceDue s p then silenceReached p s else s) s
  let s := if s.rcs.minuteLeft = 0 then minuteBoundary s else s
  sweepTimers s

/-- A minute boundary that falls while RESET_N is held advances the clock's values, and no session's counts (R169; log
17). -/
def heldBoundary (s : State) : State := advanceClock { beginTaking s with rcs := { s.rcs with minuteLeft := 600 } }

/-- The minute timer alone runs on while RESET_N is held (R169; log 17). -/
def tickHeld (s : State) : State :=
  if s.rcs.minuteLeft ≤ 1 then heldBoundary s
  else { beginTaking s with rcs := { s.rcs with minuteLeft := s.rcs.minuteLeft - 1 } }

/-- A tenth of a second with no command waiting (log 1). -/
def tick (s : State) : State :=
  if takes s then taking (fun s => fireTimers (passTenth s)) s
  else if s.supply then tickHeld s
  else beginTaking s

/-! ### Power-up, warm reset and recovery (R166 to R170) -/

/-- Whether the newest journal record is the slot's session's own (R167, case 1). -/
def alreadyRecorded (nv : Retained) (p : Pos) (ses : Session) : Bool :=
  match nv.journal.getLast? with
  | some r => r.number == ses.number && r.position == p && r.card == ses.card && r.holdMinute == ses.holdMinute
  | none => false

/-- Recovery empties a slot and makes its position UNLOADING (R167). -/
def emptySlot (p : Pos) (ses : Session) (s : State) : State :=
  setOccupancy p (.unloading (tagOf ses.number)) (writeSlot p none s)

/-- Recovery takes a slot whose session's record is the newest: no record is written (R167, case 1). -/
def clearRecorded (p : Pos) (s : State) : State :=
  match s.nv.slots[p] with
  | some ses => if alreadyRecorded s.nv p ses then emptySlot p ses s else s
  | none => s

/-- Recovery takes a slot whose session has no record yet (R167, case 2). -/
def recoverSlot (outcome : EndOutcome) (p : Pos) (s : State) : State :=
  match s.nv.slots[p] with
  | some ses =>
    emptySlot p ses (writeNv (appended { settlementOf s p ses outcome none with terminal := none }) s)
  | none => s

/-- Recovery closes every slot. The one session that the newest record names is taken first, while that record is still
the newest, and the others in ascending order of position (R167; log 51). -/
def recoverSlots (outcome : EndOutcome) (s : State) : State :=
  forPositions allPositions (recoverSlot outcome) (forPositions allPositions clearRecorded s)

/-- The room mode that a reset gives (R162). -/
def resetMode (s : State) : RoomMode :=
  match s.nv.settings.powerUpMode with
  | .opened => .opened
  | .closed => .closed

/-- Every non-retained piece of state takes its value after reset, but for the clock (R166, R169, R170). -/
def freshVolatile (s : State) : State :=
  { s with
    undo := [], recovering := true, boundary := false, hlp := Hlp.fresh, fm := Fm.fresh, tli := Tli.fresh, cru := Cru.fresh,
    lba := Lba.fresh, rlc := Rlc.fresh, positions := Vector.replicate 24 Position.fresh,
    rcs := { s.rcs with mode := resetMode s } }

/-- Recovery closes the slots, FM samples both lines, and the loop begins to enrol
(R167, R168). While RESET_N is held the part sends nothing, and the loop stays DOWN (R169; log 16). -/
def recover (outcome : EndOutcome) (s : State) : State :=
  let s := recoverSlots outcome s
  let s := judgeStop (judgeFlood s)
  if s.resetHeld then s else sendEnrol (modRlc (fun r => { r with loop := .enrolling }) s)

/-- Power-up (R166 to R168): the clock is unset, and the minute timer starts when recovery is complete; while RESET_N is
held it runs from the power-up (log 49). -/
def powerUp (s : State) : State :=
  let s := freshVolatile { s with supply := true }
  recover .powerLost { s with rcs := { s.rcs with clockSet := false, epoch := 0, minuteOfWeek := 0, minuteLeft := 600 } }

/-- Warm reset (R169): as power-up, but for the outcome, the clock and the timer. -/
def warmReset (s : State) : State := recover .warmReset (freshVolatile { s with resetHeld := false })

/-- The store as it stood before the last `cut` retained writes of the latest taking (R165; log 15). -/
def cutStore (cut : Nat) (s : State) : Retained :=
  match cut with
  | 0 => s.nv
  | n + 1 => (s.undo[n]?).getD (s.undo.getLast?.getD s.nv)

end Sys2Proof.Machine
end

