-- ==== Sys2Proof/Machine/Supply.lean ====
section
/-!
DEFINITION. Meanings of the supply and reset commands (chapter 10).
-/
namespace Sys2Proof.Machine

/-- What a command's meaning answers. -/
abbrev Result := Host.Outcome State Fault Refusal

/-- POWER_UP (R166 to R168; log 16). -/
def execPowerUp (s : State) : Result := .next (powerUp s)

/-- The supply falls: no record is taken and no write made until it rises; the last `cut` writes of the latest taking
are not made (R165; log 15). -/
def powerFail (cut : Nat) (s : State) : State :=
  if s.supply then { beginTaking s with supply := false, nv := cutStore cut s } else beginTaking s

/-- POWER_FAIL (R165). -/
def execPowerFail (cut : Nat) (s : State) : Result := .next (powerFail cut s)

/-- RESET_N becomes active. Where it falls inside a recovery, the last `cut` writes of that recovery are not made; any
other taking is complete by then (R165, R169; log 15). -/
def assertReset (cut : Nat) (s : State) : State :=
  let nv := if !s.resetHeld && s.supply && s.recovering then cutStore cut s else s.nv
  { beginTaking s with resetHeld := true, nv := nv }

/-- RESET_N_ASSERTED (R169). -/
def execResetNAsserted (cut : Nat) (s : State) : Result := .next (assertReset cut s)

/-- RESET_N is released, or Part Reset's reply has been sent (R169; log 17). -/
def takeWarmReset (s : State) : State :=
  if s.supply then (if s.resetHeld || servesPartReset s then warmReset s else beginTaking s)
  else { beginTaking s with resetHeld := false }

/-- WARM_RESET (R169). -/
def execWarmReset (s : State) : Result := .next (takeWarmReset s)

end Sys2Proof.Machine
end

