-- ==== Sys2Proof/Machine/HostRows.lean ====
section
/-!
DEFINITION. Meanings of the host line's commands and of the host's requests. A request row is a good frame of that
request arriving (R172; log 4).
-/
namespace Sys2Proof.Machine

/-- A good frame of a request arrives. -/
def requestArrives (r : Request) (s : State) : Result := .next (taking (arrive (.good r)) s)

/-- HOST_FRAME (R171, R172). -/
def execHostFrame (bytes : List Byte) (s : State) : Result := .next (taking (hostBytes bytes) s)

/-- HOST_BAD_FRAME (R171): the assembler abandons the frame, and no reply is sent. -/
def execHostBadFrame (bytes : List Byte) (s : State) : Result := .next (taking (hostBytes bytes) s)

/-- HOST_FRAME_GAP_TIMEOUT (R171). -/
def execHostFrameGapTimeout (s : State) : Result :=
  .next (taking (modHlp fun h => { h with assembler := .hunting }) s)

/-- A reply has left HOST_TX; after Part Reset's the warm reset begins (R169, R172). -/
def takeReplySent (s : State) : State :=
  if servesPartReset s && !sendingBusy s then warmReset s else replySent s

/-- HOST_REPLY_SENT (R169, R172). -/
def execHostReplySent (s : State) : Result := .next (taking takeReplySent s)

/-- IDENTIFY (R176). -/
def execIdentify (s : State) : Result := requestArrives .identify s
/-- STATUS (R177). -/
def execStatus (s : State) : Result := requestArrives .status s
/-- ATTENTION_READ (R175). -/
def execAttentionRead (s : State) : Result := requestArrives .attentionRead s
/-- ATTENTION_CLEAR (R175). -/
def execAttentionClear (mask : Half) (s : State) : Result := requestArrives (.attentionClear mask) s
/-- ATTENTION_ENABLE (R175). -/
def execAttentionEnable (mask : Half) (s : State) : Result := requestArrives (.attentionEnable mask) s
/-- CLOCK_SET (R157). -/
def execClockSet (epoch : Word) (minuteOfWeek : Half) (s : State) : Result :=
  requestArrives (.clockSet epoch minuteOfWeek) s
/-- ROOM_MODE_SET (R164). -/
def execRoomModeSet (mode : Byte) (s : State) : Result := requestArrives (.roomModeSet mode) s
/-- PROGRAM_WRITE (R31, R32). -/
def execProgramWrite (id : Byte) (record : Option ProgramFields) (s : State) : Result :=
  requestArrives (.programWrite id record) s
/-- PROGRAM_READ (R33). -/
def execProgramRead (id : Byte) (s : State) : Result := requestArrives (.programRead id) s
/-- BAND_WRITE (R159). -/
def execBandWrite (index : Byte) (entry : Option BandFields) (s : State) : Result :=
  requestArrives (.bandWrite index entry) s
/-- RANGE_WRITE (R45). -/
def execRangeWrite (index : Byte) (entry : Option RangeFields) (s : State) : Result :=
  requestArrives (.rangeWrite index entry) s
/-- SETTINGS_WRITE (R178). -/
def execSettingsWrite (settings : List (Byte × Half)) (s : State) : Result :=
  requestArrives (.settingsWrite settings) s
/-- TRIM_SET (R101). -/
def execTrimSet (position trim : Byte) (s : State) : Result := requestArrives (.trimSet position trim) s
/-- FEED_SET (R81, R84). -/
def execFeedSet (feedCap waterCap : Half) (s : State) : Result := requestArrives (.feedSet feedCap waterCap) s
/-- DEMAND_LIMIT (R82, R84). -/
def execDemandLimit (cap : Half) (minutes : Byte) (s : State) : Result := requestArrives (.demandLimit cap minutes) s
/-- ACCOUNT_LOAD (R59 to R62). -/
def execAccountLoad (card balance : Word) (status : Byte) (horizon : Word) (s : State) : Result :=
  requestArrives (.accountLoad card balance status horizon) s
/-- ACCOUNT_CREDIT (R63). -/
def execAccountCredit (card amount : Word) (s : State) : Result := requestArrives (.accountCredit card amount) s
/-- ACCOUNT_EVICT (R64). -/
def execAccountEvict (card : Word) (s : State) : Result := requestArrives (.accountEvict card) s
/-- ACCOUNT_STATUS (R65). -/
def execAccountStatus (card : Word) (status : Byte) (s : State) : Result :=
  requestArrives (.accountStatus card status) s
/-- WANTED_READ (R53). -/
def execWantedRead (s : State) : Result := requestArrives .wantedRead s
/-- POSITION_SERVICE (R4, R179). -/
def execPositionService (position marking : Byte) (s : State) : Result :=
  requestArrives (.positionService position marking) s
/-- POSITION_CLEAR_LOCKOUT (R143). -/
def execPositionClearLockout (position : Byte) (s : State) : Result :=
  requestArrives (.positionClearLockout position) s
/-- POSITION_READ (R180). -/
def execPositionRead (position : Byte) (s : State) : Result := requestArrives (.positionRead position) s
/-- SESSION_CANCEL (R26). -/
def execSessionCancel (position : Byte) (number : Half) (s : State) : Result :=
  requestArrives (.sessionCancel position number) s
/-- JOURNAL_READ (R152). -/
def execJournalRead (start : Word) (count : Byte) (s : State) : Result := requestArrives (.journalRead start count) s
/-- JOURNAL_RELEASE (R153). -/
def execJournalRelease (number : Word) (s : State) : Result := requestArrives (.journalRelease number) s
/-- FAULT_READ (R140). -/
def execFaultRead (count : Byte) (s : State) : Result := requestArrives (.faultRead count) s
/-- ROSTER_READ (R141). -/
def execRosterRead (s : State) : Result := requestArrives .rosterRead s
/-- ROSTER_CLEAR (R142). -/
def execRosterClear (s : State) : Result := requestArrives .rosterClear s
/-- LOOP_RESTART (R124 to R126). -/
def execLoopRestart (s : State) : Result := requestArrives .loopRestart s
/-- PART_RESET (R169). -/
def execPartReset (s : State) : Result := requestArrives .partReset s

end Sys2Proof.Machine
end

