-- ==== Sys2Proof/Machine/LoopRows.lean ====
section
/-!
DEFINITION. Meanings of the room loop's commands (chapter 6) and of FM's counts over sweeps (R131, R132).
-/
namespace Sys2Proof.Machine

/-- The 500 ms timer sends a running sweep while the loop is RUNNING and no sweep is in flight (R107; log 2). -/
def takeSweepSend (s : State) : State :=
  if s.rlc.loop = .running ∧ s.rlc.inFlight = none then sendRunning s else s

/-- RUNNING_SWEEP_SEND (R107). -/
def execRunningSweepSend (s : State) : Result := .next (taking takeSweepSend s)

/-- The held-back directive at a place is offered now: a running sweep may be put together, and the queue refuses every
offer of the block's before it (R115, R125; log 42). -/
def offersNow (b : Block) (place : Nat) (s : State) : Bool :=
  s.rlc.loop == .running && s.rlc.inFlight.isNone && ((heldOf b s).take place).all (queueRefuses s)

/-- One held-back directive is offered again; refused, it stays in its place (R115; log 42). -/
def takeHeldOffer (b : Block) (place : Nat) (s : State) : State :=
  match (heldOf b s)[place]? with
  | some d =>
    if offersNow b place s && !queueRefuses s d then joinQueue d (setHeld b ((heldOf b s).eraseIdx place) s) else s
  | none => s

/-- HELD_BACK_OFFER (R115). -/
def execHeldBackOffer (b : Block) (place : Nat) (s : State) : Result := .next (taking (takeHeldOffer b place) s)

/-- SWEEP_RETURN_TIMEOUT (R104): the sweep in flight is bad. -/
def execSweepReturnTimeout (s : State) : Result := .next (taking badReturn s)

/-- RUNNING_SWEEP_RETURN (R104, R111). -/
def execRunningSweepReturn (home : SweepHome) (s : State) : Result :=
  .next (taking (sweepReturn .running home) s)

/-- ENROL_SWEEP_RETURN (R104, R106). -/
def execEnrolSweepReturn (home : SweepHome) (s : State) : Result :=
  .next (taking (sweepReturn .enrol home) s)

/-- The loop breaks where its count has reached 3 (R106, R107; log 3). -/
def takeLoopBreak (s : State) : State := if breakDue s then breakLoop s else s

/-- LOOP_BREAK (R106, R107). -/
def execLoopBreak (s : State) : Result := .next (taking takeLoopBreak s)

/-- A directive's count has reached 2: after its third send it is dropped, and otherwise it waits for the next running
sweep that does not pass it over (R117, R118; log 3). -/
def takeResendDue (p : Pos) (s : State) : State :=
  let dropped := s.rlc.queue.filter fun e => dropDue e && e.dir.pos == p
  let s := setQueue (s.rlc.queue.filter fun e => !(dropDue e && e.dir.pos == p)) s
  dropped.foldl (fun s e =>
    handCause p .adapterSilent (if drawChanging e.dir.order then settlingEvent p s else s)) s

/-- DIRECTIVE_RESEND_DUE (R118). -/
def execDirectiveResendDue (p : Pos) (s : State) : Result := .next (taking (takeResendDue p) s)

/-- A count of missing marks stands at 6 (R121; log 3). -/
def takeMissingLimit (p : Pos) (s : State) : State := if (posAt s p).missing = 6 then suspendSession p s else s

/-- MISSING_MARK_LIMIT (R121). -/
def execMissingMarkLimit (p : Pos) (s : State) : Result := .next (taking (takeMissingLimit p) s)

/-- A low-draw count stands at 6 and HEATER_DEAD is not present (R131, R134; log 3). -/
def takeHeaterDead (p : Pos) (s : State) : State :=
  if (posAt s p).low = 6 ∧ (posAt s p).causes.contains .heaterDead = false then
    let s := setCauses p (addCause .heaterDead (posAt s p).causes) s
    actOnOnsets p [.heaterDead] (posAt s p).lastReport s
  else s

/-- HEATER_DEAD (R131). -/
def execHeaterDead (p : Pos) (s : State) : Result := .next (taking (takeHeaterDead p) s)

/-- Whether a start count stands at 20 under a STARTING session (R132). -/
def startTimeoutDue (s : State) (p : Pos) : Bool :=
  match (posAt s p).startCount, sessionAt s p with
  | some n, some ses => decide (20 ≤ n) && ses.state == .starting
  | _, _ => false

/-- A start count stands at 20: START_TIMEOUT is raised and the count ends (R132; log 3). -/
def takeStartTimeout (p : Pos) (s : State) : State :=
  if startTimeoutDue s p then
    let s := modPos p (fun q => { q with startCount := none, causes := addCause .startTimeout q.causes }) s
    actOnOnsets p [.startTimeout] (posAt s p).lastReport s
  else s

/-- START_TIMEOUT (R132). -/
def execStartTimeout (p : Pos) (s : State) : Result := .next (taking (takeStartTimeout p) s)

/-- ENROL_RETRY_TIMER (R106): the next enrol sweep is sent where one is due. -/
def takeEnrolRetry (s : State) : State := if s.rlc.retryLeft.isSome then sendEnrol s else s

/-- ENROL_RETRY_TIMER (R106). -/
def execEnrolRetryTimer (s : State) : Result := .next (taking takeEnrolRetry s)

/-- The measure of a position reaches SilenceLimit while it runs and has not stopped there (R122; log 2). -/
def takeSilenceLimit (p : Pos) (s : State) : State :=
  if silenceRuns (posAt s p) && !(posAt s p).silent then silenceReached p s else s

/-- SILENCE_LIMIT (R122). -/
def execSilenceLimit (p : Pos) (s : State) : Result := .next (taking (takeSilenceLimit p) s)

end Sys2Proof.Machine
end

