-- ==== Sys2Proof/Machine/RoomRows.lean ====
section
/-!
DEFINITION. Meanings of the clock's and the budget's timers and of the room's input lines (chapters 1, 5, 7 and 9).
-/
namespace Sys2Proof.Machine

/-- DEMAND_EXPIRY (R83). -/
def execDemandExpiry (s : State) : Result := .next (taking expireDemand s)

/-- A minute boundary as it finds the part: taken, or, while RESET_N is held, counted by the clock alone (R156, R169). -/
def takeBoundary (s : State) : State :=
  if s.supply && s.resetHeld then heldBoundary s else taking minuteBoundary s

/-- MINUTE_BOUNDARY (R156, R19, R20, R169). -/
def execMinuteBoundary (s : State) : Result := .next (takeBoundary s)

/-- The budget limit of one position, where the taking before was a minute boundary (R18, R20; log 3). -/
def takeBudgetTimeout (p : Pos) (atBoundary : Bool) (s : State) : State :=
  match sessionAt s p with
  | some ses => if atBoundary && waitedOut s ses then endSession p .budgetTimeout none s else s
  | none => s

/-- BUDGET_TIMEOUT (R20). -/
def execBudgetTimeout (p : Pos) (s : State) : Result := .next (taking (takeBudgetTimeout p s.boundary) s)

/-- The overrun limit of one position, where the taking before was a minute boundary (R18, R20; log 3). -/
def takeOverrun (p : Pos) (atBoundary : Bool) (s : State) : State :=
  match sessionAt s p with
  | some ses => if atBoundary && overran s ses then handCause p .overrun s else s
  | none => s

/-- OVERRUN (R20). -/
def execOverrun (p : Pos) (s : State) : Result := .next (taking (takeOverrun p s.boundary) s)

/-- FLOOD_IN_ACTIVATION (R145): the line's level becomes the active one. -/
def execFloodInActivation (s : State) : Result :=
  .next (taking judgeFlood { s with floodLevel := activeLevel s.nv.settings.floodPolarity })

/-- FLOOD_IN_RELEASE (R145). -/
def execFloodInRelease (s : State) : Result :=
  .next (taking judgeFlood { s with floodLevel := releasedLevel s.nv.settings.floodPolarity })

/-- STOP_IN_ACTIVATION (R146). -/
def execStopInActivation (s : State) : Result :=
  .next (taking judgeStop { s with stopLevel := activeLevel s.nv.settings.stopPolarity })

/-- STOP_IN_RELEASE (R146). -/
def execStopInRelease (s : State) : Result :=
  .next (taking judgeStop { s with stopLevel := releasedLevel s.nv.settings.stopPolarity })

end Sys2Proof.Machine
end

