-- ==== Sys2Proof/Machine/TerminalRows.lean ====
section
/-!
DEFINITION. Meanings of the terminals' commands (chapter 4) and of the wanted list's timer.
-/
namespace Sys2Proof.Machine

/-- TERMINAL_FRAME_GAP_TIMEOUT (R67). -/
def execTerminalFrameGapTimeout (t : Terminal) (s : State) : Result :=
  .next (taking (modLine t fun l => { l with assembler := .hunting }) s)

/-- TERMINAL_RECORD_SENT (R68): the head of the output queue has left the line. -/
def execTerminalRecordSent (t : Terminal) (s : State) : Result :=
  .next (taking (modLine t fun l => { l with out := l.out.drop 1 }) s)

/-- TAP_START (R71 to R76). -/
def execTapStart (t : Terminal) (card : Word) (position program extension : Byte) (s : State) : Result :=
  .next (taking (takeTapStart t card position program extension) s)

/-- TAP_BALANCE (R77). -/
def execTapBalance (t : Terminal) (card : Word) (s : State) : Result := .next (taking (takeTapBalance t card) s)

/-- TAP_ABORT (R78, R79). -/
def execTapAbort (t : Terminal) (card : Word) (position : Byte) (s : State) : Result :=
  .next (taking (takeTapAbort t card position) s)

/-- TERMINAL_BAD_FRAME (R67, R69): discarded, or answered BAD_REQUEST. -/
def execTerminalBadFrame (t : Terminal) (bytes : List Byte) (s : State) : Result :=
  .next (taking (terminalBytes t bytes) s)

/-- WANTED_EXPIRY (R55). -/
def execWantedExpiry (card : Word) (s : State) : Result := .next (taking (expireWanted card) s)

end Sys2Proof.Machine
end

