-- ==== Sys2Proof/Machine/Dispatch.lean ====
section
/-!
DEFINITION. One arm for each command of Syntax.lean.
-/
namespace Sys2Proof.Machine

def exec (i : Instr) (s : State) : Host.Outcome State Fault Refusal :=
  match i with
  | .powerUp => Sys2Proof.Machine.execPowerUp s
  | .powerFail cut => Sys2Proof.Machine.execPowerFail cut s
  | .resetNAsserted cut => Sys2Proof.Machine.execResetNAsserted cut s
  | .warmReset => Sys2Proof.Machine.execWarmReset s
  | .hostFrame bytes => Sys2Proof.Machine.execHostFrame bytes s
  | .hostFrameGapTimeout => Sys2Proof.Machine.execHostFrameGapTimeout s
  | .hostReplySent => Sys2Proof.Machine.execHostReplySent s
  | .identify => Sys2Proof.Machine.execIdentify s
  | .status => Sys2Proof.Machine.execStatus s
  | .attentionRead => Sys2Proof.Machine.execAttentionRead s
  | .attentionClear mask => Sys2Proof.Machine.execAttentionClear mask s
  | .attentionEnable mask => Sys2Proof.Machine.execAttentionEnable mask s
  | .clockSet epoch minuteOfWeek => Sys2Proof.Machine.execClockSet epoch minuteOfWeek s
  | .roomModeSet mode => Sys2Proof.Machine.execRoomModeSet mode s
  | .programWrite id record => Sys2Proof.Machine.execProgramWrite id record s
  | .programRead id => Sys2Proof.Machine.execProgramRead id s
  | .bandWrite index entry => Sys2Proof.Machine.execBandWrite index entry s
  | .rangeWrite index entry => Sys2Proof.Machine.execRangeWrite index entry s
  | .settingsWrite settings => Sys2Proof.Machine.execSettingsWrite settings s
  | .trimSet position trim => Sys2Proof.Machine.execTrimSet position trim s
  | .feedSet feedCap waterCap => Sys2Proof.Machine.execFeedSet feedCap waterCap s
  | .demandLimit cap minutes => Sys2Proof.Machine.execDemandLimit cap minutes s
  | .demandExpiry => Sys2Proof.Machine.execDemandExpiry s
  | .accountLoad card balance status horizon => Sys2Proof.Machine.execAccountLoad card balance status horizon s
  | .accountCredit card amount => Sys2Proof.Machine.execAccountCredit card amount s
  | .accountEvict card => Sys2Proof.Machine.execAccountEvict card s
  | .accountStatus card status => Sys2Proof.Machine.execAccountStatus card status s
  | .wantedRead => Sys2Proof.Machine.execWantedRead s
  | .positionService position marking => Sys2Proof.Machine.execPositionService position marking s
  | .positionClearLockout position => Sys2Proof.Machine.execPositionClearLockout position s
  | .positionRead position => Sys2Proof.Machine.execPositionRead position s
  | .sessionCancel position number => Sys2Proof.Machine.execSessionCancel position number s
  | .journalRead start count => Sys2Proof.Machine.execJournalRead start count s
  | .journalRelease number => Sys2Proof.Machine.execJournalRelease number s
  | .faultRead count => Sys2Proof.Machine.execFaultRead count s
  | .rosterRead => Sys2Proof.Machine.execRosterRead s
  | .rosterClear => Sys2Proof.Machine.execRosterClear s
  | .loopRestart => Sys2Proof.Machine.execLoopRestart s
  | .partReset => Sys2Proof.Machine.execPartReset s
  | .terminalFrameGapTimeout terminal => Sys2Proof.Machine.execTerminalFrameGapTimeout terminal s
  | .terminalRecordSent terminal => Sys2Proof.Machine.execTerminalRecordSent terminal s
  | .tapStart terminal card position program extension => Sys2Proof.Machine.execTapStart terminal card position program extension s
  | .tapBalance terminal card => Sys2Proof.Machine.execTapBalance terminal card s
  | .tapAbort terminal card position => Sys2Proof.Machine.execTapAbort terminal card position s
  | .wantedExpiry card => Sys2Proof.Machine.execWantedExpiry card s
  | .minuteBoundary => Sys2Proof.Machine.execMinuteBoundary s
  | .budgetTimeout position => Sys2Proof.Machine.execBudgetTimeout position s
  | .overrun position => Sys2Proof.Machine.execOverrun position s
  | .runningSweepSend => Sys2Proof.Machine.execRunningSweepSend s
  | .heldBackOffer block place => Sys2Proof.Machine.execHeldBackOffer block place s
  | .sweepReturnTimeout => Sys2Proof.Machine.execSweepReturnTimeout s
  | .runningSweepReturn home => Sys2Proof.Machine.execRunningSweepReturn home s
  | .loopBreak => Sys2Proof.Machine.execLoopBreak s
  | .directiveResendDue position => Sys2Proof.Machine.execDirectiveResendDue position s
  | .missingMarkLimit position => Sys2Proof.Machine.execMissingMarkLimit position s
  | .heaterDead position => Sys2Proof.Machine.execHeaterDead position s
  | .startTimeout position => Sys2Proof.Machine.execStartTimeout position s
  | .enrolRetryTimer => Sys2Proof.Machine.execEnrolRetryTimer s
  | .enrolSweepReturn home => Sys2Proof.Machine.execEnrolSweepReturn home s
  | .silenceLimit position => Sys2Proof.Machine.execSilenceLimit position s
  | .floodInActivation => Sys2Proof.Machine.execFloodInActivation s
  | .floodInRelease => Sys2Proof.Machine.execFloodInRelease s
  | .stopInActivation => Sys2Proof.Machine.execStopInActivation s
  | .stopInRelease => Sys2Proof.Machine.execStopInRelease s
  | .hostBadFrame bytes => Sys2Proof.Machine.execHostBadFrame bytes s
  | .terminalBadFrame terminal bytes => Sys2Proof.Machine.execTerminalBadFrame terminal bytes s

end Sys2Proof.Machine
end

