-- ==== Sys2Proof/Safety.lean ====
section
/-!
DEFINITION. What a state must satisfy to be one the part can be in, and the conditions under which a command completes.
Each invariant names the rule it says.
-/
namespace Sys2Proof.Machine

/-! ### Between takings -/

/-- No evaluation and no lost directive is owed: the model's own fields as every taking leaves them (logs 5 and 24). -/
def AtRest (s : State) : Prop := s.lba.evalDue = false ∧ s.rlc.lost = []

/-- The part takes arrivals and owes nothing. -/
def Taking (s : State) : Prop := takes s = true ∧ AtRest s

/-- A host request that arrives now is served in the same taking (R172). -/
def Serving (s : State) : Prop := Taking s ∧ s.hlp.served = none

/-- The held-back lists have room for every directive that one taking could hold back, at most two for each position
beside one for each entry that waits, so that none is lost (R115). -/
def RoomHeld (s : State) : Prop :=
  ∀ b, (heldOf b s).length + (waitingOrder s).length + 48 ≤ 64

/-- A directive stands in the queue, or among those a block holds back. -/
def Stands (b : Block) (d : Directive) (s : State) : Prop := d ∈ s.rlc.queue.map QueueEntry.dir ∨ d ∈ heldOf b s

/-- Every block has room to hold back one directive more. -/
def OneHeld (s : State) : Prop := ∀ b, (heldOf b s).length < 64

/-! ### Invariants of every step -/

/-- The journal ascends strictly, below the next sequence number, or up to the last number once the series is spent
(R148). -/
def JournalOrdered (nv : Retained) : Prop :=
  (nv.journal.map SettlementRecord.seq).Pairwise (· < ·)
    ∧ 1 ≤ nv.nextSeq ∧ nv.nextSeq ≤ lastSeq
    ∧ ∀ r ∈ nv.journal, if nv.exhausted then r.seq ≤ lastSeq else r.seq < nv.nextSeq

/-- The settings lie in their ranges (Table 11-4). CardSessionLimit may be raised above 4 by no more than the sessions
of one card (R51). -/
def SettingsInRange (c : Settings) : Prop :=
  c.extensionMax ≤ 90 ∧ (1 ≤ c.quoteCeiling ∧ c.quoteCeiling ≤ 60000) ∧ c.graceMinutes ≤ 10
    ∧ c.overrunTolerance ≤ 60 ∧ (1 ≤ c.startWaitLimit ∧ c.startWaitLimit ≤ 30)
    ∧ (10 ≤ c.silenceLimit ∧ c.silenceLimit ≤ 600) ∧ c.offlineAllowance ≤ 5000
    ∧ (1 ≤ c.cardSessionLimit ∧ c.cardSessionLimit ≤ 24)

/-- A program record that R28 and R29 allow. -/
def ProgramInRange (prog : Program) : Prop :=
  prog.base ≤ 20000 ∧ (prog.cls = .dryer → prog.rate ≤ 200) ∧ (prog.cls = .washer → prog.rate = 0)
    ∧ (1 ≤ prog.phases.length ∧ prog.phases.length ≤ 6) ∧ nominalMinutes prog ≤ 240
    ∧ ∀ f ∈ prog.phases, f.lu ≤ 120 ∧ f.wu ≤ 40 ∧ (1 ≤ f.minutes ∧ f.minutes ≤ 120) ∧ f.shedLu ≤ f.lu
      ∧ (f.sheddable = true → prog.cls = .dryer) ∧ (f.sheddable = false → f.shedLu = 0)

/-- Every retained item lies in the range the spec gives it (R28, R29, R45, R81, R101, R159, R178), the band table
keeps a present entry, and present entries start at distinct minutes (R159). -/
def StoreInRange (nv : Retained) : Prop :=
  SettingsInRange nv.settings ∧ nv.feedCap ≤ 2000 ∧ nv.waterCap ≤ 500
    ∧ (∀ p : Pos, -128 ≤ nv.trims[p] ∧ nv.trims[p] ≤ 127)
    ∧ (∀ i : ProgramId, ∀ prog, nv.programs[i] = some prog → ProgramInRange prog)
    ∧ (∀ i : Fin 8, ∀ e, nv.ranges[i] = some e → e.low.toNat ≤ e.high.toNat)
    ∧ (∀ i : Fin 8, ∀ b, nv.bands[i] = some b → b.start ≤ 10079 ∧ 50 ≤ b.mult ∧ b.mult ≤ 250)
    ∧ (∃ i : Fin 8, nv.bands[i].isSome)
    ∧ ∀ i j : Fin 8, ∀ b c, nv.bands[i] = some b → nv.bands[j] = some c → b.start = c.start → i = j

/-- A property holds of the store and of every store that a fall of the supply could leave (R165; log 15). -/
def StoreAlways (P : Retained → Prop) (s : State) : Prop := P s.nv ∧ ∀ nv ∈ s.undo, P nv

/-- A reservation sum stands above its cap only while OVER_CAP is set (R100). -/
def CapsKept (s : State) : Prop := takes s = true → withinCaps s = true ∨ s.lba.overCap = true

/-- The directive queue holds at most 32 directives and at most one START for a position, and each block holds back at
most 64 (R115). -/
def QueuesBounded (s : State) : Prop :=
  s.rlc.queue.length ≤ 32 ∧ (∀ b, (heldOf b s).length ≤ 64)
    ∧ ((s.rlc.queue.filter fun e => isStart e.dir.order).map fun e => e.dir.pos).Nodup

/-- The fault ring holds at most 64 records; the roster stands in ascending order, each position once, with counts
from 1 to 255 (R139, R141). -/
def FaultLogBounded (s : State) : Prop :=
  s.fm.ring.length ≤ 64 ∧ (s.fm.roster.map RosterEntry.position).Pairwise (· < ·)
    ∧ ∀ e ∈ s.fm.roster, 1 ≤ e.count ∧ e.count ≤ 255

/-- While the clock is unset its values stand at 0; the minute of week is below 10,080 and the minute timer has 1 to
600 tenths to run (R156). -/
def ClockSound (s : State) : Prop :=
  (s.rcs.clockSet = false → s.rcs.epoch = 0 ∧ s.rcs.minuteOfWeek = 0) ∧ s.rcs.minuteOfWeek ≤ 10079
    ∧ 1 ≤ s.rcs.minuteLeft ∧ s.rcs.minuteLeft ≤ 600

/-- HLP holds a waiting request only behind one being served, and at most 4 LINK_BUSY replies (R172). -/
def HostLinkSound (s : State) : Prop :=
  (s.hlp.served = none → s.hlp.waiting = none) ∧ s.hlp.busy.length ≤ 4 ∧ s.hlp.ahead ≤ s.hlp.busy.length

/-- The wanted list holds at most 4 entries, each card once, none older than 8 s (R53, R55). -/
def WantedBounded (s : State) : Prop :=
  s.cru.wanted.length ≤ 4 ∧ (s.cru.wanted.map Wanted.card).Nodup ∧ ∀ w ∈ s.cru.wanted, w.age ≤ 80

/-- An entry stands in a way of its card's set, no two entries name one card, its balance lies in range, and a wanted
card has no entry (R47, R55). -/
def CacheSound (s : State) : Prop :=
  (∀ i : Fin 48, ∀ a, s.cru.cache[i] = some a →
      i.val / 3 = a.card.toNat % 16 ∧ -999999 ≤ a.balance ∧ a.balance ≤ 999999)
    ∧ (∀ i j : Fin 48, ∀ a b, s.cru.cache[i] = some a → s.cru.cache[j] = some b → a.card = b.card → i = j)
    ∧ ∀ w ∈ s.cru.wanted, ∀ i : Fin 48, ∀ a, s.cru.cache[i] = some a → a.card ≠ w.card

/-- A position's counters lie in their ranges, its causes stand in rank order, and it holds a serial exactly while it
is ENROLLED (R102, R103, R109, R121, R127, R132). -/
def PositionSound (q : Position) : Prop :=
  q.measured ≤ 4095 ∧ q.corrected ≤ 4095 ∧ q.settle ≤ 2 ∧ q.missing ≤ 6 ∧ q.low ≤ 6
    ∧ (∀ n, q.startCount = some n → n < 20)
    ∧ q.causes.Sublist allCauses ∧ (q.serial.isSome ↔ q.presence = .enrolled)

/-- Every position is sound. -/
def PositionsSound (s : State) : Prop := ∀ p, PositionSound (posAt s p)

/-! ### Invariants over sessions, accounts and terminals -/

/-- How many slots hold a session. -/
def occupiedSlots (nv : Retained) : Nat := (positionsWhere fun p => (nv.slots[p]).isSome).length

/-- While the part takes, each slot holds the snapshot of its position's live session, and no other slot is full (R21). -/
def SlotsAgree (s : State) : Prop :=
  takes s = true → ∀ p : Pos, s.nv.slots[p] = (sessionAt s p).map snapshotOf

/-- The positions whose slot holds a session that the newest record is not: those that recovery would record (R167). -/
def unrecordedSlots (nv : Retained) : List Pos :=
  positionsWhere fun p => (nv.slots[p]).any fun ses => !alreadyRecorded nv p ses

/-- With `n` sessions to record, the journal has room for their records, and the series has a number for each (R151). -/
def JournalHasRoom (nv : Retained) (n : Nat) : Prop := nv.journal.length + n ≤ 256 ∧ n ≤ numbersLeft nv

/-- There is room for every session in a slot (R151). -/
def JournalFits (nv : Retained) : Prop := JournalHasRoom nv (occupiedSlots nv)

/-- There is room for every session in a slot but one that the newest record is, as an end that was cut off between its
append and the emptying of its slot leaves it (R150, R151, R167). -/
def JournalFitsCut (nv : Retained) : Prop := JournalHasRoom nv (unrecordedSlots nv).length

/-- For every live session S ≤ R ≤ T + 60 (R20). -/
def CountsSound (s : State) : Prop :=
  ∀ p ses, sessionAt s p = some ses → ses.s ≤ ses.r ∧ ses.r ≤ ses.nominal + 60

/-- While the part takes, a position locked out or OUT_OF_SERVICE holds no session but of a SERVICE card (R4). -/
def OutOfUseSound (s : State) : Prop :=
  takes s = true → ∀ p, outOfUse s p = true → ∀ cls, sessionClassAt s p = some cls → cls = .service

/-- The quotes of the live ACCOUNT sessions that name a card. -/
def quotesOf (s : State) (card : Word) : Nat :=
  (((liveSessions s).filter fun ses => ses.cls == .account && ses.card == card).map Session.quote).sum

/-- The held amount of a card's entry is the sum of the quotes of the card's live ACCOUNT sessions; a card with no entry
has none of a quote above 0 (R66). -/
def HeldAgrees (s : State) : Prop := ∀ card, heldAmount s card = quotesOf s card

/-- A position's reservation and shed flag agree with its session: none before the grant, the draws of the current phase
after it, at the shed draw while shed (R86, R98). -/
def ReservationAgrees (s : State) (p : Pos) : Prop :=
  let q := posAt s p
  match sessionAt s p with
  | some ses =>
    q.shed = ses.shed
    ∧ if ses.state = .waitingBudget then
        q.lu = 0 ∧ q.wu = 0 ∧ q.shed = false ∧ ses.phase = 0 ∧ ses.pendingStep = none
      else q.lu = (if q.shed then (currentPhase s ses).shedLu else (currentPhase s ses).lu) ∧ q.wu = (currentPhase s ses).wu
  | none => q.lu = 0 ∧ q.wu = 0 ∧ q.shed = false

/-- The start queue holds exactly the WAITING_BUDGET sessions, each once and at most 8; the restore list exactly the shed
positions, each once; and each entry of the step list, one at most for a position, is the pending step of a session that
holds a reservation (R88, R90, R91). -/
def CollectionsAgree (s : State) : Prop :=
  ((s.lba.startQueue.map WaitEntry.pos).Nodup ∧ s.lba.startQueue.length ≤ 8
    ∧ ∀ p, p ∈ s.lba.startQueue.map WaitEntry.pos ↔ ∃ ses, sessionAt s p = some ses ∧ ses.state = .waitingBudget)
  ∧ ((s.lba.restoreList.map WaitEntry.pos).Nodup
    ∧ ∀ p, p ∈ s.lba.restoreList.map WaitEntry.pos ↔ (posAt s p).shed = true)
  ∧ ((s.lba.stepList.map StepEntry.pos).Nodup
    ∧ ∀ e ∈ s.lba.stepList, ∃ ses, sessionAt s e.pos = some ses ∧ holdsReservation ses = true
        ∧ ses.pendingStep = some e.target ∧ e.target = ses.phase + 1)

/-- While the part takes, reservations and collections agree with the sessions (R86, R88, R90, R91). -/
def BudgetAgrees (s : State) : Prop := takes s = true → (∀ p, ReservationAgrees s p) ∧ CollectionsAgree s

/-- A terminal is among the waiters of a card's wanted entry for a kind of request. -/
def waitsOn (s : State) (card : Word) (l : Terminal) (k : WaitKind) : Prop :=
  ∃ w ∈ s.cru.wanted, w.card = card ∧ (l, k) ∈ w.waiters

/-- A terminal's queue holds at most 8 records, and at most 7 while a request is in flight; it is WAITING only while its
request waits on the wanted list, and a TAP_START that waits has its claim (R68, R70). -/
def TerminalAgrees (s : State) (l : Terminal) : Prop :=
  (lineOf s l).out.length ≤ 8
  ∧ match (lineOf s l).flight with
    | none => ∀ w ∈ s.cru.wanted, ∀ e ∈ w.waiters, e.1 ≠ l
    | some (.start card p) => (lineOf s l).out.length ≤ 7 ∧ waitsOn s card l .start
        ∧ ∃ c, claimAt s p = some c ∧ c.card = card ∧ c.terminal = l
    | some (.balance card) => (lineOf s l).out.length ≤ 7 ∧ waitsOn s card l .balance

/-- Both terminals agree with the wanted list, each waits once at most, and every claim's terminal is WAITING on it (R53,
R68, R70). -/
def TerminalsAgree (s : State) : Prop :=
  (∀ l, TerminalAgrees s l) ∧ ((s.cru.wanted.flatMap Wanted.waiters).map Prod.fst).Nodup
    ∧ ∀ p c, claimAt s p = some c → (lineOf s c.terminal).flight = some (.start c.card p)

/-! ### Requests as rows of the table -/

/-- The row of the table that a request is. -/
def requestRow : Request → Instr
  | .identify => .identify
  | .status => .status
  | .attentionRead => .attentionRead
  | .attentionClear mask => .attentionClear mask
  | .attentionEnable mask => .attentionEnable mask
  | .clockSet epoch minute => .clockSet epoch minute
  | .roomModeSet mode => .roomModeSet mode
  | .programWrite id record => .programWrite id record
  | .programRead id => .programRead id
  | .bandWrite index entry => .bandWrite index entry
  | .rangeWrite index entry => .rangeWrite index entry
  | .settingsWrite settings => .settingsWrite settings
  | .trimSet position trim => .trimSet position trim
  | .feedSet feedCap waterCap => .feedSet feedCap waterCap
  | .demandLimit cap minutes => .demandLimit cap minutes
  | .accountLoad card balance status horizon => .accountLoad card balance status horizon
  | .accountCredit card amount => .accountCredit card amount
  | .accountEvict card => .accountEvict card
  | .accountStatus card status => .accountStatus card status
  | .wantedRead => .wantedRead
  | .positionService position marking => .positionService position marking
  | .positionClearLockout position => .positionClearLockout position
  | .positionRead position => .positionRead position
  | .sessionCancel position number => .sessionCancel position number
  | .journalRead start count => .journalRead start count
  | .journalRelease number => .journalRelease number
  | .faultRead count => .faultRead count
  | .rosterRead => .rosterRead
  | .rosterClear => .rosterClear
  | .loopRestart => .loopRestart
  | .partReset => .partReset

/-- HLP with a request served and its reply put together (R172, R173). -/
def servedWith (r : Request) (reply : Reply) (h : Hlp) : Hlp :=
  { h with
    served := some { request := .good r, reply := replyFrame (requestType r) reply }, ahead := h.busy.length }

/-- A request that arrives now is served: its taking leaves `t` but for HLP's own places, and its reply is put together
(R172, R173). -/
def Answers (r : Request) (s t : State) (reply : Reply) : Prop :=
  exec (requestRow r) s = .next { t with hlp := servedWith r reply t.hlp }

/-- A request that arrives now is refused with a code, and changes nothing else (R173). -/
def Refuses (r : Request) (s : State) (code : ErrorCode) : Prop := Answers r s (beginTaking s) (.error code)

/-- The taking writes the Retained Store once, and changes nothing else. -/
def storedAs (nv : Retained) (s : State) : State := { beginTaking s with nv := nv, undo := [s.nv] }

/-- The taking changes one entry of the account cache, and nothing else. -/
def cachedAs (i : Fin 48) (a : Option Account) (s : State) : State :=
  { beginTaking s with cru := { s.cru with cache := s.cru.cache.set i a } }

/-! ### What an end and an evaluation leave -/

/-- What only the host's writes change: the tables, settings, caps, trims, markings, session counter and serial. -/
def ConfigKept (a b : Retained) : Prop :=
  b.programs = a.programs ∧ b.ranges = a.ranges ∧ b.bands = a.bands ∧ b.settings = a.settings
    ∧ b.feedCap = a.feedCap ∧ b.waterCap = a.waterCap ∧ b.trims = a.trims ∧ b.service = a.service
    ∧ b.sessionCounter = a.sessionCounter ∧ b.serial = a.serial

/-- A position keeps its occupancy; a live session there may have been granted its start, step-up or restore, which
change its phase, shed flag and state alone (R94). -/
def GrantedOnly (a b : Occupancy) : Prop :=
  match a with
  | .live x => ∃ y, b = .live y ∧ y = { x with phase := y.phase, shed := y.shed, state := y.state }
  | o => b = o

/-- Every position but those of a list is left with at most a grant. -/
def OthersKept (ps : List Pos) (s t : State) : Prop :=
  ∀ q, q ∉ ps → GrantedOnly (posAt s q).occupancy (posAt t q).occupancy

/-- What the end of an ACCOUNT session does to the cache: the balance falls by the charge and the held amount by the
quote; nothing where the card has no entry, or the session is FREE or SERVICE (R42, R43). -/
def SettledAt (s t : State) (ses : Session) (charge : Nat) : Prop :=
  match (if ses.cls = .account then findEntry s ses.card else none) with
  | some (i, a) =>
    let settled := { a with balance := clampInt (-999999) 999999 (a.balance - charge), held := a.held - ses.quote }
    t.cru = { s.cru with cache := s.cru.cache.set i (some settled) }
  | none => t.cru = s.cru

/-- The journal gains one record, unless its numbers are spent (R150; log 28). -/
def AppendedTo (s t : State) (r : SettlementRecord) : Prop :=
  t.nv.journal = if s.nv.exhausted then s.nv.journal else s.nv.journal ++ [r]

/-- What the end of the live session of a position leaves (R22): the position is UNLOADING with the session's tag, its
reservation, entries and slot are gone, a STOP stands unless the outcome is COMPLETED, the account is settled, and the
journal holds the session's record. -/
def EndedAt (s t : State) (p : Pos) (ses : Session) (outcome : EndOutcome) (cause : Option Cause) : Prop :=
  (posAt t p).occupancy = .unloading (tagOf ses.number)
    ∧ (posAt t p).lu = 0 ∧ (posAt t p).wu = 0 ∧ (posAt t p).shed = false ∧ (posAt t p).startCount = none
    ∧ (∀ e ∈ t.lba.startQueue, e.pos ≠ p) ∧ (∀ e ∈ t.lba.stepList, e.pos ≠ p)
    ∧ (∀ e ∈ t.lba.restoreList, e.pos ≠ p)
    ∧ (outcome ≠ .completed → stopStands p (tagOf ses.number) t = true)
    ∧ SettledAt s t ses (chargeOf s.nv.settings.graceMinutes outcome ses)
    ∧ AppendedTo s t (settlementOf s p ses outcome cause)
    ∧ t.nv.slots[p] = none ∧ ConfigKept s.nv t.nv ∧ OthersKept [p] s t

/-- Flags may be set, and nothing else of HLP changes. -/
def HlpButFlags (a b : Hlp) : Prop := b = { a with flags := b.flags } ∧ b.flags &&& a.flags = a.flags

/-- A fault record joins the ring with the next fault sequence number (R137 to R139), and FM's lines are kept. -/
def RecordedIn (s t : State) (position : Option Pos) (session : Option Half) (event : FaultEvent) (causes : List Cause)
    (snapshot : Option LastReport) : Prop :=
  t.fm.ring = (if 64 ≤ s.fm.ring.length then overwriteOldest s.fm.ring else s.fm.ring)
      ++ [{ seq := s.fm.faultSeq, position, session, primary := event, causes, sweep := s.rlc.lastGood,
            epoch := stampNow s, gap := 0, snapshot }]
    ∧ t.fm.faultSeq = s.fm.faultSeq + 1 ∧ t.fm.roster = joinRoster (rosterNumber position) s.fm.roster
    ∧ flagIsSet .faultNew t = true

/-- What a judgment with onsets leaves at a position with a live session (R135, R137): the record of the onsets with the
first of them as its primary cause, the lockout flag where one of them locks and the session is not SERVICE, and the end
of the session. -/
def OnsetsEnd (s t : State) (p : Pos) (ses : Session) (primary : Cause) (onsets : List Cause) (last : Option LastReport) :
    Prop :=
  EndedAt s t p ses (faultOutcome ses) (some primary)
    ∧ RecordedIn s t (some p) (some ses.number) (.cause primary) onsets last
    ∧ t.nv.lockout = (if onsets.any locks && ses.cls != .service then s.nv.lockout.set p true else s.nv.lockout)
    ∧ t.tli = s.tli ∧ HlpButFlags s.hlp t.hlp

/-- What a judgment with one onset leaves at a position with a live session (R135, R137): the record, the cause in the
present-cause set, the lockout flag where the cause locks and the session is not SERVICE, and the end of the session. -/
def FaultEnds (s t : State) (p : Pos) (ses : Session) (c : Cause) : Prop :=
  EndedAt s t p ses (faultOutcome ses) (some c)
    ∧ RecordedIn s t (some p) (some ses.number) (.cause c) [c] (posAt s p).lastReport
    ∧ (posAt t p).causes = addCause c (posAt s p).causes
    ∧ t.nv.lockout = (if locks c && ses.cls != .service then s.nv.lockout.set p true else s.nv.lockout)
    ∧ t.rcs = s.rcs ∧ t.tli = s.tli ∧ HlpButFlags s.hlp t.hlp

/-- What a stop of the sessions at some positions leaves (R10, R22, R25): each live session has ended ROOM_STOP, with its
position UNLOADING, its reservation and slot gone and a STOP standing; each claim is dropped, its terminal answered with
the reason; the journal gains the records of the live sessions in the order of the positions; and other positions are left
with at most a grant. -/
def RoomStopped (s t : State) (ps : List Pos) (reason : Reason) : Prop :=
  (∀ p ∈ ps, ∀ ses, sessionAt s p = some ses →
    (posAt t p).occupancy = .unloading (tagOf ses.number) ∧ (posAt t p).lu = 0 ∧ (posAt t p).wu = 0
      ∧ (posAt t p).shed = false ∧ t.nv.slots[p] = none ∧ stopStands p (tagOf ses.number) t = true)
  ∧ (∀ p ∈ ps, ∀ c, claimAt s p = some c → (posAt t p).occupancy = .vacant
    ∧ ((lineOf s c.terminal).flight = some (.start c.card p) →
      (∀ q ∈ ps, ∀ d, claimAt s q = some d → d.terminal = c.terminal → q = p) →
      lineOf t c.terminal = { lineOf s c.terminal with
        flight := none, out := (lineOf s c.terminal).out ++ [refusedRecord 1 c.card (posByte p) reason] }))
  ∧ (∀ l, (∀ p ∈ ps, ∀ c, claimAt s p = some c → c.terminal ≠ l) → lineOf t l = lineOf s l)
  ∧ ((liveSessions s).length ≤ numbersLeft s.nv →
    ∃ new, t.nv.journal = s.nv.journal ++ new
      ∧ (new.map fun r => (r.position, r.number, r.card, r.quote, r.outcome, r.cause, r.charge)) =
        ps.filterMap fun p => (sessionAt s p).map fun ses => (p, ses.number, ses.card, ses.quote, EndOutcome.roomStop,
          (none : Option Cause), chargeOf s.nv.settings.graceMinutes .roomStop ses))
  ∧ OthersKept ps s t ∧ ConfigKept s.nv t.nv

/-- A release of an input line, or an activation that finds nothing to stop, changes nothing but FM and the flags. -/
def FaultLogOnly (s t : State) : Prop :=
  t.rcs = s.rcs ∧ t.positions = s.positions ∧ t.nv = s.nv ∧ t.rlc = s.rlc ∧ t.lba = s.lba ∧ t.cru = s.cru ∧ t.tli = s.tli

/-- What an activation edge of FLOOD_IN leaves (R136, R145): the record and the flag; and, where the room was not in ALARM,
the room in ALARM, the WASHER positions stopped, and a HALT_WATER standing for each that is ENROLLED. -/
def FloodActivated (s t : State) : Prop :=
  t.fm.floodActive = true ∧ t.fm.stopActive = s.fm.stopActive ∧ flagIsSet .flood t = true
    ∧ RecordedIn s t none none (.input .floodActive) [] none
    ∧ if s.rcs.mode = .alarm then FaultLogOnly s t
      else t.rcs = { s.rcs with mode := .alarm } ∧ RoomStopped s t (positionsWhere (isWasher s)) .roomAlarm
        ∧ ∀ p, isWasher s p = true → (posAt s p).presence = .enrolled → haltWaterStands p t = true

/-- What a release edge of FLOOD_IN leaves (R145). -/
def FloodReleased (s t : State) : Prop :=
  t.fm.floodActive = false ∧ FaultLogOnly s t
    ∧ if s.nv.settings.floodReportRelease = .on then
        flagIsSet .flood t = true ∧ RecordedIn s t none none (.input .floodReleased) [] none
      else t.fm = { s.fm with floodActive := false } ∧ t.hlp = s.hlp

/-- What an activation edge of STOP_IN leaves (R146): the record and the flag, the room CLOSED unless it is in ALARM, and
every position stopped. -/
def StopActivated (s t : State) : Prop :=
  t.fm.stopActive = true ∧ t.fm.floodActive = s.fm.floodActive ∧ flagIsSet .stopInput t = true
    ∧ RecordedIn s t none none (.input .stopActive) [] none
    ∧ t.rcs = { s.rcs with mode := if s.rcs.mode = .alarm then .alarm else .closed }
    ∧ RoomStopped s t allPositions .roomClosed ∧ ∀ p, claimAt t p = none ∧ sessionAt t p = none

/-- What a release edge of STOP_IN leaves (R146). -/
def StopReleased (s t : State) : Prop :=
  t.fm.stopActive = false ∧ FaultLogOnly s t
    ∧ if s.nv.settings.stopReportRelease = .on then
        flagIsSet .stopInput t = true ∧ RecordedIn s t none none (.input .stopReleased) [] none
      else t.fm = { s.fm with stopActive := false } ∧ t.hlp = s.hlp

/-- A position with its session RUNNING is left SUSPENDED, with all else of it kept (R14). -/
def suspended (q : Position) : Position :=
  match q.occupancy with
  | .live ses => if ses.state = .running then { q with occupancy := .live { ses with state := .suspended } } else q
  | _ => q

/-- A position with its session's counts after a minute boundary (R19). -/
def minuteCounted (tolerance : Nat) (q : Position) : Position :=
  match q.occupancy with
  | .live ses => { q with occupancy := .live (countMinute tolerance ses) }
  | _ => q

/-- A record that answers in its own taking joins a terminal's output queue, and nothing else changes (R68). -/
def answeredAt (l : Terminal) (f : Frame) (s : State) : State :=
  modLine l (fun x => { x with out := x.out ++ [f] }) (beginTaking s)

/-- A terminal that takes a request now: fewer than 6 records wait, and it is IDLE (R68, R70). -/
def Idle (s : State) (l : Terminal) : Prop := (lineOf s l).out.length < 6 ∧ (lineOf s l).flight = none

/-- The session that a hold makes of a TAP_START whose checks passed (R11). -/
def heldOfTap (s : State) (l : Terminal) (card : Word) (a : Admitted) (quote : Nat) (origin : Option Origin)
    (state : LiveState) : Session where
  number := s.nv.sessionCounter
  terminal := some l
  card := card
  cls := a.cls
  origin := origin
  program := a.program
  ext := a.ext
  mult := (bandInForce s).2.mult
  quote := quote
  nominal := nominalMinutes a.prog + a.ext
  phase := 0
  shed := false
  pendingStep := none
  r := 0
  s := 0
  z := 0
  u := 0
  w := 0
  holdMinute := stampNow s
  startMinute := none
  state := state

/-- What a TAP_START leaves whose start is granted at once in a room where nothing waits (R12, R73, R75, R94): the
session is STARTING with the draws of phase 0, its START is queued, and the terminal is answered ACCEPTED. -/
def GrantedAtOnce (s t : State) (l : Terminal) (a : Admitted) (ses : Session) : Prop :=
  t.positions = s.positions.set a.pos { posAt s a.pos with
      occupancy := .live ses, lu := (phaseOf s a.program 0).lu, wu := (phaseOf s a.program 0).wu, shed := false }
    ∧ t.nv = { s.nv with
        sessionCounter := s.nv.sessionCounter + 1, slots := s.nv.slots.set a.pos (some (snapshotOf ses)) }
    ∧ t.rlc = { s.rlc with queue := s.rlc.queue ++ [{
        dir := { pos := a.pos, order := .start (tagOf ses.number) a.program a.ext (startDraws s a.program) }
        seq := none, sends := 0, good := 0, since := 0, flying := false, withdrawn := false }] }
    ∧ t.tli = (answeredAt l (startRecord a.pos ses none) s).tli
    ∧ t.lba = s.lba ∧ t.rcs = s.rcs ∧ t.fm = s.fm ∧ t.hlp = s.hlp

/-- What a TAP_START leaves whose start does not fit, in a room where nothing waits (R11, R75, R88): the session waits at
the head of the start queue, and the terminal is answered QUEUED with place 1. -/
def QueuedFirst (s t : State) (l : Terminal) (a : Admitted) (ses : Session) : Prop :=
  t.positions = s.positions.set a.pos { posAt s a.pos with occupancy := .live ses }
    ∧ t.nv = { s.nv with
        sessionCounter := s.nv.sessionCounter + 1, slots := s.nv.slots.set a.pos (some (snapshotOf ses)) }
    ∧ t.lba = { s.lba with startQueue := [{ pos := a.pos, bypass := 0 }] }
    ∧ t.tli = (answeredAt l (startRecord a.pos ses (some 1)) s).tli
    ∧ t.rlc = s.rlc ∧ t.rcs = s.rcs ∧ t.fm = s.fm ∧ t.hlp = s.hlp

/-- What a TAP_START leaves that is claimed and refused in one taking (R10, R73): the session counter has advanced, the
position is VACANT as before, and the terminal is answered with the reason. -/
def ClaimedAndRefused (s t : State) (l : Terminal) (card : Word) (position : Byte) (r : Reason) : Prop :=
  t.positions = s.positions ∧ t.nv = { s.nv with sessionCounter := s.nv.sessionCounter + 1 }
    ∧ t.tli = (answeredAt l (refusedRecord 1 card position r) s).tli
    ∧ t.cru.wanted.map Wanted.card = s.cru.wanted.map Wanted.card
    ∧ t.lba = s.lba ∧ t.rlc = s.rlc ∧ t.rcs = s.rcs ∧ t.fm = s.fm ∧ t.hlp = s.hlp

/-- What a hold leaves of a TAP_START in a room where nothing waits: the start granted at once where its phase 0 fits, and
queued first otherwise (R11, R12, R87). -/
def HeldAtOnce (s t : State) (l : Terminal) (card : Word) (a : Admitted) (quote : Nat) (origin : Option Origin) : Prop :=
  if electricSum s + (phaseOf s a.program 0).lu ≤ effectiveCap s
      ∧ waterSum s + (phaseOf s a.program 0).wu ≤ s.nv.waterCap then
    GrantedAtOnce s t l a (heldOfTap s l card a quote origin .starting)
  else QueuedFirst s t l a (heldOfTap s l card a quote origin .waitingBudget)

/-! ### Requests that wait (R54 to R57, R73, R74) -/

/-- What a waiting claim leaves that is dropped with a reason (R10, R54, R76). -/
def ClaimDropped (s t : State) (p : Pos) (c : Claim) (reason : Reason) : Prop :=
  (posAt t p).occupancy = .vacant ∧ (∀ q, q ≠ p → posAt t q = posAt s q)
    ∧ lineOf t c.terminal = { lineOf s c.terminal with
        flight := none, out := (lineOf s c.terminal).out ++ [refusedRecord 1 c.card (posByte p) reason] }
    ∧ (∀ l, l ≠ c.terminal → lineOf t l = lineOf s l)
    ∧ t.nv = s.nv ∧ t.lba = s.lba ∧ t.rlc = s.rlc ∧ t.rcs = s.rcs ∧ t.fm = s.fm ∧ t.hlp = s.hlp
    ∧ t.cru.cache = s.cru.cache

/-- What a waiting claim leaves whose hold is placed on its card's entry (R11, R56, R75): the session is live with its quote
held, and waits or is granted; its terminal has the final record, with the place where it waits. -/
def ClaimHeld (s t : State) (p : Pos) (c : Claim) (quote : Nat) (i : Fin 48) (e : Account) : Prop :=
  ∃ ses, sessionAt t p = some ses
    ∧ GrantedOnly (.live (heldSession s c quote (nominalMinutes (claimProgram s c) + c.ext) (some e.origin))) (.live ses)
    ∧ t.cru = { s.cru with cache := s.cru.cache.set i (some { e with held := e.held + quote }) }
    ∧ lineOf t c.terminal = { lineOf s c.terminal with
        flight := none, out := (lineOf s c.terminal).out ++ [startRecord p ses (placeOf t p)] }
    ∧ (∀ l, l ≠ c.terminal → lineOf t l = lineOf s l)
    ∧ OthersKept [p] s t ∧ ConfigKept s.nv t.nv ∧ t.nv.journal = s.nv.journal ∧ t.rcs = s.rcs ∧ t.fm = s.fm ∧ t.hlp = s.hlp

/-- What the resumption of a waiting TAP_START leaves: the tests of its card's entry, the second pass, then the hold
(R56, R57, R74). -/
def StartResumed (s t : State) (p : Pos) (c : Claim) (i : Fin 48) (e : Account) : Prop :=
  let quote := quoteOf (claimProgram s c) c.ext (bandInForce s).2.mult s.nv.settings.quoteCeiling
  if e.status = .suspended then ClaimDropped s t p c .cardSuspended
  else if e.balance - e.held - quote < floorOf s.nv.settings e then ClaimDropped s t p c .fundsLow
  else match secondPass s c.cls (nominalMinutes (claimProgram s c) + c.ext) with
    | some r => ClaimDropped s t p c r
    | none => ClaimHeld s t p c quote i e

/-! ### Timers, and what a reset leaves -/

/-- No timer of the part falls due in the coming tenth of a second (log 1). -/
def QuietTenth (s : State) : Prop :=
  (∀ d, s.lba.demand = some d → 2 ≤ d.left) ∧ (∀ w ∈ s.cru.wanted, w.age < 79) ∧ 2 ≤ s.rcs.minuteLeft
    ∧ s.rlc.inFlight = none ∧ (∀ n, s.rlc.retryLeft = some n → 2 ≤ n)
    ∧ (s.rlc.loop = .running → s.rlc.sweepClock < 4)
    ∧ ∀ p, silenceRuns (posAt s p) = true → (posAt s p).silent = false →
        (posAt s p).silence + 1 < s.nv.settings.silenceLimit * 10

/-- What every reset leaves, whatever caused it (R166, R168 to R170): the store keeps all but the slots and the journal,
every slot is empty, the rest is fresh, a recovered position is UNLOADING with its session's tag, and the first enrol sweep
is on its way unless RESET_N is held (log 16). FM has judged both lines. -/
def ResetLeaves (s t : State) : Prop :=
  t.supply = true ∧ ConfigKept s.nv t.nv ∧ t.nv.lockout = s.nv.lockout ∧ (∀ p : Pos, t.nv.slots[p] = none)
    ∧ t.cru = Cru.fresh ∧ t.lba = Lba.fresh ∧ t.tli = Tli.fresh
    ∧ t.rlc = (if t.resetHeld then Rlc.fresh else { Rlc.fresh with
        loop := .enrolling, sweepNo := 1,
        inFlight := some { kind := .enrol, number := 0, lastGood := 255, restart := true, carried := [] } })
    ∧ (∀ p : Pos, posAt t p = { Position.fresh with occupancy :=
        match s.nv.slots[p] with
        | none => .vacant
        | some ses => .unloading (tagOf ses.number) })
    ∧ t.fm.floodActive = isActiveLevel s.floodLevel s.nv.settings.floodPolarity
    ∧ t.fm.stopActive = isActiveLevel s.stopLevel s.nv.settings.stopPolarity
    ∧ (t.fm.floodActive = true → t.rcs.mode = .alarm ∧ flagIsSet .flood t = true)
    ∧ (t.fm.floodActive = false → t.fm.stopActive = true → t.rcs.mode = .closed ∧ flagIsSet .stopInput t = true)
    ∧ (t.fm.floodActive = false → t.fm.stopActive = false →
        t.rcs.mode = resetMode s ∧ t.hlp = Hlp.fresh ∧ t.fm = Fm.fresh)
    ∧ flagIsSet .partReset t = true ∧ t.hlp.enables = 0x7FF#11

/-- The records that recovery appends: in ascending order of position, one for each slot whose session is not that of the
record newest at the reset and none for one that is, each with the reset's outcome, no terminal, no cause and the end
minute of the moment (R167, R169; where fewer numbers are left, log 28; the newest record, log 51). -/
def RecoveredRecords (s t : State) (outcome : EndOutcome) (endMinute : Word) : Prop :=
  ∃ new, t.nv.journal = s.nv.journal ++ new
    ∧ (new.map SettlementRecord.position).Sublist (unrecordedSlots s.nv)
    ∧ ((unrecordedSlots s.nv).length ≤ numbersLeft s.nv →
        new.map SettlementRecord.position = unrecordedSlots s.nv)
    ∧ ∀ r ∈ new, r.outcome = outcome ∧ r.terminal = none ∧ r.cause = none ∧ r.endMinute = endMinute
        ∧ ∃ ses, s.nv.slots[r.position] = some ses ∧ r.number = ses.number ∧ r.card = ses.card
          ∧ r.quote = ses.quote ∧ r.charge = chargeOf s.nv.settings.graceMinutes outcome ses

end Sys2Proof.Machine
end

