-- ==== Sys2Proof/WellFormed.lean ====
section
/-!
DEFINITION. Which commands are well formed: a frame command carries a frame of the kind its row names, and a list
is no longer than a frame can carry. Operands of every other row are bounded by their types.
-/
namespace Sys2Proof
open Sys2Proof.Machine

/-- The bytes stand for one whole good frame: sync, LEN, type, LEN bytes of body and an agreeing CRC (R171). -/
def isGoodFrame (bytes : List Byte) : Bool :=
  match bytes with
  | sync :: len :: kind :: rest =>
    let body := rest.take len.toNat
    decide (sync = 0xA5#8 ∧ len.toNat ≤ 250 ∧ rest.length = len.toNat + 2 ∧ bytes = frameBytes kind body)
  | _ => false

/-- The bytes are those of a frame up to where the assembler abandons it: at a LEN above 250, or at a CRC that does
not agree (R171). -/
def isAbandonedFrame (bytes : List Byte) : Bool :=
  match bytes with
  | sync :: len :: rest =>
    decide (sync = 0xA5#8) &&
      ((decide (250 < len.toNat) && rest.isEmpty)
        || (decide (len.toNat ≤ 250 ∧ rest.length = len.toNat + 3) && !isGoodFrame bytes))
  | _ => false

/-- The bytes stand for a terminal frame of no known request: its CRC fails, or its type and body length are those of
no terminal request (R67, R69). -/
def isBadTerminalFrame (bytes : List Byte) : Bool :=
  isAbandonedFrame bytes ||
    (isGoodFrame bytes &&
      match bytes with
      | _ :: len :: kind :: _ => !(terminalBodyLength kind == some len.toNat)
      | _ => false)

/-- The well-formed commands. -/
def Instr.wellFormed : Instr → Bool
  | .hostFrame bytes => isGoodFrame bytes
  | .hostBadFrame bytes => isAbandonedFrame bytes
  | .terminalBadFrame _ bytes => isBadTerminalFrame bytes
  | .programWrite _ (some record) => decide (record.phases.length ≤ 48)
  | .settingsWrite settings => decide (settings.length ≤ 83)
  | _ => true

end Sys2Proof
end

