-- ==== Sys2Proof/Certificates/Slice0/Obligations.lean ====
section
/-!
DEFINITION. Statements for the provers, from the numbered rules of spec/. The conditions they share (Taking, Serving,
RoomHeld) and what they share in their conclusions (Answers, EndedAt, RoomStopped, ResetLeaves) are in Safety.lean.
-/
section
open Sys2Proof Sys2Proof.Machine

/-! ### The queue of commands -/

/-- A step takes the command at the front of the queue on the state with the queue's rest; and no command, nor an
empty queue, stops the part: every step answers a next state. -/
def Obligations.StepTakesFrontCommand : Prop :=
  (∀ (c : Instr) (rest : List Instr) (s : State),
    s.pending = c :: rest → step s = exec c { s with pending := rest })
  ∧ ((∀ (c : Instr) (s : State), ∃ t, exec c s = .next t) ∧ ∀ s : State, s.pending = [] → ∃ t, step s = .next t)

/-- With no command waiting and no timer due, a tenth of a second passes on every running timer, and a frame half
assembled on the host line or on a terminal line is abandoned, since the tenth is a gap of more than 10 ms (R67,
R171); nothing else happens. That an idle step is a tenth of a second (log 1), and that the tenth is such a gap (log
36), is the model's choice. -/
def Obligations.IdleStepPassesOneTenth : Prop :=
  ∀ s : State, s.pending = [] → Taking s → QuietTenth s → ∃ t, step s = .next t
    ∧ t.rcs = { s.rcs with minuteLeft := s.rcs.minuteLeft - 1 }
    ∧ t.lba = { s.lba with demand := s.lba.demand.map fun d => { d with left := d.left - 1 } }
    ∧ t.cru = { s.cru with wanted := s.cru.wanted.map fun w => { w with age := w.age + 1 } }
    ∧ t.rlc = { s.rlc with
        sweepClock := min (s.rlc.sweepClock + 1) 5, retryLeft := s.rlc.retryLeft.map fun n => n - 1 }
    ∧ t.hlp = { s.hlp with assembler := .hunting }
    ∧ (∀ l, lineOf t l = { lineOf s l with assembler := .hunting })
    ∧ (∀ p, posAt t p =
        if silenceRuns (posAt s p) && !(posAt s p).silent then
          { posAt s p with silence := (posAt s p).silence + 1 }
        else posAt s p)
    ∧ t.nv = s.nv ∧ t.fm = s.fm ∧ t.pending = [] ∧ t.supply = s.supply ∧ t.resetHeld = s.resetHeld

/-- While the supply is down or RESET_N is held the part takes no record and sends nothing: nothing changes but the
supply and reset themselves, and the clock, whose minute boundaries still fall while RESET_N is held (10.2, R165,
R166, R169). That no other timer runs then, and that the levels standing on the input lines are recorded, is the
model's choice (log 17). An event that is not taken still finds every earlier taking's writes complete, which the
model's own fields say (R165; log 15). -/
def Obligations.NothingIsTakenWhileDown : Prop :=
  ∀ (c : Instr) (s : State), takes s = false →
    let u := beginTaking s
    match c with
    | .powerUp => True
    | .powerFail _ => True
    | .resetNAsserted _ => True
    | .warmReset => True
    | .floodInActivation => exec c s = .next { u with floodLevel := activeLevel s.nv.settings.floodPolarity }
    | .floodInRelease => exec c s = .next { u with floodLevel := releasedLevel s.nv.settings.floodPolarity }
    | .stopInActivation => exec c s = .next { u with stopLevel := activeLevel s.nv.settings.stopPolarity }
    | .stopInRelease => exec c s = .next { u with stopLevel := releasedLevel s.nv.settings.stopPolarity }
    | .minuteBoundary =>
      exec c s = .next (if s.supply then advanceClock { u with rcs := { s.rcs with minuteLeft := 600 } } else u)
    | _ => exec c s = .next u

/-! ### Supply and reset (chapter 10) -/

/-- Power-up keeps the Retained Store, puts all else into its power-up value, unsets the clock, starts the minute
timer and closes the slots POWER_LOST with end minute 0: every slot whose session is not the journal's newest record
gets its record, in ascending order of position (R166 to R168, R170; logs 28 and 51). While RESET_N is held the part
sends no sweep (log 16), and its minute timer runs from the power-up (log 49). -/
def Obligations.PowerUpKeepsOnlyTheStore : Prop :=
  ∀ s : State, ∃ t, exec .powerUp s = .next t ∧ ResetLeaves s t ∧ RecoveredRecords s t .powerLost 0
    ∧ t.rcs.clockSet = false ∧ t.rcs.epoch = 0 ∧ t.rcs.minuteOfWeek = 0 ∧ t.rcs.minuteLeft = 600 ∧ t.resetHeld = s.resetHeld

/-- A warm reset, at the release of RESET_N or after Part Reset's reply, acts as power-up but closes the slots with
outcome RESET, every slot whose session is not the newest record's in ascending order of position, and keeps the clock
and the minute timer (R167, R169; logs 28 and 51). At any other moment, and with the supply down, the command starts
no reset (the model's choice, log 17). -/
def Obligations.WarmResetKeepsTheClock : Prop :=
  ∀ s : State,
    (s.supply = true → s.resetHeld = true ∨ servesPartReset s = true →
      ∃ t, exec .warmReset s = .next t ∧ ResetLeaves s t ∧ RecoveredRecords s t .warmReset (stampNow s)
        ∧ t.resetHeld = false ∧ t.rcs = { s.rcs with mode := t.rcs.mode })
    ∧ (s.supply = true → s.resetHeld = false → servesPartReset s = false →
      exec .warmReset s = .next (beginTaking s))
    ∧ (s.supply = false → exec .warmReset s = .next { beginTaking s with resetHeld := false })

/-- Recovery takes one slot: an empty one is left; one whose session is the newest record's is emptied without a
record; any other appends one record and is emptied; either way the position is UNLOADING. A record appended just
before a loss names its slot's session. A fall of the supply at any moment of a recovery leaves a store whose recovery
adds only what was still missing: each slot's session is in the records appended so far or is still to be recorded, and
none is recorded twice (R150, R167; the session that the newest record names is taken first, log 51). -/
def Obligations.RecoveryRecordsEachSessionOnce : Prop :=
  (∀ (outcome : EndOutcome) (p : Pos) (s : State),
    (s.nv.slots[p] = none → recoverSlot outcome p s = s ∧ clearRecorded p s = s)
    ∧ ∀ ses, s.nv.slots[p] = some ses →
        (alreadyRecorded s.nv p ses = true → clearRecorded p s = emptySlot p ses s)
        ∧ (alreadyRecorded s.nv p ses = false → clearRecorded p s = s)
        ∧ (posAt (recoverSlot outcome p s) p).occupancy = .unloading (tagOf ses.number)
        ∧ (recoverSlot outcome p s).nv.slots[p] = none
        ∧ (s.nv.exhausted = false → (recoverSlot outcome p s).nv.journal =
            s.nv.journal ++ [{ settlementOf s p ses outcome none with terminal := none }])
        ∧ (s.nv.exhausted = false →
            alreadyRecorded (appended (settlementOf s p ses outcome none) s.nv) p ses = true)
        ∧ (posAt (emptySlot p ses s) p).occupancy = .unloading (tagOf ses.number)
        ∧ (emptySlot p ses s).nv = { s.nv with slots := s.nv.slots.set p none })
  ∧ ∀ (c : Instr) (s t : State), c = .powerUp ∨ (c = .warmReset ∧ s.supply = true ∧ (s.resetHeld = true ∨ servesPartReset s = true)) →
    exec c s = .next t → (unrecordedSlots s.nv).length ≤ numbersLeft s.nv →
    ∀ nv ∈ t.nv :: t.undo, ∃ new, nv.journal = s.nv.journal ++ new
      ∧ new.map SettlementRecord.position ++ unrecordedSlots nv = unrecordedSlots s.nv

/-- A fall of the supply, or RESET_N inside a recovery, leaves the store as it stood between two whole writes of the
latest taking, and changes nothing else but the supply or the line. Any event completes the writes of the takings before
it, RESET_N among them and a tenth of a second while RESET_N is held, so that a later fall takes none of them back
(R165, R167, R169; log 15). -/
def Obligations.CutsLeaveWholeWrites : Prop :=
  ∀ (cut : Nat) (s : State),
    let u := beginTaking s
    (s.supply = true → ∃ nv ∈ s.nv :: s.undo, exec (.powerFail cut) s = .next { u with supply := false, nv := nv })
    ∧ (s.supply = true → s.undo = [] → exec (.powerFail cut) s = .next { u with supply := false })
    ∧ (s.supply = true → exec (.powerFail 0) s = .next { u with supply := false })
    ∧ (s.supply = false → exec (.powerFail cut) s = .next u)
    ∧ (s.resetHeld = true → exec (.resetNAsserted cut) s = .next u)
    ∧ (s.resetHeld = false → s.supply = true → s.recovering = true → ∃ nv ∈ s.nv :: s.undo,
      exec (.resetNAsserted cut) s = .next { u with resetHeld := true, nv := nv })
    ∧ (s.resetHeld = false → s.supply = false ∨ s.recovering = false →
      exec (.resetNAsserted cut) s = .next { u with resetHeld := true })
    ∧ u.undo = [] ∧ (takes s = false → s.pending = [] → ∃ t, step s = .next t ∧ t.undo = [] ∧ t.nv = s.nv)

/-! ### The lines (chapters 4, 11 and 12) -/

/-- The assembler reads back every frame that Table 12-1 lays out: the whole frame gives its type and body, and leaves
the assembler hunting (R171, R181). -/
def Obligations.FramesAreReadBack : Prop :=
  ∀ (kind : Byte) (body : List Byte), body.length ≤ 250 →
    assemblerFeed .hunting (frameBytes kind body) = (.hunting, [{ kind, body }])

/-- A good frame that carries a request acts as that request's own row, and one that HLP refuses for its type or
length is answered with its code and changes nothing else (R171 to R173). -/
def Obligations.HostFrameIsItsRequest : Prop :=
  ∀ (kind : Byte) (body : List Byte) (s : State), body.length ≤ 250 → s.hlp.assembler = .hunting →
    (∀ r, requestOf { kind, body } = .good r →
      exec (.hostFrame (frameBytes kind body)) s = exec (requestRow r) s)
    ∧ (∀ code, requestOf { kind, body } = .bad kind code → Serving s →
      exec (.hostFrame (frameBytes kind body)) s = .next { beginTaking s with hlp := { s.hlp with
        served := some { request := .bad kind code, reply := { kind := 0xFF, body := [kind, errorCode code] } }
        ahead := s.hlp.busy.length } })

/-- An abandoned frame leaves no trace on either kind of line, and a gap ends a half-assembled one. A good terminal
frame whose type and length are those of no request is answered BAD_REQUEST, and nothing else changes; its head
repeats the type, holds position 0 for a balance enquiry, and its card, with any other position, is free. A record
that has left its line leaves the head of the terminal's output queue (R67 to R69, R171, R181; logs 10 and 43). -/
def Obligations.TerminalFramesAndRecords : Prop :=
  (∀ (bytes : List Byte) (l : Terminal) (s : State), Taking s →
    (isAbandonedFrame bytes = true → s.hlp.assembler = .hunting →
      exec (.hostBadFrame bytes) s = .next (beginTaking s))
    ∧ (isAbandonedFrame bytes = true → (lineOf s l).assembler = .hunting →
      exec (.terminalBadFrame l bytes) s = .next (beginTaking s))
    ∧ exec .hostFrameGapTimeout s = .next { beginTaking s with hlp := { s.hlp with assembler := .hunting } }
    ∧ exec (.terminalFrameGapTimeout l) s =
        .next (modLine l (fun x => { x with assembler := .hunting }) (beginTaking s)))
  ∧ ((∀ (l : Terminal) (kind : Byte) (body : List Byte) (s : State), Taking s → body.length ≤ 250 →
    (lineOf s l).assembler = .hunting → terminalBodyLength kind ≠ some body.length →
    ∃ card position, (kind = 2 → position = 0) ∧ exec (.terminalBadFrame l (frameBytes kind body)) s =
      .next (if (lineOf s l).out.length < 6 then
        modLine l (fun x => { x with out := x.out ++ [{ kind := 0x93, body := kind :: wordBytes card ++ [position, 1] }] })
          (beginTaking s)
      else beginTaking s))
  ∧ (∀ (l : Terminal) (s : State), Taking s → exec (.terminalRecordSent l) s =
    .next (modLine l (fun x => { x with out := x.out.drop 1 }) (beginTaking s))))

/-- What follows when the last byte of a reply has left HOST_TX: a LINK_BUSY reply that went first leaves its place;
Part Reset's reply begins the warm reset; any other ends its request, and a waiting request is served in its turn. A
request that finds another being served waits; one that finds both places taken is answered LINK_BUSY while HLP holds
fewer than 4 such replies, and is discarded otherwise (R169, R172; logs 33 and 50). -/
def Obligations.HostRequestsTakeTheirTurn : Prop :=
  (∀ s : State, Taking s →
    (sendingBusy s = true →
      exec .hostReplySent s = .next { beginTaking s with hlp := { s.hlp with
        busy := s.hlp.busy.drop 1, ahead := s.hlp.ahead - 1 } })
    ∧ (sendingBusy s = false → servesPartReset s = true → exec .hostReplySent s = exec .warmReset s)
    ∧ (sendingBusy s = false → servesPartReset s = false → s.hlp.waiting = none →
      exec .hostReplySent s = .next { beginTaking s with hlp := { s.hlp with served := none } })
    ∧ (∀ r, sendingBusy s = false → servesPartReset s = false → s.hlp.served ≠ none →
      s.hlp.waiting = some (.good r) →
      exec .hostReplySent s = exec (requestRow r) { s with hlp := { s.hlp with served := none, waiting := none } }))
  ∧ (∀ (r : Request) (s : State), Taking s → s.hlp.served ≠ none →
    (s.hlp.waiting = none →
      exec (requestRow r) s = .next { beginTaking s with hlp := { s.hlp with waiting := some (.good r) } })
    ∧ (s.hlp.waiting ≠ none → s.hlp.busy.length < 4 →
      exec (requestRow r) s = .next { beginTaking s with hlp := { s.hlp with
        busy := s.hlp.busy ++ [{ kind := 0xFF, body := [requestType r, 10] }] } })
    ∧ (s.hlp.waiting ≠ none → 4 ≤ s.hlp.busy.length → exec (requestRow r) s = .next (beginTaking s)))

/-- Identify gives the vendor code 4,416, the model code 24, the revision 3 and the serial number, and changes
nothing; Part Reset gives the first three. Attention Read changes nothing; Attention Clear clears the flags named and
no other; Attention Enable replaces every enable; each reply gives what its rule names. ATTN is asserted while at
least one flag is both set and enabled, and an event sets its own flag alone, whatever its enable (R169, R174 to R176,
R182). That bits 11 to 15 of the flags and of the enables in a reply are 0 is the model's choice (log 56). -/
def Obligations.IdentityAndAttention : Prop :=
  (∀ s : State, Serving s →
    Answers .identify s (beginTaking s) (.ok ([0x11, 0x40, 24, 3] ++ wordBytes s.nv.serial))
    ∧ Answers .partReset s (beginTaking s) (.ok [0x11, 0x40, 24, 3]))
  ∧ ((∀ (mask : Half) (s : State), Serving s →
    Answers .attentionRead s (beginTaking s)
      (.ok (flagBytes s.hlp.flags ++ flagBytes s.hlp.enables ++ flagByte (attn s)))
    ∧ (let t := { beginTaking s with hlp := { s.hlp with flags := s.hlp.flags &&& ~~~(mask.setWidth 11) } }
      Answers (.attentionClear mask) s t (.ok (flagBytes t.hlp.flags ++ flagByte (attn t))))
    ∧ (let t := { beginTaking s with hlp := { s.hlp with enables := mask.setWidth 11 } }
      Answers (.attentionEnable mask) s t
        (.ok (flagBytes t.hlp.flags ++ flagBytes t.hlp.enables ++ flagByte (attn t)))))
  ∧ (∀ s : State,
    (attn s = true ↔ ∃ f, flagIsSet f s = true ∧ s.hlp.enables.getLsbD (attnIndex f).val = true)
    ∧ ∀ f g, flagIsSet g (setFlag f s) = (decide (g = f) || flagIsSet g s)
        ∧ (setFlag f s).hlp.enables = s.hlp.enables))

/-! ### Clock, bands and modes (chapter 9) -/

/-- Clock Set refuses a minute of week above 10,079; otherwise it writes both values and sets the flag, and the minute
timer runs on; the reply gives what the write leaves (R157, R163, R181, R182). The code of the effective mode in the
reply is the model's choice (log 8). -/
def Obligations.ClockSetWritesTheClock : Prop :=
  ∀ (epoch : Word) (minute : Half) (s : State), Serving s →
    (10079 < minute.toNat → Refuses (.clockSet epoch minute) s .badValue)
    ∧ (minute.toNat ≤ 10079 →
      let t := { beginTaking s with rcs := { s.rcs with clockSet := true, epoch := epoch, minuteOfWeek := minute.toNat } }
      Answers (.clockSet epoch minute) s t
        (.ok (wordBytes epoch ++ halfBytes minute ++ u8 ((s.rcs.minuteLeft + 9) / 10)
          ++ (u8 (bandInForce t).1.val ++ u8 (bandInForce t).2.mult ++ flagByte (bandInForce t).2.quiet)
          ++ [effectiveModeCode (effectiveMode t)])))

/-- The band in force is the present entry of the greatest start not above the minute of week, or else of the greatest
start; the effective mode is QUIET exactly in an OPEN room with a set clock and a quiet band in force; the late-start
distance is the least over the present quiet entries, from 1 to 10,080 (R160, R161, R163). -/
def Obligations.BandModeAndDistance : Prop :=
  ∀ s : State, (∃ i : Fin 8, (s.nv.bands[i]).isSome) →
    (let m := if s.rcs.clockSet then s.rcs.minuteOfWeek else 0
      let e := bandInForce s
      s.nv.bands[e.1] = some e.2
      ∧ (e.2.start ≤ m → ∀ (j : Fin 8) (b : Band), s.nv.bands[j] = some b → b.start ≤ m → b.start ≤ e.2.start)
      ∧ (m < e.2.start → ∀ (j : Fin 8) (b : Band), s.nv.bands[j] = some b → m < b.start ∧ b.start ≤ e.2.start))
    ∧ (effectiveMode s = .quiet ↔
        s.rcs.clockSet = true ∧ s.rcs.mode = .opened ∧ (bandInForce s).2.quiet = true)
    ∧ (s.rcs.clockSet = false → lateDistance s = none)
    ∧ (∀ d, lateDistance s = some d → 1 ≤ d ∧ d ≤ 10080
        ∧ ∃ (j : Fin 8) (b : Band), s.nv.bands[j] = some b ∧ b.quiet = true
          ∧ d = distanceTo s.rcs.minuteOfWeek b.start)
    ∧ (s.rcs.clockSet = true → s.rcs.minuteOfWeek ≤ 10079 → ∀ (j : Fin 8) (b : Band),
        s.nv.bands[j] = some b → b.quiet = true → b.start ≤ 10079 →
        ∃ d, lateDistance s = some d
          ∧ d ≤ (if s.rcs.minuteOfWeek < b.start then b.start - s.rcs.minuteOfWeek
              else b.start + 10080 - s.rcs.minuteOfWeek))

/-- Room Mode Set takes its tests in order: BAD_VALUE for a mode other than OPEN or CLOSED, STATE while ALARM may not
be left, STATE for OPEN while STOP_IN is active; otherwise the room takes the mode and the reply gives it with the
effective mode. Where it leaves ALARM no HALT_WATER is left to be carried: one not yet carried leaves the queue, one
carried stays withdrawn, those held back are discarded, and every other directive stays in its place (R119, R136, R164).
The code of the effective mode in the reply is the model's choice (log 8). -/
def Obligations.RoomModeSetTakesItsTests : Prop :=
  ∀ (mode : Byte) (s : State), Serving s →
    if mode ≠ 0 ∧ mode ≠ 1 then Refuses (.roomModeSet mode) s .badValue
    else if s.rcs.mode = .alarm
        ∧ (s.fm.floodActive = true ∨ ∃ p, (posAt s p).causes.contains .leak = true) then
      Refuses (.roomModeSet mode) s .state
    else if mode = 0 ∧ s.fm.stopActive = true then Refuses (.roomModeSet mode) s .state
    else if s.rcs.mode = .alarm then
      let t := { beginTaking s with
        rcs := { s.rcs with mode := if mode = 0 then .opened else .closed }
        rlc := { s.rlc with
          queue := s.rlc.queue.filterMap fun e =>
            if e.dir.order = .haltWater then (if e.seq = none then none else some { e with withdrawn := true })
            else some e
          heldFm := s.rlc.heldFm.filter fun d => d.order != .haltWater } }
      Answers (.roomModeSet mode) s t (.ok [mode, effectiveModeCode (effectiveMode t)])
        ∧ (∀ e ∈ t.rlc.queue, e.dir.order = .haltWater → e.withdrawn = true)
        ∧ ∀ d ∈ t.rlc.heldFm, d.order ≠ .haltWater
    else
      let t := { beginTaking s with rcs := { s.rcs with mode := if mode = 0 then .opened else .closed } }
      Answers (.roomModeSet mode) s t (.ok [mode, effectiveModeCode (effectiveMode t)])

/-! ### Tables written by the host (chapters 1, 2, 3, 5, 7, 9, 11) -/

/-- Program Write validates its fields, then asks whether a session names the program, then stores the whole record; a
write that makes the record absent takes the second test alone (R31, R32). The three figures in the reply to the
latter are free (log 11). That bits 2 to 7 of a phase's flag byte are ignored is the model's choice (log 53). -/
def Obligations.ProgramWriteStoresTheRecord : Prop :=
  ∀ (id : Byte) (record : Option ProgramFields) (s : State), Serving s →
    (16 ≤ id.toNat → Refuses (.programWrite id record) s .badValue)
    ∧ ∀ pid : ProgramId, pid.val = id.toNat →
      (record = none → 0 < programUsers s pid → Refuses (.programWrite id record) s .state)
      ∧ (record = none → programUsers s pid = 0 → ∃ a b c,
          Answers (.programWrite id record) s (storedAs { s.nv with programs := s.nv.programs.set pid none } s)
            (.ok [id, a, b, c, 0]))
      ∧ ∀ f, record = some f →
          (classOf f.cls = none → Refuses (.programWrite id record) s .badValue)
          ∧ ∀ cls, classOf f.cls = some cls →
            (programValid cls f = false → Refuses (.programWrite id record) s .badValue)
            ∧ (programValid cls f = true → 0 < programUsers s pid → Refuses (.programWrite id record) s .state)
            ∧ (programValid cls f = true → programUsers s pid = 0 →
                let prog : Program :=
                  { cls, base := f.base.toNat, rate := if cls = .washer then 0 else f.rate.toNat,
                    phases := f.phases.map storedPhase }
                Answers (.programWrite id record) s
                  (storedAs { s.nv with programs := s.nv.programs.set pid (some prog) } s)
                  (.ok ([id] ++ (u8 (nominalMinutes prog) ++ u8 (peakLu prog) ++ u8 (peakWu prog))
                    ++ flagByte (storedOtherwise cls f))))

/-- Band Write and Range Write refuse what their rules name and otherwise replace the whole entry, a band's multiplier
clamped to 50 to 250; the reply gives the entry, and for a band the clamp and the band in force after the write. A
card's class is that of the first present entry, in order of index, that includes it at both ends, and otherwise none
(R45, R46, R159). That the reply leads with a present byte of 1, and gives an absent entry as zeros of its full width,
is the model's choice (log 8). -/
def Obligations.BandAndRangeWritesStoreTheEntry : Prop :=
  (∀ (index : Byte) (entry : Option BandFields) (s : State), Serving s →
    (8 ≤ index.toNat → Refuses (.bandWrite index entry) s .badValue)
    ∧ ∀ i : Fin 8, i.val = index.toNat →
      (entry = none → (∀ j : Fin 8, j ≠ i → s.nv.bands[j] = none) → Refuses (.bandWrite index entry) s .badValue)
      ∧ (entry = none → (∃ j : Fin 8, j ≠ i ∧ (s.nv.bands[j]).isSome) →
          let t := storedAs { s.nv with bands := s.nv.bands.set i none } s
          Answers (.bandWrite index entry) s t (.ok ([0, 0, 0, 0, 0, 0] ++ bandBytes t)))
      ∧ ∀ f, entry = some f →
          (10079 < f.start.toNat
              ∨ (∃ j : Fin 8, ∃ b, j ≠ i ∧ s.nv.bands[j] = some b ∧ b.start = f.start.toNat) →
            Refuses (.bandWrite index entry) s .badValue)
          ∧ (f.start.toNat ≤ 10079 →
              (∀ (j : Fin 8) (b : Band), j ≠ i → s.nv.bands[j] = some b → b.start ≠ f.start.toNat) →
              let b : Band := { start := f.start.toNat, mult := max 50 (min 250 f.mult.toNat), quiet := f.quiet }
              let t := storedAs { s.nv with bands := s.nv.bands.set i (some b) } s
              Answers (.bandWrite index entry) s t
                (.ok ([1] ++ u16 b.start ++ u8 b.mult ++ flagByte b.quiet ++ flagByte (b.mult != f.mult.toNat)
                  ++ bandBytes t))))
  ∧ ((∀ (index : Byte) (entry : Option RangeFields) (s : State), Serving s →
    (8 ≤ index.toNat → Refuses (.rangeWrite index entry) s .badValue)
    ∧ ∀ i : Fin 8, i.val = index.toNat →
      (entry = none →
        Answers (.rangeWrite index entry) s (storedAs { s.nv with ranges := s.nv.ranges.set i none } s)
          (.ok (List.replicate 10 0)))
      ∧ ∀ f, entry = some f →
          (rangeClassOf f.cls = none ∨ f.high.toNat < f.low.toNat → Refuses (.rangeWrite index entry) s .badValue)
          ∧ ∀ cls, rangeClassOf f.cls = some cls → f.low.toNat ≤ f.high.toNat →
              Answers (.rangeWrite index entry) s
                (storedAs { s.nv with ranges := s.nv.ranges.set i (some { low := f.low, high := f.high, cls }) } s)
                (.ok ([1] ++ wordBytes f.low ++ wordBytes f.high ++ [f.cls])))
  ∧ ∀ (nv : Retained) (card : Word),
    (rangeClassAt nv card = none ↔ ∀ (i : Fin 8) (e : RangeEntry), nv.ranges[i] = some e →
      card.toNat < e.low.toNat ∨ e.high.toNat < card.toNat)
    ∧ ∀ cls, rangeClassAt nv card = some cls → ∃ (i : Fin 8) (e : RangeEntry), nv.ranges[i] = some e ∧ e.cls = cls
        ∧ e.low.toNat ≤ card.toNat ∧ card.toNat ≤ e.high.toNat
        ∧ ∀ (j : Fin 8) (d : RangeEntry), j < i → nv.ranges[j] = some d →
            card.toNat < d.low.toNat ∨ d.high.toNat < card.toNat)

/-- Settings Write refuses a wrong count, a setting named twice and a value that is not a named one, storing nothing;
otherwise it stores every setting carried in one write, each clamped to its range. Then each takes effect: a position
whose silence stands at or beyond a lowered SilenceLimit ends with ADAPTER_SILENT, and a line whose polarity changed
is judged afresh, with the actions of its edge; where no measure stands so and no polarity changes, nothing else
follows (R51, R122, R144, R178). That a measure which has stopped at a former limit is not reached by a lowered one
(log 31), and that a line whose polarity is written with the value it had is not judged again (log 38), is the model's
choice. -/
def Obligations.SettingsWriteStoresTogether : Prop :=
  ∀ (list : List (Byte × Half)) (s : State), Serving s →
    (list.length < 1 ∨ 13 < list.length → Refuses (.settingsWrite list) s .badLength)
    ∧ (1 ≤ list.length → list.length ≤ 13 →
      (namedTwice list = true ∨ storeSettings (greatestCardCount s) list s.nv.settings = none →
        Refuses (.settingsWrite list) s .badValue)
      ∧ ∀ new, namedTwice list = false → storeSettings (greatestCardCount s) list s.nv.settings = some new →
        let u := storedAs { s.nv with settings := new } s
        let answer := fun t => Answers (.settingsWrite list) s t
          (.ok (u8 list.length ++ (list.map fun e =>
            [e.1] ++ u16 (settingValue new e.1) ++ flagByte (settingValue new e.1 != e.2.toNat)).flatten))
        let silent := new.silenceLimit < s.nv.settings.silenceLimit
        let floodKept := new.floodPolarity = s.nv.settings.floodPolarity
        let stopKept := new.stopPolarity = s.nv.settings.stopPolarity
        let flood := isActiveLevel s.floodLevel new.floodPolarity
        let stop := isActiveLevel s.stopLevel new.stopPolarity
        (floodKept ∨ flood = s.fm.floodActive → stopKept ∨ stop = s.fm.stopActive →
          (¬ silent ∨ ∀ p, silenceDue u p = false) → answer u)
        ∧ (∀ p ses, floodKept → stopKept → silent → silenceDue u p = true → (∀ q, q ≠ p → silenceDue u q = false) →
          sessionAt s p = some ses → RoomHeld s →
          ∃ t, answer t ∧ FaultEnds u t p ses .adapterSilent ∧ (posAt t p).silent = true
            ∧ (posAt t p).silence = new.silenceLimit * 10)
        ∧ (¬ floodKept → stopKept → ¬ silent → flood = true → s.fm.floodActive = false →
          (s.rcs.mode = .alarm ∨ RoomHeld s) → ∃ t, answer t ∧ FloodActivated u t)
        ∧ (¬ floodKept → stopKept → ¬ silent → flood = false → s.fm.floodActive = true →
          ∃ t, answer t ∧ FloodReleased u t)
        ∧ (¬ stopKept → floodKept → ¬ silent → stop = true → s.fm.stopActive = false → RoomHeld s →
          ∃ t, answer t ∧ StopActivated u t)
        ∧ (¬ stopKept → floodKept → ¬ silent → stop = false → s.fm.stopActive = true →
          ∃ t, answer t ∧ StopReleased u t))
    ∧ ∀ (number : Byte) (value : Half) (greatest : Nat) (old : Settings),
      (number = 0 ∨ 14 ≤ number.toNat → storeSetting greatest number value old = none)
      ∧ storeSetting greatest 1 value old = some { old with extensionMax := min 90 value.toNat }
      ∧ storeSetting greatest 2 value old = some { old with quoteCeiling := max 1 (min 60000 value.toNat) }
      ∧ storeSetting greatest 3 value old = some { old with graceMinutes := min 10 value.toNat }
      ∧ storeSetting greatest 4 value old = some { old with overrunTolerance := min 60 value.toNat }
      ∧ storeSetting greatest 5 value old = some { old with startWaitLimit := max 1 (min 30 value.toNat) }
      ∧ storeSetting greatest 6 value old = some { old with silenceLimit := max 10 (min 600 value.toNat) }
      ∧ storeSetting greatest 7 value old = some { old with offlineAllowance := min 5000 value.toNat }
      ∧ storeSetting greatest 8 value old =
          some { old with cardSessionLimit := max (max 1 (min 4 value.toNat)) greatest }
      ∧ (9 ≤ number.toNat → 2 ≤ value.toNat → storeSetting greatest number value old = none)
      ∧ storeSetting greatest 9 0 old = some { old with powerUpMode := .opened }
      ∧ storeSetting greatest 9 1 old = some { old with powerUpMode := .closed }
      ∧ storeSetting greatest 10 0 old = some { old with floodPolarity := .activeHigh }
      ∧ storeSetting greatest 10 1 old = some { old with floodPolarity := .activeLow }
      ∧ storeSetting greatest 11 0 old = some { old with stopPolarity := .activeHigh }
      ∧ storeSetting greatest 11 1 old = some { old with stopPolarity := .activeLow }
      ∧ storeSetting greatest 12 0 old = some { old with floodReportRelease := .on }
      ∧ storeSetting greatest 12 1 old = some { old with floodReportRelease := .off }
      ∧ storeSetting greatest 13 0 old = some { old with stopReportRelease := .on }
      ∧ storeSetting greatest 13 1 old = some { old with stopReportRelease := .off }

/-- Trim Set refuses a position outside 1 to 24 and otherwise stores the trim; at a position that is not ABSENT the
corrected figure is the measured one and the trim, clamped to 0 to 4,095. That an ABSENT position's figure stays,
where R101 and R102 differ, is the model's choice (log 34). Position Service refuses a wrong position or marking, then
OUT_OF_SERVICE under an ACCOUNT or FREE session, and otherwise stores the marking; Position Clear Lockout refuses
while a lockout-class cause is present and otherwise clears the flag (R4, R101, R102, R143, R179). -/
def Obligations.PositionRequestsAreWritten : Prop :=
  (∀ (position trim : Byte) (s : State), Serving s →
    (posOfNumber position.toNat = none → Refuses (.trimSet position trim) s .badValue)
    ∧ ∀ p, posOfNumber position.toNat = some p →
      let figure := (clampInt 0 4095 ((posAt s p).measured + trim.toInt)).toNat
      let q := if (posAt s p).presence = .absent then posAt s p else { posAt s p with corrected := figure }
      Answers (.trimSet position trim) s
        { storedAs { s.nv with trims := s.nv.trims.set p trim.toInt } s with positions := s.positions.set p q }
        (.ok ([position, trim] ++ u16 q.corrected)))
  ∧ (∀ (position marking : Byte) (s : State), Serving s →
    (posOfNumber position.toNat = none →
      Refuses (.positionService position marking) s .badValue ∧ Refuses (.positionClearLockout position) s .badValue)
    ∧ ∀ p, posOfNumber position.toNat = some p →
      (2 ≤ marking.toNat → Refuses (.positionService position marking) s .badValue)
      ∧ (marking = 1 → (∃ cls, sessionClassAt s p = some cls ∧ cls ≠ .service) →
          Refuses (.positionService position marking) s .state)
      ∧ (∀ m, serviceOf marking = some m → (m = .outOfService → ∀ cls, sessionClassAt s p = some cls → cls = .service) →
          Answers (.positionService position marking) s
            (if s.nv.service[p] = m then beginTaking s
              else storedAs { s.nv with service := s.nv.service.set p m } s)
            (.ok [position, marking, serviceCode s.nv.service[p]]))
      ∧ ((∃ c ∈ (posAt s p).causes, locks c = true) → Refuses (.positionClearLockout position) s .causePresent)
      ∧ ((∀ c ∈ (posAt s p).causes, locks c = false) →
          Answers (.positionClearLockout position) s
            (if s.nv.lockout[p] then storedAs { s.nv with lockout := s.nv.lockout.set p false } s else beginTaking s)
            (.ok ([position] ++ flagByte s.nv.lockout[p]))))

/-- The reads change nothing: Wanted Read, Roster Read, Position Read and Status answer with what their rules name.
Program Read refuses an id above 15, gives presence alone for an absent program, and for a present one the record, its
phases laid out field by field, the three figures and the number of sessions that name it (R33, R53, R141, R177, R180,
R182; logs 8, 52 and 56). -/
def Obligations.ReadsChangeNothing : Prop :=
  (∀ (position : Byte) (s : State), Serving s →
    Answers .wantedRead s (beginTaking s)
      (.ok (u8 s.cru.wanted.length
        ++ (s.cru.wanted.map fun w => wordBytes w.card ++ u8 w.waiters.length ++ u8 w.age).flatten))
    ∧ Answers .rosterRead s (beginTaking s)
      (.ok (u8 s.fm.roster.length ++ (s.fm.roster.map (rosterBytes s)).flatten))
    ∧ (posOfNumber position.toNat = none → Refuses (.positionRead position) s .badValue)
    ∧ (∀ p, posOfNumber position.toNat = some p →
      Answers (.positionRead position) s (beginTaking s)
        (.ok (readState s p ++ readSession s p ++ readBudget s p ++ readLoop s p ++ readFaults s p)))
    ∧ Answers .status s (beginTaking s)
      (.ok (statusTime s ++ statusPositions s ++ statusBudget s ++ statusLoop s ++ statusLines s)))
  ∧ (∀ (id : Byte) (s : State), Serving s →
    (16 ≤ id.toNat → Refuses (.programRead id) s .badValue)
    ∧ ∀ pid : ProgramId, pid.val = id.toNat →
      (s.nv.programs[pid] = none → Answers (.programRead id) s (beginTaking s) (.ok [0]))
      ∧ ∀ prog, s.nv.programs[pid] = some prog →
          Answers (.programRead id) s (beginTaking s)
            (.ok ([1, classCode prog.cls] ++ u16 prog.base ++ u8 prog.rate ++ u8 prog.phases.length
              ++ (prog.phases.map fun f => u8 f.lu ++ u8 f.wu ++ u8 f.minutes ++ flagByte f.heating
                ++ flagByte f.sheddable ++ u8 f.shedLu).flatten
              ++ (u8 (nominalMinutes prog) ++ u8 (peakLu prog) ++ u8 (peakWu prog)) ++ u8 (programUsers s pid))))

/-! ### Accounts (chapter 3) -/

/-- Account Credit, Evict and Status: each refuses in its rule's order, and otherwise changes the one entry, or
empties its way, and gives its reply (R63 to R65). -/
def Obligations.AccountRequestsChangeOneEntry : Prop :=
  ∀ (card amount : Word) (status : Byte) (s : State), Serving s →
    (amount.toNat = 0 ∨ 999999 < amount.toNat → Refuses (.accountCredit card amount) s .badValue)
    ∧ (2 ≤ status.toNat → Refuses (.accountStatus card status) s .badValue)
    ∧ (findEntry s card = none →
      (1 ≤ amount.toNat → amount.toNat ≤ 999999 → Refuses (.accountCredit card amount) s .notCached)
      ∧ Refuses (.accountEvict card) s .notCached
      ∧ (status.toNat < 2 → Refuses (.accountStatus card status) s .notCached))
    ∧ ∀ i a, findEntry s card = some (i, a) →
      (1 ≤ amount.toNat → amount.toNat ≤ 999999 →
        let balance := min (a.balance + amount.toNat) 999999
        Answers (.accountCredit card amount) s (cachedAs i (some { a with balance := balance }) s)
          (.ok (wordBytes card ++ u32 (balance - a.balance).toNat ++ i32 balance)))
      ∧ (0 < a.held → Refuses (.accountEvict card) s .pinned)
      ∧ (a.held = 0 → Answers (.accountEvict card) s (cachedAs i none s) (.ok (wordBytes card ++ i32 a.balance)))
      ∧ (status = 0 → Answers (.accountStatus card status) s (cachedAs i (some { a with status := .good }) s)
          (.ok (wordBytes card ++ [0])))
      ∧ (status = 1 → Answers (.accountStatus card status) s (cachedAs i (some { a with status := .suspended }) s)
          (.ok (wordBytes card ++ [1])))

/-- Account Load: its refusals; the effective balance, which is the host's less the charges of the held records of the
card above the horizon, clamped; and the entry it writes, onto an existing one with its held amount kept or into the
way that allocation gives. The wanted entry of the card leaves the list, and the reply tells the balance, the records
counted, the held amount as the taking leaves it, and whether the entry existed, whose byte of 1 for an entry that did
is the model's choice (log 8; R59 to R61, R173). -/
def Obligations.AccountLoadWritesTheEntry : Prop :=
  ∀ (card balance : Word) (status : Byte) (horizon : Word) (s : State), Serving s →
    (balance.toInt < -999999 ∨ 999999 < balance.toInt ∨ 2 ≤ status.toNat →
      Refuses (.accountLoad card balance status horizon) s .badValue)
    ∧ (-999999 ≤ balance.toInt → balance.toInt ≤ 999999 → status.toNat < 2 →
      (findEntry s card = none → allocate s card = none →
        Refuses (.accountLoad card balance status horizon) s .tableFull)
      ∧ (let records := s.nv.journal.filter fun r => r.card == card && decide (horizon.toNat < r.seq)
        let sum := (records.map SettlementRecord.charge).sum
        let effective := clampInt (-999999) 999999 (balance.toInt - sum)
        let st : AccountStatus := if status = 0 then .good else .suspended
        let reply := fun (held : Nat) (existed : Byte) => wordBytes card ++ i32 effective ++ u32 sum
          ++ u16 records.length ++ u32 held ++ [existed, 0]
        s.cru.useCounter < 4294967295 → wantedFor s card = none →
        (∀ i a, findEntry s card = some (i, a) →
          Answers (.accountLoad card balance status horizon) s
            { beginTaking s with cru := { s.cru with
              useCounter := s.cru.useCounter + 1
              cache := s.cru.cache.set i (some { a with
                balance := effective, status := st, origin := .host, stamp := s.cru.useCounter + 1 }) } }
            (.ok (reply a.held 1)))
        ∧ (∀ i, findEntry s card = none → allocate s card = some i →
          Answers (.accountLoad card balance status horizon) s
            { beginTaking s with cru := { s.cru with
              useCounter := s.cru.useCounter + 1
              cache := s.cru.cache.set i (some {
                card, balance := effective, held := 0, status := st, origin := .host,
                stamp := s.cru.useCounter + 1 }) } }
            (.ok (reply 0 0))))
      ∧ (let records := s.nv.journal.filter fun r => r.card == card && decide (horizon.toNat < r.seq)
        let sum := (records.map SettlementRecord.charge).sum
        let effective := clampInt (-999999) 999999 (balance.toInt - sum)
        findEntry s card ≠ none ∨ allocate s card ≠ none → RoomHeld s →
        ∃ t i a, Answers (.accountLoad card balance status horizon) s t
            (.ok (wordBytes card ++ i32 effective ++ u32 sum ++ u16 records.length ++ u32 a.held
              ++ flagByte (findEntry s card).isSome ++ flagByte (wantedFor s card).isSome))
          ∧ t.cru.wanted.map Wanted.card = (s.cru.wanted.map Wanted.card).filter (fun c => c != card)
          ∧ findEntry t card = some (i, a) ∧ a.balance = effective ∧ a.origin = .host
          ∧ a.status = if status = 0 then .good else .suspended))

/-- Allocation gives the lowest empty way of the card's set, or else the way of the oldest unpinned entry, and none
exactly while every way of the set is pinned. A use advances the counter and stamps the entry; at counter
4,294,967,295 the entries present are first stamped 1, 2 and onward in the order of their stamps, so that their order
by age is kept. That a new entry is not counted in a renumbering that its own first use sets off is the model's choice
(R48, R50; log 44). -/
def Obligations.AllocationAndUseOfEntries : Prop :=
  (∀ (s : State) (card : Word),
    waysOf card = [wayOf card 0, wayOf card 1, wayOf card 2]
    ∧ (∀ w : Fin 3, (wayOf card w).val = 3 * (card.toNat % 16) + w.val)
    ∧ (∀ i, allocate s card = some i → i ∈ waysOf card
      ∧ ((entryAt s i = none ∧ ∀ j ∈ waysOf card, j < i → entryAt s j ≠ none)
        ∨ ((∀ j ∈ waysOf card, entryAt s j ≠ none) ∧ ∃ a, entryAt s i = some a ∧ a.held = 0
          ∧ ∀ j ∈ waysOf card, ∀ b, entryAt s j = some b → b.held = 0 → a.stamp ≤ b.stamp)))
    ∧ (allocate s card = none ↔ ∀ j ∈ waysOf card, ∃ a, entryAt s j = some a ∧ 0 < a.held))
  ∧ (∀ (i : Fin 48) (a : Account) (s : State), entryAt s i = some a →
    (s.cru.useCounter < 4294967295 → useEntry i s = { s with cru := { s.cru with
      useCounter := s.cru.useCounter + 1
      cache := s.cru.cache.set i (some { a with stamp := s.cru.useCounter + 1 }) } })
    ∧ (s.cru.useCounter = 4294967295 →
      let t := useEntry i s
      let present := (cachedAccounts s).length
      t = { s with cru := { s.cru with useCounter := present + 1, cache := t.cru.cache } }
      ∧ entryAt t i = some { a with stamp := present + 1 }
      ∧ (∀ j, j ≠ i → ((entryAt s j = none → entryAt t j = none)
        ∧ ∀ b, entryAt s j = some b → ∃ n, 1 ≤ n ∧ n ≤ present ∧ entryAt t j = some { b with stamp := n }))
      ∧ ∀ j k b c b' c', j ≠ i → k ≠ i → entryAt s j = some b → entryAt s k = some c →
        entryAt t j = some b' → entryAt t k = some c' → (b'.stamp < c'.stamp ↔ b.stamp < c.stamp)))
  ∧ (∀ (i : Fin 48) (card : Word) (balance : Int) (st : AccountStatus) (origin : Origin) (s : State),
    let next := if s.cru.useCounter = 4294967295 then (cachedAccounts (setEntry i none s)).length + 1
      else s.cru.useCounter + 1
    let t := createEntry i card balance st origin s
    t.cru.useCounter = next ∧ entryAt t i = some { card, balance, held := 0, status := st, origin, stamp := next }
      ∧ t.cru.wanted = s.cru.wanted ∧ t = { s with cru := t.cru })

/-! ### The budget (chapter 5) -/

/-- Feed Set clamps and stores both caps in one write, and the store keeps all else but the slots. Where the effective
cap has fallen below the electrical sum, dryers are shed until it is met or none is left to shed, and the reply counts
them: as many positions as are shed then and were not before. Next OVER_CAP is judged: it stands exactly while a sum is
above its cap, and its flag is set where one is. Then, where a cap rose or a dryer was shed, the waiting order is
evaluated. No session changes but for its phase, shed flag and state. The reply reads the state that the taking leaves.
Where the sums fit and nothing waits, nothing else happens (R81, R84, R97, R100, R173). That a flag the host has cleared
is not set again by a rise that leaves OVER_CAP standing is the model's choice (log 27). -/
def Obligations.FeedSetStoresBothCaps : Prop :=
  ∀ (feedCap waterCap : Half) (s : State), Serving s →
    (let u := storedAs { s.nv with feedCap := min 2000 feedCap.toNat, waterCap := min 500 waterCap.toNat } s
      let fell := effectiveCap u < effectiveCap s
      let v := if fell then (shedDown 24 u).1 else u
      let count := if fell then (shedDown 24 u).2 else 0
      let alarmed := withinCaps v = false
        ∧ (fell ∨ u.nv.waterCap < s.nv.waterCap ∨ s.lba.overCap = false)
      let flagged := if alarmed then setFlag .overCap v else v
      let judged := { flagged with lba := { v.lba with overCap := !withinCaps v } }
      let rose := effectiveCap s < effectiveCap u ∨ s.nv.waterCap < u.nv.waterCap
      let t := if rose ∨ 0 < count then evaluate judged else judged
      count = (positionsWhere fun p => (posAt v p).shed && !(posAt s p).shed).length ∧ count ≤ 24
      ∧ (fell → nextShed v = none)
      ∧ (RoomHeld s → Answers (.feedSet feedCap waterCap) s t
          (.ok (u16 (min 2000 feedCap.toNat) ++ u16 (min 500 waterCap.toNat) ++ u16 (effectiveCap t)
            ++ u16 (electricSum t) ++ u16 (waterSum t) ++ u8 count ++ flagByte t.lba.overCap))
        ∧ t.nv = { s.nv with
          feedCap := min 2000 feedCap.toNat, waterCap := min 500 waterCap.toNat, slots := t.nv.slots }
        ∧ t.lba.overCap = !withinCaps t ∧ t.lba.demand = s.lba.demand
        ∧ (electricSum t ≤ effectiveCap t ∨ effectiveCap s ≤ effectiveCap t ∨ ∀ p, shedReduction t p = 0)
        ∧ OthersKept [] s t ∧ HlpButFlags s.hlp t.hlp ∧ t.rcs = s.rcs ∧ t.cru = s.cru ∧ t.tli = s.tli ∧ t.fm = s.fm))
    ∧ (waitingOrder s = [] → s.lba.overCap = false →
      let t := storedAs { s.nv with feedCap := min 2000 feedCap.toNat, waterCap := min 500 waterCap.toNat } s
      withinCaps t = true →
      Answers (.feedSet feedCap waterCap) s t
        (.ok (u16 (min 2000 feedCap.toNat) ++ u16 (min 500 waterCap.toNat) ++ u16 (effectiveCap t)
          ++ u16 (electricSum s) ++ u16 (waterSum s) ++ [0, 0])))

/-- Demand Limit stores a cap of at most 2,000 for at most 240 minutes, or cancels; the effective cap is the smaller
of FeedCap and the limit's cap, and FeedCap without one; the reply gives both, with the dryers shed and OVER_CAP, as
the taking leaves them. Its expiry ends the limit and sets DEMAND_EXPIRED (R82 to R84, R97, R100, R173). The model's
choice is that an expiry with no limit in force changes nothing (log 2), that the reply gives a cap and minutes of 0
where none is in force (log 8), and that it does not give the electrical sum (log 55). -/
def Obligations.DemandLimitBoundsTheCap : Prop :=
  ∀ (cap : Half) (minutes : Byte) (s : State), Taking s → RoomHeld s →
    (s.hlp.served = none →
      let d : Option Demand :=
        if minutes = 0 then none else some { cap := min cap.toNat 2000, left := min minutes.toNat 240 * 600 }
      let u := { beginTaking s with lba := { s.lba with demand := d } }
      let count := if effectiveCap u < effectiveCap s then (shedDown 24 u).2 else 0
      ∃ t, Answers (.demandLimit cap minutes) s t
        (.ok ((match t.lba.demand with
          | some d => [1] ++ u16 d.cap ++ u8 ((d.left + 599) / 600)
          | none => [0, 0, 0, 0]) ++ u16 (effectiveCap t) ++ u8 count ++ flagByte t.lba.overCap))
      ∧ count ≤ 24
      ∧ t.lba.demand = d
      ∧ effectiveCap t = (if minutes = 0 then s.nv.feedCap else min s.nv.feedCap (min cap.toNat 2000))
      ∧ t.lba.overCap = !withinCaps t ∧ ConfigKept s.nv t.nv ∧ t.nv.journal = s.nv.journal
      ∧ OthersKept [] s t ∧ t.rcs = s.rcs ∧ t.cru = s.cru ∧ t.tli = s.tli ∧ t.fm = s.fm)
    ∧ (s.lba.demand = none → exec .demandExpiry s = .next (beginTaking s))
    ∧ (s.lba.demand ≠ none → ∃ t, exec .demandExpiry s = .next t ∧ t.lba.demand = none
      ∧ effectiveCap t = s.nv.feedCap ∧ flagIsSet .demandExpired t = true ∧ HlpButFlags s.hlp t.hlp
      ∧ t.lba.overCap = !withinCaps t ∧ ConfigKept s.nv t.nv ∧ t.nv.journal = s.nv.journal
      ∧ OthersKept [] s t ∧ t.rcs = s.rcs ∧ t.cru = s.cru ∧ t.tli = s.tli ∧ t.fm = s.fm)

/-- An evaluation walks the restore list, the step list and the start queue, in that order. An entry fits when both
sums with its draws for its present ones stand within the caps; it is then granted, and where an earlier entry did not
fit, the earliest such entry's bypass count rises by one, stopping at 3. A restore whose position has a pending step
is passed over; an entry that does not fit stays, and ends the walk where its count is 3. While OVER_CAP stands
nothing is granted. A grant takes the entry off its list, takes its draws and queues its directive (R87, R91 to R95,
R99). An end of a demand limit that raises the cap runs one evaluation (R83, R84, R92). -/
def Obligations.WaitingOrderIsWalked : Prop :=
  (∀ s : State,
    waitingOrder s = (s.lba.restoreList.map fun e => WalkItem.restore e.pos)
      ++ (s.lba.stepList.map fun e => WalkItem.step e.pos) ++ (s.lba.startQueue.map fun e => WalkItem.start e.pos)
    ∧ (s.lba.overCap = true → withinCaps s = false →
      evaluate s = { s with lba := { s.lba with evalDue := false } })
    ∧ (s.lba.overCap = false ∨ withinCaps s = true →
      evaluate s = walk (waitingOrder s) none { s with lba := { s.lba with evalDue := false, overCap := false } })
    ∧ ∀ p ses, sessionAt s p = some ses →
      let q := posAt s p
      let fits := fun (ce cw le lw : Nat) =>
        decide (electricSum s - ce + le ≤ effectiveCap s ∧ waterSum s - cw + lw ≤ s.nv.waterCap)
      let first := phaseOf s ses.program 0
      let target := phaseOf s ses.program (stepTarget s p)
      let current := currentPhase s ses
      itemFits s (.start p) = fits 0 0 first.lu first.wu
      ∧ itemFits s (.step p) =
        fits q.lu q.wu (if q.shed && target.sheddable then target.shedLu else target.lu) target.wu
      ∧ itemFits s (.restore p) = fits q.lu q.wu current.lu current.wu)
  ∧ (∀ (earliest : Option WalkItem) (s : State), walk [] earliest s = s
    ∧ ∀ item rest,
      let passed := ∃ p ses, item = .restore p ∧ sessionAt s p = some ses ∧ ses.pendingStep ≠ none
      (passed → walk (item :: rest) earliest s = walk rest earliest s)
      ∧ (¬ passed → itemFits s item = true → walk (item :: rest) earliest s =
        walk rest earliest (match earliest with
          | some e => raiseBypass e (grantItem item s)
          | none => grantItem item s))
      ∧ (¬ passed → itemFits s item = false → 3 ≤ bypassOf s item → walk (item :: rest) earliest s = s)
      ∧ (¬ passed → itemFits s item = false → bypassOf s item < 3 →
        walk (item :: rest) earliest s = walk rest (some (earliest.getD item)) s))
  ∧ (∀ (s : State) (item : WalkItem), item ∈ waitingOrder s →
    waitingOrder (raiseBypass item s) = waitingOrder s
    ∧ bypassOf (raiseBypass item s) item = min (bypassOf s item + 1) 3
    ∧ ∀ other, other ≠ item → bypassOf (raiseBypass item s) other = bypassOf s other)
  ∧ (∀ (p : Pos) (ses : Session) (s : State), sessionAt s p = some ses → OneHeld s →
    let q := posAt s p
    (let t := grantItem (.start p) s
      let f := phaseOf s ses.program 0
      posAt t p = { q with occupancy := .live { ses with state := .starting }, lu := f.lu, wu := f.wu, shed := false }
      ∧ t.lba = { s.lba with startQueue := s.lba.startQueue.filter fun e => e.pos != p }
      ∧ Stands .sm { pos := p, order := .start (tagOf ses.number) ses.program ses.ext (startDraws s ses.program) } t
      ∧ ∀ r, r ≠ p → posAt t r = posAt s r)
    ∧ (let t := grantItem (.step p) s
      let j := stepTarget s p
      let f := phaseOf s ses.program j
      let stays := q.shed && f.sheddable
      posAt t p = { q with
        occupancy := .live { ses with phase := j, shed := stays }
        lu := if stays then f.shedLu else f.lu
        wu := f.wu, shed := stays, settle := if q.shed && !stays then 0 else q.settle }
      ∧ t.lba = { s.lba with
        stepList := s.lba.stepList.filter fun e => e.pos != p
        restoreList := if q.shed && !stays then s.lba.restoreList.filter fun e => e.pos != p else s.lba.restoreList }
      ∧ Stands .sm { pos := p, order := .stepGrant j } t ∧ ∀ r, r ≠ p → posAt t r = posAt s r)
    ∧ (let t := grantItem (.restore p) s
      posAt t p = { q with
        occupancy := .live { ses with shed := false }, lu := (currentPhase s ses).lu, shed := false }
      ∧ t.lba = { s.lba with restoreList := s.lba.restoreList.filter fun e => e.pos != p }
      ∧ Stands .lba { pos := p, order := .restore } t ∧ ∀ r, r ≠ p → posAt t r = posAt s r))
  ∧ (∀ (d : Demand) (s : State), Taking s → RoomHeld s → s.lba.demand = some d → d.cap < s.nv.feedCap →
    s.lba.overCap = false → withinCaps s = true →
    exec .demandExpiry s = .next (evaluate
      (setFlag .demandExpired { beginTaking s with lba := { s.lba with demand := none } })))

/-- LBA sheds, while the sum is above the cap, the candidate of the largest reduction, and of equals the lowest
position; a shed takes the phase's shed draw, joins the restore list and queues SHED; 24 sheds leave the sum within
the cap or no candidate. A step request repeated is dropped, one out of order is SEQUENCE, and a new step is applied
at once where it raises no draw, and joins the step list otherwise; while OVER_CAP stands, an unshed step into a
sheddable phase sheds again. A report's draw and the trim give the corrected figure (R89, R90, R97 to R99, R102,
R103). -/
def Obligations.StepsAndShedsChangeReservations : Prop :=
  (∀ s : State,
    (nextShed s = none ↔ electricSum s ≤ effectiveCap s ∨ ∀ p, shedReduction s p = 0)
    ∧ (∀ p, nextShed s = some p ↔ effectiveCap s < electricSum s ∧ 0 < shedReduction s p
      ∧ (∀ q, shedReduction s q ≤ shedReduction s p) ∧ ∀ q, q < p → shedReduction s q < shedReduction s p)
    ∧ (∀ p, sessionAt s p = none → shedReduction s p = 0)
    ∧ (∀ p ses, sessionAt s p = some ses → shedReduction s p =
      if ses.state ≠ .waitingBudget ∧ (currentPhase s ses).sheddable = true ∧ (posAt s p).shed = false then
        (currentPhase s ses).lu - (currentPhase s ses).shedLu
      else 0)
    ∧ (∀ n, nextShed s = none → shedDown (n + 1) s = (s, 0))
    ∧ (∀ n p, nextShed s = some p →
      shedDown (n + 1) s = ((shedDown n (shedPosition p s)).1, (shedDown n (shedPosition p s)).2 + 1))
    ∧ nextShed (shedDown 24 s).1 = none)
  ∧ (∀ (p : Pos) (ses : Session) (s : State), sessionAt s p = some ses → OneHeld s →
    let t := shedPosition p s
    posAt t p = { posAt s p with
      occupancy := .live { ses with shed := true }, lu := (currentPhase s ses).shedLu, shed := true }
    ∧ t.lba = { s.lba with restoreList := s.lba.restoreList ++ [{ pos := p, bypass := 0 }], evalDue := true }
    ∧ t.nv.slots[p] = some (snapshotOf { ses with shed := true })
    ∧ Stands .lba { pos := p, order := .shed } t ∧ ∀ r, r ≠ p → posAt t r = posAt s r)
  ∧ (∀ (p : Pos) (ses : Session) (j : Nat) (s : State), sessionAt s p = some ses →
    let count := (phasesOf s ses.program).length
    let q := posAt s p
    let f := phaseOf s ses.program j
    let stays := q.shed && f.sheddable
    let lu := if stays then f.shedLu else f.lu
    let left := q.shed && !stays
    let atOnce : State := putSession p { ses with phase := j, shed := stays } { s with
      positions := s.positions.set p { q with lu := lu, wu := f.wu, shed := stays, settle := 0 }
      lba := { s.lba with
        restoreList := if left then s.lba.restoreList.filter fun e => e.pos != p else s.lba.restoreList
        evalDue := s.lba.evalDue || (decide (lu < q.lu ∨ f.wu < q.wu) || left) } }
    (∀ target, ses.pendingStep = some target → stepRequest p ses j s = (s, !(j == target || j == ses.phase)))
    ∧ (ses.pendingStep = none → stepRequest p ses j s =
      if j = ses.phase ∧ 1 ≤ ses.phase then (s, false)
      else if j = ses.phase + 1 ∧ j < count then
        (if lu ≤ q.lu ∧ f.wu ≤ q.wu then
          (if s.lba.overCap && f.sheddable && !stays then (shedDown 24 atOnce).1 else atOnce)
        else putSession p { ses with pendingStep := some j } { s with lba := { s.lba with
          stepList := s.lba.stepList ++ [{ pos := p, target := j, bypass := 0 }], evalDue := true } }, false)
      else (s, true)))
  ∧ (∀ (p : Pos) (draw : Nat) (s : State), meter p draw s = { s with positions := s.positions.set p { posAt s p with
    measured := draw, corrected := (clampInt 0 4095 (draw + s.nv.trims[p])).toNat } })

/-! ### Sessions, the journal and the faults (chapters 1, 2, 7 and 8) -/

/-- Session Cancel: BAD_VALUE outside 1 to 24; STATE where no session, or another, stands; a claim is dropped
CANCELLED and its terminal answered; a live session ends HOST_CANCEL with the reply of its record (R10, R26, R76). The
reply's result bytes, 0 for CLAIM_DROPPED and 1 for ENDED, are the model's choice, from the order of listing
of R181 (log 8). -/
def Obligations.SessionCancelEndsOrDrops : Prop :=
  ∀ (position : Byte) (number : Half) (s : State), Serving s →
    (posOfNumber position.toNat = none → Refuses (.sessionCancel position number) s .badValue)
    ∧ ∀ p, posOfNumber position.toNat = some p →
      (sessionNumberAt s p ≠ some number → Refuses (.sessionCancel position number) s .state)
      ∧ (∀ c, claimAt s p = some c → c.number = number → (lineOf s c.terminal).flight = some (.start c.card p) →
          ∃ t, Answers (.sessionCancel position number) s t (.ok ([position] ++ halfBytes number ++ [0]))
            ∧ (posAt t p).occupancy = .vacant
            ∧ lineOf t c.terminal = { lineOf s c.terminal with
                flight := none, out := (lineOf s c.terminal).out ++ [refusedRecord 1 c.card position .cancelled] }
            ∧ (∀ q, q ≠ p → posAt t q = posAt s q) ∧ t.nv = s.nv ∧ t.rcs = s.rcs ∧ t.lba = s.lba ∧ t.rlc = s.rlc
            ∧ t.fm = s.fm ∧ t.cru.cache = s.cru.cache)
      ∧ (∀ ses, sessionAt s p = some ses → ses.number = number → RoomHeld s →
          ∃ t, EndedAt s t p ses .hostCancel none
            ∧ Answers (.sessionCancel position number) s t
              (.ok ([position] ++ halfBytes number ++ [1, 4] ++ u32 s.nv.nextSeq
                ++ u16 (chargeOf s.nv.settings.graceMinutes .hostCancel ses)))
            ∧ t.rcs = s.rcs ∧ t.tli = s.tli ∧ t.fm = s.fm ∧ HlpButFlags s.hlp t.hlp)

/-- Journal Read gives up to 8 of the oldest records from a number on and changes nothing; Journal Release removes
every record up to a number, unless the number has not been given. Fault Read takes the oldest records out of the
ring, up to 8, and gives each whole with its gap and the number left. Roster Clear removes every position whose
present-cause set is empty, and position 0 when neither line is active, and names the removed and the kept (R140,
R142, R152, R153). That the bits of a fault record which no rule names are sent as 0 is the model's choice (log
56). -/
def Obligations.JournalAndFaultReads : Prop :=
  (∀ (number : Word) (count : Byte) (s : State), Serving s →
    (count.toNat = 0 ∨ 8 < count.toNat → Refuses (.journalRead number count) s .badValue)
    ∧ (1 ≤ count.toNat → count.toNat ≤ 8 →
      let records := (s.nv.journal.filter fun r => decide (number.toNat ≤ r.seq)).take count.toNat
      Answers (.journalRead number count) s (beginTaking s)
        (.ok (u8 records.length ++ u16 s.nv.journal.length ++ u32 ((oldestSeq s.nv).getD 0)
          ++ u32 ((newestSeq s.nv).getD 0) ++ u32 s.nv.nextSeq ++ (records.map journalBytes).flatten)))
    ∧ (s.nv.exhausted = false → s.nv.nextSeq ≤ number.toNat → Refuses (.journalRelease number) s .range)
    ∧ (s.nv.exhausted = true ∨ number.toNat < s.nv.nextSeq →
      let kept := s.nv.journal.filter fun r => decide (number.toNat < r.seq)
      Answers (.journalRelease number) s
        (if kept.length = s.nv.journal.length then beginTaking s else storedAs { s.nv with journal := kept } s)
        (.ok (u16 (s.nv.journal.length - kept.length) ++ u16 kept.length
          ++ optional 4 ((kept.head?.map SettlementRecord.seq).map u32)))))
  ∧ ((∀ (count : Byte) (s : State), Serving s →
    (count.toNat = 0 ∨ 8 < count.toNat → Refuses (.faultRead count) s .badValue)
    ∧ (1 ≤ count.toNat → count.toNat ≤ 8 →
      Answers (.faultRead count) s
        { beginTaking s with fm := { s.fm with ring := s.fm.ring.drop count.toNat } }
        (.ok (u8 (s.fm.ring.take count.toNat).length ++ u8 (s.fm.ring.drop count.toNat).length
          ++ ((s.fm.ring.take count.toNat).map faultBytes).flatten))))
  ∧ (∀ s : State, Serving s →
    ∃ kept gone : List RosterEntry,
      Answers .rosterClear s { beginTaking s with fm := { s.fm with roster := kept } }
        (.ok (u8 gone.length ++ (gone.map fun e => u8 e.position.val).flatten
          ++ (u8 kept.length ++ (kept.map fun e => u8 e.position.val).flatten)))
      ∧ kept.Sublist s.fm.roster ∧ gone.Sublist s.fm.roster
      ∧ (∀ e, e ∈ s.fm.roster → ((e ∈ kept ∧ e ∉ gone) ∨ (e ∉ kept ∧ e ∈ gone)))
      ∧ ∀ e ∈ s.fm.roster,
          (e.position = 0 → (e ∈ kept ↔ s.fm.floodActive = true ∨ s.fm.stopActive = true))
          ∧ ∀ p : Pos, e.position = p.succ → (e ∈ kept ↔ (posAt s p).causes ≠ [])))

/-- The quote is M percent of B + E × Q to the nearest unit, an exact half upward, held at QuoteCeiling; it is 0
exactly when that price is 0, for a multiplier of at least 50 and a ceiling of at least 1. The extension in force is
the requested one clamped to ExtensionMax for a DRYER program with a heating phase, and 0 for any other. The charge of
an ending session is its basis by outcome, less half the price of the minutes run shed, held between 0 and the quote
(R35 to R40). -/
def Obligations.QuoteExtensionAndCharge : Prop :=
  ((∀ (prog : Program) (ext mult ceiling : Nat),
    quoteOf prog ext mult ceiling = min ((mult * (prog.base + ext * prog.rate) + 50) / 100) ceiling
    ∧ quoteOf prog ext mult ceiling ≤ ceiling
    ∧ (50 ≤ mult → 1 ≤ ceiling → (quoteOf prog ext mult ceiling = 0 ↔ prog.base + ext * prog.rate = 0)))
  ∧ (∀ (settings : Settings) (prog : Program) (requested : Nat),
    (prog.cls = .dryer → (∃ f ∈ prog.phases, f.heating = true) →
      extensionOf settings prog requested = min requested settings.extensionMax)
    ∧ (prog.cls = .washer ∨ (∀ f ∈ prog.phases, f.heating = false) → extensionOf settings prog requested = 0)))
  ∧ (∀ (grace : Nat) (ses : Session),
    shedCredit ses = (ses.quote * ses.s) / (2 * ses.nominal)
    ∧ (ses.s = 0 → shedCredit ses = 0)
    ∧ (∀ o, o = .completed ∨ o = .userAbort → basisAmount grace o ses = ses.quote)
    ∧ (∀ o, o = .fault ∨ o = .roomStop ∨ o = .hostCancel ∨ o = .powerLost ∨ o = .warmReset →
        basisAmount grace o ses =
          if min ses.r ses.nominal < grace then 0 else ses.quote * min ses.r ses.nominal / ses.nominal)
    ∧ (∀ o, o = .startFailed ∨ o = .budgetTimeout ∨ o = .withdrawn → basisAmount grace o ses = 0)
    ∧ ∀ o, basisAmount grace o ses ≤ ses.quote ∧ chargeOf grace o ses ≤ ses.quote
        ∧ (chargeOf grace o ses : Int) =
            min (max 0 ((basisAmount grace o ses : Int) - shedCredit ses)) ses.quote)

/-! ### Pay terminals (chapters 3 and 4) -/

/-- A TAP_START that finds 6 records waiting is discarded; one that finds its terminal WAITING is refused
TERMINAL_BUSY; any other is refused with the reason of the first check of Table 4-1 that fails, in the table's order,
each class tested as the table says (R68, R70 to R72). -/
def Obligations.TapStartChecksInOrder : Prop :=
  ∀ (l : Terminal) (card : Word) (position program extension : Byte) (s : State), Taking s →
    (6 ≤ (lineOf s l).out.length → exec (.tapStart l card position program extension) s = .next (beginTaking s))
    ∧ ((lineOf s l).out.length < 6 → (lineOf s l).flight ≠ none →
      exec (.tapStart l card position program extension) s =
        .next (answeredAt l (refusedRecord 1 card position .terminalBusy) s))
    ∧ (∀ r, Idle s l → firstPass s card position program extension = .error r →
      exec (.tapStart l card position program extension) s =
        .next (answeredAt l (refusedRecord 1 card position r) s))
    ∧ (s.rcs.mode = .alarm → firstPass s card position program extension = .error .roomAlarm)
    ∧ (s.rcs.mode = .closed → firstPass s card position program extension = .error .roomClosed)
    ∧ (s.rcs.mode = .opened →
      ((∀ p, posOfNumber position.toNat = some p → (posAt s p).presence ≠ .enrolled) →
        firstPass s card position program extension = .error .positionUnknown)
      ∧ ∀ p, posOfNumber position.toNat = some p → (posAt s p).presence = .enrolled →
        (rangeClassAt s.nv card = some .blocked →
          firstPass s card position program extension = .error .cardBlocked)
        ∧ ∀ cls, cardClassOf (rangeClassAt s.nv card) = some cls →
          if cls ≠ .service ∧ effectiveMode s = .quiet then
            firstPass s card position program extension = .error .roomQuiet
          else if cls ≠ .service ∧ (s.nv.service[p] = .outOfService ∨ s.nv.lockout[p] = true) then
            firstPass s card position program extension = .error .positionOutOfService
          else if (posAt s p).occupancy ≠ .vacant then
            firstPass s card position program extension = .error .positionBusy
          else match validProgram s p program with
            | none => firstPass s card position program extension = .error .programInvalid
            | some (id, prog) =>
              let ext := extensionOf s.nv.settings prog extension.toNat
              if cls ≠ .service ∧ ((lateDistance s).any fun d => decide (d < nominalMinutes prog + ext)) = true then
                firstPass s card position program extension = .error .lateStart
              else if s.nv.feedCap < peakLu prog ∨ s.nv.waterCap < peakWu prog then
                firstPass s card position program extension = .error .demandExceedsFeed
              else if 256 ≤ journalOccupancy s.nv + (liveSessions s).length then
                firstPass s card position program extension = .error .journalFull
              else if 8 ≤ s.lba.startQueue.length then
                firstPass s card position program extension = .error .queueFull
              else firstPass s card position program extension = .ok { pos := p, cls, program := id, prog, ext })

/-- A TAP_START of a FREE or SERVICE card whose checks pass: at the limit of a FREE card, CARD_LIMIT; otherwise the
session is numbered and held with quote 0. In a room where nothing waits it is granted at once, or queued where its
phase 0 does not fit; in any room it joins the tail of the start queue and one evaluation follows. The terminal has
its final record, and no account is touched (R7, R9, R11, R12, R51, R73, R75, R87, R88, R92). -/
def Obligations.TapStartHoldsFreeCards : Prop :=
  (∀ (l : Terminal) (card : Word) (position program extension : Byte) (a : Admitted) (s : State),
    Taking s → Idle s l → firstPass s card position program extension = .ok a → a.cls ≠ .account →
    waitingOrder s = [] → s.lba.overCap = false →
    s.rlc.queue.length < 32 → (∀ e ∈ s.rlc.queue, e.dir.pos = a.pos → isStart e.dir.order = false) →
    ∃ t, exec (.tapStart l card position program extension) s = .next t ∧
      if a.cls = .free ∧ s.nv.settings.cardSessionLimit ≤ (limitedPositions s card).length then
        ClaimedAndRefused s t l card position .cardLimit ∧ t.cru.cache = s.cru.cache
      else t.cru = s.cru ∧ HeldAtOnce s t l card a 0 none)
  ∧ (∀ (l : Terminal) (card : Word) (position program extension : Byte) (a : Admitted) (s : State),
    Taking s → RoomHeld s → Idle s l → firstPass s card position program extension = .ok a → a.cls ≠ .account →
    (a.cls = .free → (limitedPositions s card).length < s.nv.settings.cardSessionLimit) →
    let ses := heldOfTap s l card a 0 none .waitingBudget
    let claimed := { s.nv with sessionCounter := s.nv.sessionCounter + 1 }
    exec (.tapStart l card position program extension) s = .next (answerStart a.pos l (evaluate { beginTaking s with
      nv := { claimed with slots := s.nv.slots.set a.pos (some (snapshotOf ses)) }
      undo := [claimed, s.nv]
      positions := s.positions.set a.pos { posAt s a.pos with occupancy := .live ses }
      lba := { s.lba with startQueue := s.lba.startQueue ++ [{ pos := a.pos, bypass := 0 }] } })))

/-- A TAP_START of an ACCOUNT card whose checks pass, in a room where nothing waits. At the limit of the card:
CARD_LIMIT. On a hit: CARD_SUSPENDED, FUNDS_LOW, or a hold that raises the held amount by the quote. On a miss:
TABLE_FULL where the set is pinned; PENDING with the position CLAIMED, its terminal joining the card's waiters or a
new wanted entry with ACCOUNT_WANTED; and with the list full the offline decision, which ends in ACCOUNT_UNAVAILABLE,
or creates a PROVISIONAL entry against which the start is tested (R48 to R52, R55, R56, R73). -/
def Obligations.TapStartResolvesAccounts : Prop :=
  ∀ (l : Terminal) (card : Word) (position program extension : Byte) (a : Admitted) (s : State),
    Taking s → Idle s l → firstPass s card position program extension = .ok a → a.cls = .account →
    waitingOrder s = [] → s.lba.overCap = false → s.cru.useCounter < 4294967295 →
    s.rlc.queue.length < 32 → (∀ e ∈ s.rlc.queue, e.dir.pos = a.pos → isStart e.dir.order = false) →
    ∃ t, exec (.tapStart l card position program extension) s = .next t ∧
      if s.nv.settings.cardSessionLimit ≤ (limitedPositions s card).length then
        ClaimedAndRefused s t l card position .cardLimit
      else match findEntry s card with
        | some (i, e) =>
          let quote := quoteOf a.prog a.ext (bandInForce s).2.mult s.nv.settings.quoteCeiling
          t.cru.useCounter = s.cru.useCounter + 1 ∧
          (let used := { e with stamp := s.cru.useCounter + 1 }
          if e.status = .suspended then
            ClaimedAndRefused s t l card position .cardSuspended ∧ t.cru.cache = s.cru.cache.set i (some used)
          else if e.balance - e.held - quote < floorOf s.nv.settings e then
            ClaimedAndRefused s t l card position .fundsLow ∧ t.cru.cache = s.cru.cache.set i (some used)
          else t.cru.cache = s.cru.cache.set i (some { used with held := e.held + quote })
            ∧ HeldAtOnce s t l card a quote (some e.origin))
        | none =>
          let claim : Claim :=
            { number := s.nv.sessionCounter, terminal := l, card, cls := a.cls, program := a.program, ext := a.ext }
          let waits := t.positions = s.positions.set a.pos { posAt s a.pos with occupancy := .claimed claim }
            ∧ t.nv = { s.nv with sessionCounter := s.nv.sessionCounter + 1 }
            ∧ t.tli = (modLine l (fun x => { x with
                flight := some (.start card a.pos)
                out := x.out ++ [{ kind := 0x90, body := 1 :: wordBytes card ++ [position] }] }) s).tli
            ∧ t.rlc = s.rlc ∧ t.lba = s.lba ∧ t.rcs = s.rcs ∧ t.fm = s.fm
          match allocate s card with
          | none => ClaimedAndRefused s t l card position .tableFull ∧ t.cru.cache = s.cru.cache
          | some i =>
            if wantedFor s card ≠ none then
              waits ∧ t.hlp = s.hlp ∧ t.cru = { s.cru with wanted := s.cru.wanted.map fun w =>
                if w.card = card then { w with waiters := w.waiters ++ [(l, .start)] } else w }
            else if s.cru.wanted.length < 4 then
              waits ∧ t.hlp = (setFlag .accountWanted s).hlp
                ∧ t.cru = { s.cru with wanted := s.cru.wanted ++ [{ card, age := 0, waiters := [(l, .start)] }] }
            else if s.nv.settings.offlineAllowance = 0 then
              ClaimedAndRefused s t l card position .accountUnavailable ∧ t.cru.cache = s.cru.cache
            else
              let quote := quoteOf a.prog a.ext (bandInForce s).2.mult s.nv.settings.quoteCeiling
              let e : Account := {
                card, balance := 0, held := 0, status := .good, origin := .provisional, stamp := s.cru.useCounter + 1 }
              t.cru.useCounter = s.cru.useCounter + 1 ∧
              if s.nv.settings.offlineAllowance < quote then
                ClaimedAndRefused s t l card position .fundsLow ∧ t.cru.cache = s.cru.cache.set i (some e)
              else t.cru.cache = s.cru.cache.set i (some { e with held := quote })
                ∧ HeldAtOnce s t l card a quote (some .provisional)

/-- TAP_BALANCE, in any room mode: discarded behind 6 records, TERMINAL_BUSY, CARD_BLOCKED, the class alone of a FREE
or SERVICE card, and the figures or CARD_SUSPENDED of a cached card, whose entry is used. On a miss: TABLE_FULL where
the set is pinned; PENDING, with its terminal joining the card's waiters or a new wanted entry with ACCOUNT_WANTED; and
with the list full the offline decision, which ends in ACCOUNT_UNAVAILABLE, or creates a PROVISIONAL entry whose figures
are the answer (R48 to R50, R52, R55, R58, R77). -/
def Obligations.TapBalanceAnswers : Prop :=
  ∀ (l : Terminal) (card : Word) (s : State), Taking s →
    (6 ≤ (lineOf s l).out.length → exec (.tapBalance l card) s = .next (beginTaking s))
    ∧ ((lineOf s l).out.length < 6 → (lineOf s l).flight ≠ none →
      exec (.tapBalance l card) s = .next (answeredAt l (refusedRecord 2 card 0 .terminalBusy) s))
    ∧ (Idle s l →
      (rangeClassAt s.nv card = some .blocked →
        exec (.tapBalance l card) s = .next (answeredAt l (refusedRecord 2 card 0 .cardBlocked) s))
      ∧ (rangeClassAt s.nv card = some .free →
        exec (.tapBalance l card) s =
          .next (answeredAt l { kind := 0x91, body := 2 :: wordBytes card ++ [0, 1] } s))
      ∧ (rangeClassAt s.nv card = some .service →
        exec (.tapBalance l card) s =
          .next (answeredAt l { kind := 0x91, body := 2 :: wordBytes card ++ [0, 2] } s))
      ∧ (∀ i e, rangeClassAt s.nv card = none → s.cru.useCounter < 4294967295 → findEntry s card = some (i, e) →
        exec (.tapBalance l card) s = .next { answeredAt l
            (if e.status = .suspended then refusedRecord 2 card 0 .cardSuspended
              else balanceRecord card (e.balance - e.held) (floorOf s.nv.settings e) (liveAccountCount s card)) s with
          cru := { s.cru with
            useCounter := s.cru.useCounter + 1
            cache := s.cru.cache.set i (some { e with stamp := s.cru.useCounter + 1 }) } })
      ∧ (rangeClassAt s.nv card = none → findEntry s card = none → allocate s card ≠ none → wantedFor s card = none →
        s.cru.wanted.length < 4 →
        exec (.tapBalance l card) s = .next { setFlag .accountWanted (modLine l (fun x => { x with
            flight := some (.balance card)
            out := x.out ++ [{ kind := 0x90, body := 2 :: wordBytes card ++ [0] }] }) (beginTaking s)) with
          cru := { s.cru with wanted := s.cru.wanted ++ [{ card, age := 0, waiters := [(l, .balance)] }] } })
      ∧ (rangeClassAt s.nv card = none → findEntry s card = none → allocate s card = none →
        exec (.tapBalance l card) s = .next (answeredAt l (refusedRecord 2 card 0 .tableFull) s))
      ∧ (rangeClassAt s.nv card = none → findEntry s card = none → allocate s card ≠ none → wantedFor s card ≠ none →
        exec (.tapBalance l card) s = .next { modLine l (fun x => { x with
            flight := some (.balance card)
            out := x.out ++ [{ kind := 0x90, body := 2 :: wordBytes card ++ [0] }] }) (beginTaking s) with
          cru := { s.cru with wanted := s.cru.wanted.map fun w =>
            if w.card = card then { w with waiters := w.waiters ++ [(l, .balance)] } else w } })
      ∧ (∀ i, rangeClassAt s.nv card = none → findEntry s card = none → allocate s card = some i →
        wantedFor s card = none → 4 ≤ s.cru.wanted.length →
        (s.nv.settings.offlineAllowance = 0 →
          exec (.tapBalance l card) s = .next (answeredAt l (refusedRecord 2 card 0 .accountUnavailable) s))
        ∧ (s.nv.settings.offlineAllowance ≠ 0 → s.cru.useCounter < 4294967295 →
          exec (.tapBalance l card) s = .next { answeredAt l
            (balanceRecord card 0 (-(s.nv.settings.offlineAllowance : Int)) (liveAccountCount s card)) s with
            cru := { s.cru with
              useCounter := s.cru.useCounter + 1
              cache := s.cru.cache.set i (some {
                card, balance := 0, held := 0, status := .good, origin := .provisional
                stamp := s.cru.useCounter + 1 }) } })))

/-- TAP_ABORT, whatever its terminal's state: POSITION_UNKNOWN outside 1 to 24 and NOT_YOURS where no session of the
card stands, with nothing changed; a claim is dropped WITHDRAWN and both records sent; a live session ends WITHDRAWN
before RUNNING and USER_ABORT from then on, with the quote, the charge and the record's number in the reply (R10, R76,
R78, R79). -/
def Obligations.TapAbortEndsTheSession : Prop :=
  ∀ (l : Terminal) (card : Word) (position : Byte) (s : State), Taking s → (lineOf s l).out.length < 6 →
    (posOfNumber position.toNat = none →
      exec (.tapAbort l card position) s = .next (answeredAt l (refusedRecord 3 card position .positionUnknown) s))
    ∧ ∀ p, posOfNumber position.toNat = some p →
      (((cardAt s p).map Prod.fst) ≠ some card →
        exec (.tapAbort l card position) s = .next (answeredAt l (refusedRecord 3 card position .notYours) s))
      ∧ (∀ c, claimAt s p = some c → c.card = card → c.terminal = l → (lineOf s l).flight = some (.start card p) →
        (lineOf s l).out.length < 5 →
        ∃ t, exec (.tapAbort l card position) s = .next t ∧ (posAt t p).occupancy = .vacant
          ∧ lineOf t l = { lineOf s l with
              flight := none
              out := (lineOf s l).out ++ [refusedRecord 1 card position .withdrawn,
                abortRecord card p .withdrawn c.number 0 0 0] }
          ∧ (∀ q, q ≠ p → posAt t q = posAt s q) ∧ t.nv = s.nv ∧ t.rcs = s.rcs ∧ t.lba = s.lba ∧ t.rlc = s.rlc
          ∧ t.fm = s.fm ∧ t.hlp = s.hlp ∧ t.cru.cache = s.cru.cache)
      ∧ (∀ ses, sessionAt s p = some ses → ses.card = card → RoomHeld s →
        let outcome : EndOutcome :=
          if ses.state = .waitingBudget ∨ ses.state = .starting then .withdrawn else .userAbort
        ∃ t, exec (.tapAbort l card position) s = .next t ∧ EndedAt s t p ses outcome none
          ∧ t.tli = (answeredAt l (abortRecord card p outcome ses.number ses.quote
              (chargeOf s.nv.settings.graceMinutes outcome ses) s.nv.nextSeq) s).tli
          ∧ t.rcs = s.rcs ∧ t.fm = s.fm ∧ HlpButFlags s.hlp t.hlp)

/-- The expiry of a card's wanted entry removes it; with waiters, the offline decision follows: a PROVISIONAL entry
with balance 0 and status GOOD where the allowance is above 0 and the set has room, and no entry otherwise. A balance
enquiry that waits alone is answered ACCOUNT_UNAVAILABLE where the allowance is 0 (R54, R55; what each waiting start
then has is RequestsResumeInOrder). That an expiry for a card with no wanted entry does nothing is the model's choice
(log 2). -/
def Obligations.WantedExpiryDecidesOffline : Prop :=
  ∀ (card : Word) (s : State), Taking s →
    (wantedFor s card = none → exec (.wantedExpiry card) s = .next (beginTaking s))
    ∧ ∀ w, wantedFor s card = some w →
      (w.waiters = [] → exec (.wantedExpiry card) s = .next { beginTaking s with cru := { s.cru with
        wanted := s.cru.wanted.filter fun x => x.card != card } })
      ∧ (∀ l, w.waiters = [(l, .balance)] → (lineOf s l).flight = some (.balance card) →
        s.nv.settings.offlineAllowance = 0 →
        exec (.wantedExpiry card) s = .next { modLine l (fun x => { x with
            flight := none, out := x.out ++ [refusedRecord 2 card 0 .accountUnavailable] }) (beginTaking s) with
          cru := { s.cru with wanted := s.cru.wanted.filter fun x => x.card != card } })
      ∧ (w.waiters ≠ [] → RoomHeld s → ∃ t, exec (.wantedExpiry card) s = .next t
        ∧ t.cru.wanted.map Wanted.card = (s.cru.wanted.map Wanted.card).filter (fun c => c != card)
        ∧ (s.nv.settings.offlineAllowance = 0 ∨ allocate s card = none → t.cru.cache = s.cru.cache)
        ∧ (∀ i, s.nv.settings.offlineAllowance ≠ 0 → allocate s card = some i → s.cru.useCounter < 4294967295 →
          ∃ a, t.cru.cache[i] = some a ∧ a.card = card ∧ a.balance = 0 ∧ a.status = .good
            ∧ a.origin = .provisional)
        ∧ ConfigKept s.nv t.nv ∧ t.nv.journal = s.nv.journal ∧ t.rcs = s.rcs ∧ t.fm = s.fm)

/-- The requests that wait on a wanted entry resume in the order of its waiters, each wholly before the next: after an
Account Load against the entry as written, and after the expiry against the PROVISIONAL entry, or each ends with
ACCOUNT_UNAVAILABLE or TABLE_FULL where none is created. A start takes its entry's tests, then the second pass in its
order, then its hold; a balance enquiry has the figures. Each terminal has its final record and is IDLE (R55 to R58,
R60, R61, R73, R74). -/
def Obligations.RequestsResumeInOrder : Prop :=
  (∀ (card : Word) (s : State), serveAskers card [] s = s
    ∧ ∀ a rest, serveAskers card (a :: rest) s = serveAskers card rest (serveAsker card a s))
  ∧ (∀ (card : Word) (p : Pos) (c : Claim) (i : Fin 48) (e : Account) (s : State), RoomHeld s →
    claimAt s p = some c → c.cls = .account → (lineOf s c.terminal).flight = some (.start c.card p) →
    findEntry s c.card = some (i, e) → (∀ w ∈ s.cru.wanted, ∀ x ∈ w.waiters, x.1 ≠ c.terminal) →
    placeOf s p = none → StartResumed s (serveAsker card (.start p) s) p c i e)
  ∧ (∀ (card : Word) (l : Terminal) (i : Fin 48) (e : Account) (s : State),
    (lineOf s l).flight ≠ none → findEntry s card = some (i, e) →
    serveAsker card (.balance l) s = modLine l (fun x => { x with
      flight := none
      out := x.out ++ [if e.status = .suspended then refusedRecord 2 card 0 .cardSuspended
        else balanceRecord card (e.balance - e.held) (floorOf s.nv.settings e) (liveAccountCount s card)] }) s)
  ∧ (∀ (card : Word) (reason : Reason) (s : State),
    (∀ p c, claimAt s p = some c → (lineOf s c.terminal).flight = some (.start c.card p) →
      ClaimDropped s (failAsker card reason (.start p) s) p c reason)
    ∧ ∀ l, (lineOf s l).flight ≠ none → failAsker card reason (.balance l) s =
      modLine l (fun x => { x with flight := none, out := x.out ++ [refusedRecord 2 card 0 reason] }) s)
  ∧ (∀ (s : State) (cls : CardClass) (nominal : Nat), secondPass s cls nominal =
    if s.rcs.mode = .alarm then some .roomAlarm
    else if s.rcs.mode = .closed then some .roomClosed
    else if cls ≠ .service ∧ effectiveMode s = .quiet then some .roomQuiet
    else if cls ≠ .service ∧ ((lateDistance s).any fun d => decide (d < nominal)) = true then some .lateStart
    else if 256 ≤ journalOccupancy s.nv + (liveSessions s).length then some .journalFull
    else if 8 ≤ s.lba.startQueue.length then some .queueFull
    else none)
  ∧ (∀ (card balance : Word) (horizon : Word) (w : Wanted) (s : State), Serving s → RoomHeld s →
    s.cru.useCounter < 4294967295 → -999999 ≤ balance.toInt → balance.toInt ≤ 999999 → wantedFor s card = some w →
    let records := s.nv.journal.filter fun r => r.card == card && decide (horizon.toNat < r.seq)
    let effective := clampInt (-999999) 999999 (balance.toInt - (records.map SettlementRecord.charge).sum)
    let loaded := fun (i : Fin 48) => { beginTaking s with cru := { s.cru with
      wanted := s.cru.wanted.filter fun x => x.card != card
      useCounter := s.cru.useCounter + 1
      cache := s.cru.cache.set i (some {
        card, balance := effective, held := 0, status := .good, origin := .host, stamp := s.cru.useCounter + 1 }) } }
    ∀ i, findEntry s card = none → allocate s card = some i → ∃ reply,
      Answers (.accountLoad card balance 0 horizon) s
        (serveAskers card (askersOf s w.waiters) (loaded i)) (.ok reply))
  ∧ (∀ (card : Word) (w : Wanted) (s : State), Taking s → RoomHeld s → wantedFor s card = some w → w.waiters ≠ [] →
    let removed := { s.cru with wanted := s.cru.wanted.filter fun x => x.card != card }
    (∀ i, s.nv.settings.offlineAllowance ≠ 0 → allocate s card = some i → s.cru.useCounter < 4294967295 →
      exec (.wantedExpiry card) s = .next (serveAskers card (askersOf s w.waiters) { beginTaking s with
        cru := { removed with
          useCounter := s.cru.useCounter + 1
          cache := s.cru.cache.set i (some {
            card, balance := 0, held := 0, status := .good, origin := .provisional
            stamp := s.cru.useCounter + 1 }) } }))
    ∧ (s.nv.settings.offlineAllowance = 0 ∨ allocate s card = none →
      let reason := if s.nv.settings.offlineAllowance = 0 then Reason.accountUnavailable else .tableFull
      exec (.wantedExpiry card) s = .next ((askersOf s w.waiters).foldl (fun u a => failAsker card reason a u)
        { beginTaking s with cru := removed })))

/-! ### Minutes, limits and the input lines (chapters 1, 7 and 9) -/

/-- A minute boundary advances the clock while it is set, restarts the timer, and advances every live session's counts
by its state, rewriting its snapshot; where no session meets a limit, nothing else happens. Inside the boundary each
WAITING_BUDGET session whose W stands at StartWaitLimit ends BUDGET_TIMEOUT, unless an end before it granted its
start, and each RUNNING session whose R stands at T plus OverrunTolerance ends FAULT with cause OVERRUN, in ascending
order of position; any other is kept but for a grant (R19 to R21, R92, R156). The rows of the two limits act
right after a boundary alone, so that a setting written since is met at the next (R18), and otherwise change nothing
(the model's choice, log 3). -/
def Obligations.MinuteBoundaryCountsAndEnds : Prop :=
  ((∀ s : State, Taking s →
    (∀ p ses, sessionAt s p = some ses →
      let n := countMinute s.nv.settings.overrunTolerance ses
      waitedOut s n = false ∧ overran s n = false) →
    ∃ t, exec .minuteBoundary s = .next t
      ∧ t.rcs = { s.rcs with
          minuteLeft := 600
          epoch := if s.rcs.clockSet then s.rcs.epoch + 1 else s.rcs.epoch
          minuteOfWeek := if s.rcs.clockSet then
              (if s.rcs.minuteOfWeek = 10079 then 0 else s.rcs.minuteOfWeek + 1) else s.rcs.minuteOfWeek }
      ∧ (∀ p, posAt t p = minuteCounted s.nv.settings.overrunTolerance (posAt s p))
      ∧ (∀ p : Pos, t.nv.slots[p] = match sessionAt s p with
          | some ses => some (snapshotOf (countMinute s.nv.settings.overrunTolerance ses))
          | none => s.nv.slots[p])
      ∧ t.nv = { s.nv with slots := t.nv.slots }
      ∧ t.lba = s.lba ∧ t.rlc = s.rlc ∧ t.cru = s.cru ∧ t.tli = s.tli ∧ t.hlp = s.hlp ∧ t.fm = s.fm)
  ∧ ∀ (tolerance : Nat) (ses : Session),
    (ses.state = .waitingBudget → countMinute tolerance ses = { ses with w := ses.w + 1 })
    ∧ (ses.state = .starting → countMinute tolerance ses = ses)
    ∧ (ses.state = .suspended → countMinute tolerance ses = { ses with u := min (ses.u + 1) 65535 })
    ∧ (ses.state = .running → ses.r < ses.nominal + tolerance →
        countMinute tolerance ses =
          if ses.pendingStep ≠ none then { ses with z := min (ses.z + 1) 65535 }
          else if ses.shed = true then { ses with r := ses.r + 1, s := ses.s + 1 }
          else { ses with r := ses.r + 1 })
    ∧ (ses.state = .running → ses.nominal + tolerance ≤ ses.r → countMinute tolerance ses = ses))
  ∧ (∀ (p : Pos) (ses : Session) (s : State), Taking s → RoomHeld s → s.boundary = true →
    sessionAt s p = some ses →
    (ses.state = .waitingBudget → s.nv.settings.startWaitLimit ≤ ses.w →
      ∃ t, exec (.budgetTimeout p) s = .next t ∧ EndedAt s t p ses .budgetTimeout none
        ∧ t.rcs = s.rcs ∧ t.tli = s.tli ∧ t.fm = s.fm ∧ HlpButFlags s.hlp t.hlp)
    ∧ (ses.state = .running → ses.nominal + s.nv.settings.overrunTolerance ≤ ses.r →
      ∃ t, exec (.overrun p) s = .next t ∧ FaultEnds s t p ses .overrun)
    ∧ (ses.state ≠ .waitingBudget ∨ ses.w < s.nv.settings.startWaitLimit →
      exec (.budgetTimeout p) s = .next (beginTaking s))
    ∧ (ses.state ≠ .running ∨ ses.r < ses.nominal + s.nv.settings.overrunTolerance →
      exec (.overrun p) s = .next (beginTaking s)))
  ∧ (∀ (p : Pos) (s : State), Taking s → s.boundary = false →
    exec (.budgetTimeout p) s = .next (beginTaking s) ∧ exec (.overrun p) s = .next (beginTaking s))
  ∧ (∀ s : State, Taking s → RoomHeld s → BudgetAgrees s → (liveSessions s).length ≤ numbersLeft s.nv →
    let counted := countMinute s.nv.settings.overrunTolerance
    ∃ t new, exec .minuteBoundary s = .next t ∧ t.nv.journal = s.nv.journal ++ new
      ∧ (new.map SettlementRecord.position).Pairwise (· < ·)
      ∧ (∀ r ∈ new, ∃ ses, sessionAt s r.position = some ses ∧ r.number = ses.number
        ∧ ((waitedOut s (counted ses) = true ∧ r.outcome = .budgetTimeout ∧ r.cause = none ∧ r.charge = 0)
          ∨ (overran s (counted ses) = true ∧ r.outcome = .fault ∧ r.cause = some .overrun)))
      ∧ (∀ p ses, sessionAt s p = some ses →
        (overran s (counted ses) = true → ∃ r ∈ new, r.position = p)
        ∧ (waitedOut s (counted ses) = true →
          (∃ r ∈ new, r.position = p) ∨ sessionAt t p = some { counted ses with state := .starting })
        ∧ (overran s (counted ses) = false → waitedOut s (counted ses) = false →
          GrantedOnly (.live (counted ses)) (posAt t p).occupancy))
      ∧ t.rcs = (advanceClock { s with rcs := { s.rcs with minuteLeft := 600 } }).rcs ∧ ConfigKept s.nv t.nv)

/-- FLOOD_IN activated writes its record, sets FLOOD and puts the room into ALARM: every live session at a WASHER
position ends ROOM_STOP and is UNLOADING with its STOP, in ascending order of position as their journal records show;
every claim there is dropped and answered ROOM_ALARM; a HALT_WATER stands for every ENROLLED WASHER position; the
others run on. In ALARM already, the record alone is written. Its release changes the line state, and writes a record
where FloodReportRelease is ON (R22, R25, R136, R145). -/
def Obligations.FloodInPutsTheRoomInAlarm : Prop :=
  ∀ s : State, Taking s →
    (s.fm.floodActive = false → s.rcs.mode = .alarm ∨ RoomHeld s →
      ∃ t, exec .floodInActivation s = .next t ∧ FloodActivated s t
        ∧ (s.rcs.mode ≠ .alarm →
          ∀ p, (posAt s p).cls = some .washer → claimAt t p = none ∧ sessionAt t p = none))
    ∧ (s.fm.floodActive = true → ∃ t, exec .floodInRelease s = .next t ∧ FloodReleased s t)

/-- STOP_IN activated writes its record, sets STOP_INPUT and closes the room unless it is in ALARM: every live session
ends ROOM_STOP and is UNLOADING with its STOP, in ascending order of position as their journal records show, and every
claim is dropped and answered ROOM_CLOSED. Its release changes the line state, and writes a record where
StopReportRelease is ON (R22, R25, R146). -/
def Obligations.StopInEndsEverySession : Prop :=
  ∀ s : State, Taking s →
    (s.fm.stopActive = false → RoomHeld s → ∃ t, exec .stopInActivation s = .next t ∧ StopActivated s t)
    ∧ (s.fm.stopActive = true → ∃ t, exec .stopInRelease s = .next t ∧ StopReleased s t)

/-! ### The room loop (chapters 6 and 7) -/

/-- A running sweep takes the sweep number, which advances. The directives held back are offered first: each joins the
tail of the queue, or stays with its block, in its order, because the queue refuses it. Of the queue that results the
sweep carries the first four that no rule passes over, oldest first, each for a position of its own that is not held and
is ENROLLED, or DUPLICATE for an IDENTIFY, and each at its first carriage with the sequence after its position's
counter, or the one after that where the adapter holds it. Nothing of a position but its counter, and nothing outside
the loop, changes (R107, R108, R115 to R117). That nothing is sent while a sweep is in flight (log 2),
and that the header's restart bit is clear (log 58), are the model's choices. A held-back directive offered again joins
the tail and leaves its block's list; refused, or offered before one of its block's that the queue would take, or while
no running sweep may be put together, it stays; that the row names any place is the model's choice (R115, R125; log
42). -/
def Obligations.RunningSweepCarriesFour : Prop :=
  (∀ s : State, Taking s →
    (s.rlc.loop ≠ .running ∨ s.rlc.inFlight ≠ none → exec .runningSweepSend s = .next (beginTaking s))
    ∧ (s.rlc.loop = .running → s.rlc.inFlight = none → (∀ b, (heldOf b s).length ≤ 64) →
      ∃ t joined carried, exec .runningSweepSend s = .next t
        ∧ List.Perm (joined ++ allBlocks.flatMap fun b => heldOf b t) (allBlocks.flatMap fun b => heldOf b s)
        ∧ (∀ b, (heldOf b t).Sublist (heldOf b s) ∧ ∀ d ∈ heldOf b t, queueRefuses t d = true)
        ∧ (let queue := s.rlc.queue ++ joined.map fun d =>
            { dir := d, seq := none, sends := 0, good := 0, since := 0, flying := false, withdrawn := false }
          let ready := fun (i : Nat) (e : QueueEntry) =>
            (queue.take i).all (fun o => o.dir.pos != e.dir.pos) && !(posAt s e.dir.pos).hold
              && ((posAt s e.dir.pos).presence == .enrolled
                || (e.dir.order == .identify && (posAt s e.dir.pos).presence == .duplicate))
              && !e.withdrawn && (decide (e.sends = 0) || (decide (2 ≤ e.good) && decide (e.sends < 3)))
          let chosen := ((List.range queue.length).filter fun i => (queue[i]?).any (ready i)).take 4
          let next := fun (q : Position) =>
            if (q.counter + 1).setWidth 8 = q.accepted then q.counter + 2 else q.counter + 1
          let first := fun (e : QueueEntry) => e.seq.isNone && e.dir.order != .identify
          let seqOf := fun (e : QueueEntry) => if first e then some (next (posAt s e.dir.pos)) else e.seq
          carried = chosen.filterMap (fun i => queue[i]?.map fun e => { dir := e.dir, seq := seqOf e })
          ∧ t.rlc.queue = queue.mapIdx (fun i e =>
              if i ∈ chosen then { e with seq := seqOf e, since := 0, flying := true } else e)
          ∧ ∀ p, posAt t p = { posAt s p with
              counter :=
                if chosen.any (fun i => (queue[i]?).any fun e => first e && e.dir.pos == p) then next (posAt s p)
                else (posAt s p).counter })
        ∧ t.rlc = { s.rlc with
            inFlight := some {
              kind := .running, number := s.rlc.sweepNo, lastGood := s.rlc.lastGood, restart := false, carried }
            sweepNo := s.rlc.sweepNo + 1, sweepClock := 0, queue := t.rlc.queue
            heldSm := t.rlc.heldSm, heldLba := t.rlc.heldLba, heldFm := t.rlc.heldFm, heldRlc := t.rlc.heldRlc }
        ∧ carried.length ≤ 4 ∧ (carried.map fun c => c.dir.pos).Nodup
        ∧ (∀ c ∈ carried, (posAt s c.dir.pos).hold = false
            ∧ ((posAt s c.dir.pos).presence = .enrolled
              ∨ (c.dir.order = .identify ∧ (posAt s c.dir.pos).presence = .duplicate)))
        ∧ t.nv = s.nv ∧ t.rcs = s.rcs ∧ t.fm = s.fm ∧ t.tli = s.tli ∧ t.cru = s.cru ∧ t.lba = s.lba ∧ t.hlp = s.hlp))
  ∧ (∀ (b : Block) (place : Nat) (s : State), Taking s →
    ((heldOf b s)[place]? = none ∨ s.rlc.loop ≠ .running ∨ s.rlc.inFlight ≠ none →
      exec (.heldBackOffer b place) s = .next (beginTaking s))
    ∧ ∀ d, (heldOf b s)[place]? = some d →
      (32 ≤ s.rlc.queue.length ∨ (isStart d.order = true ∧
          ∃ e ∈ s.rlc.queue, e.dir.pos = d.pos ∧ isStart e.dir.order = true) →
        exec (.heldBackOffer b place) s = .next (beginTaking s))
      ∧ ((∃ k e, k < place ∧ (heldOf b s)[k]? = some e ∧ queueRefuses s e = false) →
        exec (.heldBackOffer b place) s = .next (beginTaking s))
      ∧ (s.rlc.loop = .running → s.rlc.inFlight = none → s.rlc.queue.length < 32 → (isStart d.order = true →
          ∀ e ∈ s.rlc.queue, e.dir.pos = d.pos → isStart e.dir.order = false) →
        (∀ k e, k < place → (heldOf b s)[k]? = some e → queueRefuses s e = true) →
        ∃ t, exec (.heldBackOffer b place) s = .next t
          ∧ t.rlc = { s.rlc with
              queue := s.rlc.queue ++
                [{ dir := d, seq := none, sends := 0, good := 0, since := 0, flying := false, withdrawn := false }]
              heldSm := t.rlc.heldSm, heldLba := t.rlc.heldLba, heldFm := t.rlc.heldFm, heldRlc := t.rlc.heldRlc }
          ∧ heldOf b t = (heldOf b s).eraseIdx place ∧ (∀ c, c ≠ b → heldOf c t = heldOf c s)
          ∧ t.nv = s.nv ∧ t.positions = s.positions ∧ t.rcs = s.rcs ∧ t.fm = s.fm ∧ t.tli = s.tli ∧ t.cru = s.cru
          ∧ t.lba = s.lba ∧ t.hlp = s.hlp))

/-- A sweep that does not return in time, or whose bytes come home bad, counts as a failed one, and nothing it carried
is counted; a record cut short makes the bytes bad (the model's choice, log 19). The third bad running sweep in a row,
or the third failed try, breaks the loop: LOOP_BROKEN is set, the next enrol sweep follows in 2 seconds and every
RUNNING session is SUSPENDED; BROKEN tries again without limit (R104, R106, R107, R117; log 20). The break as a row of
its own acts where the count stands at 3 (the model's choice, log 3); a timeout with no sweep in flight does nothing
(the model's choice, log 2), and what returns from a sweep that Loop Restart discarded, good or bad, is taken by no
block (R124, R126; log 18). -/
def Obligations.BadSweepsBreakTheLoop : Prop :=
  (∀ s : State, Taking s →
    (s.rlc.inFlight = none → exec .sweepReturnTimeout s = .next (beginTaking s))
    ∧ (∀ bytes, exec (.enrolSweepReturn ⟨true, bytes⟩) s = .next (beginTaking s)
      ∧ exec (.runningSweepReturn ⟨true, bytes⟩) s = .next (beginTaking s))
    ∧ ∀ sweep, s.rlc.inFlight = some sweep →
      let unflown : Rlc :=
        { s.rlc with inFlight := none, queue := s.rlc.queue.map fun e => { e with flying := false } }
      (∀ bytes, returnedOf bytes = none →
        exec (match sweep.kind with
          | .running => .runningSweepReturn ⟨false, bytes⟩
          | .enrol => .enrolSweepReturn ⟨false, bytes⟩) s = exec .sweepReturnTimeout s)
      ∧ (s.rlc.loop = .running → s.rlc.badSweeps < 2 →
        exec .sweepReturnTimeout s =
          .next { beginTaking s with rlc := { unflown with badSweeps := s.rlc.badSweeps + 1 } })
      ∧ (s.rlc.loop = .enrolling → s.rlc.failedTries < 2 →
        exec .sweepReturnTimeout s =
          .next { beginTaking s with rlc := { unflown with
            failedTries := s.rlc.failedTries + 1, retryLeft := some 20 } })
      ∧ (s.rlc.loop = .broken →
        exec .sweepReturnTimeout s = .next { beginTaking s with rlc := { unflown with retryLeft := some 20 } })
      ∧ ((s.rlc.loop = .running ∧ 2 ≤ s.rlc.badSweeps) ∨ (s.rlc.loop = .enrolling ∧ 2 ≤ s.rlc.failedTries) →
        ∃ t, exec .sweepReturnTimeout s = .next t ∧ t.rlc.loop = .broken ∧ t.rlc.inFlight = none
          ∧ t.rlc.retryLeft = some 20 ∧ t.rlc.queue = unflown.queue ∧ flagIsSet .loopBroken t = true
          ∧ (∀ p, posAt t p = suspended (posAt s p)) ∧ ConfigKept s.nv t.nv ∧ t.nv.journal = s.nv.journal
          ∧ t.rcs = s.rcs ∧ t.fm = s.fm ∧ t.tli = s.tli ∧ t.cru = s.cru ∧ t.lba = s.lba))
  ∧ (∀ s : State, Taking s →
    (breakDue s = false → exec .loopBreak s = .next (beginTaking s))
    ∧ (breakDue s = true → ∃ t, exec .loopBreak s = .next t
      ∧ t.rlc = { s.rlc with loop := .broken, retryLeft := some 20 } ∧ flagIsSet .loopBroken t = true
      ∧ (∀ p, posAt t p = suspended (posAt s p)) ∧ ConfigKept s.nv t.nv ∧ t.nv.journal = s.nv.journal
      ∧ t.rcs = s.rcs ∧ t.fm = s.fm ∧ t.tli = s.tli ∧ t.cru = s.cru ∧ t.lba = s.lba))

/-- An enrol sweep goes out when a retry is due, with no directives; one that returns good builds the roster from its
records, one record making its position ENROLLED with its serial, several DUPLICATE and none ABSENT, with an IDENTIFY
offered for each it makes DUPLICATE, and the loop enters RUNNING with its counts at 0 and the restart flag clear.
ROSTER_CHANGE is set where a presence, a serial or a held class changes or a record names no position, and at no other
enrolment. The roster built, the positions are taken in ascending order: one with a single record is reconciled
against it, on the state that the positions below it leave, and a session at any other is left in its state, but that
a RUNNING one is SUSPENDED. What a position's reconciliation gives stands at the end, but for a grant to its session
(R5, R17, R102, R103, R106, R108, R109, R120 to R123). A retry with none due does nothing (log 2), a sweep of another
kind or number is taken by no block (log 18), a mark or join record in an enrol sweep is passed over (log 19), the
count of good sweeps since a settling event is raised before the roster is built (log 26), and a position that was
DUPLICATE already has its figures at 0 and one more IDENTIFY where it is made so again, the IDENTIFYs being offered in
ascending order of position (log 41): these are the model's choice. -/
def Obligations.EnrolmentBuildsTheRoster : Prop :=
  ∀ s : State, Taking s →
    (s.rlc.retryLeft = none → exec .enrolRetryTimer s = .next (beginTaking s))
    ∧ (s.rlc.retryLeft ≠ none → exec .enrolRetryTimer s = .next { beginTaking s with rlc := { s.rlc with
        inFlight := some {
          kind := .enrol, number := s.rlc.sweepNo, lastGood := s.rlc.lastGood, restart := s.rlc.restartFlag,
          carried := [] }
        sweepNo := s.rlc.sweepNo + 1, sweepClock := 0, retryLeft := none } })
    ∧ ∀ bytes sweep r, s.rlc.inFlight = some sweep → sweep.kind = .enrol → returnedOf bytes = some r →
      (r.kind ≠ 1 ∨ r.number ≠ sweep.number → exec (.enrolSweepReturn ⟨false, bytes⟩) s = .next (beginTaking s))
      ∧ (r.kind = 1 → r.number = sweep.number → ∃ t, exec (.enrolSweepReturn ⟨false, bytes⟩) s = .next t
        ∧ t.rlc.loop = .running ∧ t.rlc.inFlight = none ∧ t.rlc.lastGood = sweep.number
        ∧ t.rlc.restartFlag = false ∧ t.rlc.failedTries = 0 ∧ t.rlc.badSweeps = 0 ∧ t.rlc.retryLeft = none
        ∧ t.rlc.sweepNo = s.rlc.sweepNo
        ∧ ∀ p : Pos,
          match recordsFor p (enrolRecords r.records) with
          | [] => (posAt t p).presence = .absent ∧ (posAt t p).serial = none ∧ (posAt t p).hold = false
          | [e] => (posAt t p).presence = .enrolled ∧ (posAt t p).serial = some e.serial
              ∧ (posAt t p).cls = some e.cls ∧ (posAt t p).hold = false
          | _ => (posAt t p).presence = .duplicate ∧ (posAt t p).serial = none ∧ (posAt t p).hold = false)
      ∧ (r.kind = 1 → r.number = sweep.number → RoomHeld s → ∃ t, exec (.enrolSweepReturn ⟨false, bytes⟩) s = .next t
        ∧ (let enrols := enrolRecords r.records
          let changed := (∃ p, (posAt t p).presence ≠ (posAt s p).presence ∨ (posAt t p).serial ≠ (posAt s p).serial)
            ∨ (∃ e ∈ enrols, posOfNumber e.switch.toNat = none)
            ∨ ∃ p e cls, recordsFor p enrols = [e] ∧ (posAt s p).cls = some cls ∧ cls ≠ e.cls
          (changed → flagIsSet .rosterChange t = true)
          ∧ (¬ changed → flagIsSet .rosterChange t = flagIsSet .rosterChange s)
          ∧ ∀ p, (recordsFor p enrols).length ≠ 1 →
            GrantedOnly (suspended (posAt s p)).occupancy (posAt t p).occupancy))
      ∧ (r.kind = 1 → r.number = sweep.number → RoomHeld s →
        let enrols := enrolRecords r.records
        let taken := fun (u : State) (p : Pos) => match recordsFor p enrols with
          | [e] => reconcile p ((posAt s p).presence != .enrolled) e u
          | _ => suspendSession p u
        ∃ built,
          built = { beginTaking s with positions := built.positions, rlc := built.rlc, hlp := built.hlp }
          ∧ (∀ p : Pos,
            let q : Position := { posAt s p with hold := false, settle := min ((posAt s p).settle + 1) 2 }
            let left : Position :=
              { q with serial := none, measured := 0, corrected := 0, lastReport := none, low := 0 }
            let still : Position := if q.occupancy = .vacant then { left with silence := 0, silent := false } else left
            posAt built p = match recordsFor p enrols with
              | [e] => { q with
                  presence := .enrolled, serial := some e.serial, missing := 0, silence := 0, silent := false }
              | [] => { still with presence := .absent }
              | _ => { still with presence := .duplicate })
          ∧ built.rlc = { s.rlc with
              inFlight := none, lastGood := sweep.number, restartFlag := false, failedTries := 0, badSweeps := 0
              retryLeft := none, queue := built.rlc.queue, heldRlc := built.rlc.heldRlc }
          ∧ s.rlc.queue <+: built.rlc.queue ∧ s.rlc.heldRlc <+: built.rlc.heldRlc
          ∧ (built.rlc.queue.drop s.rlc.queue.length).map QueueEntry.dir
              ++ built.rlc.heldRlc.drop s.rlc.heldRlc.length =
            (positionsWhere fun p => decide (2 ≤ (recordsFor p enrols).length)).map (fun p =>
              { pos := p, order := .identify })
          ∧ HlpButFlags s.hlp built.hlp
          ∧ (let u := allPositions.foldl taken built
            exec (.enrolSweepReturn ⟨false, bytes⟩) s = .next { u with rlc := { u.rlc with loop := .running } }
            ∧ ∀ p e, recordsFor p enrols = [e] →
              let before := (allPositions.filter (· < p)).foldl taken built
              GrantedOnly (posAt s p).occupancy (posAt before p).occupancy
              ∧ GrantedOnly (posAt (taken before p) p).occupancy (posAt u p).occupancy))

/-- A position is reconciled against its single record. The record's class is written; where it differs from the one
held, ROSTER_CHANGE is set and a session there is a context mismatch. Otherwise the verdict is that of Table 6-4: the
session's tag with a running cycle confirms, resumes or leaves it, and with ENDED completes it; another tag or IDLE
ends STARTING with START_TIMEOUT, RUNNING and SUSPENDED with CONTEXT_LOST, and leaves a waiting session or a claim; a
running cycle of a tag that no live session there holds has a STOP; an UNLOADING position is VACANT at IDLE (R3, R5,
R17, R123, R135). The model's choice is what a class mismatch gives beside CONTEXT_LOST, which is no other verdict
than the STOP of a stray cycle, so that the position stays UNLOADING (log 29), and that a waiting session's own tag with
a running cycle leaves it (log 25). Which of the two STOPs joins the queue first, where a verdict ends a session beside
a stray cycle, is not stated here (logs 29 and 32). -/
def Obligations.ReconciliationFollowsTheVerdicts : Prop :=
  ∀ (p : Pos) (newly : Bool) (r : EnrolRecord) (s : State), AtRest s → RoomHeld s →
    let t := reconcile p newly r s
    let same := (posAt s p).cls = none ∨ (posAt s p).cls = some r.cls
    let runs := r.cycle = .running ∨ r.cycle = .waitStep
    (posAt t p).cls = some r.cls
    ∧ (¬ same → flagIsSet .rosterChange t = true)
    ∧ (newly = true → r.cls = .washer → s.rcs.mode = .alarm → haltWaterStands p t = true)
    ∧ (∀ ses, sessionAt s p = some ses → ¬ same → FaultEnds s t p ses .contextLost
      ∧ (r.tag ≠ tagOf ses.number → runs → stopStands p r.tag t = true))
    ∧ (∀ c, claimAt s p = some c → ¬ same → (lineOf s c.terminal).flight = some (.start c.card p) →
      (posAt t p).occupancy = .vacant
      ∧ lineOf t c.terminal = { lineOf s c.terminal with
          flight := none, out := (lineOf s c.terminal).out ++ [refusedRecord 1 c.card (posByte p) .positionFault] })
    ∧ (∀ ses, sessionAt s p = some ses → same → r.tag = tagOf ses.number → runs →
      (ses.state = .waitingBudget ∨ ses.state = .running → sessionAt t p = some ses ∧ t.nv = s.nv ∧ t.fm = s.fm)
      ∧ (ses.state = .starting →
        sessionAt t p = some { ses with state := .running, startMinute := some (stampNow s) }
          ∧ (posAt t p).startCount = none ∧ t.fm = s.fm)
      ∧ (ses.state = .suspended →
        let limit := ses.nominal + s.nv.settings.overrunTolerance
        let resumed := { ses with
          state := .running, r := if limit ≤ ses.r then ses.r else min (ses.r + ses.u) limit, u := 0 }
        if limit ≤ resumed.r then FaultEnds s t p resumed .overrun
        else sessionAt t p = some resumed ∧ t.fm = s.fm))
    ∧ (∀ ses, sessionAt s p = some ses → same → r.tag = tagOf ses.number → r.cycle = .ended →
      let limit := ses.nominal + s.nv.settings.overrunTolerance
      let ended := if ses.state = .starting then { ses with state := .running, startMinute := some (stampNow s) }
        else if ses.state = .suspended then { ses with
          state := .running, r := if limit ≤ ses.r then ses.r else min (ses.r + ses.u) limit, u := 0 }
        else ses
      EndedAt s t p ended .completed none ∧ stopStands p r.tag t = stopStands p r.tag s ∧ t.fm = s.fm)
    ∧ (∀ ses, sessionAt s p = some ses → same → r.tag ≠ tagOf ses.number ∨ r.cycle = .idle →
      (ses.state = .starting → FaultEnds s t p ses .startTimeout)
      ∧ (ses.state = .running ∨ ses.state = .suspended → FaultEnds s t p ses .contextLost)
      ∧ (ses.state = .waitingBudget → sessionAt t p = some ses ∧ t.nv = s.nv ∧ t.fm = s.fm)
      ∧ (r.tag ≠ tagOf ses.number → runs → stopStands p r.tag t = true))
    ∧ (∀ c, claimAt s p = some c → same → claimAt t p = some c ∧ (runs → stopStands p r.tag t = true))
    ∧ ((posAt s p).occupancy = .vacant → (posAt t p).occupancy = .vacant ∧ (runs → stopStands p r.tag t = true))
    ∧ ∀ tag, (posAt s p).occupancy = .unloading tag →
      (r.cycle = .idle → (posAt t p).occupancy = .vacant)
      ∧ (r.cycle ≠ .idle → (posAt t p).occupancy = .unloading tag)
      ∧ (runs → stopStands p r.tag t = true)

/-- A running sweep that returns good takes its number as the last good sweep and clears the count of bad ones. At a
position that no mark and no join names, the count of missing marks rises, stopping at 6; at one whose single mark
carries no report, it returns to 0, HOLD and the accepted sequence are kept, and an entry of that sequence leaves the
queue. In a sweep without records each directive carried has a send counted, an IDENTIFY leaves, the counts of the
others rise, and a withdrawn entry leaves at a count of 2; the first counted send of a START starts its start count,
and that of a STEP_GRANT takes the pending step off (R104, R107, R108, R111, R116 to R119, R121, R132). The model's
choice is that a sweep other than the one in flight is taken by no block (log 18), that an entry withdrawn with its
count already at 2 leaves at this sweep (log 45), and that a mark's accepted byte is kept as it came, above 15 too, and
acknowledges the entry whose sequence equals the whole of it (log 54). -/
def Obligations.GoodSweepsCountMarks : Prop :=
  (∀ (bytes : List Byte) (sweep : Sweep) (r : Returned) (s : State), Taking s →
    s.rlc.inFlight = some sweep → sweep.kind = .running → returnedOf bytes = some r →
    (r.kind ≠ 0 ∨ r.number ≠ sweep.number → exec (.runningSweepReturn ⟨false, bytes⟩) s = .next (beginTaking s))
    ∧ (r.kind = 0 → r.number = sweep.number → ∃ t, exec (.runningSweepReturn ⟨false, bytes⟩) s = .next t
      ∧ t.rlc.inFlight = none ∧ t.rlc.lastGood = sweep.number ∧ t.rlc.badSweeps = 0 ∧ t.rlc.loop = s.rlc.loop
      ∧ t.rlc.sweepNo = s.rlc.sweepNo
      ∧ (∀ p, marksFor r.records p = 0 → joinsFor r.records p = 0 →
        (posAt t p).missing = min ((posAt s p).missing + 1) 6 ∧ (posAt t p).presence = (posAt s p).presence
          ∧ (posAt t p).hold = (posAt s p).hold)
      ∧ ∀ p m, r.records = [.mark m] → m.report = none → posOfNumber m.position.toNat = some p →
        (posAt s p).presence = .enrolled →
        (posAt t p).missing = 0 ∧ (posAt t p).silence = 0 ∧ (posAt t p).hold = m.hold
          ∧ (posAt t p).accepted = m.accepted))
  ∧ (∀ (bytes : List Byte) (sweep : Sweep) (r : Returned) (s : State), Taking s → RoomHeld s →
    s.rlc.inFlight = some sweep → sweep.kind = .running → returnedOf bytes = some r → r.kind = 0 →
    r.number = sweep.number →
    let counted := s.rlc.queue.filterMap fun e =>
      if e.flying then
        if e.dir.order = .identify then none
        else some { e with sends := e.sends + 1, good := 0, since := 0, flying := false }
      else some { e with
        good := if 1 ≤ e.sends then e.good + 1 else e.good
        since := if e.seq.isSome then e.since + 1 else e.since }
    (r.records = [] → (∀ e ∈ counted, dropDue e = false) →
      (∀ p n, (posAt s p).startCount = some n → n < 19) →
      ∃ t, exec (.runningSweepReturn ⟨false, bytes⟩) s = .next t
        ∧ t.rlc.queue = counted.filter (fun e => !(e.withdrawn && decide (2 ≤ e.since)))
        ∧ (∀ p ses, sessionAt s p = some ses → ses.state = .starting →
          (∃ e ∈ s.rlc.queue, e.dir.pos = p ∧ isStart e.dir.order = true ∧ e.flying = true ∧ e.sends = 0
            ∧ e.withdrawn = false) → (posAt t p).startCount = some 0)
        ∧ (∀ p ses j, sessionAt s p = some ses → ses.pendingStep = some j → ses.phase = j →
          (∃ e ∈ s.rlc.queue, e.dir = { pos := p, order := .stepGrant j } ∧ e.flying = true ∧ e.sends = 0
            ∧ e.withdrawn = false) → (sessionAt t p).map Session.pendingStep = some none))
    ∧ (∀ m p, r.records = [.mark m] → m.report = none → posOfNumber m.position.toNat = some p →
      (posAt s p).presence = .enrolled → (∀ e ∈ counted, dropDue e = false) →
      (∀ q n, (posAt s q).startCount = some n → n < 19) →
      (∀ q, (posAt s q).low < 5) →
      let named := fun e : QueueEntry => e.dir.pos == p && e.seq.any fun q => q.setWidth 8 == m.accepted
      ∃ t, exec (.runningSweepReturn ⟨false, bytes⟩) s = .next t
        ∧ t.rlc.queue = (counted.filter fun e => !named e).filter
            (fun e => !(e.withdrawn && decide (2 ≤ e.since)))
        ∧ (counted.any (fun e => named e && drawChanging e.dir.order && !e.withdrawn) = true →
          (posAt t p).settle = 0)))

/-- A join record leaves its position ENROLLED where it is ABSENT, or holds the same serial, with HOLD clear and the
counter and accepted sequence at 0, and the position is then reconciled against it, as an enrolment does; another
serial, or two joins of one position, make it DUPLICATE. That a join at a
position already DUPLICATE changes nothing and queues no IDENTIFY is the model's choice (log 41); a switch of no
position sets ROSTER_CHANGE alone. A second mark of an ENROLLED position makes it DUPLICATE and neither
is taken. A position made DUPLICATE has an IDENTIFY and ROSTER_CHANGE. An idle VACANT position out of use whose door
is CLOSED has a LOCK_DOOR, and one in use whose door is LOCKED a RELEASE_DOOR, unless a door directive stands (R110,
R111, R116, R120, R123). That the count of missing marks rises where two marks were not taken is the model's choice (log
48). -/
def Obligations.JoinsSecondMarksAndDoors : Prop :=
  (∀ (records : List LoopRecord) (e : EnrolRecord) (s : State),
    (posOfNumber e.switch.toNat = none → takeJoin records e s = setFlag .rosterChange s)
    ∧ ∀ p, posOfNumber e.switch.toNat = some p →
      let q := posAt s p
      let t := takeJoin records e s
      let twice := 2 ≤ joinsFor records p
      (q.presence = .duplicate → t = s)
      ∧ ((q.presence = .absent ∧ ¬ twice) ∨ (q.presence = .enrolled ∧ q.serial = some e.serial ∧ ¬ twice) →
        AtRest s → RoomHeld s →
        (posAt t p).presence = .enrolled ∧ (posAt t p).serial = some e.serial ∧ (posAt t p).cls = some e.cls
          ∧ (posAt t p).hold = false ∧ (posAt t p).counter = 0 ∧ (posAt t p).accepted = 0
          ∧ (q.presence = .absent → flagIsSet .rosterChange t = true))
      ∧ ((q.presence = .absent ∧ ¬ twice) ∨ (q.presence = .enrolled ∧ q.serial = some e.serial ∧ ¬ twice) →
        t = reconcile p (q.presence == .absent) e (modPos p (fun x => { x with
          presence := .enrolled, serial := some e.serial, hold := false, missing := 0, silence := 0, silent := false
          counter := 0, accepted := 0 }) (if q.presence = .absent then setFlag .rosterChange s else s)))
      ∧ (((q.presence = .absent ∨ q.presence = .enrolled) ∧ twice)
          ∨ (q.presence = .enrolled ∧ q.serial ≠ some e.serial) → OneHeld s →
        (posAt t p).presence = .duplicate ∧ (posAt t p).serial = none ∧ (posAt t p).hold = false
          ∧ (posAt t p).occupancy = q.occupancy ∧ Stands .rlc { pos := p, order := .identify } t
          ∧ flagIsSet .rosterChange t = true))
  ∧ (∀ (bytes : List Byte) (sweep : Sweep) (m n : Mark) (p : Pos) (s : State), Taking s → RoomHeld s →
    s.rlc.inFlight = some sweep → sweep.kind = .running →
    returnedOf bytes = some { kind := 0, number := sweep.number, records := [.mark m, .mark n] } →
    posOfNumber m.position.toNat = some p → posOfNumber n.position.toNat = some p →
    (posAt s p).presence = .enrolled → s.rlc.queue = [] → (∀ q, (posAt s q).startCount = none) →
    ∃ t, exec (.runningSweepReturn ⟨false, bytes⟩) s = .next t
      ∧ (posAt t p).presence = .duplicate ∧ (posAt t p).serial = none ∧ (posAt t p).hold = false
      ∧ (posAt t p).accepted = (posAt s p).accepted ∧ (posAt t p).missing = min ((posAt s p).missing + 1) 6
      ∧ (posAt t p).lastReport = none ∧ (posAt t p).measured = 0 ∧ (posAt t p).corrected = 0
      ∧ flagIsSet .rosterChange t = true ∧ Stands .rlc { pos := p, order := .identify } t)
  ∧ (∀ (p : Pos) (r : Report) (s : State),
    let idle := (posAt s p).occupancy = .vacant ∧ r.cycle = .idle
    let stands := doorDirectiveStands p s = true
    let out := s.nv.service[p] = .outOfService ∨ s.nv.lockout[p] = true
    (¬ idle ∨ stands ∨ r.door = .opened ∨ (out ∧ r.door = .locked) ∨ (¬ out ∧ r.door = .closed) →
      doorRule p r s = s)
    ∧ (idle → ¬ stands → out → r.door = .closed → doorRule p r s = offer .rlc { pos := p, order := .lockDoor } s)
    ∧ (idle → ¬ stands → ¬ out → r.door = .locked →
      doorRule p r s = offer .rlc { pos := p, order := .releaseDoor } s))
  ∧ (∀ (b : Block) (d : Directive) (s : State), OneHeld s → Stands b d (offer b d s)
    ∧ (queueRefuses s d = false → (offer b d s).rlc.queue = s.rlc.queue ++
      [{ dir := d, seq := none, sends := 0, good := 0, since := 0, flying := false, withdrawn := false }])
    ∧ (queueRefuses s d = true → heldOf b (offer b d s) = heldOf b s ++ [d]))

/-- SM, LBA and FM take a report in turn, then the door rule follows. FM judges the five causes of the report's own
fields, and HEATER_OVERDRAW where the position is settled; an event cause of an earlier judgment leaves, a cause
handed with the report joins, and each that newly holds is an onset. A judgment with onsets writes one record of them
in rank order with the report as its snapshot, locks the position where one locks and no SERVICE session stands, and
ends the session; with none it acts on nothing. LEAK puts the room into ALARM. A sweep's single mark with a calm or a
faulty report acts so (R113, R127 to R130, R134 to R137). The model's choice is the door rule's place after the three
blocks (log 21); that of the evaluation that the report owes, before the door rule and at the end of the position's
part of the sweep (log 5); that the count of good sweeps since a settling event is raised before the report is judged
(log 26); and that a mark's accepted byte is kept as it came, above 15 too (log 54). -/
def Obligations.ReportsAreJudged : Prop :=
  (∀ (s : State) (p : Pos) (r : Report),
    judgeCause s p r .leak = some (r.leak == .wet)
    ∧ judgeCause s p r .overtemp =
      some (decide ((if (posAt s p).cls = some .dryer then 85 else 95) < r.temp.toNat))
    ∧ judgeCause s p r .drumBlocked = some (r.drum == .blocked)
    ∧ judgeCause s p r .doorOpenRunning =
      some ((r.cycle == .running || r.cycle == .waitStep) && (r.door == .opened || r.door == .closed))
    ∧ judgeCause s p r .machineCode = some (r.code != 0)
    ∧ (isSettled s p = true → judgeCause s p r .heaterOverdraw =
      some (decide (25 * (posAt s p).lu < 2 * (posAt s p).corrected)))
    ∧ (isSettled s p = false → judgeCause s p r .heaterOverdraw = match sessionAt s p with
      | some ses => if ses.state = .waitingBudget then some false else none
      | none => some false))
  ∧ (∀ (p : Pos) (r : Report) (handed : List Cause) (s : State), AtRest s → RoomHeld s →
    let q := posAt s p
    let judged := fun c => judgeCause s p r c
    let before := fun c => c ∈ q.causes ∧ isEvent c = false
    let onsets := allCauses.filter fun c =>
      handed.contains c || (judged c == some true && !(q.causes.contains c && !isEvent c))
    let last : LastReport := { report := r, corrected := q.corrected, reserved := q.lu }
    let t := reportJudgment p r handed s
    (posAt t p).lastReport = some last
    ∧ (∀ c, c ∈ (posAt t p).causes ↔ c ∈ handed ∨ judged c = some true ∨ (before c ∧ judged c ≠ some false))
    ∧ (onsets = [] → ∃ causes,
      t = { s with positions := s.positions.set p { q with causes := causes, lastReport := some last } })
    ∧ (∀ primary rest ses, onsets = primary :: rest → sessionAt s p = some ses →
      (.leak ∉ onsets ∨ s.rcs.mode = .alarm → OnsetsEnd s t p ses primary onsets (some last))
      ∧ (.leak ∈ onsets → t.rcs.mode = .alarm ∧ (posAt t p).occupancy = .unloading (tagOf ses.number)
        ∧ RecordedIn s t (some p) (some ses.number) (.cause primary) onsets (some last)))
    ∧ (∀ primary rest, onsets = primary :: rest → (posAt s p).occupancy = .vacant →
      RecordedIn s t (some p) none (.cause primary) onsets (some last)
      ∧ t.nv.lockout = (if onsets.any locks then s.nv.lockout.set p true else s.nv.lockout)
      ∧ (posAt t p).occupancy = .vacant)
    ∧ (∀ primary rest c, onsets = primary :: rest → claimAt s p = some c →
      (lineOf s c.terminal).flight = some (.start c.card p) → .leak ∉ onsets →
      RecordedIn s t (some p) (some c.number) (.cause primary) onsets (some last)
      ∧ (posAt t p).occupancy = .vacant
      ∧ lineOf t c.terminal = { lineOf s c.terminal with
          flight := none, out := (lineOf s c.terminal).out ++ [refusedRecord 1 c.card (posByte p) .positionFault] })
    ∧ (.leak ∈ onsets → (isWasher s p = true → haltWaterStands p t = true)
      ∧ (s.rcs.mode ≠ .alarm → t.rcs = { s.rcs with mode := .alarm }
        ∧ (∀ q, isWasher s q = true → sessionAt t q = none ∧ claimAt t q = none)
        ∧ ∀ q, isWasher s q = true → (posAt s q).presence = .enrolled → haltWaterStands q t = true)))
  ∧ (∀ (p : Pos) (r : Report) (s : State),
    let sm := smTake p r.cycle r.tag s
    let lba := lbaTake p r sm.agrees sm.state
    takeReport p r s = doorRule p r (evaluateIfDue (reportJudgment p r (sm.handed ++ lba.2) lba.1))
    ∧ (sm.agrees = false ∨ r.step = 0 → lba = (meter p r.draw sm.state, []))
    ∧ ∀ ses, sm.agrees = true → r.step ≠ 0 → sessionAt sm.state p = some ses →
      lba.1 = (stepRequest p ses r.step.toNat (meter p r.draw sm.state)).1
      ∧ lba.2 = if (stepRequest p ses r.step.toNat (meter p r.draw sm.state)).2 then [.sequence] else [])
  ∧ (∀ (bytes : List Byte) (sweep : Sweep) (m : Mark) (r : Report) (p : Pos) (ses : Session) (s : State), Taking s →
    RoomHeld s → s.rlc.inFlight = some sweep → sweep.kind = .running →
    returnedOf bytes = some { kind := 0, number := sweep.number, records := [.mark m] } → m.report = some r →
    posOfNumber m.position.toNat = some p → (posAt s p).presence = .enrolled → s.rlc.queue = [] →
    (∀ q, (posAt s q).startCount = none) → sessionAt s p = some ses → ses.state = .running →
    (currentPhase s ses).heating = false → r.tag = tagOf ses.number → r.cycle = .running ∨ r.cycle = .waitStep →
    r.step = 0 → r.leak = .dry →
    let figure := (clampInt 0 4095 (r.draw + s.nv.trims[p])).toNat
    let u := modPos p (fun q => { q with corrected := figure, settle := min (q.settle + 1) 2 }) s
    let last : LastReport := { report := r, corrected := figure, reserved := (posAt s p).lu }
    let onsets := allCauses.filter fun c => judgeCause u p r c == some true && !(posAt s p).causes.contains c
    ∃ t, exec (.runningSweepReturn ⟨false, bytes⟩) s = .next t
      ∧ (posAt t p).measured = r.draw ∧ (posAt t p).corrected = figure ∧ (posAt t p).lastReport = some last
      ∧ (posAt t p).missing = 0 ∧ (posAt t p).hold = m.hold ∧ (posAt t p).accepted = m.accepted
      ∧ (onsets = [] → sessionAt t p = some ses ∧ t.fm = s.fm ∧ t.nv.journal = s.nv.journal
        ∧ ∀ c ∈ (posAt t p).causes, c ∈ (posAt s p).causes)
      ∧ ∀ primary rest, onsets = primary :: rest → OnsetsEnd
        { s with rlc := { s.rlc with lastGood := sweep.number } } t p ses primary onsets (some last))

/-- What SM makes of a report. One that carries the tag of the session at its position: a running cycle confirms a
STARTING session, whose start minute is taken, and resumes a SUSPENDED one, adding U to R up to T plus
OverrunTolerance; a cycle that has ended completes the session; IDLE leaves STARTING as it is and costs RUNNING its
session, as another tag does. A running cycle whose tag no live session there holds has a STOP with that tag queued,
unless one stands, whatever the position holds. An UNLOADING position is VACANT at IDLE, whatever the tag, and stays
otherwise. A good sweep of one mark with a report leaves what the report's taking gives, and one of a join what the
join's gives, but for the counts that the sweep closes (R3, R13, R15, R16, R111, R113, R121, R123, R131). The model's
choice: a WAITING_BUDGET session's own tag with a running cycle, or with IDLE, changes nothing (log 25); a stray STOP is
queued before the ended session's own (log 32); settling is counted before the records (log 26); and the accepted byte
is kept whole (log 54). -/
def Obligations.ReportsConfirmAndResume : Prop :=
  (∀ (p : Pos) (ses : Session) (cycle : Cycle) (tag : Byte) (s : State), sessionAt s p = some ses →
    let v := smTake p cycle tag s
    (tag = tagOf ses.number → cycle = .running ∨ cycle = .waitStep →
      (ses.state = .waitingBudget → v.state = s ∧ v.handed = [])
      ∧ (ses.state = .starting → v.handed = [] ∧ v.agrees = true
        ∧ sessionAt v.state p = some { ses with state := .running, startMinute := some (stampNow s) })
      ∧ (ses.state = .running → v.state = s ∧ v.handed = [] ∧ v.agrees = true)
      ∧ (ses.state = .suspended →
        let limit := ses.nominal + s.nv.settings.overrunTolerance
        let r := if limit ≤ ses.r then ses.r else min (ses.r + ses.u) limit
        sessionAt v.state p = some { ses with state := .running, r := r, u := 0 }
          ∧ v.agrees = true ∧ v.handed = if limit ≤ r then [.overrun] else []))
    ∧ (tag = tagOf ses.number → cycle = .idle → v.state = s ∧ v.agrees = false
      ∧ (ses.state = .waitingBudget ∨ ses.state = .starting → v.handed = [])
      ∧ (ses.state = .running ∨ ses.state = .suspended → v.handed = [.contextLost]))
    ∧ (tag ≠ tagOf ses.number → v.agrees = false
      ∧ (v.handed = if ses.state = .running ∨ ses.state = .suspended then [.contextLost] else []))
    ∧ (tag = tagOf ses.number → cycle = .ended → ses.state ≠ .waitingBudget →
      v.handed = [] ∧ sessionAt v.state p = none ∧ (posAt v.state p).occupancy = .unloading tag))
  ∧ (∀ (p : Pos) (cycle : Cycle) (tag : Byte) (s : State),
    let v := smTake p cycle tag s
    let runs := cycle = .running ∨ cycle = .waitStep
    let strayed := if runs ∧ stopStands p tag s = false then offer .sm { pos := p, order := .stop tag } s else s
    ((posAt s p).occupancy = .vacant ∨ (∃ c, claimAt s p = some c) →
      v.state = strayed ∧ v.handed = [] ∧ v.agrees = false)
    ∧ (∀ ses, sessionAt s p = some ses → tag ≠ tagOf ses.number → v.state = strayed)
    ∧ ∀ old, (posAt s p).occupancy = .unloading old → v.handed = [] ∧ v.agrees = false
      ∧ (cycle ≠ .idle → v.state = strayed)
      ∧ (cycle = .idle → v.state = modPos p (fun q =>
        if q.presence = .enrolled then { q with occupancy := .vacant }
        else { q with occupancy := .vacant, silence := 0, silent := false }) s))
  ∧ (∀ (bytes : List Byte) (sweep : Sweep) (x : LoopRecord) (s : State), Taking s → RoomHeld s →
    s.rlc.inFlight = some sweep → sweep.kind = .running →
    returnedOf bytes = some { kind := 0, number := sweep.number, records := [x] } →
    s.rlc.queue = [] → (∀ q, (posAt s q).startCount = none) →
    let u := { beginTaking s with
      rlc := { s.rlc with inFlight := none, lastGood := sweep.number, badSweeps := 0 }
      positions := s.positions.map fun q => { q with settle := min (q.settle + 1) 2 } }
    let missed := fun q : Position =>
      let counted := { q with missing := min (q.missing + 1) 6 }
      if counted.missing = 6 then suspended counted else counted
    let closes := fun v t : State => exec (.runningSweepReturn ⟨false, bytes⟩) s = .next t
      ∧ t = { v with positions := t.positions, nv := { v.nv with slots := t.nv.slots }, undo := t.undo }
    (∀ m r p, x = .mark m → m.report = some r → posOfNumber m.position.toNat = some p →
      (posAt s p).presence = .enrolled → (posAt s p).low < 5 →
      let v := takeReport p r (modPos p (fun q => { q with
        hold := m.hold, accepted := m.accepted, missing := 0, silence := 0, silent := false }) u)
      ∃ t, closes v t ∧ (∀ q, q ≠ p → posAt t q = missed (posAt v q))
        ∧ posAt t p = { posAt v p with low := (posAt t p).low, causes := (posAt t p).causes }
        ∧ (∀ c, c ≠ .heaterDead → (c ∈ (posAt t p).causes ↔ c ∈ (posAt v p).causes))
        ∧ (.heaterDead ∈ (posAt t p).causes → .heaterDead ∈ (posAt v p).causes)
        ∧ (∀ old, (posAt s p).occupancy = .unloading old →
          (posAt t p).occupancy = if r.cycle = .idle then .vacant else .unloading old)
        ∧ (r.cycle = .running ∨ r.cycle = .waitStep →
          (∀ ses, sessionAt s p = some ses → r.tag ≠ tagOf ses.number) → stopStands p r.tag t = true))
    ∧ ∀ e, x = .join e →
      let v := takeJoin [x] e u
      ∃ t, closes v t ∧ ∀ q, posAt t q = missed (posAt v q))

/-- A count of missing marks at 6 suspends a RUNNING session; the silence limit and a directive dropped after its
third send give ADAPTER_SILENT, six low-draw sweeps HEATER_DEAD, and twenty sweeps in STARTING START_TIMEOUT, each
ending its session by FM. Inside a good sweep the third send's count reaching 2 and the start count reaching 20 act in
the sweep's own taking, and the sixth low-draw sweep in its judgment (R14, R118, R121, R122, R131, R132, R134, R135).
As rows of their own they act where the count or measure says so and change nothing where it does not (the model's
choice, logs 2 and 3). At a position where a sweep drops a directive and completes its start count, the drop is judged
first and ends the session (the model's choice, log 22). -/
def Obligations.SweepLimitsActOnce : Prop :=
  (∀ (p : Pos) (s : State), Taking s →
    ((posAt s p).missing ≠ 6 ∨ (∀ ses, sessionAt s p = some ses → ses.state ≠ .running) →
      exec (.missingMarkLimit p) s = .next (beginTaking s))
    ∧ ∀ ses, (posAt s p).missing = 6 → sessionAt s p = some ses → ses.state = .running →
      exec (.missingMarkLimit p) s = .next { storedAs { s.nv with
          slots := s.nv.slots.set p (some (snapshotOf { ses with state := .suspended })) } s with
        positions := s.positions.set p (suspended (posAt s p)) })
  ∧ (∀ (p : Pos) (s : State), Taking s →
    (silenceRuns (posAt s p) = false ∨ (posAt s p).silent = true →
      exec (.silenceLimit p) s = .next (beginTaking s))
    ∧ ((∀ e ∈ s.rlc.queue, e.dir.pos = p → dropDue e = false) →
      exec (.directiveResendDue p) s = .next (beginTaking s))
    ∧ ((posAt s p).low ≠ 6 ∨ .heaterDead ∈ (posAt s p).causes →
      exec (.heaterDead p) s = .next (beginTaking s))
    ∧ (startTimeoutDue s p = false → exec (.startTimeout p) s = .next (beginTaking s))
    ∧ ∀ ses, sessionAt s p = some ses → RoomHeld s →
      ((posAt s p).silent = false → ∃ t, exec (.silenceLimit p) s = .next t ∧ FaultEnds s t p ses .adapterSilent
        ∧ (posAt t p).silent = true ∧ (posAt t p).silence = s.nv.settings.silenceLimit * 10)
      ∧ ((s.rlc.queue.filter fun e => dropDue e && e.dir.pos == p).length = 1 →
        ∃ t, exec (.directiveResendDue p) s = .next t ∧ FaultEnds s t p ses .adapterSilent
          ∧ ∀ e ∈ s.rlc.queue, e.dir.pos = p → dropDue e = true → e ∉ t.rlc.queue)
      ∧ ((posAt s p).low = 6 → .heaterDead ∉ (posAt s p).causes →
        ∃ t, exec (.heaterDead p) s = .next t ∧ FaultEnds s t p ses .heaterDead)
      ∧ (∀ n, (posAt s p).startCount = some n → 20 ≤ n → ses.state = .starting →
        ∃ t, exec (.startTimeout p) s = .next t ∧ FaultEnds s t p ses .startTimeout))
  ∧ (∀ (bytes : List Byte) (sweep : Sweep) (p : Pos) (ses : Session) (s : State), Taking s → RoomHeld s →
    s.rlc.inFlight = some sweep → sweep.kind = .running →
    returnedOf bytes = some { kind := 0, number := sweep.number, records := [] } → sessionAt s p = some ses →
    (∀ e ∈ s.rlc.queue, e.flying = false) → (∀ q, q ≠ p → (posAt s q).startCount = none) →
    let u := { s with rlc := { s.rlc with lastGood := sweep.number } }
    let dropping := s.rlc.queue.filter fun e => !e.withdrawn && decide (3 ≤ e.sends) && decide (1 ≤ e.good)
    (∀ e, dropping = [e] → e.dir.pos = p →
      ∃ t, exec (.runningSweepReturn ⟨false, bytes⟩) s = .next t ∧ FaultEnds u t p ses .adapterSilent
        ∧ ∀ x ∈ t.rlc.queue, x.dir.pos = p → dropDue x = false)
    ∧ (dropping = [] → (posAt s p).startCount = some 19 → ses.state = .starting →
      ∃ t, exec (.runningSweepReturn ⟨false, bytes⟩) s = .next t ∧ FaultEnds u t p ses .startTimeout)
    ∧ (∀ n, dropping = [] → (posAt s p).startCount = some n → n < 19 → ses.state = .starting →
      ∃ t, exec (.runningSweepReturn ⟨false, bytes⟩) s = .next t ∧ (posAt t p).startCount = some (n + 1)
        ∧ sessionAt t p = some ses))
  ∧ (∀ (p : Pos) (ses : Session) (s : State), AtRest s → RoomHeld s → sessionAt s p = some ses →
    let q := posAt s p
    let t := sweepJudgment p true true s
    let heats := ses.state ≠ .waitingBudget ∧ (currentPhase s ses).heating = true
    (¬ heats → (posAt t p).low = 0 ∧ .heaterDead ∉ (posAt t p).causes ∧ sessionAt t p = some ses)
    ∧ (heats → isSettled s p = false →
      (posAt t p).low = 0 ∧ (posAt t p).causes = q.causes ∧ sessionAt t p = some ses)
    ∧ (heats → isSettled s p = true → 5 * q.lu ≤ 2 * q.corrected →
      (posAt t p).low = 0 ∧ .heaterDead ∉ (posAt t p).causes ∧ sessionAt t p = some ses)
    ∧ (heats → isSettled s p = true → 2 * q.corrected < 5 * q.lu →
      (posAt t p).low = min (q.low + 1) 6
      ∧ (q.low < 5 → .heaterDead ∉ (posAt t p).causes ∧ sessionAt t p = some ses)
      ∧ (5 ≤ q.low → .heaterDead ∉ q.causes → FaultEnds s t p ses .heaterDead)))

/-- Loop Restart empties the queue, discards the sweep in flight, sets the loop's numbers and every position's
counter, accepted sequence, missing marks and HOLD back, and sends an enrol sweep with the restart flag; sessions,
reservations and the store are kept (R124, R125). That withdrawn entries are discarded whatever their kind, and that
what is handed back joins the tail of its block's list in the order of the queue, is the model's choice (log 35). -/
def Obligations.LoopRestartBeginsAgain : Prop :=
  ∀ s : State, Serving s → (∀ b, (heldOf b s).length + s.rlc.queue.length ≤ 64) →
    ∃ t, Answers .loopRestart s t (.ok (u8 s.rlc.queue.length))
      ∧ t.rlc.queue = [] ∧ t.rlc.loop = .enrolling ∧ t.rlc.sweepNo = 1 ∧ t.rlc.lastGood = 255
      ∧ t.rlc.restartFlag = true ∧ t.rlc.failedTries = 0 ∧ t.rlc.badSweeps = 0
      ∧ t.rlc.inFlight = some { kind := .enrol, number := 0, lastGood := 255, restart := true, carried := [] }
      ∧ t.rlc.heldLba = s.rlc.heldLba ++ (s.rlc.queue.filter fun e =>
          !e.withdrawn && (e.dir.order == .shed || e.dir.order == .restore)).map QueueEntry.dir
      ∧ t.rlc.heldSm = s.rlc.heldSm ++ (s.rlc.queue.filter fun e =>
          !e.withdrawn && isStepGrant e.dir.order).map QueueEntry.dir
      ∧ t.rlc.heldFm = s.rlc.heldFm ++ (s.rlc.queue.filter fun e =>
          !e.withdrawn && e.dir.order == .haltWater).map QueueEntry.dir
      ∧ t.rlc.heldRlc = s.rlc.heldRlc
      ∧ (∀ p, posAt t p = { posAt s p with
          counter := 0, accepted := 0, missing := 0, hold := false, settle := (posAt t p).settle })
      ∧ t.nv = s.nv ∧ t.rcs = s.rcs ∧ t.fm = s.fm ∧ t.tli = s.tli ∧ t.cru = s.cru ∧ t.lba = s.lba

/-! ### Invariants that every step keeps -/

/-- Whatever the Retained Store may hold after a step, and after a fall of the supply inside it, its journal is in
order and every item lies in its range (R28, R29, R45, R81, R101, R148, R150, R159, R165, R178). -/
def Obligations.StoreStaysSound : Prop :=
  ∀ s t : State, StoreAlways JournalOrdered s → StoreAlways StoreInRange s → step s = .next t →
    StoreAlways JournalOrdered t ∧ StoreAlways StoreInRange t

/-- A reservation sum stands above its cap only while OVER_CAP is set (R100). -/
def Obligations.CapsStayKept : Prop :=
  ∀ s t : State, CapsKept s → step s = .next t → CapsKept t

/-- The directive queue and the held-back lists keep their bounds, with one START at most for a position, and so do
the fault ring and roster; the clock's values and HLP's places stay as their rules allow (R115, R139, R141, R156,
R172). -/
def Obligations.ListsAndClockStaySound : Prop :=
  (∀ s t : State, QueuesBounded s → FaultLogBounded s → step s = .next t → QueuesBounded t ∧ FaultLogBounded t)
  ∧ (∀ s t : State, ClockSound s → HostLinkSound s → step s = .next t → ClockSound t ∧ HostLinkSound t)

/-- The account cache and the wanted list stay sound, and the held amount of every card's entry stays the sum of the
quotes of its live ACCOUNT sessions (R42, R47, R53, R55, R56, R59, R63, R66). -/
def Obligations.CacheStaysSound : Prop :=
  (∀ s t : State, CacheSound s → WantedBounded s → step s = .next t → CacheSound t ∧ WantedBounded t)
  ∧ (∀ s t : State, CacheSound s → WantedBounded s → HeldAgrees s → step s = .next t → HeldAgrees t)

/-- Every position's counters, causes and serial stay sound (R102, R103, R109, R121, R127, R132). -/
def Obligations.PositionsStaySound : Prop :=
  ∀ s t : State, PositionsSound s → step s = .next t → PositionsSound t

/-- While the part takes, each slot holds its position's live session and no other, and a position out of use holds no
session but of a SERVICE card; for every live session S ≤ R ≤ T + 60; and the journal has room, and the series
a number, for the record of every session in a slot, also after a fall of the supply between the writes of a taking,
where a session that the newest record names needs none (R4, R20, R21, R150, R151, R167). -/
def Obligations.SessionsAgreeWithTheStore : Prop :=
  (∀ s t : State, SlotsAgree s → step s = .next t → SlotsAgree t)
  ∧ (∀ s t : State, SlotsAgree s → (takes s = true → JournalFits s.nv) → StoreAlways JournalFitsCut s →
    step s = .next t → (takes t = true → JournalFits t.nv) ∧ StoreAlways JournalFitsCut t)
  ∧ (∀ s t : State, OutOfUseSound s → step s = .next t → OutOfUseSound t)
  ∧ (∀ s t : State, StoreAlways StoreInRange s → CountsSound s → step s = .next t → CountsSound t)

/-- While the part takes, every reservation agrees with its session's phase and shed flag, the start queue holds
exactly the WAITING_BUDGET sessions, the restore list exactly the shed positions, and each entry of the step list the
pending step of its session (R86, R88, R90, R91). -/
def Obligations.BudgetStaysInAgreement : Prop :=
  ∀ s t : State, BudgetAgrees s → step s = .next t → BudgetAgrees t

/-- A terminal's output queue never holds more than 8 records, and a terminal is WAITING exactly while its request
waits on the wanted list, a waiting start with its claim (R53, R68, R70). -/
def Obligations.TerminalsStayInAgreement : Prop :=
  ∀ s t : State, CacheSound s → WantedBounded s → TerminalsAgree s → step s = .next t → TerminalsAgree t

/-- No step leaves an evaluation or a lost directive owed (R92, R115; the model's own fields, logs 5 and 24). -/
def Obligations.StepsLeaveNothingOwed : Prop :=
  ∀ s t : State, AtRest s → step s = .next t → AtRest t

/-- Right after reset the spec's first power-up values stand (R1, R7, R27, R34, R45, R81, R101, R138, R148, R156, R159,
R162, R166, R170, R178), in the state after the first recovery, which found no slot: the loop is ENROLLING with the
first enrol sweep sent and the minute timer started (R105, R108, R168; the model's choice, log 14). The lines are
released by the model's own levels (log 13), the model's queue of commands is empty (log 39), and every invariant above
holds. -/
def Obligations.ResetValuesAndInvariants : Prop :=
  (StoreAlways JournalOrdered State.reset ∧ StoreAlways StoreInRange State.reset ∧ CapsKept State.reset
    ∧ QueuesBounded State.reset ∧ FaultLogBounded State.reset ∧ ClockSound State.reset ∧ HostLinkSound State.reset
    ∧ CacheSound State.reset ∧ WantedBounded State.reset ∧ PositionsSound State.reset ∧ AtRest State.reset
    ∧ HeldAgrees State.reset ∧ SlotsAgree State.reset ∧ JournalFits State.reset.nv
    ∧ StoreAlways JournalFitsCut State.reset ∧ OutOfUseSound State.reset
    ∧ CountsSound State.reset ∧ BudgetAgrees State.reset ∧ TerminalsAgree State.reset)
  ∧ (State.reset.nv.settings = Settings.first ∧ State.reset.nv.feedCap = 300 ∧ State.reset.nv.waterCap = 60
    ∧ State.reset.nv.sessionCounter = 1 ∧ State.reset.nv.nextSeq = 1 ∧ State.reset.nv.exhausted = false
    ∧ State.reset.nv.journal = [] ∧ State.reset.nv.bands[0] = some { start := 0, mult := 100, quiet := false }
    ∧ (∀ i : Fin 8, i ≠ 0 → State.reset.nv.bands[i] = none) ∧ (∀ i : Fin 8, State.reset.nv.ranges[i] = none)
    ∧ (∀ i : Fin 16, State.reset.nv.programs[i] = none)
    ∧ (∀ p : Pos, State.reset.nv.slots[p] = none ∧ State.reset.nv.trims[p] = 0 ∧ State.reset.nv.lockout[p] = false
        ∧ State.reset.nv.service[p] = .inService ∧ (posAt State.reset p).presence = .absent
        ∧ (posAt State.reset p).occupancy = .vacant ∧ (posAt State.reset p).cls = none
        ∧ (posAt State.reset p).lu = 0 ∧ (posAt State.reset p).wu = 0 ∧ (posAt State.reset p).causes = [])
    ∧ State.reset.hlp.flags = flagMask .partReset ∧ State.reset.hlp.enables = 0x7FF#11
    ∧ attn State.reset = true ∧ State.reset.hlp.served = none ∧ State.reset.hlp.waiting = none
    ∧ State.reset.rcs = { mode := .closed, clockSet := false, epoch := 0, minuteOfWeek := 0, minuteLeft := 600 }
    ∧ State.reset.rlc.loop = .enrolling ∧ State.reset.rlc.lastGood = 255 ∧ State.reset.rlc.restartFlag = true
    ∧ State.reset.rlc.sweepNo = 1 ∧ State.reset.rlc.inFlight =
      some { kind := .enrol, number := 0, lastGood := 255, restart := true, carried := [] }
    ∧ State.reset.rlc.queue = [] ∧ (∀ b, heldOf b State.reset = [])
    ∧ State.reset.lba.startQueue = [] ∧ State.reset.lba.stepList = [] ∧ State.reset.lba.restoreList = []
    ∧ State.reset.lba.overCap = false ∧ State.reset.lba.demand = none
    ∧ (∀ i, entryAt State.reset i = none) ∧ State.reset.cru.useCounter = 0 ∧ State.reset.cru.wanted = []
    ∧ (∀ l, (lineOf State.reset l).flight = none ∧ (lineOf State.reset l).out = [])
    ∧ State.reset.fm.floodActive = false ∧ State.reset.fm.stopActive = false
    ∧ State.reset.fm.ring = [] ∧ State.reset.fm.roster = []
    ∧ State.reset.fm.faultSeq = 1 ∧ State.reset.pending = [])

end
end

