-- ==== Sys2Proof/Laws/State.lean ====
section
/-!
SUPPORT. What each primitive update of the state does to each field of State: one lemma per field per update, all by
`rfl`, so that no later proof unfolds a record update.
-/
namespace Sys2Proof.Machine

/-! ### modPos -/

@[simp] theorem modPos_pending (p : Pos) (f : Position → Position) (s : State) :
    (modPos p f s).pending = s.pending := rfl
@[simp] theorem modPos_supply (p : Pos) (f : Position → Position) (s : State) :
    (modPos p f s).supply = s.supply := rfl
@[simp] theorem modPos_resetHeld (p : Pos) (f : Position → Position) (s : State) :
    (modPos p f s).resetHeld = s.resetHeld := rfl
@[simp] theorem modPos_floodLevel (p : Pos) (f : Position → Position) (s : State) :
    (modPos p f s).floodLevel = s.floodLevel := rfl
@[simp] theorem modPos_stopLevel (p : Pos) (f : Position → Position) (s : State) :
    (modPos p f s).stopLevel = s.stopLevel := rfl
@[simp] theorem modPos_nv (p : Pos) (f : Position → Position) (s : State) : (modPos p f s).nv = s.nv := rfl
@[simp] theorem modPos_undo (p : Pos) (f : Position → Position) (s : State) : (modPos p f s).undo = s.undo := rfl
@[simp] theorem modPos_recovering (p : Pos) (f : Position → Position) (s : State) :
    (modPos p f s).recovering = s.recovering := rfl
@[simp] theorem modPos_boundary (p : Pos) (f : Position → Position) (s : State) :
    (modPos p f s).boundary = s.boundary := rfl
@[simp] theorem modPos_hlp (p : Pos) (f : Position → Position) (s : State) : (modPos p f s).hlp = s.hlp := rfl
@[simp] theorem modPos_rcs (p : Pos) (f : Position → Position) (s : State) : (modPos p f s).rcs = s.rcs := rfl
@[simp] theorem modPos_fm (p : Pos) (f : Position → Position) (s : State) : (modPos p f s).fm = s.fm := rfl
@[simp] theorem modPos_tli (p : Pos) (f : Position → Position) (s : State) : (modPos p f s).tli = s.tli := rfl
@[simp] theorem modPos_cru (p : Pos) (f : Position → Position) (s : State) : (modPos p f s).cru = s.cru := rfl
@[simp] theorem modPos_lba (p : Pos) (f : Position → Position) (s : State) : (modPos p f s).lba = s.lba := rfl
@[simp] theorem modPos_rlc (p : Pos) (f : Position → Position) (s : State) : (modPos p f s).rlc = s.rlc := rfl
@[simp] theorem modPos_positions (p : Pos) (f : Position → Position) (s : State) :
    (modPos p f s).positions = s.positions.set p (f (posAt s p)) := rfl
@[simp] theorem modPos_freeIndex (p : Pos) (f : Position → Position) (s : State) :
    (modPos p f s).freeIndex = s.freeIndex := rfl

/-! ### writeNv -/

@[simp] theorem writeNv_pending (f : Retained → Retained) (s : State) : (writeNv f s).pending = s.pending := rfl
@[simp] theorem writeNv_supply (f : Retained → Retained) (s : State) : (writeNv f s).supply = s.supply := rfl
@[simp] theorem writeNv_resetHeld (f : Retained → Retained) (s : State) : (writeNv f s).resetHeld = s.resetHeld := rfl
@[simp] theorem writeNv_floodLevel (f : Retained → Retained) (s : State) :
    (writeNv f s).floodLevel = s.floodLevel := rfl
@[simp] theorem writeNv_stopLevel (f : Retained → Retained) (s : State) : (writeNv f s).stopLevel = s.stopLevel := rfl
@[simp] theorem writeNv_nv (f : Retained → Retained) (s : State) : (writeNv f s).nv = f s.nv := rfl
@[simp] theorem writeNv_undo (f : Retained → Retained) (s : State) : (writeNv f s).undo = s.nv :: s.undo := rfl
@[simp] theorem writeNv_recovering (f : Retained → Retained) (s : State) :
    (writeNv f s).recovering = s.recovering := rfl
@[simp] theorem writeNv_boundary (f : Retained → Retained) (s : State) :
    (writeNv f s).boundary = s.boundary := rfl
@[simp] theorem writeNv_hlp (f : Retained → Retained) (s : State) : (writeNv f s).hlp = s.hlp := rfl
@[simp] theorem writeNv_rcs (f : Retained → Retained) (s : State) : (writeNv f s).rcs = s.rcs := rfl
@[simp] theorem writeNv_fm (f : Retained → Retained) (s : State) : (writeNv f s).fm = s.fm := rfl
@[simp] theorem writeNv_tli (f : Retained → Retained) (s : State) : (writeNv f s).tli = s.tli := rfl
@[simp] theorem writeNv_cru (f : Retained → Retained) (s : State) : (writeNv f s).cru = s.cru := rfl
@[simp] theorem writeNv_lba (f : Retained → Retained) (s : State) : (writeNv f s).lba = s.lba := rfl
@[simp] theorem writeNv_rlc (f : Retained → Retained) (s : State) : (writeNv f s).rlc = s.rlc := rfl
@[simp] theorem writeNv_positions (f : Retained → Retained) (s : State) : (writeNv f s).positions = s.positions := rfl
@[simp] theorem writeNv_freeIndex (f : Retained → Retained) (s : State) : (writeNv f s).freeIndex = s.freeIndex := rfl

/-! ### writeSlot -/

@[simp] theorem writeSlot_pending (p : Pos) (x : Option Session) (s : State) :
    (writeSlot p x s).pending = s.pending := rfl
@[simp] theorem writeSlot_supply (p : Pos) (x : Option Session) (s : State) :
    (writeSlot p x s).supply = s.supply := rfl
@[simp] theorem writeSlot_resetHeld (p : Pos) (x : Option Session) (s : State) :
    (writeSlot p x s).resetHeld = s.resetHeld := rfl
@[simp] theorem writeSlot_floodLevel (p : Pos) (x : Option Session) (s : State) :
    (writeSlot p x s).floodLevel = s.floodLevel := rfl
@[simp] theorem writeSlot_stopLevel (p : Pos) (x : Option Session) (s : State) :
    (writeSlot p x s).stopLevel = s.stopLevel := rfl
@[simp] theorem writeSlot_nv (p : Pos) (x : Option Session) (s : State) :
    (writeSlot p x s).nv = { s.nv with slots := s.nv.slots.set p x } := rfl
@[simp] theorem writeSlot_undo (p : Pos) (x : Option Session) (s : State) :
    (writeSlot p x s).undo = s.nv :: s.undo := rfl
@[simp] theorem writeSlot_recovering (p : Pos) (x : Option Session) (s : State) :
    (writeSlot p x s).recovering = s.recovering := rfl
@[simp] theorem writeSlot_boundary (p : Pos) (x : Option Session) (s : State) :
    (writeSlot p x s).boundary = s.boundary := rfl
@[simp] theorem writeSlot_hlp (p : Pos) (x : Option Session) (s : State) : (writeSlot p x s).hlp = s.hlp := rfl
@[simp] theorem writeSlot_rcs (p : Pos) (x : Option Session) (s : State) : (writeSlot p x s).rcs = s.rcs := rfl
@[simp] theorem writeSlot_fm (p : Pos) (x : Option Session) (s : State) : (writeSlot p x s).fm = s.fm := rfl
@[simp] theorem writeSlot_tli (p : Pos) (x : Option Session) (s : State) : (writeSlot p x s).tli = s.tli := rfl
@[simp] theorem writeSlot_cru (p : Pos) (x : Option Session) (s : State) : (writeSlot p x s).cru = s.cru := rfl
@[simp] theorem writeSlot_lba (p : Pos) (x : Option Session) (s : State) : (writeSlot p x s).lba = s.lba := rfl
@[simp] theorem writeSlot_rlc (p : Pos) (x : Option Session) (s : State) : (writeSlot p x s).rlc = s.rlc := rfl
@[simp] theorem writeSlot_positions (p : Pos) (x : Option Session) (s : State) :
    (writeSlot p x s).positions = s.positions := rfl
@[simp] theorem writeSlot_freeIndex (p : Pos) (x : Option Session) (s : State) :
    (writeSlot p x s).freeIndex = s.freeIndex := rfl

/-! ### setFlag -/

@[simp] theorem setFlag_pending (f : AttnFlag) (s : State) : (setFlag f s).pending = s.pending := rfl
@[simp] theorem setFlag_supply (f : AttnFlag) (s : State) : (setFlag f s).supply = s.supply := rfl
@[simp] theorem setFlag_resetHeld (f : AttnFlag) (s : State) : (setFlag f s).resetHeld = s.resetHeld := rfl
@[simp] theorem setFlag_floodLevel (f : AttnFlag) (s : State) : (setFlag f s).floodLevel = s.floodLevel := rfl
@[simp] theorem setFlag_stopLevel (f : AttnFlag) (s : State) : (setFlag f s).stopLevel = s.stopLevel := rfl
@[simp] theorem setFlag_nv (f : AttnFlag) (s : State) : (setFlag f s).nv = s.nv := rfl
@[simp] theorem setFlag_undo (f : AttnFlag) (s : State) : (setFlag f s).undo = s.undo := rfl
@[simp] theorem setFlag_recovering (f : AttnFlag) (s : State) : (setFlag f s).recovering = s.recovering := rfl
@[simp] theorem setFlag_boundary (f : AttnFlag) (s : State) : (setFlag f s).boundary = s.boundary := rfl
@[simp] theorem setFlag_hlp (f : AttnFlag) (s : State) :
    (setFlag f s).hlp = { s.hlp with flags := s.hlp.flags ||| flagMask f } := rfl
@[simp] theorem setFlag_rcs (f : AttnFlag) (s : State) : (setFlag f s).rcs = s.rcs := rfl
@[simp] theorem setFlag_fm (f : AttnFlag) (s : State) : (setFlag f s).fm = s.fm := rfl
@[simp] theorem setFlag_tli (f : AttnFlag) (s : State) : (setFlag f s).tli = s.tli := rfl
@[simp] theorem setFlag_cru (f : AttnFlag) (s : State) : (setFlag f s).cru = s.cru := rfl
@[simp] theorem setFlag_lba (f : AttnFlag) (s : State) : (setFlag f s).lba = s.lba := rfl
@[simp] theorem setFlag_rlc (f : AttnFlag) (s : State) : (setFlag f s).rlc = s.rlc := rfl
@[simp] theorem setFlag_positions (f : AttnFlag) (s : State) : (setFlag f s).positions = s.positions := rfl
@[simp] theorem setFlag_freeIndex (f : AttnFlag) (s : State) : (setFlag f s).freeIndex = s.freeIndex := rfl

/-! ### modLba -/

@[simp] theorem modLba_pending (f : Lba → Lba) (s : State) : (modLba f s).pending = s.pending := rfl
@[simp] theorem modLba_supply (f : Lba → Lba) (s : State) : (modLba f s).supply = s.supply := rfl
@[simp] theorem modLba_resetHeld (f : Lba → Lba) (s : State) : (modLba f s).resetHeld = s.resetHeld := rfl
@[simp] theorem modLba_floodLevel (f : Lba → Lba) (s : State) : (modLba f s).floodLevel = s.floodLevel := rfl
@[simp] theorem modLba_stopLevel (f : Lba → Lba) (s : State) : (modLba f s).stopLevel = s.stopLevel := rfl
@[simp] theorem modLba_nv (f : Lba → Lba) (s : State) : (modLba f s).nv = s.nv := rfl
@[simp] theorem modLba_undo (f : Lba → Lba) (s : State) : (modLba f s).undo = s.undo := rfl
@[simp] theorem modLba_recovering (f : Lba → Lba) (s : State) : (modLba f s).recovering = s.recovering := rfl
@[simp] theorem modLba_boundary (f : Lba → Lba) (s : State) : (modLba f s).boundary = s.boundary := rfl
@[simp] theorem modLba_hlp (f : Lba → Lba) (s : State) : (modLba f s).hlp = s.hlp := rfl
@[simp] theorem modLba_rcs (f : Lba → Lba) (s : State) : (modLba f s).rcs = s.rcs := rfl
@[simp] theorem modLba_fm (f : Lba → Lba) (s : State) : (modLba f s).fm = s.fm := rfl
@[simp] theorem modLba_tli (f : Lba → Lba) (s : State) : (modLba f s).tli = s.tli := rfl
@[simp] theorem modLba_cru (f : Lba → Lba) (s : State) : (modLba f s).cru = s.cru := rfl
@[simp] theorem modLba_lba (f : Lba → Lba) (s : State) : (modLba f s).lba = f s.lba := rfl
@[simp] theorem modLba_rlc (f : Lba → Lba) (s : State) : (modLba f s).rlc = s.rlc := rfl
@[simp] theorem modLba_positions (f : Lba → Lba) (s : State) : (modLba f s).positions = s.positions := rfl
@[simp] theorem modLba_freeIndex (f : Lba → Lba) (s : State) : (modLba f s).freeIndex = s.freeIndex := rfl

/-! ### modRlc -/

@[simp] theorem modRlc_pending (f : Rlc → Rlc) (s : State) : (modRlc f s).pending = s.pending := rfl
@[simp] theorem modRlc_supply (f : Rlc → Rlc) (s : State) : (modRlc f s).supply = s.supply := rfl
@[simp] theorem modRlc_resetHeld (f : Rlc → Rlc) (s : State) : (modRlc f s).resetHeld = s.resetHeld := rfl
@[simp] theorem modRlc_floodLevel (f : Rlc → Rlc) (s : State) : (modRlc f s).floodLevel = s.floodLevel := rfl
@[simp] theorem modRlc_stopLevel (f : Rlc → Rlc) (s : State) : (modRlc f s).stopLevel = s.stopLevel := rfl
@[simp] theorem modRlc_nv (f : Rlc → Rlc) (s : State) : (modRlc f s).nv = s.nv := rfl
@[simp] theorem modRlc_undo (f : Rlc → Rlc) (s : State) : (modRlc f s).undo = s.undo := rfl
@[simp] theorem modRlc_recovering (f : Rlc → Rlc) (s : State) : (modRlc f s).recovering = s.recovering := rfl
@[simp] theorem modRlc_boundary (f : Rlc → Rlc) (s : State) : (modRlc f s).boundary = s.boundary := rfl
@[simp] theorem modRlc_hlp (f : Rlc → Rlc) (s : State) : (modRlc f s).hlp = s.hlp := rfl
@[simp] theorem modRlc_rcs (f : Rlc → Rlc) (s : State) : (modRlc f s).rcs = s.rcs := rfl
@[simp] theorem modRlc_fm (f : Rlc → Rlc) (s : State) : (modRlc f s).fm = s.fm := rfl
@[simp] theorem modRlc_tli (f : Rlc → Rlc) (s : State) : (modRlc f s).tli = s.tli := rfl
@[simp] theorem modRlc_cru (f : Rlc → Rlc) (s : State) : (modRlc f s).cru = s.cru := rfl
@[simp] theorem modRlc_lba (f : Rlc → Rlc) (s : State) : (modRlc f s).lba = s.lba := rfl
@[simp] theorem modRlc_rlc (f : Rlc → Rlc) (s : State) : (modRlc f s).rlc = f s.rlc := rfl
@[simp] theorem modRlc_positions (f : Rlc → Rlc) (s : State) : (modRlc f s).positions = s.positions := rfl
@[simp] theorem modRlc_freeIndex (f : Rlc → Rlc) (s : State) : (modRlc f s).freeIndex = s.freeIndex := rfl

/-! ### modFm -/

@[simp] theorem modFm_pending (f : Fm → Fm) (s : State) : (modFm f s).pending = s.pending := rfl
@[simp] theorem modFm_supply (f : Fm → Fm) (s : State) : (modFm f s).supply = s.supply := rfl
@[simp] theorem modFm_resetHeld (f : Fm → Fm) (s : State) : (modFm f s).resetHeld = s.resetHeld := rfl
@[simp] theorem modFm_floodLevel (f : Fm → Fm) (s : State) : (modFm f s).floodLevel = s.floodLevel := rfl
@[simp] theorem modFm_stopLevel (f : Fm → Fm) (s : State) : (modFm f s).stopLevel = s.stopLevel := rfl
@[simp] theorem modFm_nv (f : Fm → Fm) (s : State) : (modFm f s).nv = s.nv := rfl
@[simp] theorem modFm_undo (f : Fm → Fm) (s : State) : (modFm f s).undo = s.undo := rfl
@[simp] theorem modFm_recovering (f : Fm → Fm) (s : State) : (modFm f s).recovering = s.recovering := rfl
@[simp] theorem modFm_boundary (f : Fm → Fm) (s : State) : (modFm f s).boundary = s.boundary := rfl
@[simp] theorem modFm_hlp (f : Fm → Fm) (s : State) : (modFm f s).hlp = s.hlp := rfl
@[simp] theorem modFm_rcs (f : Fm → Fm) (s : State) : (modFm f s).rcs = s.rcs := rfl
@[simp] theorem modFm_fm (f : Fm → Fm) (s : State) : (modFm f s).fm = f s.fm := rfl
@[simp] theorem modFm_tli (f : Fm → Fm) (s : State) : (modFm f s).tli = s.tli := rfl
@[simp] theorem modFm_cru (f : Fm → Fm) (s : State) : (modFm f s).cru = s.cru := rfl
@[simp] theorem modFm_lba (f : Fm → Fm) (s : State) : (modFm f s).lba = s.lba := rfl
@[simp] theorem modFm_rlc (f : Fm → Fm) (s : State) : (modFm f s).rlc = s.rlc := rfl
@[simp] theorem modFm_positions (f : Fm → Fm) (s : State) : (modFm f s).positions = s.positions := rfl
@[simp] theorem modFm_freeIndex (f : Fm → Fm) (s : State) : (modFm f s).freeIndex = s.freeIndex := rfl

/-! ### modHlp -/

@[simp] theorem modHlp_pending (f : Hlp → Hlp) (s : State) : (modHlp f s).pending = s.pending := rfl
@[simp] theorem modHlp_supply (f : Hlp → Hlp) (s : State) : (modHlp f s).supply = s.supply := rfl
@[simp] theorem modHlp_resetHeld (f : Hlp → Hlp) (s : State) : (modHlp f s).resetHeld = s.resetHeld := rfl
@[simp] theorem modHlp_floodLevel (f : Hlp → Hlp) (s : State) : (modHlp f s).floodLevel = s.floodLevel := rfl
@[simp] theorem modHlp_stopLevel (f : Hlp → Hlp) (s : State) : (modHlp f s).stopLevel = s.stopLevel := rfl
@[simp] theorem modHlp_nv (f : Hlp → Hlp) (s : State) : (modHlp f s).nv = s.nv := rfl
@[simp] theorem modHlp_undo (f : Hlp → Hlp) (s : State) : (modHlp f s).undo = s.undo := rfl
@[simp] theorem modHlp_recovering (f : Hlp → Hlp) (s : State) : (modHlp f s).recovering = s.recovering := rfl
@[simp] theorem modHlp_boundary (f : Hlp → Hlp) (s : State) : (modHlp f s).boundary = s.boundary := rfl
@[simp] theorem modHlp_hlp (f : Hlp → Hlp) (s : State) : (modHlp f s).hlp = f s.hlp := rfl
@[simp] theorem modHlp_rcs (f : Hlp → Hlp) (s : State) : (modHlp f s).rcs = s.rcs := rfl
@[simp] theorem modHlp_fm (f : Hlp → Hlp) (s : State) : (modHlp f s).fm = s.fm := rfl
@[simp] theorem modHlp_tli (f : Hlp → Hlp) (s : State) : (modHlp f s).tli = s.tli := rfl
@[simp] theorem modHlp_cru (f : Hlp → Hlp) (s : State) : (modHlp f s).cru = s.cru := rfl
@[simp] theorem modHlp_lba (f : Hlp → Hlp) (s : State) : (modHlp f s).lba = s.lba := rfl
@[simp] theorem modHlp_rlc (f : Hlp → Hlp) (s : State) : (modHlp f s).rlc = s.rlc := rfl
@[simp] theorem modHlp_positions (f : Hlp → Hlp) (s : State) : (modHlp f s).positions = s.positions := rfl
@[simp] theorem modHlp_freeIndex (f : Hlp → Hlp) (s : State) : (modHlp f s).freeIndex = s.freeIndex := rfl

/-! ### setQueue -/

@[simp] theorem setQueue_pending (q : List QueueEntry) (s : State) : (setQueue q s).pending = s.pending := rfl
@[simp] theorem setQueue_supply (q : List QueueEntry) (s : State) : (setQueue q s).supply = s.supply := rfl
@[simp] theorem setQueue_resetHeld (q : List QueueEntry) (s : State) : (setQueue q s).resetHeld = s.resetHeld := rfl
@[simp] theorem setQueue_floodLevel (q : List QueueEntry) (s : State) :
    (setQueue q s).floodLevel = s.floodLevel := rfl
@[simp] theorem setQueue_stopLevel (q : List QueueEntry) (s : State) : (setQueue q s).stopLevel = s.stopLevel := rfl
@[simp] theorem setQueue_nv (q : List QueueEntry) (s : State) : (setQueue q s).nv = s.nv := rfl
@[simp] theorem setQueue_undo (q : List QueueEntry) (s : State) : (setQueue q s).undo = s.undo := rfl
@[simp] theorem setQueue_recovering (q : List QueueEntry) (s : State) :
    (setQueue q s).recovering = s.recovering := rfl
@[simp] theorem setQueue_boundary (q : List QueueEntry) (s : State) :
    (setQueue q s).boundary = s.boundary := rfl
@[simp] theorem setQueue_hlp (q : List QueueEntry) (s : State) : (setQueue q s).hlp = s.hlp := rfl
@[simp] theorem setQueue_rcs (q : List QueueEntry) (s : State) : (setQueue q s).rcs = s.rcs := rfl
@[simp] theorem setQueue_fm (q : List QueueEntry) (s : State) : (setQueue q s).fm = s.fm := rfl
@[simp] theorem setQueue_tli (q : List QueueEntry) (s : State) : (setQueue q s).tli = s.tli := rfl
@[simp] theorem setQueue_cru (q : List QueueEntry) (s : State) : (setQueue q s).cru = s.cru := rfl
@[simp] theorem setQueue_lba (q : List QueueEntry) (s : State) : (setQueue q s).lba = s.lba := rfl
@[simp] theorem setQueue_rlc (q : List QueueEntry) (s : State) : (setQueue q s).rlc = { s.rlc with queue := q } := rfl
@[simp] theorem setQueue_positions (q : List QueueEntry) (s : State) : (setQueue q s).positions = s.positions := rfl
@[simp] theorem setQueue_freeIndex (q : List QueueEntry) (s : State) : (setQueue q s).freeIndex = s.freeIndex := rfl

/-! ### setHeld -/

@[simp] theorem setHeld_pending (b : Block) (l : List Directive) (s : State) :
    (setHeld b l s).pending = s.pending := by cases b <;> rfl
@[simp] theorem setHeld_supply (b : Block) (l : List Directive) (s : State) :
    (setHeld b l s).supply = s.supply := by cases b <;> rfl
@[simp] theorem setHeld_resetHeld (b : Block) (l : List Directive) (s : State) :
    (setHeld b l s).resetHeld = s.resetHeld := by cases b <;> rfl
@[simp] theorem setHeld_floodLevel (b : Block) (l : List Directive) (s : State) :
    (setHeld b l s).floodLevel = s.floodLevel := by cases b <;> rfl
@[simp] theorem setHeld_stopLevel (b : Block) (l : List Directive) (s : State) :
    (setHeld b l s).stopLevel = s.stopLevel := by cases b <;> rfl
@[simp] theorem setHeld_nv (b : Block) (l : List Directive) (s : State) :
    (setHeld b l s).nv = s.nv := by cases b <;> rfl
@[simp] theorem setHeld_undo (b : Block) (l : List Directive) (s : State) :
    (setHeld b l s).undo = s.undo := by cases b <;> rfl
@[simp] theorem setHeld_recovering (b : Block) (l : List Directive) (s : State) :
    (setHeld b l s).recovering = s.recovering := by cases b <;> rfl
@[simp] theorem setHeld_boundary (b : Block) (l : List Directive) (s : State) :
    (setHeld b l s).boundary = s.boundary := by cases b <;> rfl
@[simp] theorem setHeld_hlp (b : Block) (l : List Directive) (s : State) :
    (setHeld b l s).hlp = s.hlp := by cases b <;> rfl
@[simp] theorem setHeld_rcs (b : Block) (l : List Directive) (s : State) :
    (setHeld b l s).rcs = s.rcs := by cases b <;> rfl
@[simp] theorem setHeld_fm (b : Block) (l : List Directive) (s : State) :
    (setHeld b l s).fm = s.fm := by cases b <;> rfl
@[simp] theorem setHeld_tli (b : Block) (l : List Directive) (s : State) :
    (setHeld b l s).tli = s.tli := by cases b <;> rfl
@[simp] theorem setHeld_cru (b : Block) (l : List Directive) (s : State) :
    (setHeld b l s).cru = s.cru := by cases b <;> rfl
@[simp] theorem setHeld_lba (b : Block) (l : List Directive) (s : State) :
    (setHeld b l s).lba = s.lba := by cases b <;> rfl
@[simp] theorem setHeld_positions (b : Block) (l : List Directive) (s : State) :
    (setHeld b l s).positions = s.positions := by cases b <;> rfl
@[simp] theorem setHeld_freeIndex (b : Block) (l : List Directive) (s : State) :
    (setHeld b l s).freeIndex = s.freeIndex := by cases b <;> rfl

/-! ### setWanted -/

@[simp] theorem setWanted_pending (l : List Wanted) (s : State) : (setWanted l s).pending = s.pending := rfl
@[simp] theorem setWanted_supply (l : List Wanted) (s : State) : (setWanted l s).supply = s.supply := rfl
@[simp] theorem setWanted_resetHeld (l : List Wanted) (s : State) : (setWanted l s).resetHeld = s.resetHeld := rfl
@[simp] theorem setWanted_floodLevel (l : List Wanted) (s : State) : (setWanted l s).floodLevel = s.floodLevel := rfl
@[simp] theorem setWanted_stopLevel (l : List Wanted) (s : State) : (setWanted l s).stopLevel = s.stopLevel := rfl
@[simp] theorem setWanted_nv (l : List Wanted) (s : State) : (setWanted l s).nv = s.nv := rfl
@[simp] theorem setWanted_undo (l : List Wanted) (s : State) : (setWanted l s).undo = s.undo := rfl
@[simp] theorem setWanted_recovering (l : List Wanted) (s : State) : (setWanted l s).recovering = s.recovering := rfl
@[simp] theorem setWanted_boundary (l : List Wanted) (s : State) : (setWanted l s).boundary = s.boundary := rfl
@[simp] theorem setWanted_hlp (l : List Wanted) (s : State) : (setWanted l s).hlp = s.hlp := rfl
@[simp] theorem setWanted_rcs (l : List Wanted) (s : State) : (setWanted l s).rcs = s.rcs := rfl
@[simp] theorem setWanted_fm (l : List Wanted) (s : State) : (setWanted l s).fm = s.fm := rfl
@[simp] theorem setWanted_tli (l : List Wanted) (s : State) : (setWanted l s).tli = s.tli := rfl
@[simp] theorem setWanted_cru (l : List Wanted) (s : State) : (setWanted l s).cru = { s.cru with wanted := l } := rfl
@[simp] theorem setWanted_lba (l : List Wanted) (s : State) : (setWanted l s).lba = s.lba := rfl
@[simp] theorem setWanted_rlc (l : List Wanted) (s : State) : (setWanted l s).rlc = s.rlc := rfl
@[simp] theorem setWanted_positions (l : List Wanted) (s : State) : (setWanted l s).positions = s.positions := rfl
@[simp] theorem setWanted_freeIndex (l : List Wanted) (s : State) : (setWanted l s).freeIndex = s.freeIndex := rfl

/-! ### setEntry -/

@[simp] theorem setEntry_pending (i : Fin 48) (a : Option Account) (s : State) :
    (setEntry i a s).pending = s.pending := rfl
@[simp] theorem setEntry_supply (i : Fin 48) (a : Option Account) (s : State) :
    (setEntry i a s).supply = s.supply := rfl
@[simp] theorem setEntry_resetHeld (i : Fin 48) (a : Option Account) (s : State) :
    (setEntry i a s).resetHeld = s.resetHeld := rfl
@[simp] theorem setEntry_floodLevel (i : Fin 48) (a : Option Account) (s : State) :
    (setEntry i a s).floodLevel = s.floodLevel := rfl
@[simp] theorem setEntry_stopLevel (i : Fin 48) (a : Option Account) (s : State) :
    (setEntry i a s).stopLevel = s.stopLevel := rfl
@[simp] theorem setEntry_nv (i : Fin 48) (a : Option Account) (s : State) : (setEntry i a s).nv = s.nv := rfl
@[simp] theorem setEntry_undo (i : Fin 48) (a : Option Account) (s : State) : (setEntry i a s).undo = s.undo := rfl
@[simp] theorem setEntry_recovering (i : Fin 48) (a : Option Account) (s : State) :
    (setEntry i a s).recovering = s.recovering := rfl
@[simp] theorem setEntry_boundary (i : Fin 48) (a : Option Account) (s : State) :
    (setEntry i a s).boundary = s.boundary := rfl
@[simp] theorem setEntry_hlp (i : Fin 48) (a : Option Account) (s : State) : (setEntry i a s).hlp = s.hlp := rfl
@[simp] theorem setEntry_rcs (i : Fin 48) (a : Option Account) (s : State) : (setEntry i a s).rcs = s.rcs := rfl
@[simp] theorem setEntry_fm (i : Fin 48) (a : Option Account) (s : State) : (setEntry i a s).fm = s.fm := rfl
@[simp] theorem setEntry_tli (i : Fin 48) (a : Option Account) (s : State) : (setEntry i a s).tli = s.tli := rfl
@[simp] theorem setEntry_cru (i : Fin 48) (a : Option Account) (s : State) :
    (setEntry i a s).cru = { s.cru with cache := s.cru.cache.set i a } := rfl
@[simp] theorem setEntry_lba (i : Fin 48) (a : Option Account) (s : State) : (setEntry i a s).lba = s.lba := rfl
@[simp] theorem setEntry_rlc (i : Fin 48) (a : Option Account) (s : State) : (setEntry i a s).rlc = s.rlc := rfl
@[simp] theorem setEntry_positions (i : Fin 48) (a : Option Account) (s : State) :
    (setEntry i a s).positions = s.positions := rfl
@[simp] theorem setEntry_freeIndex (i : Fin 48) (a : Option Account) (s : State) :
    (setEntry i a s).freeIndex = s.freeIndex := rfl

/-! ### setMode -/

@[simp] theorem setMode_pending (m : RoomMode) (s : State) : (setMode m s).pending = s.pending := rfl
@[simp] theorem setMode_supply (m : RoomMode) (s : State) : (setMode m s).supply = s.supply := rfl
@[simp] theorem setMode_resetHeld (m : RoomMode) (s : State) : (setMode m s).resetHeld = s.resetHeld := rfl
@[simp] theorem setMode_floodLevel (m : RoomMode) (s : State) : (setMode m s).floodLevel = s.floodLevel := rfl
@[simp] theorem setMode_stopLevel (m : RoomMode) (s : State) : (setMode m s).stopLevel = s.stopLevel := rfl
@[simp] theorem setMode_nv (m : RoomMode) (s : State) : (setMode m s).nv = s.nv := rfl
@[simp] theorem setMode_undo (m : RoomMode) (s : State) : (setMode m s).undo = s.undo := rfl
@[simp] theorem setMode_recovering (m : RoomMode) (s : State) : (setMode m s).recovering = s.recovering := rfl
@[simp] theorem setMode_boundary (m : RoomMode) (s : State) : (setMode m s).boundary = s.boundary := rfl
@[simp] theorem setMode_hlp (m : RoomMode) (s : State) : (setMode m s).hlp = s.hlp := rfl
@[simp] theorem setMode_rcs (m : RoomMode) (s : State) : (setMode m s).rcs = { s.rcs with mode := m } := rfl
@[simp] theorem setMode_fm (m : RoomMode) (s : State) : (setMode m s).fm = s.fm := rfl
@[simp] theorem setMode_tli (m : RoomMode) (s : State) : (setMode m s).tli = s.tli := rfl
@[simp] theorem setMode_cru (m : RoomMode) (s : State) : (setMode m s).cru = s.cru := rfl
@[simp] theorem setMode_lba (m : RoomMode) (s : State) : (setMode m s).lba = s.lba := rfl
@[simp] theorem setMode_rlc (m : RoomMode) (s : State) : (setMode m s).rlc = s.rlc := rfl
@[simp] theorem setMode_positions (m : RoomMode) (s : State) : (setMode m s).positions = s.positions := rfl
@[simp] theorem setMode_freeIndex (m : RoomMode) (s : State) : (setMode m s).freeIndex = s.freeIndex := rfl

/-! ### modLine -/

@[simp] theorem modLine_pending (t : Terminal) (f : TerminalLine → TerminalLine) (s : State) :
    (modLine t f s).pending = s.pending := by cases t <;> rfl
@[simp] theorem modLine_supply (t : Terminal) (f : TerminalLine → TerminalLine) (s : State) :
    (modLine t f s).supply = s.supply := by cases t <;> rfl
@[simp] theorem modLine_resetHeld (t : Terminal) (f : TerminalLine → TerminalLine) (s : State) :
    (modLine t f s).resetHeld = s.resetHeld := by cases t <;> rfl
@[simp] theorem modLine_floodLevel (t : Terminal) (f : TerminalLine → TerminalLine) (s : State) :
    (modLine t f s).floodLevel = s.floodLevel := by cases t <;> rfl
@[simp] theorem modLine_stopLevel (t : Terminal) (f : TerminalLine → TerminalLine) (s : State) :
    (modLine t f s).stopLevel = s.stopLevel := by cases t <;> rfl
@[simp] theorem modLine_nv (t : Terminal) (f : TerminalLine → TerminalLine) (s : State) :
    (modLine t f s).nv = s.nv := by cases t <;> rfl
@[simp] theorem modLine_undo (t : Terminal) (f : TerminalLine → TerminalLine) (s : State) :
    (modLine t f s).undo = s.undo := by cases t <;> rfl
@[simp] theorem modLine_recovering (t : Terminal) (f : TerminalLine → TerminalLine) (s : State) :
    (modLine t f s).recovering = s.recovering := by cases t <;> rfl
@[simp] theorem modLine_boundary (t : Terminal) (f : TerminalLine → TerminalLine) (s : State) :
    (modLine t f s).boundary = s.boundary := by cases t <;> rfl
@[simp] theorem modLine_hlp (t : Terminal) (f : TerminalLine → TerminalLine) (s : State) :
    (modLine t f s).hlp = s.hlp := by cases t <;> rfl
@[simp] theorem modLine_rcs (t : Terminal) (f : TerminalLine → TerminalLine) (s : State) :
    (modLine t f s).rcs = s.rcs := by cases t <;> rfl
@[simp] theorem modLine_fm (t : Terminal) (f : TerminalLine → TerminalLine) (s : State) :
    (modLine t f s).fm = s.fm := by cases t <;> rfl
@[simp] theorem modLine_cru (t : Terminal) (f : TerminalLine → TerminalLine) (s : State) :
    (modLine t f s).cru = s.cru := by cases t <;> rfl
@[simp] theorem modLine_lba (t : Terminal) (f : TerminalLine → TerminalLine) (s : State) :
    (modLine t f s).lba = s.lba := by cases t <;> rfl
@[simp] theorem modLine_rlc (t : Terminal) (f : TerminalLine → TerminalLine) (s : State) :
    (modLine t f s).rlc = s.rlc := by cases t <;> rfl
@[simp] theorem modLine_positions (t : Terminal) (f : TerminalLine → TerminalLine) (s : State) :
    (modLine t f s).positions = s.positions := by cases t <;> rfl
@[simp] theorem modLine_freeIndex (t : Terminal) (f : TerminalLine → TerminalLine) (s : State) :
    (modLine t f s).freeIndex = s.freeIndex := by cases t <;> rfl

/-! ### beginTaking -/

@[simp] theorem beginTaking_pending (s : State) : (beginTaking s).pending = s.pending := rfl
@[simp] theorem beginTaking_supply (s : State) : (beginTaking s).supply = s.supply := rfl
@[simp] theorem beginTaking_resetHeld (s : State) : (beginTaking s).resetHeld = s.resetHeld := rfl
@[simp] theorem beginTaking_floodLevel (s : State) : (beginTaking s).floodLevel = s.floodLevel := rfl
@[simp] theorem beginTaking_stopLevel (s : State) : (beginTaking s).stopLevel = s.stopLevel := rfl
@[simp] theorem beginTaking_nv (s : State) : (beginTaking s).nv = s.nv := rfl
@[simp] theorem beginTaking_undo (s : State) : (beginTaking s).undo = [] := rfl
@[simp] theorem beginTaking_recovering (s : State) : (beginTaking s).recovering = false := rfl
@[simp] theorem beginTaking_boundary (s : State) : (beginTaking s).boundary = false := rfl
@[simp] theorem beginTaking_hlp (s : State) : (beginTaking s).hlp = s.hlp := rfl
@[simp] theorem beginTaking_rcs (s : State) : (beginTaking s).rcs = s.rcs := rfl
@[simp] theorem beginTaking_fm (s : State) : (beginTaking s).fm = s.fm := rfl
@[simp] theorem beginTaking_tli (s : State) : (beginTaking s).tli = s.tli := rfl
@[simp] theorem beginTaking_cru (s : State) : (beginTaking s).cru = s.cru := rfl
@[simp] theorem beginTaking_lba (s : State) : (beginTaking s).lba = s.lba := rfl
@[simp] theorem beginTaking_rlc (s : State) : (beginTaking s).rlc = s.rlc := rfl
@[simp] theorem beginTaking_positions (s : State) : (beginTaking s).positions = s.positions := rfl
@[simp] theorem beginTaking_freeIndex (s : State) : (beginTaking s).freeIndex = s.freeIndex := rfl

/-! ### setOccupancy -/

@[simp] theorem setOccupancy_pending (p : Pos) (o : Occupancy) (s : State) :
    (setOccupancy p o s).pending = s.pending := rfl
@[simp] theorem setOccupancy_supply (p : Pos) (o : Occupancy) (s : State) :
    (setOccupancy p o s).supply = s.supply := rfl
@[simp] theorem setOccupancy_resetHeld (p : Pos) (o : Occupancy) (s : State) :
    (setOccupancy p o s).resetHeld = s.resetHeld := rfl
@[simp] theorem setOccupancy_floodLevel (p : Pos) (o : Occupancy) (s : State) :
    (setOccupancy p o s).floodLevel = s.floodLevel := rfl
@[simp] theorem setOccupancy_stopLevel (p : Pos) (o : Occupancy) (s : State) :
    (setOccupancy p o s).stopLevel = s.stopLevel := rfl
@[simp] theorem setOccupancy_nv (p : Pos) (o : Occupancy) (s : State) : (setOccupancy p o s).nv = s.nv := rfl
@[simp] theorem setOccupancy_undo (p : Pos) (o : Occupancy) (s : State) : (setOccupancy p o s).undo = s.undo := rfl
@[simp] theorem setOccupancy_recovering (p : Pos) (o : Occupancy) (s : State) :
    (setOccupancy p o s).recovering = s.recovering := rfl
@[simp] theorem setOccupancy_boundary (p : Pos) (o : Occupancy) (s : State) :
    (setOccupancy p o s).boundary = s.boundary := rfl
@[simp] theorem setOccupancy_hlp (p : Pos) (o : Occupancy) (s : State) : (setOccupancy p o s).hlp = s.hlp := rfl
@[simp] theorem setOccupancy_rcs (p : Pos) (o : Occupancy) (s : State) : (setOccupancy p o s).rcs = s.rcs := rfl
@[simp] theorem setOccupancy_fm (p : Pos) (o : Occupancy) (s : State) : (setOccupancy p o s).fm = s.fm := rfl
@[simp] theorem setOccupancy_tli (p : Pos) (o : Occupancy) (s : State) : (setOccupancy p o s).tli = s.tli := rfl
@[simp] theorem setOccupancy_cru (p : Pos) (o : Occupancy) (s : State) : (setOccupancy p o s).cru = s.cru := rfl
@[simp] theorem setOccupancy_lba (p : Pos) (o : Occupancy) (s : State) : (setOccupancy p o s).lba = s.lba := rfl
@[simp] theorem setOccupancy_rlc (p : Pos) (o : Occupancy) (s : State) : (setOccupancy p o s).rlc = s.rlc := rfl
@[simp] theorem setOccupancy_positions (p : Pos) (o : Occupancy) (s : State) :
    (setOccupancy p o s).positions = s.positions.set p { posAt s p with occupancy := o } := rfl
@[simp] theorem setOccupancy_freeIndex (p : Pos) (o : Occupancy) (s : State) :
    (setOccupancy p o s).freeIndex = s.freeIndex := rfl

/-! ### setReservation -/

@[simp] theorem setReservation_pending (p : Pos) (lu wu : Nat) (shed : Bool) (s : State) :
    (setReservation p lu wu shed s).pending = s.pending := rfl
@[simp] theorem setReservation_supply (p : Pos) (lu wu : Nat) (shed : Bool) (s : State) :
    (setReservation p lu wu shed s).supply = s.supply := rfl
@[simp] theorem setReservation_resetHeld (p : Pos) (lu wu : Nat) (shed : Bool) (s : State) :
    (setReservation p lu wu shed s).resetHeld = s.resetHeld := rfl
@[simp] theorem setReservation_floodLevel (p : Pos) (lu wu : Nat) (shed : Bool) (s : State) :
    (setReservation p lu wu shed s).floodLevel = s.floodLevel := rfl
@[simp] theorem setReservation_stopLevel (p : Pos) (lu wu : Nat) (shed : Bool) (s : State) :
    (setReservation p lu wu shed s).stopLevel = s.stopLevel := rfl
@[simp] theorem setReservation_nv (p : Pos) (lu wu : Nat) (shed : Bool) (s : State) :
    (setReservation p lu wu shed s).nv = s.nv := rfl
@[simp] theorem setReservation_undo (p : Pos) (lu wu : Nat) (shed : Bool) (s : State) :
    (setReservation p lu wu shed s).undo = s.undo := rfl
@[simp] theorem setReservation_recovering (p : Pos) (lu wu : Nat) (shed : Bool) (s : State) :
    (setReservation p lu wu shed s).recovering = s.recovering := rfl
@[simp] theorem setReservation_boundary (p : Pos) (lu wu : Nat) (shed : Bool) (s : State) :
    (setReservation p lu wu shed s).boundary = s.boundary := rfl
@[simp] theorem setReservation_hlp (p : Pos) (lu wu : Nat) (shed : Bool) (s : State) :
    (setReservation p lu wu shed s).hlp = s.hlp := rfl
@[simp] theorem setReservation_rcs (p : Pos) (lu wu : Nat) (shed : Bool) (s : State) :
    (setReservation p lu wu shed s).rcs = s.rcs := rfl
@[simp] theorem setReservation_fm (p : Pos) (lu wu : Nat) (shed : Bool) (s : State) :
    (setReservation p lu wu shed s).fm = s.fm := rfl
@[simp] theorem setReservation_tli (p : Pos) (lu wu : Nat) (shed : Bool) (s : State) :
    (setReservation p lu wu shed s).tli = s.tli := rfl
@[simp] theorem setReservation_cru (p : Pos) (lu wu : Nat) (shed : Bool) (s : State) :
    (setReservation p lu wu shed s).cru = s.cru := rfl
@[simp] theorem setReservation_lba (p : Pos) (lu wu : Nat) (shed : Bool) (s : State) :
    (setReservation p lu wu shed s).lba = s.lba := rfl
@[simp] theorem setReservation_rlc (p : Pos) (lu wu : Nat) (shed : Bool) (s : State) :
    (setReservation p lu wu shed s).rlc = s.rlc := rfl
@[simp] theorem setReservation_positions (p : Pos) (lu wu : Nat) (shed : Bool) (s : State) :
    (setReservation p lu wu shed s).positions = s.positions.set p { posAt s p with lu := lu, wu := wu, shed := shed } := rfl
@[simp] theorem setReservation_freeIndex (p : Pos) (lu wu : Nat) (shed : Bool) (s : State) :
    (setReservation p lu wu shed s).freeIndex = s.freeIndex := rfl

/-! ### settlingEvent -/

@[simp] theorem settlingEvent_pending (p : Pos) (s : State) : (settlingEvent p s).pending = s.pending := rfl
@[simp] theorem settlingEvent_supply (p : Pos) (s : State) : (settlingEvent p s).supply = s.supply := rfl
@[simp] theorem settlingEvent_resetHeld (p : Pos) (s : State) : (settlingEvent p s).resetHeld = s.resetHeld := rfl
@[simp] theorem settlingEvent_floodLevel (p : Pos) (s : State) : (settlingEvent p s).floodLevel = s.floodLevel := rfl
@[simp] theorem settlingEvent_stopLevel (p : Pos) (s : State) : (settlingEvent p s).stopLevel = s.stopLevel := rfl
@[simp] theorem settlingEvent_nv (p : Pos) (s : State) : (settlingEvent p s).nv = s.nv := rfl
@[simp] theorem settlingEvent_undo (p : Pos) (s : State) : (settlingEvent p s).undo = s.undo := rfl
@[simp] theorem settlingEvent_recovering (p : Pos) (s : State) : (settlingEvent p s).recovering = s.recovering := rfl
@[simp] theorem settlingEvent_boundary (p : Pos) (s : State) : (settlingEvent p s).boundary = s.boundary := rfl
@[simp] theorem settlingEvent_hlp (p : Pos) (s : State) : (settlingEvent p s).hlp = s.hlp := rfl
@[simp] theorem settlingEvent_rcs (p : Pos) (s : State) : (settlingEvent p s).rcs = s.rcs := rfl
@[simp] theorem settlingEvent_fm (p : Pos) (s : State) : (settlingEvent p s).fm = s.fm := rfl
@[simp] theorem settlingEvent_tli (p : Pos) (s : State) : (settlingEvent p s).tli = s.tli := rfl
@[simp] theorem settlingEvent_cru (p : Pos) (s : State) : (settlingEvent p s).cru = s.cru := rfl
@[simp] theorem settlingEvent_lba (p : Pos) (s : State) : (settlingEvent p s).lba = s.lba := rfl
@[simp] theorem settlingEvent_rlc (p : Pos) (s : State) : (settlingEvent p s).rlc = s.rlc := rfl
@[simp] theorem settlingEvent_positions (p : Pos) (s : State) :
    (settlingEvent p s).positions = s.positions.set p { posAt s p with settle := 0 } := rfl
@[simp] theorem settlingEvent_freeIndex (p : Pos) (s : State) : (settlingEvent p s).freeIndex = s.freeIndex := rfl

end Sys2Proof.Machine
end

