-- ==== Sys2Proof/Laws/Taking.lean ====
section
/-!
SUPPORT. The shared operations every meaning goes through: positions and loops over them, a whole taking and its close,
and a host request that is served at once.
-/
namespace Sys2Proof.Machine

/-! ### Positions -/

@[simp] theorem posAt_modPos_self (p : Pos) (f : Position → Position) (s : State) :
    posAt (modPos p f s) p = f (posAt s p) := by
  simp [posAt, modPos]

theorem posAt_modPos_ne {p q : Pos} (h : q ≠ p) (f : Position → Position) (s : State) :
    posAt (modPos p f s) q = posAt s q := by
  have h' : p.val ≠ q.val := fun e => h (Fin.ext e.symm)
  simp [posAt, modPos, Vector.getElem_set_ne _ _ h']

theorem posAt_modPos (p q : Pos) (f : Position → Position) (s : State) :
    posAt (modPos p f s) q = if q = p then f (posAt s p) else posAt s q := by
  by_cases h : q = p
  · subst h; simp
  · simp [h, posAt_modPos_ne h]

/-- Two states with the same positions have the same position at every index. -/
theorem posAt_congr {s t : State} (h : t.positions = s.positions) (p : Pos) : posAt t p = posAt s p := by
  simp [posAt, h]

/-- Positions that agree everywhere are equal. -/
theorem positions_ext {s t : State} (h : ∀ p, posAt t p = posAt s p) : t.positions = s.positions := by
  apply Vector.ext
  intro i hi
  exact h ⟨i, hi⟩

theorem mem_allPositions (p : Pos) : p ∈ allPositions := by
  revert p; decide

theorem allPositions_nodup : allPositions.Nodup := by decide

/-! ### Loops over positions -/

@[simp] theorem forPositions_nil (act : Pos → State → State) (s : State) : forPositions [] act s = s := rfl

@[simp] theorem forPositions_cons (p : Pos) (ps : List Pos) (act : Pos → State → State) (s : State) :
    forPositions (p :: ps) act s = forPositions ps act (act p s) := rfl

/-- What every turn of a loop keeps, the loop keeps. -/
theorem forPositions_induct {P : State → Prop} (ps : List Pos) (act : Pos → State → State)
    (h : ∀ p ∈ ps, ∀ s, P s → P (act p s)) (s : State) (hs : P s) : P (forPositions ps act s) := by
  induction ps generalizing s with
  | nil => exact hs
  | cons p ps ih =>
    exact ih (fun q hq => h q (List.mem_cons_of_mem p hq)) _ (h p List.mem_cons_self s hs)

/-- A preorder that every turn of a loop respects, the loop respects. -/
theorem forPositions_rel {R : State → State → Prop} (refl : ∀ s, R s s)
    (trans : ∀ s t u, R s t → R t u → R s u) (ps : List Pos) (act : Pos → State → State)
    (h : ∀ p s, R s (act p s)) (s : State) : R s (forPositions ps act s) := by
  induction ps generalizing s with
  | nil => exact refl s
  | cons p ps ih => exact trans _ _ _ (h p s) (ih (act p s))

/-- A loop whose turns do nothing does nothing. -/
theorem forPositions_id (ps : List Pos) (act : Pos → State → State) (s : State) (h : ∀ p ∈ ps, act p s = s) :
    forPositions ps act s = s := by
  induction ps with
  | nil => rfl
  | cons p ps ih =>
    rw [forPositions_cons, h p List.mem_cons_self]
    exact ih fun q hq => h q (List.mem_cons_of_mem p hq)

/-- A loop that changes each position by itself: every position of the list is changed once. -/
theorem posAt_forPositions_modPos (ps : List Pos) (hn : ps.Nodup) (f : Pos → Position → Position) (s : State)
    (q : Pos) : posAt (forPositions ps (fun p => modPos p (f p)) s) q =
      if q ∈ ps then f q (posAt s q) else posAt s q := by
  induction ps generalizing s with
  | nil => simp
  | cons p ps ih =>
    rw [forPositions_cons, ih (List.nodup_cons.mp hn).2, posAt_modPos]
    by_cases h : q = p
    · subst h; simp [(List.nodup_cons.mp hn).1]
    · simp [h]

/-! ### A taking -/

theorem evaluateIfDue_of_not {s : State} (h : s.lba.evalDue = false) : evaluateIfDue s = s := by
  simp [evaluateIfDue, h]

theorem drainLost_of_nil {s : State} (h : s.rlc.lost = []) (n : Nat) : drainLost n s = s := by
  cases n <;> simp [drainLost, h, leastPos]

/-- A taking that owes nothing closes as it stands. -/
theorem closeTaking_of_rest {s : State} (h : AtRest s) : closeTaking s = s := by
  simp [closeTaking, evaluateIfDue_of_not h.1, drainLost_of_nil h.2]

theorem taking_of_takes {s : State} (h : takes s = true) (act : State → State) :
    taking act s = closeTaking (act (beginTaking s)) := by simp [taking, h]

theorem taking_of_not {s : State} (h : takes s = false) (act : State → State) : taking act s = beginTaking s := by
  simp [taking, h]

/-- A taking whose effect owes nothing is that effect. -/
theorem taking_of_rest {s : State} (h : takes s = true) (act : State → State) (hr : AtRest (act (beginTaking s))) :
    taking act s = act (beginTaking s) := by
  rw [taking_of_takes h, closeTaking_of_rest hr]

theorem atRest_beginTaking {s : State} : AtRest (beginTaking s) ↔ AtRest s := Iff.rfl

/-- Rest is kept by every change that leaves the two debts alone. -/
theorem AtRest.of_eq {s t : State} (h : AtRest s) (hl : t.lba = s.lba) (hr : t.rlc = s.rlc) : AtRest t := by
  unfold AtRest; rw [hl, hr]; exact h

/-! ### A request served in its own taking -/

/-- A request that arrives while none is served is taken, and its reply put together (R172). -/
theorem exec_requestRow (r : Request) (s : State) :
    exec (requestRow r) s = .next (taking (arrive (.good r)) s) := by
  cases r <;> rfl

theorem arrive_of_none {s : State} (h : s.hlp.served = none) (r : HostRequest) : arrive r s = serve r s := by
  simp [arrive, h]

theorem serve_good (r : Request) (s : State) :
    serve (.good r) s = { (takeRequest r s).1 with hlp := servedWith r (takeRequest r s).2 (takeRequest r s).1.hlp } :=
  rfl

/-- A request whose taking leaves `t` at rest with a reply answers so. -/
theorem answers_of_take {r : Request} {s t : State} {reply : Reply} (hs : Serving s)
    (h : takeRequest r (beginTaking s) = (t, reply)) (hr : AtRest t) : Answers r s t reply := by
  unfold Answers
  rw [exec_requestRow, taking_of_takes hs.1.1, arrive_of_none (by simpa using hs.2), serve_good, h]
  rw [closeTaking_of_rest]
  exact hr.of_eq rfl rfl

/-- A request that is refused answers so. -/
theorem refuses_of_take {r : Request} {s : State} {code : ErrorCode} (hs : Serving s)
    (h : takeRequest r (beginTaking s) = (beginTaking s, .error code)) : Refuses r s code :=
  answers_of_take hs h (atRest_beginTaking.mpr hs.1.2)

/-! ### Recovery of slots (R167) -/

@[simp] theorem emptySlot_nv (p : Pos) (ses : Session) (s : State) :
    (emptySlot p ses s).nv = { s.nv with slots := s.nv.slots.set p none } := rfl

/-- A slot whose session the newest record names is emptied without a record; any other slot is left for its turn. -/
theorem clearRecorded_does (p : Pos) (s : State) :
    clearRecorded p s = s ∨ ∃ ses, s.nv.slots[p] = some ses ∧ alreadyRecorded s.nv p ses = true
      ∧ clearRecorded p s = emptySlot p ses s := by
  unfold clearRecorded
  split
  · next ses h =>
    split
    · next r => exact .inr ⟨ses, h, r, rfl⟩
    · exact .inl rfl
  · exact .inl rfl

theorem clearRecorded_journal (p : Pos) (s : State) : (clearRecorded p s).nv.journal = s.nv.journal := by
  rcases clearRecorded_does p s with h | ⟨ses, _, _, h⟩ <;> rw [h]
  rfl

end Sys2Proof.Machine
end

