-- ==== Sys2Proof/Laws/Directives.lean ====
section
/-!
SUPPORT. What an operation on directives can do: two preorders, said once for each operation. `QueueOnly` is the frame;
`Uses k` says that at most `k` directives join each held-back list, so that none is lost while there is room.
-/
namespace Sys2Proof.Machine

/-! ### The two preorders -/

/-- Only RLC's queue, the held-back lists and the settled counts change. -/
def QueueOnly (s t : State) : Prop :=
  t = { s with rlc := t.rlc, positions := t.positions }
    ∧ t.rlc = { s.rlc with
        queue := t.rlc.queue, heldSm := t.rlc.heldSm, heldLba := t.rlc.heldLba, heldFm := t.rlc.heldFm,
        heldRlc := t.rlc.heldRlc, lost := t.rlc.lost }
    ∧ ∀ p, posAt t p = { posAt s p with settle := (posAt t p).settle }

/-- Every held-back list has room for `n` more directives. -/
def RoomFor (n : Nat) (s : State) : Prop := ∀ b, (heldOf b s).length + n ≤ 64

/-- At most `k` directives join each held-back list, and none is lost while each has room for `k`. -/
def Uses (k : Nat) (s t : State) : Prop :=
  ∀ n, RoomFor (n + k) s → RoomFor n t ∧ t.rlc.lost = s.rlc.lost

theorem QueueOnly.refl (s : State) : QueueOnly s s := ⟨rfl, rfl, fun _ => rfl⟩

theorem QueueOnly.trans {s t u : State} (h : QueueOnly s t) (k : QueueOnly t u) : QueueOnly s u := by
  refine ⟨?_, ?_, fun p => ?_⟩
  · rw [k.1, h.1]
  · rw [k.2.1, h.2.1]
  · rw [k.2.2 p, h.2.2 p]

theorem RoomFor.mono {m n : Nat} {s : State} (h : RoomFor n s) (le : m ≤ n) : RoomFor m s := fun b => by
  have := h b; omega

theorem RoomFor.congr {n : Nat} {s t : State} (h : RoomFor n s) (hr : t.rlc = s.rlc) : RoomFor n t := fun b => by
  have := h b
  cases b <;> simpa [heldOf, hr] using this

theorem Uses.refl (k : Nat) (s : State) : Uses k s s := fun _ h => ⟨h.mono (by omega), rfl⟩

theorem Uses.of_rlc (k : Nat) {s t : State} (hr : t.rlc = s.rlc) : Uses k s t := fun _ h =>
  ⟨(h.mono (by omega)).congr hr, by rw [hr]⟩

theorem Uses.trans {j k : Nat} {s t u : State} (h : Uses j s t) (g : Uses k t u) : Uses (j + k) s u := fun n r => by
  obtain ⟨rt, lt⟩ := h (n + k) (r.mono (by omega))
  obtain ⟨ru, lu⟩ := g n rt
  exact ⟨ru, lu.trans lt⟩

theorem Uses.mono {j k : Nat} {s t : State} (h : Uses j s t) (le : j ≤ k) : Uses k s t := fun n r =>
  h n (r.mono (by omega))

/-- An operation that shortens every held-back list uses no room. -/
theorem Uses.of_le {s t : State} (h : ∀ b, (heldOf b t).length ≤ (heldOf b s).length)
    (hl : t.rlc.lost = s.rlc.lost) : Uses 0 s t := fun n r =>
  ⟨fun b => by have := r b; have := h b; omega, hl⟩

/-- A loop whose turns use `k` uses `k` for each turn. -/
theorem Uses.forPositions {k : Nat} (ps : List Pos) (act : Pos → State → State)
    (h : ∀ p s, Uses k s (act p s)) (s : State) : Uses (ps.length * k) s (forPositions ps act s) := by
  induction ps generalizing s with
  | nil => exact Uses.refl _ s
  | cons p ps ih =>
    exact ((h p s).trans (ih (act p s))).mono (by simp [Nat.add_mul]; omega)

/-! ### The primitives -/

@[simp] theorem heldOf_setHeld (b c : Block) (l : List Directive) (s : State) :
    heldOf c (setHeld b l s) = if c = b then l else heldOf c s := by cases b <;> cases c <;> rfl

@[simp] theorem heldOf_setQueue (q : List QueueEntry) (c : Block) (s : State) :
    heldOf c (setQueue q s) = heldOf c s := by cases c <;> rfl

@[simp] theorem heldOf_modPos (p : Pos) (f : Position → Position) (c : Block) (s : State) :
    heldOf c (modPos p f s) = heldOf c s := by cases c <;> rfl

@[simp] theorem lost_setHeld (b : Block) (l : List Directive) (s : State) :
    (setHeld b l s).rlc.lost = s.rlc.lost := by cases b <;> rfl

@[simp] theorem queue_setHeld (b : Block) (l : List Directive) (s : State) :
    (setHeld b l s).rlc.queue = s.rlc.queue := by cases b <;> rfl

theorem queueOnly_setQueue (q : List QueueEntry) (s : State) : QueueOnly s (setQueue q s) :=
  ⟨rfl, rfl, fun _ => rfl⟩

theorem queueOnly_setHeld (b : Block) (l : List Directive) (s : State) : QueueOnly s (setHeld b l s) := by
  cases b <;> exact ⟨rfl, rfl, fun _ => rfl⟩

theorem queueOnly_settlingEvent (p : Pos) (s : State) : QueueOnly s (settlingEvent p s) := by
  refine ⟨rfl, rfl, fun q => ?_⟩
  by_cases h : q = p
  · subst h; simp [settlingEvent]
  · simp [settlingEvent, posAt_modPos_ne h]

theorem uses_settlingEvent (p : Pos) (s : State) : Uses 0 s (settlingEvent p s) := Uses.of_rlc 0 rfl

theorem queueOnly_settlingEvents (ps : List Pos) (s : State) : QueueOnly s (forPositions ps settlingEvent s) :=
  forPositions_rel QueueOnly.refl (fun _ _ _ => QueueOnly.trans) ps settlingEvent queueOnly_settlingEvent s

theorem rlc_settlingEvents (ps : List Pos) (s : State) : (forPositions ps settlingEvent s).rlc = s.rlc :=
  forPositions_induct (P := fun t => t.rlc = s.rlc) ps settlingEvent (fun _ _ _ h => h) s rfl

/-! ### Joining -/

theorem queueOnly_joinQueue (d : Directive) (s : State) : QueueOnly s (joinQueue d s) := queueOnly_setQueue _ s

theorem uses_joinQueue (d : Directive) (s : State) : Uses 0 s (joinQueue d s) :=
  Uses.of_le (fun b => by simp [joinQueue]) rfl

theorem queueOnly_loseDirective (d : Directive) (s : State) : QueueOnly s (loseDirective d s) := by
  have h : QueueOnly s (modRlc (fun r => { r with lost := r.lost ++ [d.pos] }) s) := ⟨rfl, rfl, fun _ => rfl⟩
  unfold loseDirective
  simp only
  split
  · exact h.trans (queueOnly_settlingEvent _ _)
  · exact h

theorem rlc_loseDirective (d : Directive) (s : State) :
    (loseDirective d s).rlc = { s.rlc with lost := s.rlc.lost ++ [d.pos] } := by
  unfold loseDirective
  simp only
  split <;> rfl

theorem heldOf_loseDirective (b : Block) (d : Directive) (s : State) :
    heldOf b (loseDirective d s) = heldOf b s := by
  cases b <;> simp [heldOf, rlc_loseDirective]

theorem posAt_loseDirective_ne {p : Pos} {d : Directive} (h : p ≠ d.pos) (s : State) :
    posAt (loseDirective d s) p = posAt s p := by
  unfold loseDirective
  simp only
  split
  · exact posAt_modPos_ne h _ _
  · rfl

theorem queueOnly_holdBack (b : Block) (d : Directive) (s : State) : QueueOnly s (holdBack b d s) := by
  unfold holdBack
  split
  · exact queueOnly_setHeld b _ s
  · split
    · exact QueueOnly.refl s
    · exact queueOnly_loseDirective d s

theorem uses_holdBack (b : Block) (d : Directive) (s : State) : Uses 1 s (holdBack b d s) := fun n r => by
  have hb := r b
  have hlt : (heldOf b s).length < 64 := by omega
  simp only [holdBack, hlt, ite_true]
  refine ⟨fun c => ?_, by simp⟩
  have hc := r c
  by_cases e : c = b
  · subst e; simp; omega
  · simp [e]; omega

/-- An offer joins the queue or a held-back list, and does nothing else (R115). -/
theorem queueOnly_offer (b : Block) (d : Directive) (s : State) : QueueOnly s (offer b d s) := by
  unfold offer
  split
  · exact queueOnly_holdBack b d s
  · exact queueOnly_joinQueue d s

theorem uses_offer (b : Block) (d : Directive) (s : State) : Uses 1 s (offer b d s) := by
  unfold offer
  split
  · exact uses_holdBack b d s
  · exact (uses_joinQueue d s).mono (by omega)

/-! ### Leaving -/

theorem queueOnly_discardHeld (b : Block) (test : Directive → Bool) (s : State) :
    QueueOnly s (discardHeld b test s) := (queueOnly_setHeld b _ s).trans (queueOnly_settlingEvents _ _)

/-- A discard takes the directives that satisfy the test off one list (R96). -/
theorem heldOf_discardHeld (b c : Block) (test : Directive → Bool) (s : State) :
    heldOf c (discardHeld b test s) =
      if c = b then (heldOf b s).filter (fun d => !test d) else heldOf c s := by
  have h : ∀ ps t, heldOf c (forPositions ps settlingEvent t) = heldOf c t := fun ps t => by
    cases c <;> simp [heldOf, rlc_settlingEvents]
  simp only [discardHeld, h, heldOf_setHeld]

theorem uses_discardHeld (b : Block) (test : Directive → Bool) (s : State) : Uses 0 s (discardHeld b test s) := by
  refine Uses.of_le (fun c => ?_) ?_
  · rw [heldOf_discardHeld]
    split
    · next e => subst e; exact List.length_filter_le _ _
    · exact Nat.le_refl _
  · simp [discardHeld, rlc_settlingEvents]

theorem queueOnly_withdrawQueued (test : Directive → Bool) (s : State) : QueueOnly s (withdrawQueued test s) :=
  (queueOnly_setQueue _ s).trans (queueOnly_settlingEvents _ _)

/-- A withdrawal takes the entries not yet carried off the queue, and marks the others withdrawn (R119). -/
theorem queue_withdrawQueued (test : Directive → Bool) (s : State) :
    (withdrawQueued test s).rlc.queue = s.rlc.queue.filterMap fun e =>
      if test e.dir then (if e.seq.isNone then none else some { e with withdrawn := true }) else some e := by
  simp [withdrawQueued, rlc_settlingEvents]

theorem uses_withdrawQueued (test : Directive → Bool) (s : State) : Uses 0 s (withdrawQueued test s) := by
  refine Uses.of_le (fun c => ?_) ?_
  · apply Nat.le_of_eq; cases c <;> simp [withdrawQueued, heldOf, rlc_settlingEvents]
  · simp [withdrawQueued, rlc_settlingEvents]

theorem queueOnly_withdrawStart (p : Pos) (s : State) : QueueOnly s (withdrawStart p s) :=
  (queueOnly_discardHeld _ _ s).trans (queueOnly_withdrawQueued _ _)

theorem uses_withdrawStart (p : Pos) (s : State) : Uses 0 s (withdrawStart p s) :=
  (uses_discardHeld _ _ s).trans (uses_withdrawQueued _ _)

/-! ### What the blocks queue -/

theorem queueOnly_queueStop (p : Pos) (tag : Byte) (s : State) : QueueOnly s (queueStop p tag s) :=
  queueOnly_offer _ _ s

theorem uses_queueStop (p : Pos) (tag : Byte) (s : State) : Uses 1 s (queueStop p tag s) := uses_offer _ _ s

/-- A STOP that is offered stands afterwards, in the queue or held back, while SM's list has room (R115). -/
theorem stopStands_queueStop (p : Pos) (tag : Byte) (s : State) (h : (heldOf .sm s).length < 64) :
    stopStands p tag (queueStop p tag s) = true := by
  unfold queueStop offer
  split
  · simp only [heldOf] at h
    simp [holdBack, heldOf, h, setHeld, stopStands]
  · simp [joinQueue, setQueue, stopStands, inQueue]

theorem queueOnly_queueStrayStop (p : Pos) (tag : Byte) (s : State) : QueueOnly s (queueStrayStop p tag s) := by
  unfold queueStrayStop
  split
  · exact QueueOnly.refl s
  · exact queueOnly_queueStop p tag s

theorem uses_queueStrayStop (p : Pos) (tag : Byte) (s : State) : Uses 1 s (queueStrayStop p tag s) := by
  unfold queueStrayStop
  split
  · exact Uses.refl 1 s
  · exact uses_queueStop p tag s

theorem queueOnly_queueHaltWater (p : Pos) (s : State) : QueueOnly s (queueHaltWater p s) := by
  unfold queueHaltWater
  split
  · exact QueueOnly.refl s
  · exact queueOnly_offer _ _ s

theorem uses_queueHaltWater (p : Pos) (s : State) : Uses 1 s (queueHaltWater p s) := by
  unfold queueHaltWater
  split
  · exact Uses.refl 1 s
  · exact uses_offer _ _ s

theorem queueOnly_queueIdentify (p : Pos) (s : State) : QueueOnly s (queueIdentify p s) := queueOnly_offer _ _ s

theorem uses_queueIdentify (p : Pos) (s : State) : Uses 1 s (queueIdentify p s) := uses_offer _ _ s

/-! ### What the frame gives -/

/-- The occupancy of every position stands through a change of directives. -/
theorem QueueOnly.occupancy {s t : State} (h : QueueOnly s t) (p : Pos) :
    (posAt t p).occupancy = (posAt s p).occupancy := by rw [h.2.2 p]

theorem QueueOnly.sessionAt {s t : State} (h : QueueOnly s t) (p : Pos) : sessionAt t p = sessionAt s p := by
  unfold Machine.sessionAt; rw [h.occupancy p]

theorem QueueOnly.nv {s t : State} (h : QueueOnly s t) : t.nv = s.nv := by rw [h.1]
theorem QueueOnly.undo {s t : State} (h : QueueOnly s t) : t.undo = s.undo := by rw [h.1]
theorem QueueOnly.lba {s t : State} (h : QueueOnly s t) : t.lba = s.lba := by rw [h.1]
theorem QueueOnly.hlp {s t : State} (h : QueueOnly s t) : t.hlp = s.hlp := by rw [h.1]
theorem QueueOnly.rcs {s t : State} (h : QueueOnly s t) : t.rcs = s.rcs := by rw [h.1]
theorem QueueOnly.fm {s t : State} (h : QueueOnly s t) : t.fm = s.fm := by rw [h.1]
theorem QueueOnly.tli {s t : State} (h : QueueOnly s t) : t.tli = s.tli := by rw [h.1]
theorem QueueOnly.cru {s t : State} (h : QueueOnly s t) : t.cru = s.cru := by rw [h.1]

end Sys2Proof.Machine
end

