-- ==== Sys2Proof/Laws/Budget.lean ====
section
/-!
SUPPORT. What LBA's operations can do (chapter 5): `BudgetOnly`, a preorder said once for each grant, for the walk, for
an evaluation and for a shed, with the room that each uses.
-/
namespace Sys2Proof.Machine

/-- No entry of LBA's three collections stands for a position. -/
def NoEntry (p : Pos) (l : Lba) : Prop :=
  (∀ e ∈ l.startQueue, e.pos ≠ p) ∧ (∀ e ∈ l.stepList, e.pos ≠ p) ∧ ∀ e ∈ l.restoreList, e.pos ≠ p

/-- What a change of reservations can do: grants and sheds of live sessions, with their directives and snapshots. -/
structure BudgetOnly (s t : State) : Prop where
  /-- Only LBA, RLC, the slots and the positions change. -/
  frame : t = { s with rlc := t.rlc, positions := t.positions, lba := t.lba, nv := t.nv, undo := t.undo }
  /-- Of RLC, only the queue, the held-back lists and the lost directives. -/
  rlc : t.rlc = { s.rlc with
    queue := t.rlc.queue, heldSm := t.rlc.heldSm, heldLba := t.rlc.heldLba, heldFm := t.rlc.heldFm,
    heldRlc := t.rlc.heldRlc, lost := t.rlc.lost }
  /-- Directives join and none leaves. -/
  queue : s.rlc.queue <+: t.rlc.queue
  held : ∀ b, heldOf b s <+: heldOf b t
  /-- Of the store, only the slots, in every state a fall of the supply could leave. -/
  nv : t.nv = { s.nv with slots := t.nv.slots }
  undo : ∀ x ∈ t.undo, x ∈ s.undo ∨ x = { s.nv with slots := x.slots }
  /-- Of LBA, all but the demand limit. -/
  demand : t.lba.demand = s.lba.demand
  /-- Of a position, its reservation, its settled count, and what a grant changes of its session. -/
  position : ∀ p, posAt t p = { posAt s p with
    settle := (posAt t p).settle, lu := (posAt t p).lu, wu := (posAt t p).wu, shed := (posAt t p).shed,
    occupancy := (posAt t p).occupancy }
  granted : ∀ p, GrantedOnly (posAt s p).occupancy (posAt t p).occupancy
  /-- A position without a live session is left alone, with its slot, and no entry joins for it. -/
  idle : ∀ p, sessionAt s p = none →
    posAt t p = posAt s p ∧ t.nv.slots[p] = s.nv.slots[p] ∧ (NoEntry p s.lba → NoEntry p t.lba)

/-! ### The preorder -/

theorem GrantedOnly.refl (a : Occupancy) : GrantedOnly a a := by
  cases a with
  | live x => exact ⟨x, rfl, rfl⟩
  | _ => rfl

theorem GrantedOnly.trans {a b c : Occupancy} (h : GrantedOnly a b) (g : GrantedOnly b c) : GrantedOnly a c := by
  cases a with
  | live x =>
    obtain ⟨y, rfl, hy⟩ := h
    obtain ⟨z, rfl, hz⟩ := g
    exact ⟨z, rfl, by rw [hz, hy]⟩
  | _ => cases h; exact g

theorem sessionAt_eq_some {s : State} {p : Pos} {ses : Session} :
    sessionAt s p = some ses ↔ (posAt s p).occupancy = .live ses := by
  unfold sessionAt
  split
  · next x h => simp [h]
  · next h => exact ⟨fun e => (by cases e), fun e => absurd e (h ses)⟩

theorem sessionAt_congr {s t : State} {p : Pos} (h : (posAt t p).occupancy = (posAt s p).occupancy) :
    sessionAt t p = sessionAt s p := by unfold sessionAt; rw [h]

theorem BudgetOnly.refl (s : State) : BudgetOnly s s where
  frame := rfl
  rlc := rfl
  queue := List.prefix_refl _
  held _ := List.prefix_refl _
  nv := rfl
  undo _ h := .inl h
  demand := rfl
  position _ := rfl
  granted _ := GrantedOnly.refl _
  idle _ _ := ⟨rfl, rfl, id⟩

theorem BudgetOnly.trans {s t u : State} (h : BudgetOnly s t) (k : BudgetOnly t u) : BudgetOnly s u where
  frame := by rw [k.frame, h.frame]
  rlc := by rw [k.rlc, h.rlc]
  queue := h.queue.trans k.queue
  held b := (h.held b).trans (k.held b)
  nv := by rw [k.nv, h.nv]
  undo x hx := by
    rcases k.undo x hx with hx | hx
    · exact h.undo x hx
    · right; rw [hx, h.nv]
  demand := k.demand.trans h.demand
  position p := by rw [k.position p, h.position p]
  granted p := (h.granted p).trans (k.granted p)
  idle p hp := by
    obtain ⟨h1, h2, h3⟩ := h.idle p hp
    have ht : sessionAt t p = none := by rw [← hp]; exact sessionAt_congr (by rw [h1])
    obtain ⟨k1, k2, k3⟩ := k.idle p ht
    exact ⟨k1.trans h1, k2.trans h2, fun n => k3 (h3 n)⟩

/-! ### The primitives -/

/-- An offer leaves every position but its own alone. -/
theorem posAt_offer_ne (b : Block) {d : Directive} {p : Pos} (h : p ≠ d.pos) (s : State) :
    posAt (offer b d s) p = posAt s p := by
  unfold offer
  split
  · unfold holdBack
    split
    · cases b <;> rfl
    · split
      · rfl
      · exact posAt_loseDirective_ne h s
  · rfl

theorem prefix_offer (b : Block) (d : Directive) (s : State) :
    s.rlc.queue <+: (offer b d s).rlc.queue ∧ ∀ c, heldOf c s <+: heldOf c (offer b d s) := by
  unfold offer
  split
  · unfold holdBack
    split
    · refine ⟨by simp, fun c => ?_⟩
      by_cases e : c = b
      · subst e; simp
      · simp [e]
    · split
      · exact ⟨List.prefix_refl _, fun _ => List.prefix_refl _⟩
      · exact ⟨by rw [rlc_loseDirective], fun c => by rw [heldOf_loseDirective]⟩
  · exact ⟨by simp [joinQueue], fun c => by cases c <;> exact List.prefix_refl _⟩

/-- An offer for a position that holds a session. -/
theorem budgetOnly_offer (b : Block) {d : Directive} {ses : Session} {s : State} (h : sessionAt s d.pos = some ses) :
    BudgetOnly s (offer b d s) := by
  have q := queueOnly_offer b d s
  refine ⟨?_, q.2.1, (prefix_offer b d s).1, (prefix_offer b d s).2, by rw [q.nv], fun x hx => .inl ?_, by rw [q.lba],
    fun p => by rw [q.2.2 p], fun p => ?_, fun p hp => ⟨posAt_offer_ne b ?_ s, by rw [q.nv], by rw [q.lba]; exact id⟩⟩
  · rw [q.1]
  · rwa [q.undo] at hx
  · rw [q.occupancy p]; exact GrantedOnly.refl _
  · rintro rfl; rw [h] at hp; cases hp

theorem budgetOnly_modLba (f : Lba → Lba) (s : State) (hd : (f s.lba).demand = s.lba.demand)
    (hn : ∀ p, sessionAt s p = none → NoEntry p s.lba → NoEntry p (f s.lba)) : BudgetOnly s (modLba f s) where
  frame := rfl
  rlc := rfl
  queue := List.prefix_refl _
  held b := by cases b <;> exact List.prefix_refl _
  nv := rfl
  undo _ h := .inl h
  demand := hd
  position _ := rfl
  granted _ := GrantedOnly.refl _
  idle p hp := ⟨rfl, rfl, hn p hp⟩

/-- A change of the reservation or the settled count of a position that holds a session. -/
theorem budgetOnly_modPos {p : Pos} {ses : Session} {s : State} (f : Position → Position)
    (h : sessionAt s p = some ses)
    (hf : f (posAt s p) = { posAt s p with
      settle := (f (posAt s p)).settle, lu := (f (posAt s p)).lu, wu := (f (posAt s p)).wu,
      shed := (f (posAt s p)).shed }) : BudgetOnly s (modPos p f s) where
  frame := rfl
  rlc := rfl
  queue := List.prefix_refl _
  held b := by cases b <;> exact List.prefix_refl _
  nv := rfl
  undo _ h := .inl h
  demand := rfl
  position q := by
    by_cases e : q = p
    · subst e; rw [posAt_modPos_self]; rw [hf]
    · rw [posAt_modPos_ne e]
  granted q := by
    by_cases e : q = p
    · subst e; rw [posAt_modPos_self, hf]; exact GrantedOnly.refl _
    · rw [posAt_modPos_ne e]; exact GrantedOnly.refl _
  idle q hq := by
    have e : q ≠ p := fun e => by subst e; rw [h] at hq; cases hq
    exact ⟨posAt_modPos_ne e f s, rfl, id⟩

theorem sessionAt_modPos_of {p q : Pos} {f : Position → Position} {s : State}
    (hf : (f (posAt s p)).occupancy = (posAt s p).occupancy) : sessionAt (modPos p f s) q = sessionAt s q := by
  apply sessionAt_congr
  by_cases e : q = p
  · subst e; rw [posAt_modPos_self, hf]
  · rw [posAt_modPos_ne e]

@[simp] theorem sessionAt_setReservation (p q : Pos) (lu wu : Nat) (b : Bool) (s : State) :
    sessionAt (setReservation p lu wu b s) q = sessionAt s q := sessionAt_modPos_of rfl

@[simp] theorem sessionAt_settlingEvent (p q : Pos) (s : State) :
    sessionAt (settlingEvent p s) q = sessionAt s q := sessionAt_modPos_of rfl

@[simp] theorem sessionAt_modLba (f : Lba → Lba) (q : Pos) (s : State) :
    sessionAt (modLba f s) q = sessionAt s q := rfl

@[simp] theorem sessionAt_offer (b : Block) (d : Directive) (q : Pos) (s : State) :
    sessionAt (offer b d s) q = sessionAt s q := (queueOnly_offer b d s).sessionAt q

@[simp] theorem sessionAt_putSession_self (p : Pos) (ses : Session) (s : State) :
    sessionAt (putSession p ses s) p = some ses := by
  rw [sessionAt_eq_some]
  show (posAt (setSession p ses s) p).occupancy = _
  simp [setSession, setOccupancy]

theorem sessionAt_putSession_ne {p q : Pos} (h : q ≠ p) (ses : Session) (s : State) :
    sessionAt (putSession p ses s) q = sessionAt s q := by
  apply sessionAt_congr
  show (posAt (setSession p ses s) q).occupancy = _
  simp [setSession, setOccupancy, posAt_modPos_ne h]

/-- A session's record with what a grant changes of it. -/
theorem budgetOnly_putSession {p : Pos} {ses ses' : Session} {s : State} (h : sessionAt s p = some ses)
    (h' : ses' = { ses with phase := ses'.phase, shed := ses'.shed, state := ses'.state }) :
    BudgetOnly s (putSession p ses' s) := by
  have ho := sessionAt_eq_some.mp h
  have self : posAt (putSession p ses' s) p = { posAt s p with occupancy := .live ses' } := by
    show posAt (setSession p ses' s) p = _
    simp [setSession, setOccupancy]
  have other : ∀ q, q ≠ p → posAt (putSession p ses' s) q = posAt s q := fun q e => by
    show posAt (setSession p ses' s) q = _
    simp [setSession, setOccupancy, posAt_modPos_ne e]
  refine ⟨rfl, rfl, List.prefix_refl _, fun b => ?_, rfl, fun x hx => ?_, rfl, fun q => ?_, fun q => ?_,
    fun q hq => ?_⟩
  · cases b <;> exact List.prefix_refl _
  · rcases List.mem_cons.mp hx with e | e
    · right; subst e; rfl
    · exact .inl e
  · by_cases e : q = p
    · subst e; rw [self]
    · rw [other q e]
  · by_cases e : q = p
    · subst e; rw [self, ho]; exact ⟨ses', rfl, h'⟩
    · rw [other q e]; exact GrantedOnly.refl _
  · have e : q ≠ p := fun e => by subst e; rw [h] at hq; cases hq
    have e' : p.val ≠ q.val := fun h => e (Fin.ext h.symm)
    refine ⟨other q e, ?_, id⟩
    show (s.nv.slots.set p (some (snapshotOf ses')))[q] = s.nv.slots[q]
    simp [Vector.getElem_set_ne _ _ e']

theorem budgetOnly_oweEvaluation (s : State) : BudgetOnly s (oweEvaluation s) :=
  budgetOnly_modLba _ s rfl fun _ _ h => h

theorem budgetOnly_leaveRestoreList (p : Pos) (s : State) : BudgetOnly s (leaveRestoreList p s) :=
  budgetOnly_modLba _ s rfl fun _ _ h => ⟨h.1, h.2.1, fun e he => h.2.2 e (List.mem_of_mem_filter he)⟩

theorem budgetOnly_setReservation {p : Pos} {ses : Session} {s : State} (lu wu : Nat) (b : Bool)
    (h : sessionAt s p = some ses) : BudgetOnly s (setReservation p lu wu b s) :=
  budgetOnly_modPos (fun q => { q with lu := lu, wu := wu, shed := b }) h rfl

theorem budgetOnly_settlingEvent {p : Pos} {ses : Session} {s : State} (h : sessionAt s p = some ses) :
    BudgetOnly s (settlingEvent p s) := budgetOnly_modPos (fun q => { q with settle := 0 }) h rfl

/-! ### Grants -/

theorem budgetOnly_grantStart {p : Pos} {ses : Session} {s : State} (h : sessionAt s p = some ses) :
    BudgetOnly s (grantStart p ses s) := by
  let phase := phaseOf s ses.program 0
  let s1 := modLba (fun l => { l with startQueue := l.startQueue.filter fun e => e.pos != p }) s
  have h1 : BudgetOnly s s1 :=
    budgetOnly_modLba _ s rfl fun _ _ n => ⟨fun e he => n.1 e (List.mem_of_mem_filter he), n.2⟩
  let s2 := setReservation p phase.lu phase.wu false s1
  have h2 : BudgetOnly s1 s2 := budgetOnly_setReservation _ _ _ h
  have q2 : sessionAt s2 p = some ses := (sessionAt_setReservation p p _ _ _ s1).trans h
  let ses' : Session := { ses with state := .starting }
  have h3 : BudgetOnly s2 (putSession p ses' s2) := budgetOnly_putSession q2 rfl
  exact ((h1.trans h2).trans h3).trans (budgetOnly_offer .sm (sessionAt_putSession_self p ses' s2))

theorem budgetOnly_enterPhase {p : Pos} {ses : Session} {s : State} (j : Nat) (h : sessionAt s p = some ses) :
    BudgetOnly s (enterPhase p ses j s) := by
  let phase := phaseOf s ses.program j
  let s1 := setReservation p (stepDraw s p phase) phase.wu (staysShed s p phase) s
  let ses' : Session := { ses with phase := j, shed := staysShed s p phase }
  have h1 : BudgetOnly s s1 := budgetOnly_setReservation _ _ _ h
  have q1 : sessionAt s1 p = some ses := (sessionAt_setReservation p p _ _ _ s).trans h
  unfold enterPhase
  simp only
  split
  · let s2 := leaveRestoreList p s1
    have h2 : BudgetOnly s1 s2 := budgetOnly_leaveRestoreList p s1
    let s3 := settlingEvent p s2
    have h3 : BudgetOnly s2 s3 := budgetOnly_settlingEvent (ses := ses) q1
    have q3 : sessionAt s3 p = some ses := (sessionAt_settlingEvent p p s2).trans q1
    have h4 : BudgetOnly s3 (putSession p ses' s3) := budgetOnly_putSession q3 rfl
    exact ((h1.trans h2).trans h3).trans h4
  · have h4 : BudgetOnly s1 (putSession p ses' s1) := budgetOnly_putSession q1 rfl
    exact h1.trans h4

/-- A position that moves to a phase holds its session with the phase and its shed flag. -/
theorem sessionAt_enterPhase_self (p : Pos) (ses : Session) (j : Nat) (s : State) :
    sessionAt (enterPhase p ses j s) p =
      some { ses with phase := j, shed := staysShed s p (phaseOf s ses.program j) } := by
  unfold enterPhase
  exact sessionAt_putSession_self _ _ _

theorem budgetOnly_grantStep {p : Pos} {ses : Session} {s : State} (h : sessionAt s p = some ses) :
    BudgetOnly s (grantStep p ses s) := by
  let s1 := modLba (fun l => { l with stepList := l.stepList.filter fun e => e.pos != p }) s
  have h1 : BudgetOnly s s1 :=
    budgetOnly_modLba _ s rfl fun _ _ n => ⟨n.1, fun e he => n.2.1 e (List.mem_of_mem_filter he), n.2.2⟩
  have h2 : BudgetOnly s1 (enterPhase p ses (stepTarget s p) s1) := budgetOnly_enterPhase _ h
  exact (h1.trans h2).trans (budgetOnly_offer .sm (sessionAt_enterPhase_self p ses (stepTarget s p) s1))

theorem budgetOnly_grantRestore {p : Pos} {ses : Session} {s : State} (h : sessionAt s p = some ses) :
    BudgetOnly s (grantRestore p ses s) := by
  let s1 := leaveRestoreList p s
  have h1 : BudgetOnly s s1 := budgetOnly_leaveRestoreList p s
  let f := fun q : Position => { q with lu := (currentPhase s1 ses).lu, shed := false }
  let s2 := modPos p f s1
  have h2 : BudgetOnly s1 s2 := budgetOnly_modPos (ses := ses) f h rfl
  have q2 : sessionAt s2 p = some ses := (sessionAt_modPos_of rfl).trans h
  let ses' : Session := { ses with shed := false }
  have h3 : BudgetOnly s2 (putSession p ses' s2) := budgetOnly_putSession q2 rfl
  exact ((h1.trans h2).trans h3).trans (budgetOnly_offer .lba (sessionAt_putSession_self p ses' s2))

theorem budgetOnly_grantItem (item : WalkItem) (s : State) : BudgetOnly s (grantItem item s) := by
  unfold grantItem
  split
  · exact BudgetOnly.refl s
  · next ses h =>
    cases item with
    | start p => exact budgetOnly_grantStart h
    | step p => exact budgetOnly_grantStep h
    | restore p => exact budgetOnly_grantRestore h

theorem budgetOnly_raiseBypass (item : WalkItem) (s : State) : BudgetOnly s (raiseBypass item s) := by
  have keep : ∀ {α : Type} (pos : α → Pos) (f : α → α) (l : List α) (p : Pos), (∀ e, pos (f e) = pos e) →
      (∀ e ∈ l, pos e ≠ p) → ∀ e ∈ l.map f, pos e ≠ p := by
    intro α pos f l p hf h e he
    obtain ⟨x, hx, rfl⟩ := List.mem_map.mp he
    rw [hf]; exact h x hx
  cases item with
  | restore p =>
    unfold raiseBypass
    apply budgetOnly_modLba
    · rfl
    · intro q _ n
      refine ⟨n.1, n.2.1, keep WaitEntry.pos _ _ q (fun e => ?_) n.2.2⟩
      split <;> rfl
  | step p =>
    unfold raiseBypass
    apply budgetOnly_modLba
    · rfl
    · intro q _ n
      refine ⟨n.1, keep StepEntry.pos _ _ q (fun e => ?_) n.2.1, n.2.2⟩
      split <;> rfl
  | start p =>
    unfold raiseBypass
    apply budgetOnly_modLba
    · rfl
    · intro q _ n
      refine ⟨keep WaitEntry.pos _ _ q (fun e => ?_) n.1, n.2⟩
      split <;> rfl

/-! ### The walk and the evaluation -/

theorem budgetOnly_walk (items : List WalkItem) (earliest : Option WalkItem) (s : State) :
    BudgetOnly s (walk items earliest s) := by
  induction items generalizing earliest s with
  | nil => exact BudgetOnly.refl s
  | cons item rest ih =>
    unfold walk
    split
    · exact ih _ _
    · split
      · refine (budgetOnly_grantItem item s).trans (BudgetOnly.trans ?_ (ih _ _))
        split
        · exact budgetOnly_raiseBypass _ _
        · exact BudgetOnly.refl _
      · split
        · exact BudgetOnly.refl s
        · exact ih _ _

/-- An evaluation grants, and does nothing else (R92 to R95). -/
theorem budgetOnly_evaluate (s : State) : BudgetOnly s (evaluate s) := by
  have h := budgetOnly_modLba (fun l => { l with evalDue := false, overCap := l.overCap && !withinCaps s }) s rfl
    fun _ _ n => n
  unfold evaluate
  simp only
  split
  · exact h
  · exact h.trans (budgetOnly_walk _ _ _)

theorem budgetOnly_evaluateIfDue (s : State) : BudgetOnly s (evaluateIfDue s) := by
  unfold evaluateIfDue
  split
  · exact budgetOnly_evaluate s
  · exact BudgetOnly.refl s

/-! ### Sheds -/

theorem budgetOnly_shedPosition (p : Pos) (s : State) : BudgetOnly s (shedPosition p s) := by
  unfold shedPosition
  split
  · exact BudgetOnly.refl s
  · next ses h =>
    let f := fun q : Position => { q with lu := (currentPhase s ses).shedLu, shed := true }
    let s1 := modPos p f s
    have h1 : BudgetOnly s s1 := budgetOnly_modPos f h rfl
    have q1 : sessionAt s1 p = some ses := (sessionAt_modPos_of rfl).trans h
    let ses' : Session := { ses with shed := true }
    let s2 := putSession p ses' s1
    have h2 : BudgetOnly s1 s2 := budgetOnly_putSession q1 rfl
    let g := fun l : Lba => { l with
      restoreList := l.restoreList ++ [({ pos := p, bypass := 0 } : WaitEntry)], evalDue := true }
    have h3 : BudgetOnly s2 (modLba g s2) := by
      refine budgetOnly_modLba g s2 rfl fun q hq n => ⟨n.1, n.2.1, fun e he => ?_⟩
      rcases List.mem_append.mp he with he | he
      · exact n.2.2 e he
      · intro hp
        have e1 : e = ({ pos := p, bypass := 0 } : WaitEntry) := by simpa using he
        have e2 : q = p := by rw [← hp, e1]
        subst e2
        simp [s2] at hq
    exact ((h1.trans h2).trans h3).trans (budgetOnly_offer .lba
      ((sessionAt_modLba g p s2).trans (sessionAt_putSession_self p ses' s1)))

/-- One turn of the sheds: nothing, or one shed and the turns after it (R97). -/
theorem shedDown_succ (n : Nat) (s : State) :
    (shedDown (n + 1) s).1 = s ∨ ∃ p, (shedDown (n + 1) s).1 = (shedDown n (shedPosition p s)).1 := by
  rw [shedDown]
  cases nextShed s with
  | none => exact .inl rfl
  | some p => exact .inr ⟨p, rfl⟩

theorem budgetOnly_shedDown (n : Nat) (s : State) : BudgetOnly s (shedDown n s).1 := by
  induction n generalizing s with
  | zero => exact BudgetOnly.refl s
  | succ n ih =>
    rcases shedDown_succ n s with h | ⟨p, h⟩
    · rw [h]; exact BudgetOnly.refl s
    · rw [h]; exact (budgetOnly_shedPosition _ s).trans (ih _)

/-! ### Room and debts -/

theorem Uses.offer_after {s t : State} (hr : t.rlc = s.rlc) (b : Block) (d : Directive) :
    Uses 1 s (offer b d t) := ((Uses.of_rlc 0 hr).trans (uses_offer b d t)).mono (by omega)

theorem rlc_enterPhase (p : Pos) (ses : Session) (j : Nat) (s : State) : (enterPhase p ses j s).rlc = s.rlc := by
  unfold enterPhase
  simp only
  split <;> simp [putSession, setSession, leaveRestoreList, settlingEvent]

theorem uses_grantItem (item : WalkItem) (s : State) : Uses 1 s (grantItem item s) := by
  unfold grantItem
  split
  · exact Uses.refl 1 s
  · cases item with
    | start p =>
      apply Uses.offer_after
      simp [putSession, setSession]
    | step p =>
      apply Uses.offer_after
      simp [rlc_enterPhase]
    | restore p =>
      apply Uses.offer_after
      simp [putSession, setSession, leaveRestoreList]

theorem rlc_raiseBypass (item : WalkItem) (s : State) : (raiseBypass item s).rlc = s.rlc := by cases item <;> rfl

theorem uses_walk (items : List WalkItem) (earliest : Option WalkItem) (s : State) :
    Uses items.length s (walk items earliest s) := by
  induction items generalizing earliest s with
  | nil => exact Uses.refl 0 s
  | cons item rest ih =>
    unfold walk
    split
    · exact (ih _ _).mono (by simp)
    · split
      · refine ((uses_grantItem item s).trans (Uses.trans (j := 0) ?_ (ih _ _))).mono (by simp; omega)
        split
        · exact Uses.of_rlc 0 (rlc_raiseBypass _ _)
        · exact Uses.refl 0 _
      · split
        · exact Uses.refl _ s
        · exact (ih _ _).mono (by simp)

/-- An evaluation holds back at most one directive for each entry that waits. -/
theorem uses_evaluate (s : State) : Uses (waitingOrder s).length s (evaluate s) := by
  unfold evaluate
  simp only
  split
  · exact Uses.of_rlc _ rfl
  · refine (Uses.trans (j := 0) (Uses.of_rlc 0 ?_) (uses_walk _ _ _)).mono ?_
    · rfl
    · simp [waitingOrder]

theorem uses_evaluateIfDue (s : State) : Uses (waitingOrder s).length s (evaluateIfDue s) := by
  unfold evaluateIfDue
  split
  · exact uses_evaluate s
  · exact Uses.refl _ s

theorem uses_shedPosition (p : Pos) (s : State) : Uses 1 s (shedPosition p s) := by
  unfold shedPosition
  split
  · exact Uses.refl 1 s
  · apply Uses.offer_after
    simp [putSession, setSession]

theorem uses_shedDown (n : Nat) (s : State) : Uses n s (shedDown n s).1 := by
  induction n generalizing s with
  | zero => exact Uses.refl 0 s
  | succ n ih =>
    rcases shedDown_succ n s with h | ⟨p, h⟩
    · rw [h]; exact Uses.refl _ s
    · rw [h]; exact ((uses_shedPosition p s).trans (ih _)).mono (by omega)

theorem lba_offer (b : Block) (d : Directive) (s : State) : (offer b d s).lba = s.lba :=
  (queueOnly_offer b d s).lba

theorem evalDue_grantItem (item : WalkItem) (s : State) : (grantItem item s).lba.evalDue = s.lba.evalDue := by
  unfold grantItem
  split
  · rfl
  · cases item with
    | start p => simp [grantStart, lba_offer, putSession, setSession]
    | step p =>
      simp only [grantStep, lba_offer]
      unfold enterPhase
      simp only
      split <;> simp [putSession, setSession, leaveRestoreList, settlingEvent]
    | restore p => simp [grantRestore, lba_offer, putSession, setSession, leaveRestoreList]

theorem evalDue_raiseBypass (item : WalkItem) (s : State) : (raiseBypass item s).lba.evalDue = s.lba.evalDue := by
  cases item <;> rfl

theorem evalDue_walk (items : List WalkItem) (earliest : Option WalkItem) (s : State) :
    (walk items earliest s).lba.evalDue = s.lba.evalDue := by
  induction items generalizing earliest s with
  | nil => rfl
  | cons item rest ih =>
    unfold walk
    split
    · exact ih _ _
    · split
      · rw [ih]
        split
        · rw [evalDue_raiseBypass, evalDue_grantItem]
        · exact evalDue_grantItem _ _
      · split
        · rfl
        · exact ih _ _

/-- An evaluation leaves none owed (R92; log 5). -/
theorem evalDue_evaluate (s : State) : (evaluate s).lba.evalDue = false := by
  unfold evaluate
  simp only
  split
  · rfl
  · rw [evalDue_walk]; rfl

theorem evalDue_evaluateIfDue (s : State) : (evaluateIfDue s).lba.evalDue = false := by
  unfold evaluateIfDue
  split
  · exact evalDue_evaluate s
  · next h => simpa using h

end Sys2Proof.Machine
end

