-- ==== Sys2Proof/Laws/Sessions.lean ====
section
/-!
SUPPORT. The end of a session (R22): what steps 1 to 6 leave, and what they leave alone.
-/
namespace Sys2Proof.Machine

/-! ### Releasing a budget -/

/-- A release takes the position's entries and reservation, and does nothing else but with directives (R22, R96). -/
theorem releaseBudget_does (p : Pos) (s : State) :
    ∃ u, QueueOnly u (releaseBudget p s) ∧ Uses 0 u (releaseBudget p s)
      ∧ u = { s with lba := u.lba, positions := u.positions }
      ∧ posAt u p = { posAt s p with lu := 0, wu := 0, shed := false }
      ∧ (∀ q, q ≠ p → posAt u q = posAt s q)
      ∧ u.lba = { s.lba with
          startQueue := s.lba.startQueue.filter fun e => e.pos != p
          stepList := s.lba.stepList.filter fun e => e.pos != p
          restoreList := s.lba.restoreList.filter fun e => e.pos != p
          evalDue := u.lba.evalDue }
      ∧ (releaseBudget p s).rlc.queue = s.rlc.queue := by
  refine ⟨_, (queueOnly_discardHeld _ _ _).trans (queueOnly_discardHeld _ _ _),
    (uses_discardHeld _ _ _).trans (uses_discardHeld _ _ _), rfl, ?_, fun q h => ?_, rfl, ?_⟩
  · exact posAt_modPos_self _ _ _
  · exact posAt_modPos_ne h _ _
  · simp [releaseBudget, discardHeld, rlc_settlingEvents]

/-! ### The record -/

theorem nv_appended (r : SettlementRecord) (nv : Retained) :
    appended r nv = { nv with
      journal := (appended r nv).journal, nextSeq := (appended r nv).nextSeq,
      exhausted := (appended r nv).exhausted } := by
  unfold appended
  split
  · rfl
  · split <;> rfl

/-- The journal gains the record, unless its numbers are spent (R150; log 28). -/
theorem journal_appended (r : SettlementRecord) (nv : Retained) (h : r.seq = nv.nextSeq) :
    (appended r nv).journal = if nv.exhausted then nv.journal else nv.journal ++ [r] := by
  have e : { r with seq := nv.nextSeq } = r := by rw [← h]
  unfold appended
  split
  · simp
  · split <;> simp only [e]

/-- An append changes the store and may set JOURNAL_HIGH, and nothing else (R150). -/
theorem appendRecord_does (r : SettlementRecord) (s : State) :
    appendRecord r s = { s with
      nv := appended r s.nv, undo := s.nv :: s.undo, hlp := (appendRecord r s).hlp }
      ∧ (appendRecord r s).hlp = { s.hlp with flags := (appendRecord r s).hlp.flags }
      ∧ (appendRecord r s).hlp.flags &&& s.hlp.flags = s.hlp.flags := by
  unfold appendRecord
  simp only
  split
  · refine ⟨rfl, rfl, ?_⟩
    ext i hi
    simp [setFlag, writeNv]
    intro a; exact .inl a
  · exact ⟨rfl, rfl, BitVec.and_self⟩

/-! ### Settlement -/

/-- Settlement changes one entry of the cache at most (R42, R43). -/
theorem settleAccount_does (ses : Session) (charge : Nat) (s : State) :
    settleAccount ses charge s = { s with cru := (settleAccount ses charge s).cru }
      ∧ (settleAccount ses charge s).cru = { s.cru with cache := (settleAccount ses charge s).cru.cache }
      ∧ SettledAt s (settleAccount ses charge s) ses charge := by
  unfold SettledAt settleAccount
  by_cases h : ses.cls = .account
  · simp only [h, ite_true]
    cases findEntry s ses.card with
    | none => exact ⟨rfl, rfl, rfl⟩
    | some x => exact ⟨rfl, rfl, rfl⟩
  · simp only [h, ite_false]
    exact ⟨trivial, trivial, trivial⟩

theorem settleAccount_cru_congr (ses : Session) (charge : Nat) {s t : State} (h : t.cru = s.cru) :
    (settleAccount ses charge t).cru = (settleAccount ses charge s).cru := by
  have fw : findWay t ses.card = findWay s ses.card := by simp [findWay, entryAt, h]
  have fe : findEntry t ses.card = findEntry s ses.card := by simp [findEntry, entryAt, fw, h]
  unfold settleAccount
  split
  · rw [fe]
    split
    · simp [h]
    · exact h
  · exact h

/-! ### The end -/

/-- What an end changes, whatever it leaves there. -/
structure EndsOnly (p : Pos) (s t : State) : Prop where
  frame : t = { s with
    rlc := t.rlc, positions := t.positions, lba := t.lba, nv := t.nv, undo := t.undo, cru := t.cru, hlp := t.hlp }
  rlc : t.rlc = { s.rlc with
    queue := t.rlc.queue, heldSm := t.rlc.heldSm, heldLba := t.rlc.heldLba, heldFm := t.rlc.heldFm,
    heldRlc := t.rlc.heldRlc, lost := t.rlc.lost }
  lba : t.lba = { s.lba with
    startQueue := s.lba.startQueue.filter fun e => e.pos != p
    stepList := s.lba.stepList.filter fun e => e.pos != p
    restoreList := s.lba.restoreList.filter fun e => e.pos != p
    evalDue := t.lba.evalDue }
  here : posAt t p = { posAt s p with
    occupancy := (posAt t p).occupancy, settle := (posAt t p).settle, lu := 0, wu := 0, shed := false,
    startCount := none }
  others : ∀ q, q ≠ p → posAt t q = { posAt s q with settle := (posAt t q).settle }
  hlp : HlpButFlags s.hlp t.hlp
  cru : t.cru = { s.cru with cache := t.cru.cache }
  nv : t.nv = { s.nv with
    slots := s.nv.slots.set p none, journal := t.nv.journal, nextSeq := t.nv.nextSeq, exhausted := t.nv.exhausted }
  undo : ∃ x, t.undo = { x with slots := s.nv.slots } :: s.nv :: s.undo ∧ x = t.nv
  uses : Uses 1 s t

/-- Steps 1 to 3 of an end: the occupancy, the start count and the budget. -/
def endBudget (p : Pos) (ses : Session) (s : State) : State :=
  releaseBudget p (modPos p (fun q => { q with startCount := none }) (setOccupancy p (.unloading (tagOf ses.number)) s))

/-- Steps 1 to 4: and the STOP. -/
def endQueue (p : Pos) (ses : Session) (outcome : EndOutcome) (s : State) : State :=
  if outcome = .completed then endBudget p ses s
  else queueStop p (tagOf ses.number) (withdrawStart p (endBudget p ses s))

theorem endHere_eq (p : Pos) (ses : Session) (outcome : EndOutcome) (cause : Option Cause) (s : State) :
    endHere p ses outcome cause s =
      writeSlot p none (appendRecord (settlementOf s p ses outcome cause)
        (settleAccount ses (chargeOf s.nv.settings.graceMinutes outcome ses) (endQueue p ses outcome s))) := rfl

/-- The state after the position and LBA have changed, before directives do. -/
theorem endQueue_does (p : Pos) (ses : Session) (outcome : EndOutcome) (s : State) :
    ∃ u, QueueOnly u (endQueue p ses outcome s) ∧ Uses 1 u (endQueue p ses outcome s)
      ∧ u = { s with lba := u.lba, positions := u.positions }
      ∧ u.lba = { s.lba with
          startQueue := s.lba.startQueue.filter fun e => e.pos != p
          stepList := s.lba.stepList.filter fun e => e.pos != p
          restoreList := s.lba.restoreList.filter fun e => e.pos != p
          evalDue := u.lba.evalDue }
      ∧ posAt u p = { posAt s p with
          occupancy := .unloading (tagOf ses.number), lu := 0, wu := 0, shed := false, startCount := none }
      ∧ ∀ q, q ≠ p → posAt u q = posAt s q := by
  obtain ⟨u, hq, hu, he, hp, ho, hl, -⟩ := releaseBudget_does p
    (modPos p (fun q => { q with startCount := none }) (setOccupancy p (.unloading (tagOf ses.number)) s))
  refine ⟨u, ?_, ?_, ?_, hl, ?_, ?_⟩
  · unfold endQueue
    split
    · exact hq
    · exact (QueueOnly.trans hq (queueOnly_withdrawStart _ _)).trans (queueOnly_queueStop _ _ _)
  · unfold endQueue
    split
    · exact hu.mono (by omega)
    · exact ((hu.trans (uses_withdrawStart _ _)).trans (uses_queueStop _ _ _)).mono (by omega)
  · rw [he]; rfl
  · rw [hp, posAt_modPos_self, setOccupancy, posAt_modPos_self]
  · intro q h
    rw [ho q h, posAt_modPos_ne h, setOccupancy, posAt_modPos_ne h]

/-- An end changes no more than `EndsOnly` says. -/
theorem endsOnly_endHere (p : Pos) (ses : Session) (outcome : EndOutcome) (cause : Option Cause) (s : State) :
    EndsOnly p s (endHere p ses outcome cause s) := by
  obtain ⟨u, hq, hu, hf, hl, hp, ho⟩ := endQueue_does p ses outcome s
  rw [endHere_eq]
  generalize hc : chargeOf s.nv.settings.graceMinutes outcome ses = charge
  generalize hr : settlementOf s p ses outcome cause = r
  generalize endQueue p ses outcome s = v at hq hu
  obtain ⟨a1, a2, -⟩ := settleAccount_does ses charge v
  generalize settleAccount ses charge v = w at a1 a2
  obtain ⟨b1, b2, b3⟩ := appendRecord_does r w
  generalize appendRecord r w = x at b1 b2 b3
  have hv : v = { s with rlc := v.rlc, positions := v.positions, lba := u.lba } := by rw [hq.1, hf]
  have hw : w = { s with rlc := v.rlc, positions := v.positions, lba := u.lba, cru := w.cru } := by rw [a1, hv]
  have hx : x = { s with
      rlc := v.rlc, positions := v.positions, lba := u.lba, cru := w.cru, nv := appended r s.nv,
      undo := s.nv :: s.undo, hlp := x.hlp } := by rw [b1, hw]
  have xr : x.rlc = v.rlc := by rw [hx]
  have xl : x.lba = u.lba := by rw [hx]
  have xc : x.cru = w.cru := by rw [hx]
  have xn : x.nv = appended r s.nv := by rw [hx]
  have xu : x.undo = s.nv :: s.undo := by rw [hx]
  have xp : ∀ q, posAt x q = posAt v q := fun q => by unfold posAt; rw [hx]
  have ur : u.rlc = s.rlc := by rw [hf]
  have wh : w.hlp = s.hlp := by rw [hw]
  have vc : v.cru = s.cru := by rw [hv]
  have wp : ∀ q, posAt (writeSlot p none x) q = posAt x q := fun _ => rfl
  constructor
  · show writeSlot p none x = _
    simp only [writeSlot_rlc, writeSlot_lba, writeSlot_cru, writeSlot_hlp]
    rw [hx]; rfl
  · simp only [writeSlot_rlc, xr]; rw [hq.2.1, ur]
  · simp only [writeSlot_lba, xl]; exact hl
  · rw [wp, xp, hq.2.2 p, hp]
  · intro q h
    rw [wp, xp, hq.2.2 q, ho q h]
  · simp only [writeSlot_hlp]
    exact ⟨by rw [b2, wh], by rw [← wh]; exact b3⟩
  · simp only [writeSlot_cru, xc]; rw [a2, vc]
  · simp only [writeSlot_nv, xn]
    rw [nv_appended r s.nv]
  · refine ⟨(writeSlot p none x).nv, ?_, rfl⟩
    simp only [writeSlot_undo, writeSlot_nv, xn, xu]
    congr 1
    rw [nv_appended r s.nv]
  · refine Uses.mono (j := 0 + 1 + 0) ?_ (by omega)
    refine Uses.trans (t := v) (Uses.trans (t := u) (Uses.of_rlc 0 ur) hu) (Uses.of_rlc 0 ?_)
    simp only [writeSlot_rlc, xr]

theorem GrantedOnly.of_eq {a b : Occupancy} (h : b = a) : GrantedOnly a b := h ▸ GrantedOnly.refl a

/-- What the end of a live session leaves, in the taking that ends it (R22), while SM's list of held-back directives has
room for its STOP. -/
theorem endedAt_endHere (p : Pos) (ses : Session) (outcome : EndOutcome) (cause : Option Cause) (s : State)
    (room : RoomFor 1 s) : EndedAt s (endHere p ses outcome cause s) p ses outcome cause := by
  have e := endsOnly_endHere p ses outcome cause s
  obtain ⟨u, hq, hu, hf, hl, hp, ho⟩ := endQueue_does p ses outcome s
  have ur : u.rlc = s.rlc := by rw [hf]
  have here : posAt (endHere p ses outcome cause s) p = posAt (endQueue p ses outcome s) p := by
    rw [endHere_eq]
    show posAt (appendRecord _ _) p = _
    rw [(appendRecord_does _ _).1]
    show posAt (settleAccount _ _ _) p = _
    rw [(settleAccount_does _ _ _).1]
    rfl
  have rlc : (endHere p ses outcome cause s).rlc = (endQueue p ses outcome s).rlc := by
    rw [endHere_eq]
    show (appendRecord _ _).rlc = _
    rw [(appendRecord_does _ _).1]
    show (settleAccount _ _ _).rlc = _
    rw [(settleAccount_does _ _ _).1]
  have cru : (endHere p ses outcome cause s).cru =
      (settleAccount ses (chargeOf s.nv.settings.graceMinutes outcome ses) s).cru := by
    rw [endHere_eq]
    show (appendRecord _ _).cru = _
    rw [(appendRecord_does _ _).1]
    exact settleAccount_cru_congr _ _ (by rw [hq.1, hf])
  have nvq : (settleAccount ses (chargeOf s.nv.settings.graceMinutes outcome ses) (endQueue p ses outcome s)).nv
      = s.nv := by rw [(settleAccount_does _ _ _).1]; exact (by rw [hq.1, hf])
  have journal : (endHere p ses outcome cause s).nv.journal =
      (appended (settlementOf s p ses outcome cause) s.nv).journal := by
    rw [endHere_eq]
    show (appendRecord _ _).nv.journal = _
    rw [(appendRecord_does _ _).1, nvq]
  have noEntry : ∀ {α : Type} (pos : α → Pos) (l : List α), ∀ a ∈ l.filter (fun a => pos a != p), pos a ≠ p := by
    intro α pos l a ha
    simpa using (List.mem_filter.mp ha).2
  refine ⟨?_, by rw [e.here], by rw [e.here], by rw [e.here], by rw [e.here], ?_, ?_, ?_, ?_, ?_, ?_, ?_, ?_, ?_⟩
  · rw [here, hq.occupancy p, hp]
  · rw [e.lba]; exact noEntry WaitEntry.pos _
  · rw [e.lba]; exact noEntry StepEntry.pos _
  · rw [e.lba]; exact noEntry WaitEntry.pos _
  · intro h
    have st : stopStands p (tagOf ses.number) (endQueue p ses outcome s) = true := by
      simp only [endQueue, h, ite_false]
      apply stopStands_queueStop
      obtain ⟨u', hq', hu', he', -⟩ := releaseBudget_does p
        (modPos p (fun q => { q with startCount := none }) (setOccupancy p (.unloading (tagOf ses.number)) s))
      have r1 : RoomFor 1 u' := room.congr (by rw [he']; rfl)
      have r2 := ((hu'.trans (uses_withdrawStart p _)) 1 r1).1 .sm
      simp only [endBudget]
      omega
    unfold stopStands inQueue at st ⊢
    rwa [rlc]
  · have := (settleAccount_does ses (chargeOf s.nv.settings.graceMinutes outcome ses) s).2.2
    unfold SettledAt at this ⊢
    rw [cru]; exact this
  · unfold AppendedTo
    rw [journal]; exact journal_appended _ _ rfl
  · rw [e.nv]; simp
  · unfold ConfigKept
    rw [e.nv]
    exact ⟨rfl, rfl, rfl, rfl, rfl, rfl, rfl, rfl, rfl, rfl⟩
  · intro q h
    have : q ≠ p := by simpa using h
    rw [e.others q this]; exact GrantedOnly.refl _

/-! ### An end in its taking -/

/-- What an end leaves stands through grants, sheds and evaluations. -/
theorem EndedAt.budget {s t u : State} {p : Pos} {ses : Session} {outcome : EndOutcome} {cause : Option Cause}
    (h : EndedAt s t p ses outcome cause) (b : BudgetOnly t u) : EndedAt s u p ses outcome cause := by
  obtain ⟨h1, h2, h3, h4, h5, h6, h7, h8, h9, h10, h11, h12, h13, h14⟩ := h
  have none : sessionAt t p = none := by unfold sessionAt; rw [h1]
  obtain ⟨i1, i2, i3⟩ := b.idle p none
  obtain ⟨n1, n2, n3⟩ := i3 ⟨h6, h7, h8⟩
  have cru : u.cru = t.cru := by rw [b.frame]
  refine ⟨by rw [i1, h1], by rw [i1, h2], by rw [i1, h3], by rw [i1, h4], by rw [i1, h5], n1, n2, n3, ?_, ?_, ?_, ?_,
    ?_, ?_⟩
  · intro ho
    have st := h9 ho
    simp only [stopStands, inQueue, Bool.or_eq_true, List.any_eq_true] at st ⊢
    rcases st with ⟨e, he, hx⟩ | ⟨e, he, hx⟩
    · exact .inl ⟨e, b.queue.subset he, hx⟩
    · exact .inr ⟨e, (b.held .sm).subset he, hx⟩
  · unfold SettledAt at h10 ⊢; rw [cru]; exact h10
  · unfold AppendedTo at h11 ⊢; rw [b.nv]; exact h11
  · rw [i2, h12]
  · unfold ConfigKept at h13 ⊢; rw [b.nv]; exact h13
  · intro q hq; exact (h14 q hq).trans (b.granted q)

/-- With nothing lost and room for every waiting entry, a taking closes with its evaluation alone. -/
theorem closeTaking_of_room {s : State} (h : s.rlc.lost = []) (r : RoomFor (waitingOrder s).length s) :
    closeTaking s = evaluateIfDue s ∧ AtRest (closeTaking s) := by
  have l : (evaluateIfDue s).rlc.lost = [] := by
    rw [((uses_evaluateIfDue s) 0 (by simpa using r)).2, h]
  have e : closeTaking s = evaluateIfDue s := by
    unfold closeTaking
    exact drainLost_of_nil l _
  exact ⟨e, by rw [e]; exact ⟨evalDue_evaluateIfDue s, l⟩⟩

theorem endSession_of_live {s : State} {p : Pos} {ses : Session} (outcome : EndOutcome) (cause : Option Cause)
    (hs : sessionAt s p = some ses) : endSession p outcome cause s = endHere p ses outcome cause s := by
  simp [endSession, hs]

theorem endSession_of_none {s : State} {p : Pos} (outcome : EndOutcome) (cause : Option Cause)
    (hs : sessionAt s p = none) : endSession p outcome cause s = s := by
  simp [endSession, hs]

theorem length_waitingOrder (s : State) : (waitingOrder s).length =
    s.lba.restoreList.length + s.lba.stepList.length + s.lba.startQueue.length := by
  simp [waitingOrder, Nat.add_assoc]

/-- No entry joins at an end. -/
theorem EndsOnly.waiting {p : Pos} {s t : State} (h : EndsOnly p s t) :
    (waitingOrder t).length ≤ (waitingOrder s).length := by
  rw [length_waitingOrder, length_waitingOrder, h.lba]
  have a := List.length_filter_le (fun e : WaitEntry => e.pos != p) s.lba.restoreList
  have b := List.length_filter_le (fun e : StepEntry => e.pos != p) s.lba.stepList
  have c := List.length_filter_le (fun e : WaitEntry => e.pos != p) s.lba.startQueue
  simp only
  omega

/-- A state in which the held-back lists have room closes after one end with its evaluation, and is left at rest. -/
theorem closeTaking_endHere (p : Pos) (ses : Session) (outcome : EndOutcome) (cause : Option Cause) {s : State}
    (h : s.rlc.lost = []) (r : RoomHeld s) :
    closeTaking (endHere p ses outcome cause s) = evaluateIfDue (endHere p ses outcome cause s)
      ∧ AtRest (closeTaking (endHere p ses outcome cause s))
      ∧ EndedAt s (closeTaking (endHere p ses outcome cause s)) p ses outcome cause := by
  have e := endsOnly_endHere p ses outcome cause s
  have room : RoomFor ((waitingOrder s).length + 1) s := fun b => by have := r b; omega
  obtain ⟨r', l'⟩ := e.uses (waitingOrder s).length room
  obtain ⟨c, rest⟩ := closeTaking_of_room (l'.trans h) (r'.mono e.waiting)
  refine ⟨c, rest, ?_⟩
  rw [c]
  exact (endedAt_endHere p ses outcome cause s (room.mono (by omega))).budget (budgetOnly_evaluateIfDue _)

end Sys2Proof.Machine
end

