-- ==== Sys2Proof/Laws/Close.lean ====
section
/-!
SUPPORT. The close of a taking leaves nothing owed, from any state (R92, R115; logs 5 and 24): each judgment of the close
takes one lost directive off, and only the grant of a waiting entry can lose another.
-/
namespace Sys2Proof.Machine

/-- The lost directives and the entries whose grant could lose another. -/
def owed (s : State) : Nat := s.rlc.lost.length + (waitingOrder s).length

theorem owed_congr {s t : State} (hr : t.rlc.lost = s.rlc.lost) (hw : waitingOrder t = waitingOrder s) :
    owed t = owed s := by unfold owed; rw [hr, hw]

/-! ### Offers lose one directive at most -/

theorem lost_offer_le (b : Block) (d : Directive) (s : State) :
    (offer b d s).rlc.lost.length ≤ s.rlc.lost.length + 1 := by
  unfold offer
  split
  · unfold holdBack
    split
    · simp
    · split
      · omega
      · simp [rlc_loseDirective]
  · simp [joinQueue]

/-- A STOP is never counted as lost. -/
theorem lost_queueStop (p : Pos) (tag : Byte) (s : State) : (queueStop p tag s).rlc.lost = s.rlc.lost := by
  unfold queueStop offer
  split
  · unfold holdBack
    split
    · simp
    · simp [queuedAgain]
  · simp [joinQueue]

theorem lost_discardHeld (b : Block) (test : Directive → Bool) (s : State) :
    (discardHeld b test s).rlc.lost = s.rlc.lost := by simp [discardHeld, rlc_settlingEvents]

theorem lost_withdrawQueued (test : Directive → Bool) (s : State) :
    (withdrawQueued test s).rlc.lost = s.rlc.lost := by simp [withdrawQueued, rlc_settlingEvents]

theorem lost_withdrawStart (p : Pos) (s : State) : (withdrawStart p s).rlc.lost = s.rlc.lost := by
  rw [withdrawStart, lost_withdrawQueued, lost_discardHeld]

/-! ### The walk -/

theorem waitingOrder_congr {s t : State} (h : t.lba = s.lba) : waitingOrder t = waitingOrder s := by
  unfold waitingOrder; rw [h]

theorem waitingOrder_raiseBypass (item : WalkItem) (s : State) :
    waitingOrder (raiseBypass item s) = waitingOrder s := by
  have m : ∀ {α β : Type} (g : α → β) (f : α → α) (l : List α), (∀ e, g (f e) = g e) →
      (l.map f).map g = l.map g := by
    intro α β g f l h
    rw [List.map_map]
    exact List.map_congr_left fun e _ => h e
  cases item <;> simp only [raiseBypass, waitingOrder, modLba_lba]
  · rw [m (fun e : WaitEntry => WalkItem.restore e.pos)]
    intro e; split <;> rfl
  · rw [m (fun e : StepEntry => WalkItem.step e.pos)]
    intro e; split <;> rfl
  · rw [m (fun e : WaitEntry => WalkItem.start e.pos)]
    intro e; split <;> rfl

/-- A grant takes its entry off, keeps the order of the others, and loses one directive at most. -/
theorem waitingOrder_grantItem (item : WalkItem) (s : State) :
    grantItem item s = s ∨ ((waitingOrder (grantItem item s)).Sublist (waitingOrder s)
      ∧ item ∉ waitingOrder (grantItem item s)
      ∧ (grantItem item s).rlc.lost.length ≤ s.rlc.lost.length + 1) := by
  unfold grantItem
  split
  · exact .inl rfl
  · next ses h =>
    right
    cases item with
    | start p =>
      have hl : (grantStart p ses s).lba =
          { s.lba with startQueue := s.lba.startQueue.filter fun e => e.pos != p } := by
        simp [grantStart, lba_offer, putSession, setSession]
      refine ⟨?_, ?_, ?_⟩
      · simp only [waitingOrder, hl]
        exact List.Sublist.append (List.Sublist.refl _) ((List.filter_sublist).map _)
      · simp [waitingOrder, hl]
      · exact (lost_offer_le _ _ _).trans (by simp [putSession, setSession])
    | step p =>
      have hl : (grantStep p ses s).lba = { s.lba with
            stepList := s.lba.stepList.filter fun e => e.pos != p }
          ∨ (grantStep p ses s).lba = { s.lba with
            stepList := s.lba.stepList.filter fun e => e.pos != p
            restoreList := s.lba.restoreList.filter fun e => e.pos != p } := by
        simp only [grantStep, lba_offer]
        unfold enterPhase
        simp only
        split
        · right; simp [putSession, setSession, settlingEvent, leaveRestoreList]
        · left; simp [putSession, setSession]
      refine ⟨?_, ?_, ?_⟩
      · rcases hl with hl | hl
        · simp only [waitingOrder, hl]
          exact List.Sublist.append (List.Sublist.append (List.Sublist.refl _) ((List.filter_sublist).map _))
            (List.Sublist.refl _)
        · simp only [waitingOrder, hl]
          exact List.Sublist.append
            (List.Sublist.append ((List.filter_sublist).map _) ((List.filter_sublist).map _)) (List.Sublist.refl _)
      · rcases hl with hl | hl <;> simp [waitingOrder, hl]
      · exact (lost_offer_le _ _ _).trans (by rw [rlc_enterPhase]; simp)
    | restore p =>
      have hl : (grantRestore p ses s).lba =
          { s.lba with restoreList := s.lba.restoreList.filter fun e => e.pos != p } := by
        simp [grantRestore, lba_offer, putSession, setSession, leaveRestoreList]
      refine ⟨?_, ?_, ?_⟩
      · simp only [waitingOrder, hl]
        exact List.Sublist.append (List.Sublist.append ((List.filter_sublist).map _) (List.Sublist.refl _))
          (List.Sublist.refl _)
      · simp [waitingOrder, hl]
      · exact (lost_offer_le _ _ _).trans (by simp [putSession, setSession, leaveRestoreList])

/-- A sublist that lacks an element does without it. -/
theorem sublist_without {α : Type} {a : α} {l x y : List α} (h : l.Sublist (x ++ a :: y)) (n : a ∉ l) :
    l.Sublist (x ++ y) := by
  obtain ⟨u, v, rfl, hu, hv⟩ := List.sublist_append_iff.mp h
  refine List.Sublist.append hu ?_
  cases hv with
  | cons _ hv => exact hv
  | cons_cons _ hv => exact absurd (by simp) n

/-- The walk owes no more after than before: `before` holds the entries it has gone by. -/
theorem owed_walk (items : List WalkItem) (earliest : Option WalkItem) (before : List WalkItem) (s : State)
    (h : (waitingOrder s).Sublist (before ++ items)) :
    owed (walk items earliest s) ≤ s.rlc.lost.length + before.length + items.length := by
  induction items generalizing earliest before s with
  | nil =>
    have := h.length_le
    simp only [walk, owed]
    simp at this ⊢
    omega
  | cons item rest ih =>
    have skip : ∀ earliest, owed (walk rest earliest s) ≤ s.rlc.lost.length + before.length + (item :: rest).length := by
      intro earliest
      have := ih earliest (before ++ [item]) s (by simpa using h)
      simp at this ⊢
      omega
    unfold walk
    split
    · exact skip _
    · split
      · simp only
        have step : ∀ earliest u, u.rlc.lost = (grantItem item s).rlc.lost →
            waitingOrder u = waitingOrder (grantItem item s) →
            owed (walk rest earliest u) ≤ s.rlc.lost.length + before.length + (item :: rest).length := by
          intro earliest u hu hw
          rcases waitingOrder_grantItem item s with e | ⟨sub, gone, lost⟩
          · have := ih earliest (before ++ [item]) u (by rw [hw, e]; simpa using h)
            rw [hu, e] at this
            simp at this ⊢
            omega
          · have := ih earliest before u (by rw [hw]; exact sublist_without (sub.trans h) gone)
            rw [hu] at this
            simp at this ⊢
            omega
        apply step
        · split
          · rw [rlc_raiseBypass]
          · rfl
        · split
          · exact waitingOrder_raiseBypass _ _
          · rfl
      · split
        · have := h.length_le
          simp only [owed]
          simp at this ⊢
          omega
        · exact skip _

theorem owed_evaluate (s : State) : owed (evaluate s) ≤ owed s := by
  unfold evaluate
  simp only
  split
  · exact Nat.le_refl _
  · have := owed_walk (waitingOrder (modLba (fun l => { l with
        evalDue := false, overCap := l.overCap && !withinCaps s }) s)) none []
      (modLba (fun l => { l with evalDue := false, overCap := l.overCap && !withinCaps s }) s) (List.Sublist.refl _)
    refine this.trans ?_
    simp [owed, waitingOrder]

theorem owed_evaluateIfDue (s : State) : owed (evaluateIfDue s) ≤ owed s := by
  unfold evaluateIfDue
  split
  · exact owed_evaluate s
  · exact Nat.le_refl _

/-! ### A judgment of the close -/

theorem owed_endHere (p : Pos) (ses : Session) (outcome : EndOutcome) (cause : Option Cause) (s : State) :
    owed (endHere p ses outcome cause s) ≤ owed s := by
  have w := (endsOnly_endHere p ses outcome cause s).waiting
  have l : (endHere p ses outcome cause s).rlc.lost = s.rlc.lost := by
    rw [endHere_eq]
    show (appendRecord _ _).rlc.lost = _
    rw [(appendRecord_does _ _).1]
    show (settleAccount _ _ _).rlc.lost = _
    rw [(settleAccount_does _ _ _).1]
    show (endQueue _ _ _ _).rlc.lost = _
    have b : (endBudget p ses s).rlc.lost = s.rlc.lost := by
      simp only [endBudget, releaseBudget, lost_discardHeld]; rfl
    unfold endQueue
    split
    · exact b
    · rw [lost_queueStop, lost_withdrawStart, b]
  unfold owed
  rw [l]
  omega

theorem owed_endSession (p : Pos) (outcome : EndOutcome) (cause : Option Cause) (s : State) :
    owed (endSession p outcome cause s) ≤ owed s := by
  unfold endSession
  split
  · exact owed_endHere _ _ _ _ _
  · exact Nat.le_refl _

/-- A change to a line, and an answer, touch the lines alone (R68). -/
theorem modLine_does (l : Terminal) (f : TerminalLine → TerminalLine) (s : State) :
    modLine l f s = { s with tli := (modLine l f s).tli } := by cases l <;> rfl

theorem answerTap_does (l : Terminal) (f : Frame) (s : State) :
    answerTap l f s = { s with tli := (answerTap l f s).tli } := by
  unfold answerTap finishFlight pushRecord pushAnswer
  split
  · rw [modLine_does, modLine_does l _ s]
  · exact modLine_does l _ s

/-- A dropped claim touches neither RLC nor LBA (R10). -/
theorem dropClaim_does (p : Pos) (reason : Reason) (s : State) :
    dropClaim p reason s = { s with
      tli := (dropClaim p reason s).tli, cru := (dropClaim p reason s).cru,
      positions := (dropClaim p reason s).positions } := by
  unfold dropClaim
  split
  · rfl
  · rw [answerTap_does]; rfl

theorem owed_dropClaim (p : Pos) (reason : Reason) (s : State) : owed (dropClaim p reason s) = owed s := by
  rw [dropClaim_does]; rfl

/-- A fault record touches the attention flags and FM alone (R137 to R139). -/
theorem writeFault_does (position : Option Pos) (session : Option Half) (event : FaultEvent) (causes : List Cause)
    (snapshot : Option LastReport) (s : State) :
    writeFault position session event causes snapshot s = { s with
      hlp := (writeFault position session event causes snapshot s).hlp
      fm := (writeFault position session event causes snapshot s).fm } := by
  unfold writeFault
  simp only
  split <;> rfl

theorem owed_handCause {c : Cause} (h : c ≠ .leak) (p : Pos) (s : State) : owed (handCause p c s) ≤ owed s := by
  refine (owed_evaluateIfDue _).trans ?_
  unfold actOnOnsets
  have hc : [c].contains Cause.leak = false := by
    simp only [List.contains_cons, List.contains_nil, Bool.or_false, beq_eq_false_iff_ne]
    exact fun e => h e.symm
  simp only [hc]
  have lock : ∀ x, owed (lockPosition [c] p x) = owed x := by
    intro x; unfold lockPosition; split <;> rfl
  have fault : ∀ a b d e f x, owed (writeFault a b d e f x) = owed x := by
    intro a b d e f x; rw [writeFault_does]; rfl
  unfold endByFault
  split
  · next hx => exact absurd hx (by simp)
  · split
    · exact (owed_endSession _ _ _ _).trans (by rw [lock, fault]; exact Nat.le_refl _)
    · rw [owed_dropClaim, lock, fault]; exact Nat.le_refl _

/-! ### The close -/

theorem leastPos_mem : ∀ {l : List Pos} {p : Pos}, leastPos l = some p → p ∈ l
  | q :: rest, p, h => by
    unfold leastPos at h
    split at h
    · next x hx =>
      have := leastPos_mem hx
      split at h <;> cases h
      · exact List.mem_cons_self
      · exact List.mem_cons_of_mem _ this
    · cases h; exact List.mem_cons_self

theorem leastPos_none : ∀ {l : List Pos}, leastPos l = none → l = []
  | [], _ => rfl
  | q :: rest, h => by
    unfold leastPos at h
    split at h
    · split at h <;> cases h
    · cases h

theorem atRest_drainLost (n : Nat) (s : State) (h : owed s ≤ n) (d : s.lba.evalDue = false) :
    AtRest (drainLost n s) := by
  induction n generalizing s with
  | zero =>
    have : s.rlc.lost = [] := List.eq_nil_of_length_eq_zero (by unfold owed at h; omega)
    exact ⟨d, this⟩
  | succ n ih =>
    rw [drainLost]
    split
    · next e => exact ⟨d, leastPos_none e⟩
    · next p e =>
      apply ih
      · refine (owed_handCause (by decide) p _).trans ?_
        have len := List.length_erase_of_mem (leastPos_mem e)
        have pos : 0 < s.rlc.lost.length := List.length_pos_of_mem (leastPos_mem e)
        have : owed (modRlc (fun r => { r with lost := r.lost.erase p }) s)
            = (s.rlc.lost.erase p).length + (waitingOrder s).length := rfl
        rw [this, len]
        unfold owed at h
        omega
      · exact evalDue_evaluateIfDue _

/-- The close of a taking leaves no evaluation and no lost directive owed (R92, R115; logs 5 and 24). -/
theorem atRest_closeTaking (s : State) : AtRest (closeTaking s) := by
  unfold closeTaking
  exact atRest_drainLost _ _ (Nat.le_refl _) (evalDue_evaluateIfDue s)

/-- A reply put together at the close of its taking reads the state that the taking leaves (R173). -/
theorem acceptClosed_eq (s : State) (body : State → List Byte) :
    acceptClosed s body = accept (closeTaking s) (body (closeTaking s)) := rfl

/-- The close that follows such a reply changes nothing more, so the reply is not out of date (R173). -/
theorem closeTaking_acceptClosed (s : State) (body : State → List Byte) :
    closeTaking (acceptClosed s body).1 = (acceptClosed s body).1 :=
  closeTaking_of_rest (atRest_closeTaking s)

end Sys2Proof.Machine
end

