-- ==== Sys2Proof/Laws/Faults.lean ====
section
/-!
SUPPORT. What a fault record and a judgment with one onset leave (R135 to R141).
-/
namespace Sys2Proof.Machine

/-! ### Flags and records -/

/-- A flag that is set stays set, and only the flags change (R174). -/
theorem hlpButFlags_setFlag (f : AttnFlag) (s : State) : HlpButFlags s.hlp (setFlag f s).hlp := by
  refine ⟨rfl, ?_⟩
  ext i hi
  simp [setFlag]
  intro a; exact .inl a

theorem HlpButFlags.refl (a : Hlp) : HlpButFlags a a := ⟨rfl, BitVec.and_self⟩

theorem HlpButFlags.trans {a b c : Hlp} (h : HlpButFlags a b) (k : HlpButFlags b c) : HlpButFlags a c := by
  refine ⟨by rw [k.1, h.1], ?_⟩
  ext i hi
  have h' := congrArg (fun v : BitVec 11 => v.getLsbD i) h.2
  have k' := congrArg (fun v : BitVec 11 => v.getLsbD i) k.2
  simp at h' k' ⊢
  exact fun x => k' (h' x)

theorem flagIsSet_setFlag_self (f : AttnFlag) (s : State) : flagIsSet f (setFlag f s) = true := by
  have : ∀ n : Fin 11, (1#11 <<< n.val).getLsbD n.val = true := by decide
  simp only [flagIsSet, setFlag, flagMask, BitVec.getLsbD_or, this, Bool.or_true]

/-- A flag that is set stays set through `HlpButFlags`. -/
theorem flagIsSet_of_butFlags {f : AttnFlag} {s t : State} (h : HlpButFlags s.hlp t.hlp)
    (k : flagIsSet f s = true) : flagIsSet f t = true := by
  have h' := congrArg (fun v : BitVec 11 => v.getLsbD (attnIndex f).val) h.2
  simp only [BitVec.getLsbD_and] at h'
  unfold flagIsSet at k ⊢
  rw [k, Bool.and_true] at h'
  exact h'

/-- A fault record joins the ring and its position the roster, FAULT_NEW is set, and nothing else changes but the
attention flags (R137 to R139, R141). -/
theorem recordedIn_writeFault (position : Option Pos) (session : Option Half) (event : FaultEvent)
    (causes : List Cause) (snapshot : Option LastReport) (s : State) :
    RecordedIn s (writeFault position session event causes snapshot s) position session event causes snapshot
      ∧ HlpButFlags s.hlp (writeFault position session event causes snapshot s).hlp
      ∧ (writeFault position session event causes snapshot s).fm = { s.fm with
          ring := (writeFault position session event causes snapshot s).fm.ring
          faultSeq := (writeFault position session event causes snapshot s).fm.faultSeq
          roster := (writeFault position session event causes snapshot s).fm.roster } := by
  unfold writeFault
  by_cases h : 64 ≤ s.fm.ring.length
  · simp only [h, decide_true, ite_true]
    refine ⟨⟨?_, rfl, rfl, flagIsSet_setFlag_self _ _⟩, ?_, rfl⟩
    · simp only [h, ite_true]; rfl
    · exact (hlpButFlags_setFlag .logOverrun s).trans (hlpButFlags_setFlag .faultNew _)
  · simp only [h, decide_false, ite_false, Bool.false_eq_true]
    refine ⟨⟨?_, rfl, rfl, flagIsSet_setFlag_self _ _⟩, ?_, rfl⟩
    · simp only [h, ite_false]; rfl
    · exact hlpButFlags_setFlag .faultNew _

/-! ### The lockout flag -/

/-- A locking onset writes the position's lockout flag, unless its session is SERVICE; nothing else changes (R135). -/
theorem lockPosition_does (onsets : List Cause) (p : Pos) (s : State) :
    lockPosition onsets p s = { s with nv := (lockPosition onsets p s).nv, undo := (lockPosition onsets p s).undo }
      ∧ (lockPosition onsets p s).nv = { s.nv with lockout :=
          (if onsets.any locks && !(sessionClassAt s p == some .service) then s.nv.lockout.set p true
          else s.nv.lockout) }
      ∧ ∀ x ∈ (lockPosition onsets p s).undo, x = s.nv ∨ x ∈ s.undo := by
  unfold lockPosition
  by_cases a : (onsets.any locks && !(sessionClassAt s p == some .service)) = true
  · by_cases b : lockoutAt s p = true
    · have e : s.nv.lockout.set p true = s.nv.lockout := by
        apply Vector.ext
        intro i hi
        by_cases h : p.val = i
        · subst h
          simp only [Vector.getElem_set_self]
          exact b.symm
        · exact Vector.getElem_set_ne _ _ h
      simp only [a, b, Bool.not_true, Bool.and_false, Bool.false_eq_true, ite_false, ite_true, e]
      exact ⟨trivial, trivial, fun x hx => .inr hx⟩
    · have b' : lockoutAt s p = false := by simpa using b
      simp only [a, b', Bool.not_false, Bool.and_self, ite_true]
      refine ⟨rfl, rfl, fun x hx => ?_⟩
      rcases List.mem_cons.mp hx with h | h
      · exact .inl h
      · exact .inr h
  · have a' : (onsets.any locks && !(sessionClassAt s p == some .service)) = false := by simpa using a
    simp only [a', Bool.false_and, Bool.false_eq_true, ite_false]
    exact ⟨trivial, trivial, fun x hx => .inr hx⟩

/-! ### A judgment with one onset -/

/-- What an end leaves is the same seen from a state with the same accounts, clock and occupancies, whose store differs
in its lockout flags alone. -/
theorem EndedAt.from {s x t : State} {p : Pos} {ses : Session} {outcome : EndOutcome} {cause : Option Cause}
    (h : EndedAt x t p ses outcome cause) (nv : x.nv = { s.nv with lockout := x.nv.lockout }) (cru : x.cru = s.cru)
    (rcs : x.rcs = s.rcs) (occ : ∀ q, (posAt x q).occupancy = (posAt s q).occupancy) :
    EndedAt s t p ses outcome cause := by
  obtain ⟨h1, h2, h3, h4, h5, h6, h7, h8, h9, h10, h11, h12, h13, h14⟩ := h
  have settings : x.nv.settings = s.nv.settings := by rw [nv]
  have fw : findWay x ses.card = findWay s ses.card := by simp [findWay, entryAt, cru]
  have fe : findEntry x ses.card = findEntry s ses.card := by simp [findEntry, entryAt, fw, cru]
  refine ⟨h1, h2, h3, h4, h5, h6, h7, h8, h9, ?_, ?_, h12, ?_, fun q hq => ?_⟩
  · unfold SettledAt at h10 ⊢
    rw [fe, cru, settings] at h10
    exact h10
  · have e : settlementOf x p ses outcome cause = settlementOf s p ses outcome cause := by
      simp only [settlementOf, stampNow, rcs, settings]
      congr 1
      rw [nv]
    unfold AppendedTo at h11 ⊢
    rw [h11, e, nv]
  · obtain ⟨c1, c2, c3, c4, c5, c6, c7, c8, c9, c10⟩ := h13
    rw [nv] at c1 c2 c3 c4 c5 c6 c7 c8 c9 c10
    exact ⟨c1, c2, c3, c4, c5, c6, c7, c8, c9, c10⟩
  · rw [← occ q]; exact h14 q hq

/-- A judgment whose one onset is a cause other than LEAK, at a position with a live session, in a room with nothing
owed and room for its directives: the record, the lockout and the end, and nothing is lost (R135). -/
theorem faultEnds_handCause {p : Pos} {ses : Session} {c : Cause} {s : State} (hc : c ≠ .leak)
    (hs : sessionAt s p = some ses) (hd : AtRest s) (room : RoomHeld s) :
    FaultEnds s (handCause p c s) p ses c ∧ AtRest (handCause p c s) := by
  have hleak : [c].contains Cause.leak = false := by
    simp only [List.contains_cons, List.contains_nil, Bool.or_false, beq_eq_false_iff_ne]
    exact fun e => hc e.symm
  let s1 := setCauses p (addCause c (posAt s p).causes) s
  let s2 := writeFault (some p) (sessionNumberAt s1 p) (.cause c) [c] (posAt s1 p).lastReport s1
  let s3 := lockPosition [c] p s2
  have p1 : posAt s1 p = { posAt s p with causes := addCause c (posAt s p).causes } := posAt_modPos_self _ _ _
  have q1 : ∀ q, (posAt s1 q).occupancy = (posAt s q).occupancy := fun q => by
    by_cases h : q = p
    · subst h; rw [p1]
    · exact congrArg _ (posAt_modPos_ne h _ _)
  obtain ⟨rec, flags, fm⟩ := recordedIn_writeFault (some p) (sessionNumberAt s1 p) (.cause c) [c]
    (posAt s1 p).lastReport s1
  have w2 := writeFault_does (some p) (sessionNumberAt s1 p) (.cause c) [c] (posAt s1 p).lastReport s1
  obtain ⟨l1, l2, -⟩ := lockPosition_does [c] p s2
  have e2 : s2 = { s with positions := s1.positions, hlp := s2.hlp, fm := s2.fm } := by
    show writeFault _ _ _ _ _ _ = _
    rw [w2]; rfl
  have e3 : s3 = { s with
      positions := s1.positions, hlp := s2.hlp, fm := s2.fm, nv := s3.nv, undo := s3.undo } := by
    have put : ∀ (x : State) (ps : Vector Position 24) (h : Hlp) (f : Fm) (a : Retained) (b : List Retained),
        x = { s with positions := ps, hlp := h, fm := f } →
        { x with nv := a, undo := b } = { s with positions := ps, hlp := h, fm := f, nv := a, undo := b } := by
      intro x ps h f a b e; subst e; rfl
    exact l1.trans (put _ _ _ _ _ _ e2)
  have pos3 : ∀ q, posAt s3 q = posAt s1 q := fun q => by unfold posAt; rw [e3]
  have nv2 : s2.nv = s.nv := by rw [e2]
  have nv3 : s3.nv = { s.nv with lockout := s3.nv.lockout } := by
    show (lockPosition _ _ _).nv = _
    rw [l2, nv2]
  have rlc3 : s3.rlc = s.rlc := by rw [e3]
  have lba3 : s3.lba = s.lba := by rw [e3]
  have ses3 : sessionAt s3 p = some ses := by
    rw [← hs]; exact sessionAt_congr (by rw [pos3, q1])
  have number : sessionNumberAt s1 p = some ses.number := by
    have := sessionAt_eq_some.mp hs
    unfold sessionNumberAt
    rw [q1, this]
  have cls : sessionClassAt s2 p = some ses.cls := by
    have := sessionAt_eq_some.mp hs
    unfold sessionClassAt
    have : (posAt s2 p).occupancy = .live ses := by
      have : posAt s2 p = posAt s1 p := by unfold posAt; rw [e2]
      rw [this, q1]; assumption
    rw [this]
  have lost3 : s3.rlc.lost = [] := by rw [rlc3]; exact hd.2
  have wait3 : waitingOrder s3 = waitingOrder s := waitingOrder_congr lba3
  have room3 : RoomHeld s3 := fun b => by
    have := room b
    rw [wait3]
    cases b <;> simpa [heldOf, rlc3] using this
  have act : handCause p c s = evaluateIfDue (endHere p ses (faultOutcome ses) (some c) s3) := by
    have end3 : endByFault p c s3 = endHere p ses (faultOutcome ses) (some c) s3 := by
      unfold endByFault
      rw [ses3]
      exact endSession_of_live _ _ ses3
    show evaluateIfDue (actOnOnsets p [c] (posAt s1 p).lastReport s1) = _
    congr 1
    show (if [c].contains Cause.leak then leakActions p (endByFault p c s3) else endByFault p c s3) = _
    rw [hleak, end3]
    simp
  obtain ⟨c1, c2, c3⟩ := closeTaking_endHere p ses (faultOutcome ses) (some c) lost3 room3
  have eo := endsOnly_endHere p ses (faultOutcome ses) (some c) s3
  generalize hu : endHere p ses (faultOutcome ses) (some c) s3 = u at *
  rw [c1] at c2 c3
  rw [← act] at c2 c3
  have b : BudgetOnly u (handCause p c s) := by rw [act]; exact budgetOnly_evaluateIfDue u
  generalize handCause p c s = t at *
  have idle : sessionAt u p = none := by
    have : (posAt u p).occupancy = .unloading (tagOf ses.number) := by
      rw [← hu]
      exact (endedAt_endHere p ses (faultOutcome ses) (some c) s3 (fun b => by have := room3 b; omega)).1
    unfold sessionAt; rw [this]
  have causes : (posAt t p).causes = addCause c (posAt s p).causes := by
    rw [(b.idle p idle).1, eo.here]
    show (posAt s3 p).causes = _
    rw [pos3, p1]
  have fmt : t.fm = s2.fm := by rw [b.frame]; show u.fm = _; rw [eo.frame]; show s3.fm = _; rw [e3]
  have hlpt : HlpButFlags s2.hlp t.hlp := by
    have h1 : t.hlp = u.hlp := by rw [b.frame]
    have h2 : s3.hlp = s2.hlp := by rw [e3]
    rw [h1, ← h2]; exact eo.hlp
  refine ⟨⟨c3.from nv3 (by rw [e3]) (by rw [e3]) (fun q => by rw [pos3, q1]), ?_, causes, ?_, ?_, ?_,
    flags.trans hlpt⟩, c2⟩
  · obtain ⟨r1, r2, r3, r4⟩ := rec
    have st : stampNow s1 = stampNow s := rfl
    have lr : (posAt s1 p).lastReport = (posAt s p).lastReport := by rw [p1]
    have fm1 : s1.fm = s.fm := rfl
    have good : s1.rlc.lastGood = s.rlc.lastGood := rfl
    rw [st, lr, fm1, good, number] at r1
    rw [fm1] at r2 r3
    unfold RecordedIn
    refine ⟨?_, ?_, ?_, flagIsSet_of_butFlags hlpt r4⟩
    · rw [fmt]
      simpa [s2, lr, number] using r1
    · rw [fmt]; exact r2
    · rw [fmt]; exact r3
  · have n1 : t.nv.lockout = s3.nv.lockout := by rw [b.nv]; show u.nv.lockout = _; rw [eo.nv]
    rw [n1]
    show (lockPosition _ _ _).nv.lockout = _
    rw [l2, cls, nv2]
    have : (!(some ses.cls == some CardClass.service)) = (ses.cls != CardClass.service) := by
      cases ses.cls <;> rfl
    simp only [this, List.any_cons, List.any_nil, Bool.or_false]
  · rw [b.frame]; show u.rcs = _; rw [eo.frame]; show s3.rcs = _; rw [e3]
  · rw [b.frame]; show u.tli = _; rw [eo.frame]; show s3.tli = _; rw [e3]

end Sys2Proof.Machine
end

