-- ==== Sys2Proof/Laws/Caps.lean ====
section
/-!
SUPPORT. The reservation sums (R85) under a change of one reservation, and what keeps them within their caps: every
grant, the walk, an evaluation, and a step applied at once (R87, R89, R93, R100).
-/
namespace Sys2Proof.Machine

/-! ### Sums -/

theorem sum_update {l : List Pos} (hn : l.Nodup) {p : Pos} (hp : p ∈ l) (f g : Pos → Nat)
    (h : ∀ q, q ≠ p → f q = g q) : (l.map f).sum + g p = (l.map g).sum + f p := by
  induction l with
  | nil => cases hp
  | cons q l ih =>
    simp only [List.map_cons, List.sum_cons]
    have hn' := List.nodup_cons.mp hn
    by_cases e : q = p
    · subst e
      have : l.map f = l.map g := List.map_congr_left fun x hx => h x fun e => hn'.1 (e ▸ hx)
      rw [this]; omega
    · have hp' : p ∈ l := (List.mem_cons.mp hp).resolve_left fun e' => e e'.symm
      have := ih hn'.2 hp'
      rw [h q e]; omega

/-- A change of one reservation changes the electrical sum by the difference. -/
theorem electricSum_modPos (p : Pos) (f : Position → Position) (s : State) :
    electricSum (modPos p f s) + (posAt s p).lu = electricSum s + (f (posAt s p)).lu := by
  have := sum_update allPositions_nodup (mem_allPositions p) (fun q => (posAt (modPos p f s) q).lu)
    (fun q => (posAt s q).lu) fun q h => by rw [posAt_modPos_ne h]
  simpa [electricSum] using this

theorem waterSum_modPos (p : Pos) (f : Position → Position) (s : State) :
    waterSum (modPos p f s) + (posAt s p).wu = waterSum s + (f (posAt s p)).wu := by
  have := sum_update allPositions_nodup (mem_allPositions p) (fun q => (posAt (modPos p f s) q).wu)
    (fun q => (posAt s q).wu) fun q h => by rw [posAt_modPos_ne h]
  simpa [waterSum] using this

theorem le_sum_of_mem {l : List Pos} (f : Pos → Nat) {p : Pos} (h : p ∈ l) : f p ≤ (l.map f).sum := by
  induction l with
  | nil => cases h
  | cons q l ih =>
    simp only [List.map_cons, List.sum_cons]
    rcases List.mem_cons.mp h with e | e
    · subst e; omega
    · have := ih e; omega

theorem lu_le_electricSum (s : State) (p : Pos) : (posAt s p).lu ≤ electricSum s :=
  le_sum_of_mem (fun q => (posAt s q).lu) (mem_allPositions p)

theorem wu_le_waterSum (s : State) (p : Pos) : (posAt s p).wu ≤ waterSum s :=
  le_sum_of_mem (fun q => (posAt s q).wu) (mem_allPositions p)

/-! ### What the caps and sums depend on -/

/-- Two states with the same reservations, demand limit and caps stand alike to their caps. -/
structure SameCaps (s t : State) : Prop where
  lu : ∀ p, (posAt t p).lu = (posAt s p).lu
  wu : ∀ p, (posAt t p).wu = (posAt s p).wu
  demand : t.lba.demand = s.lba.demand
  feed : t.nv.feedCap = s.nv.feedCap
  water : t.nv.waterCap = s.nv.waterCap

theorem SameCaps.electric {s t : State} (h : SameCaps s t) : electricSum t = electricSum s := by
  unfold electricSum; congr 1; exact List.map_congr_left fun p _ => h.lu p

theorem SameCaps.waterSum {s t : State} (h : SameCaps s t) : Machine.waterSum t = Machine.waterSum s := by
  unfold Machine.waterSum; congr 1; exact List.map_congr_left fun p _ => h.wu p

theorem SameCaps.cap {s t : State} (h : SameCaps s t) : effectiveCap t = effectiveCap s := by
  unfold effectiveCap; rw [h.demand, h.feed]

theorem SameCaps.within {s t : State} (h : SameCaps s t) : withinCaps t = withinCaps s := by
  unfold withinCaps; rw [h.electric, h.waterSum, h.cap, h.water]

theorem SameCaps.trans {s t u : State} (h : SameCaps s t) (k : SameCaps t u) : SameCaps s u :=
  ⟨fun p => (k.lu p).trans (h.lu p), fun p => (k.wu p).trans (h.wu p), k.demand.trans h.demand,
    k.feed.trans h.feed, k.water.trans h.water⟩

theorem SameCaps.refl (s : State) : SameCaps s s := ⟨fun _ => rfl, fun _ => rfl, rfl, rfl, rfl⟩

theorem QueueOnly.sameCaps {s t : State} (h : QueueOnly s t) : SameCaps s t :=
  ⟨fun p => by rw [h.2.2 p], fun p => by rw [h.2.2 p], by rw [h.lba], by rw [h.nv], by rw [h.nv]⟩

theorem sameCaps_putSession (p : Pos) (ses : Session) (s : State) : SameCaps s (putSession p ses s) := by
  have h : ∀ q, (posAt (putSession p ses s) q).lu = (posAt s q).lu ∧ (posAt (putSession p ses s) q).wu = (posAt s q).wu := by
    intro q
    show (posAt (setSession p ses s) q).lu = _ ∧ (posAt (setSession p ses s) q).wu = _
    by_cases e : q = p
    · subst e; simp [setSession, setOccupancy]
    · simp [setSession, setOccupancy, posAt_modPos_ne e]
  exact ⟨fun q => (h q).1, fun q => (h q).2, rfl, rfl, rfl⟩

theorem sameCaps_modLba (f : Lba → Lba) (s : State) (h : (f s.lba).demand = s.lba.demand) :
    SameCaps s (modLba f s) := ⟨fun _ => rfl, fun _ => rfl, h, rfl, rfl⟩

/-- A reservation written within what the grant test allows keeps both sums within their caps (R87). -/
theorem within_modPos {p : Pos} {f : Position → Position} {s : State}
    (he : electricSum s - (posAt s p).lu + (f (posAt s p)).lu ≤ effectiveCap s)
    (hw : waterSum s - (posAt s p).wu + (f (posAt s p)).wu ≤ s.nv.waterCap) : withinCaps (modPos p f s) = true := by
  have e := electricSum_modPos p f s
  have w := waterSum_modPos p f s
  have e' := lu_le_electricSum s p
  have w' := wu_le_waterSum s p
  have c : effectiveCap (modPos p f s) = effectiveCap s := rfl
  have c' : (modPos p f s).nv.waterCap = s.nv.waterCap := rfl
  unfold withinCaps
  rw [c, c']
  simp only [decide_eq_true_eq]
  omega

/-! ### Grants -/

/-- What a grant writes as its reservation, and nothing else that the caps depend on. -/
theorem enterPhase_caps (p : Pos) (ses : Session) (j : Nat) (s : State) :
    SameCaps (setReservation p (stepDraw s p (phaseOf s ses.program j)) (phaseOf s ses.program j).wu
      (staysShed s p (phaseOf s ses.program j)) s) (enterPhase p ses j s) := by
  unfold enterPhase
  simp only
  split
  · refine SameCaps.trans ?_ (sameCaps_putSession _ _ _)
    exact (sameCaps_modLba _ _ rfl).trans (queueOnly_settlingEvent p _).sameCaps
  · exact sameCaps_putSession _ _ _

/-- A grant of an entry that fits keeps both sums within their caps (R87, R94). -/
theorem within_grantItem {item : WalkItem} {s : State} (h : withinCaps s = true) (fits : itemFits s item = true) :
    withinCaps (grantItem item s) = true := by
  unfold grantItem
  split
  · exact h
  · next ses hs =>
    cases item with
    | start p =>
      have hs : sessionAt s p = some ses := hs
      simp only [itemFits, currentDraws, askedDraws, hs, Nat.sub_zero, decide_eq_true_eq] at fits
      let s1 := modLba (fun l => { l with startQueue := l.startQueue.filter fun e => e.pos != p }) s
      let phase := phaseOf s ses.program 0
      have w : withinCaps (setReservation p phase.lu phase.wu false s1) = true := by
        refine within_modPos ?_ ?_
        · refine Nat.le_trans (Nat.add_le_add_right (Nat.sub_le _ _) _) ?_
          exact fits.1
        · refine Nat.le_trans (Nat.add_le_add_right (Nat.sub_le _ _) _) ?_
          exact fits.2
      refine Eq.trans (SameCaps.within ?_) w
      exact (sameCaps_putSession _ _ _).trans (queueOnly_offer _ _ _).sameCaps
    | step p =>
      have hs : sessionAt s p = some ses := hs
      simp only [itemFits, currentDraws, askedDraws, hs, itemPos, decide_eq_true_eq] at fits
      let s1 := modLba (fun l => { l with stepList := l.stepList.filter fun e => e.pos != p }) s
      let phase := phaseOf s ses.program (stepTarget s p)
      have w : withinCaps (setReservation p (stepDraw s p phase) phase.wu (staysShed s p phase) s1) = true := by
        refine within_modPos ?_ ?_
        · exact fits.1
        · exact fits.2
      refine Eq.trans (SameCaps.within ?_) w
      exact (enterPhase_caps p ses (stepTarget s p) s1).trans (queueOnly_offer _ _ _).sameCaps
    | restore p =>
      have hs : sessionAt s p = some ses := hs
      simp only [itemFits, currentDraws, askedDraws, hs, itemPos, decide_eq_true_eq] at fits
      let s1 := leaveRestoreList p s
      have w : withinCaps (modPos p (fun q => { q with lu := (currentPhase s1 ses).lu, shed := false }) s1) = true := by
        refine within_modPos ?_ ?_
        · exact fits.1
        · have : waterSum s1 ≤ s1.nv.waterCap := by
            unfold withinCaps at h
            simp only [decide_eq_true_eq] at h
            exact h.2
          have := wu_le_waterSum s1 p
          show _ - _ + (posAt s1 p).wu ≤ _
          omega
      refine Eq.trans (SameCaps.within ?_) w
      exact (sameCaps_putSession _ _ _).trans (queueOnly_offer _ _ _).sameCaps

theorem sameCaps_raiseBypass (item : WalkItem) (s : State) : SameCaps s (raiseBypass item s) := by
  cases item <;> exact ⟨fun _ => rfl, fun _ => rfl, rfl, rfl, rfl⟩

/-- The walk keeps both sums within their caps (R93). -/
theorem within_walk (items : List WalkItem) (earliest : Option WalkItem) {s : State} (h : withinCaps s = true) :
    withinCaps (walk items earliest s) = true := by
  induction items generalizing earliest s with
  | nil => exact h
  | cons item rest ih =>
    unfold walk
    split
    · exact ih _ h
    · split
      · next fits =>
        apply ih
        have g := within_grantItem h fits
        split
        · rw [(sameCaps_raiseBypass _ _).within]; exact g
        · exact g
      · split
        · exact h
        · exact ih _ h

theorem overCap_grantItem (item : WalkItem) (s : State) : (grantItem item s).lba.overCap = s.lba.overCap := by
  unfold grantItem
  split
  · rfl
  · cases item with
    | start p => simp [grantStart, lba_offer, putSession, setSession]
    | step p =>
      simp only [grantStep, lba_offer]
      unfold enterPhase
      simp only
      split <;> simp [putSession, setSession, leaveRestoreList, settlingEvent]
    | restore p => simp [grantRestore, lba_offer, putSession, setSession, leaveRestoreList]

/-- An evaluation keeps the sums above their caps only while OVER_CAP is set (R100). -/
theorem kept_evaluate {s : State} (h : withinCaps s = true ∨ s.lba.overCap = true) :
    withinCaps (evaluate s) = true ∨ (evaluate s).lba.overCap = true := by
  let s1 := modLba (fun l => { l with evalDue := false, overCap := l.overCap && !withinCaps s }) s
  have w1 : withinCaps s1 = withinCaps s := (sameCaps_modLba _ s rfl).within
  show withinCaps (if s1.lba.overCap then s1 else walk (waitingOrder s1) none s1) = true
    ∨ (if s1.lba.overCap then s1 else walk (waitingOrder s1) none s1).lba.overCap = true
  by_cases o : s1.lba.overCap = true
  · rw [if_pos o]; exact .inr o
  · rw [if_neg o]
    refine .inl (within_walk _ _ ?_)
    rw [w1]
    have : (s.lba.overCap && !withinCaps s) = false := by simpa [s1] using o
    rcases h with h | h
    · exact h
    · rw [h] at this; simpa using this

theorem kept_evaluateIfDue {s : State} (h : withinCaps s = true ∨ s.lba.overCap = true) :
    withinCaps (evaluateIfDue s) = true ∨ (evaluateIfDue s).lba.overCap = true := by
  unfold evaluateIfDue
  split
  · exact kept_evaluate h
  · exact h

/-! ### Ends -/

/-- Reservations that fall keep the sums within their caps. -/
theorem within_of_le {s t : State} (hl : ∀ p, (posAt t p).lu ≤ (posAt s p).lu)
    (hw : ∀ p, (posAt t p).wu ≤ (posAt s p).wu) (hd : t.lba.demand = s.lba.demand)
    (hf : t.nv.feedCap = s.nv.feedCap) (hc : t.nv.waterCap = s.nv.waterCap) (h : withinCaps s = true) :
    withinCaps t = true := by
  have le : ∀ (l : List Pos) (f g : Pos → Nat), (∀ p, f p ≤ g p) → (l.map f).sum ≤ (l.map g).sum := by
    intro l f g hfg
    induction l with
    | nil => simp
    | cons p l ih => simp only [List.map_cons, List.sum_cons]; have := hfg p; omega
  have c : effectiveCap t = effectiveCap s := by unfold effectiveCap; rw [hd, hf]
  have e := le allPositions _ _ hl
  have w := le allPositions _ _ hw
  unfold withinCaps at h ⊢
  rw [c, hc]
  simp only [decide_eq_true_eq] at h ⊢
  exact ⟨Nat.le_trans e h.1, Nat.le_trans w h.2⟩

/-- An end keeps the sums above their caps only while OVER_CAP is set (R22, R100). -/
theorem kept_endHere {p : Pos} {ses : Session} {outcome : EndOutcome} {cause : Option Cause} {s : State}
    (h : withinCaps s = true ∨ s.lba.overCap = true) :
    withinCaps (endHere p ses outcome cause s) = true ∨ (endHere p ses outcome cause s).lba.overCap = true := by
  have e := endsOnly_endHere p ses outcome cause s
  rcases h with h | h
  · left
    refine within_of_le (fun q => ?_) (fun q => ?_) (by rw [e.lba]) (by rw [e.nv]) (by rw [e.nv]) h
    · by_cases x : q = p
      · subst x; rw [e.here]; exact Nat.zero_le _
      · rw [e.others q x]
    · by_cases x : q = p
      · subst x; rw [e.here]; exact Nat.zero_le _
      · rw [e.others q x]
  · right; rw [e.lba]; exact h

theorem kept_endSession {p : Pos} {outcome : EndOutcome} {cause : Option Cause} {s : State}
    (h : withinCaps s = true ∨ s.lba.overCap = true) :
    withinCaps (endSession p outcome cause s) = true ∨ (endSession p outcome cause s).lba.overCap = true := by
  unfold endSession
  split
  · exact kept_endHere h
  · exact h

/-! ### A change of a cap -/

/-- A change of a cap judges OVER_CAP afresh, so that the caps are kept whatever stood before it (R84, R100). -/
theorem kept_capChanged (oldCap oldWater : Nat) (s : State) :
    withinCaps (capChanged oldCap oldWater s).1 = true ∨ (capChanged oldCap oldWater s).1.lba.overCap = true := by
  unfold capChanged
  simp only
  apply kept_evaluateIfDue
  generalize hx : (if effectiveCap s < oldCap ∧ effectiveCap s < electricSum s then shedDown 24 s else (s, 0)) = x
  have owe : ∀ y : State, (withinCaps y = true ∨ y.lba.overCap = true) →
      withinCaps (oweEvaluation y) = true ∨ (oweEvaluation y).lba.overCap = true := by
    intro y hy
    rw [oweEvaluation, (sameCaps_modLba _ y rfl).within]
    exact hy
  have judged : ∀ y : State, (withinCaps y = true ∨ y.lba.overCap = true) →
      withinCaps (if oldCap < effectiveCap s ∨ oldWater < s.nv.waterCap then oweEvaluation y else y) = true
      ∨ (if oldCap < effectiveCap s ∨ oldWater < s.nv.waterCap then oweEvaluation y else y).lba.overCap = true := by
    intro y hy
    split
    · exact owe y hy
    · exact hy
  simp only [decide_eq_true_eq]
  apply judged
  by_cases w : withinCaps x.1 = true
  · rw [if_pos w]
    left; rw [(sameCaps_modLba _ x.1 rfl).within]; exact w
  · rw [if_neg w]
    split
    · right; rfl
    · next n =>
      simp only [Bool.or_eq_true, decide_eq_true_eq, not_or] at n
      right
      simpa using n.2

end Sys2Proof.Machine
end

