-- ==== Sys2Proof/Laws/Store.lean ====
section
/-!
SUPPORT. What a retained write keeps: the journal's order under an append, the ranges under a write of slots, journal or
lockout flags, and both in every state that a fall of the supply could leave (R148, R150, R165).
-/
namespace Sys2Proof.Machine

/-! ### Every store that a cut could leave -/

/-- A retained write keeps a property that the store it makes has. -/
theorem storeAlways_writeNv {P : Retained → Prop} {f : Retained → Retained} {s : State} (h : StoreAlways P s)
    (hf : P s.nv → P (f s.nv)) : StoreAlways P (writeNv f s) := by
  refine ⟨hf h.1, fun x hx => ?_⟩
  rcases List.mem_cons.mp hx with e | e
  · exact e ▸ h.1
  · exact h.2 x e

theorem StoreAlways.congr {P : Retained → Prop} {s t : State} (h : StoreAlways P s) (hn : t.nv = s.nv)
    (hu : t.undo = s.undo) : StoreAlways P t := by
  unfold StoreAlways; rw [hn, hu]; exact h

/-- The supply's fall leaves one of the stores of the taking (R165; log 15). -/
theorem cutStore_mem (cut : Nat) (s : State) : cutStore cut s = s.nv ∨ cutStore cut s ∈ s.undo := by
  unfold cutStore
  cases cut with
  | zero => exact .inl rfl
  | succ n =>
    simp only
    cases h : s.undo[n]? with
    | some x => exact .inr (List.mem_of_getElem? h)
    | none =>
      cases h' : s.undo.getLast? with
      | some x => exact .inr (List.mem_of_getLast? h')
      | none => exact .inl rfl

/-! ### The journal's order -/

/-- An append keeps the journal in order (R148, R150). -/
theorem journalOrdered_appended {nv : Retained} (h : JournalOrdered nv) (r : SettlementRecord) :
    JournalOrdered (appended r nv) := by
  obtain ⟨h1, h2, h3, h4⟩ := h
  unfold appended
  split
  · exact ⟨h1, h2, h3, h4⟩
  · next hx =>
    have hx : nv.exhausted = false := by simpa using hx
    have below : ∀ x ∈ nv.journal, x.seq < nv.nextSeq := fun x hm => by
      have := h4 x hm; simpa [hx] using this
    have sorted : ((nv.journal ++ [{ r with seq := nv.nextSeq }]).map SettlementRecord.seq).Pairwise (· < ·) := by
      rw [List.map_append, List.pairwise_append]
      refine ⟨h1, by simp, ?_⟩
      intro a ha b hb
      obtain ⟨x, hm, rfl⟩ := List.mem_map.mp ha
      have : b = nv.nextSeq := by simpa using hb
      rw [this]; exact below x hm
    split
    · next hn =>
      refine ⟨sorted, h2, h3, fun x hm => ?_⟩
      rcases List.mem_append.mp hm with hm | hm
      · have := below x hm
        simp only [ite_true]; omega
      · have : x = { r with seq := nv.nextSeq } := by simpa using hm
        rw [this]; simp only [ite_true]; exact h3
    · next hn =>
      refine ⟨sorted, by simp only; omega, by simp only; omega, fun x hm => ?_⟩
      simp only [hx, Bool.false_eq_true, ite_false]
      rcases List.mem_append.mp hm with hm | hm
      · have := below x hm; omega
      · have : x = { r with seq := nv.nextSeq } := by simpa using hm
        rw [this]; simp only; omega

/-- The order is of the journal and its numbers alone. -/
theorem JournalOrdered.congr {a b : Retained} (h : JournalOrdered a) (hj : b.journal = a.journal)
    (hn : b.nextSeq = a.nextSeq) (hx : b.exhausted = a.exhausted) : JournalOrdered b := by
  unfold JournalOrdered; rw [hj, hn, hx]; exact h

/-! ### The ranges -/

/-- The ranges are of what the host's writes set alone. -/
theorem StoreInRange.congr {a b : Retained} (h : StoreInRange a) (hp : b.programs = a.programs)
    (hr : b.ranges = a.ranges) (hb : b.bands = a.bands) (hs : b.settings = a.settings) (hf : b.feedCap = a.feedCap)
    (hw : b.waterCap = a.waterCap) (ht : b.trims = a.trims) : StoreInRange b := by
  unfold StoreInRange; rw [hp, hr, hb, hs, hf, hw, ht]; exact h

theorem StoreInRange.kept {a b : Retained} (h : StoreInRange a) (k : ConfigKept a b) : StoreInRange b :=
  h.congr k.1 k.2.1 k.2.2.1 k.2.2.2.1 k.2.2.2.2.1 k.2.2.2.2.2.1 k.2.2.2.2.2.2.1

/-! ### Grants and ends -/

/-- Grants, sheds and evaluations rewrite slots alone. -/
theorem BudgetOnly.storeAlways {P : Retained → Prop} (hP : ∀ nv slots, P nv → P { nv with slots := slots })
    {s t : State} (b : BudgetOnly s t) (h : StoreAlways P s) : StoreAlways P t := by
  refine ⟨?_, fun x hx => ?_⟩
  · rw [b.nv]; exact hP _ _ h.1
  · rcases b.undo x hx with e | e
    · exact h.2 x e
    · rw [e]; exact hP _ _ h.1

/-- An end appends its record and empties its slot (R22). -/
theorem storeAlways_endHere {P : Retained → Prop} (hP : ∀ nv slots, P nv → P { nv with slots := slots })
    (hA : ∀ nv r, P nv → P (appended r nv)) {p : Pos} {ses : Session} {outcome : EndOutcome} {cause : Option Cause}
    {s : State} (h : StoreAlways P s) : StoreAlways P (endHere p ses outcome cause s) := by
  obtain ⟨u, hq, -, hf, -⟩ := endQueue_does p ses outcome s
  rw [endHere_eq]
  refine storeAlways_writeNv (f := fun nv => { nv with slots := nv.slots.set p none }) ?_ (fun x => hP _ _ x)
  have a := (appendRecord_does (settlementOf s p ses outcome cause)
    (settleAccount ses (chargeOf s.nv.settings.graceMinutes outcome ses) (endQueue p ses outcome s))).1
  have b := (settleAccount_does ses (chargeOf s.nv.settings.graceMinutes outcome ses) (endQueue p ses outcome s)).1
  have w : StoreAlways P
      (settleAccount ses (chargeOf s.nv.settings.graceMinutes outcome ses) (endQueue p ses outcome s)) := by
    refine h.congr ?_ ?_
    · rw [b]; exact (by rw [hq.1, hf])
    · rw [b]; exact (by rw [hq.1, hf])
  refine (storeAlways_writeNv (f := appended (settlementOf s p ses outcome cause)) w (hA _ _)).congr ?_ ?_
  · rw [a]; rfl
  · rw [a]; rfl

/-! ### The directive queue -/

/-- What keeps the bounds of the queue and of the held-back lists: they shorten, keep their order, and gain nothing. -/
theorem QueuesBounded.of_sublist {s t : State} (h : QueuesBounded s)
    (hq : (t.rlc.queue.map QueueEntry.dir).Sublist (s.rlc.queue.map QueueEntry.dir))
    (hh : ∀ b, (heldOf b t).length ≤ (heldOf b s).length) : QueuesBounded t := by
  have starts : ∀ q : List QueueEntry, ((q.filter fun e => isStart e.dir.order).map fun e => e.dir.pos) =
      (((q.map QueueEntry.dir).filter fun d => isStart d.order).map Directive.pos) := by
    intro q; rw [List.filter_map, List.map_map]; rfl
  refine ⟨?_, fun b => (hh b).trans (h.2.1 b), ?_⟩
  · have := hq.length_le
    simp only [List.length_map] at this
    exact this.trans h.1
  · have n := h.2.2
    rw [starts] at n ⊢
    exact ((hq.filter _).map _).nodup n

/-- An offer keeps the bounds (R115). -/
theorem queuesBounded_offer (b : Block) (d : Directive) {s : State} (h : QueuesBounded s) :
    QueuesBounded (offer b d s) := by
  unfold offer
  split
  · unfold holdBack
    split
    · next hl =>
      refine ⟨by simpa using h.1, fun c => ?_, by simpa using h.2.2⟩
      by_cases e : c = b
      · subst e; simp; omega
      · simpa [e] using h.2.1 c
    · split
      · exact h
      · exact ⟨by rw [rlc_loseDirective]; exact h.1, fun c => by rw [heldOf_loseDirective]; exact h.2.1 c,
          by rw [rlc_loseDirective]; exact h.2.2⟩
  · next hr =>
    simp only [queueRefuses, Bool.or_eq_true, decide_eq_true_eq, Bool.and_eq_true, not_or, not_le] at hr
    refine ⟨by simp [joinQueue]; omega, fun c => by simpa [joinQueue] using h.2.1 c, ?_⟩
    simp only [joinQueue, setQueue_rlc, List.filter_append, List.map_append]
    by_cases st : isStart d.order = true
    · simp only [st, List.filter_cons, ite_true, List.filter_nil, List.map_cons, List.map_nil]
      rw [List.nodup_append]
      refine ⟨h.2.2, by simp, ?_⟩
      intro a ha b hb e
      have hb : b = d.pos := by simpa using hb
      obtain ⟨x, hx, rfl⟩ := List.mem_map.mp ha
      have hx := List.mem_filter.mp hx
      apply hr.2
      refine ⟨st, ?_⟩
      simp only [inQueue, List.any_eq_true, Bool.and_eq_true, beq_iff_eq]
      exact ⟨x, hx.1, by rw [e, hb], hx.2⟩
    · have st : isStart d.order = false := by simpa using st
      simp only [st, List.filter_cons, Bool.false_eq_true, ite_false, List.filter_nil, List.map_nil, List.append_nil]
      exact h.2.2

theorem queuesBounded_discardHeld (b : Block) (test : Directive → Bool) {s : State} (h : QueuesBounded s) :
    QueuesBounded (discardHeld b test s) := by
  refine h.of_sublist ?_ fun c => ?_
  · simp [discardHeld, rlc_settlingEvents]
  · rw [heldOf_discardHeld]
    split
    · next e => subst e; exact List.length_filter_le _ _
    · exact Nat.le_refl _

theorem queuesBounded_withdrawQueued (test : Directive → Bool) {s : State} (h : QueuesBounded s) :
    QueuesBounded (withdrawQueued test s) := by
  refine h.of_sublist ?_ fun c => ?_
  · rw [queue_withdrawQueued]
    induction s.rlc.queue with
    | nil => simp
    | cons e q ih =>
      simp only [List.filterMap_cons]
      by_cases t : test e.dir = true
      · by_cases n : e.seq.isNone = true
        · simp only [t, n, ite_true]
          exact ih.cons _
        · simp only [t, n, ite_true, ite_false, List.map_cons, Bool.false_eq_true]
          exact ih.cons_cons _
      · simp only [t, ite_false, List.map_cons, Bool.false_eq_true]
        exact ih.cons_cons _
  · apply Nat.le_of_eq; cases c <;> simp [withdrawQueued, heldOf, rlc_settlingEvents]

end Sys2Proof.Machine
end

