-- ==== Sys2Proof/Tests/Slice0.lean ====
section
/-!
SUPPORT. The author's own tests: the well-formedness checks each with an ill-formed term, the spec's worked figures,
one small step of each command, and for every obligation with hypotheses a state and operands that meet them.
-/
namespace Sys2Proof.Tests
open Sys2Proof Sys2Proof.Machine

set_option maxRecDepth 30000

/-! ### Small rooms -/

/-- The state that a command leaves. -/
def after (c : Instr) (s : State) : State :=
  match exec c s with
  | .next t => t
  | _ => s

/-- A WASHER program of two phases: T is 14. -/
def washerProgram : Program where
  cls := .washer
  base := 250
  rate := 0
  phases := [
    { lu := 2, wu := 12, minutes := 4, heating := false, sheddable := false, shedLu := 0 },
    { lu := 30, wu := 0, minutes := 10, heating := true, sheddable := false, shedLu := 0 }]

/-- A DRYER program of one phase, heating and sheddable: T is 40 and the extension. -/
def dryerProgram : Program where
  cls := .dryer
  base := 150
  rate := 5
  phases := [{ lu := 55, wu := 0, minutes := 40, heating := true, sheddable := true, shedLu := 25 }]

/-- An ENROLLED position. -/
def enrolled (serial : Word) (cls : MachineClass) : Position :=
  { Position.fresh with presence := .enrolled, serial := some serial, cls := some cls }

/-- An open room: the loop runs, a washer stands at position 1 and a dryer at position 13, programs 2 and 9 are
present, and cards 1 to 9 are FREE, 10 to 19 SERVICE and 20 to 29 BLOCKED. -/
def openRoom : State :=
  let s := State.reset
  { s with
    rcs := { s.rcs with mode := .opened }
    nv := { s.nv with
      programs := (s.nv.programs.set 2 (some washerProgram)).set 9 (some dryerProgram)
      ranges := ((s.nv.ranges.set 0 (some { low := 1, high := 9, cls := .free })).set 1
        (some { low := 10, high := 19, cls := .service })).set 2 (some { low := 20, high := 29, cls := .blocked }) }
    rlc := { s.rlc with loop := .running, inFlight := none }
    positions := (s.positions.set 0 (enrolled 7 .washer)).set 12 (enrolled 9 .dryer) }

/-- A session of ACCOUNT card 100 on program 2. -/
def washerSession (state : LiveState) : Session where
  number := 5
  terminal := some .one
  card := 100
  cls := .account
  origin := some .host
  program := 2
  ext := 0
  mult := 100
  quote := 250
  nominal := 14
  phase := 0
  shed := false
  pendingStep := none
  r := 0
  s := 0
  z := 0
  u := 0
  w := 0
  holdMinute := 0
  startMinute := none
  state := state

/-- The entry of card 100, with a held amount. -/
def entry (held : Nat) : Account :=
  { card := 100, balance := 5000, held, status := .good, origin := .host, stamp := 1 }

/-- An open room with the entry of card 100 cached. -/
def cachedRoom : State :=
  { openRoom with cru := { openRoom.cru with cache := openRoom.cru.cache.set 12 (some (entry 0)), useCounter := 1 } }

/-- An open room with a session at position 1. -/
def sessionRoom (ses : Session) : State :=
  { openRoom with
    cru := { openRoom.cru with cache := openRoom.cru.cache.set 12 (some (entry 250)), useCounter := 1 }
    nv := { openRoom.nv with slots := openRoom.nv.slots.set 0 (some (snapshotOf ses)) }
    positions := openRoom.positions.set 0
      { enrolled 7 .washer with occupancy := .live ses, lu := 2, wu := 12 } }

/-- A washer that runs. -/
def runningRoom : State := sessionRoom (washerSession .running)

/-- A room with a session right after a minute boundary, and one with a second session at position 13. -/
def boundaryRoom (ses : Session) : State := { sessionRoom ses with boundary := true }
def twoSlots : State :=
  let ses := { washerSession .running with number := 6 }
  { setOccupancy 12 (.live ses) (writeSlot 12 (some (snapshotOf ses)) runningRoom) with undo := [] }

/-- That room after a loss of power between the record of the second session's end and the emptying of its slot. -/
def cutRoom : State :=
  let ses := { washerSession .running with number := 6 }
  { twoSlots with nv := appended (settlementOf twoSlots 12 ses .hostCancel none) twoSlots.nv }

/-- An open room where the TAP_START of an uncached card waits. -/
def claimRoom : State := after (.tapStart .one 100 1 2 0) openRoom

/-- A room whose supply is down, and one whose RESET_N is held. -/
def downRoom : State := { State.reset with supply := false }
def heldRoom : State := { State.reset with resetHeld := true }

/-- A room where HLP serves a request. -/
def servingRoom : State := after .partReset State.reset

/-- A sweep with its check byte. -/
def sweepOf (content : List Byte) : List Byte := content ++ [-(byteSum content)]

/-- A running sweep is in flight. -/
def flownRoom : State := after .runningSweepSend openRoom

/-- A running sweep of one mark of position 1, without and with HOLD. -/
def markSweep (flags : Byte) : List Byte := sweepOf [0, 1, 255, 0, 0, 1, 1, flags, 0]

/-- An enrol sweep that names position 1 as a washer of serial 7. -/
def enrolSweep : List Byte := sweepOf [1, 0, 255, 1, 0, 3, 1, 0, 0, 0, 0, 7, 0, 0, 0]

/-! ### Well-formedness -/

theorem test_wellFormed_frame : (Instr.hostFrame [0xA5, 0, 1, 0x0D, 0x2E]).wellFormed = true := by decide
theorem test_illFormed_frame : (Instr.hostFrame [0xA5, 0, 1, 0x0D, 0x2F]).wellFormed = false := by decide
theorem test_wellFormed_bad_frame : (Instr.hostBadFrame [0xA5, 0, 1, 0x0D, 0x2F]).wellFormed = true := by decide
theorem test_illFormed_bad_frame : (Instr.hostBadFrame [0xA5, 0, 1, 0x0D, 0x2E]).wellFormed = false := by
  decide
theorem test_wellFormed_bad_terminal_frame : (Instr.terminalBadFrame .one [0xA5, 251]).wellFormed = true := by
  decide
theorem test_illFormed_bad_terminal_frame :
    (Instr.terminalBadFrame .one (frameBytes 2 [0, 0, 0, 9])).wellFormed = false := by decide
theorem test_illFormed_program :
    (Instr.programWrite 0 (some (ProgramFields.mk 0 0 0
      (List.replicate 49 { lu := 0, wu := 0, minutes := 1, flags := 0, shedLu := 0 })))).wellFormed = false := by decide
theorem test_illFormed_settings : (Instr.settingsWrite (List.replicate 84 (1, 0))).wellFormed = false := by decide

/-! ### The spec's worked figures -/

/-- 12.2: the CRC of Identify. -/
theorem test_crc : frameBytes 1 [] = [0xA5, 0x00, 0x01, 0x0D, 0x2E] := by decide

/-- 12.4: the first enrol sweep. -/
theorem test_first_enrol_sweep :
    State.reset.rlc.inFlight.map sweepBytes = some [0x01, 0x00, 0xFF, 0x01, 0x00, 0xFF] := by decide

/-- 2.3.1: quotes. -/
theorem test_quotes :
    quoteOf washerProgram 0 115 20000 = 288 ∧ quoteOf dryerProgram 20 120 20000 = 300
      ∧ quoteOf { dryerProgram with base := 20000, rate := 200 } 90 250 20000 = 20000
      ∧ quoteOf { dryerProgram with base := 20000, rate := 200 } 90 250 60000 = 60000 := by decide

/-- Table 2-5: charges. -/
theorem test_charges :
    let dryer := { washerSession .running with quote := 300, nominal := 70 }
    let short := { washerSession .running with quote := 100, nominal := 15 }
    chargeOf 3 .completed { dryer with r := 70, s := 14 } = 270
      ∧ chargeOf 3 .fault { dryer with r := 35, s := 14 } = 120
      ∧ chargeOf 3 .fault { dryer with r := 2, s := 0 } = 0 ∧ chargeOf 0 .fault { dryer with r := 2, s := 0 } = 8
      ∧ chargeOf 0 .fault { dryer with r := 2, s := 2 } = 4
      ∧ chargeOf 3 .fault { washerSession .running with nominal := 43, r := 20, u := 3 } = 116
      ∧ chargeOf 3 .fault { short with r := 75, s := 75 } = 0 ∧ chargeOf 3 .fault { short with r := 25, s := 25 } = 17
      ∧ chargeOf 3 .withdrawn dryer = 0 ∧ chargeOf 3 .hostCancel dryer = 0
      ∧ chargeOf 3 .userAbort { dryer with r := 5 } = 300 := by decide

/-- 9.4: late-start distances. -/
theorem test_distances : distanceTo 1220 1320 = 100 ∧ distanceTo 1220 0 = 8860 ∧ distanceTo 0 0 = 10080 := by decide

/-- 7.8: a gap grows by the gap of what it lost. -/
theorem test_gap :
    let old : FaultRecord :=
      { seq := 901, position := none, session := none, primary := .input .floodActive, causes := [], sweep := 0,
        epoch := 0, gap := 1, snapshot := none }
    (overwriteOldest [old, { old with seq := 902, gap := 0 }]).map FaultRecord.gap = [2] := by decide

/-! ### One small step of each command -/

theorem test_power_up : (after .powerUp runningRoom).nv.journal.map (fun r => (r.outcome, r.charge)) = [(.powerLost, 0)]
    ∧ (posAt (after .powerUp runningRoom) 0).occupancy = .unloading 5 := by decide
/-- RESET_N finds the writes of the taking before it complete: a later loss of power takes none of them back (R165). -/
theorem test_reset_completes_writes :
    let written := after (.feedSet 200 50) openRoom
    (after (.powerFail 1) written).nv.feedCap = 300
      ∧ (after (.powerFail 1) (after (.resetNAsserted 0) written)).nv.feedCap = 200 := by decide
theorem test_power_fail : (after (.powerFail 0) openRoom).supply = false := by decide
theorem test_reset_asserted : (after (.resetNAsserted 0) openRoom).resetHeld = true := by decide
theorem test_warm_reset :
    (after .warmReset { runningRoom with resetHeld := true }).nv.journal.map SettlementRecord.outcome = [.warmReset] := by
  decide
theorem test_host_frame : (after (.hostFrame [0xA5, 0x00, 0x01, 0x0D, 0x2E]) State.reset).hlp.served.map
    (fun x => (x.request, x.reply.kind)) = some (.good .identify, 0x81) := by decide
theorem test_host_bad_frame : (after (.hostBadFrame [0xA5, 251]) State.reset).hlp.served.isNone = true := by decide
theorem test_host_gap :
    (after .hostFrameGapTimeout { openRoom with hlp := { openRoom.hlp with assembler := .assembling [3] } }).hlp.assembler
      = .hunting := by decide
theorem test_host_reply_sent : (after .hostReplySent (after .status openRoom)).hlp.served.isNone = true := by decide
theorem test_part_reset_reply :
    (after .hostReplySent { servingRoom with lba := { servingRoom.lba with overCap := true } }).lba.overCap = false := by
  decide
theorem test_attention :
    (after (.attentionClear 0xFFFF) State.reset).hlp.flags = 0 ∧ (after (.attentionEnable 1) State.reset).hlp.enables = 1
      ∧ ((after .attentionRead State.reset).hlp.served.map fun x => x.reply.body) = some [4, 0, 7, 0xFF, 1] := by decide
theorem test_clock_set : (after (.clockSet 77 10079) State.reset).rcs =
    { clockSet := true, epoch := 77, minuteOfWeek := 10079, minuteLeft := 600, mode := .closed } := by decide
theorem test_room_mode : (after (.roomModeSet 0) State.reset).rcs.mode = .opened := by decide
theorem test_program :
    (after (.programWrite 2 (some { cls := 0, base := 1, rate := 7, phases :=
      [{ lu := 1, wu := 1, minutes := 3, flags := 0, shedLu := 9 }] })) State.reset).nv.programs[2] =
        some { cls := .washer, base := 1, rate := 0, phases :=
          [{ lu := 1, wu := 1, minutes := 3, heating := false, sheddable := false, shedLu := 0 }] }
      ∧ (after (.programRead 2) State.reset).hlp.served.map (fun x => x.reply) = some { kind := 0x93, body := [0] } := by
  decide
/-- Each flag of a phase is one byte of Program Read's reply (R182). -/
theorem test_program_read : ((after (.programRead 9) openRoom).hlp.served.map fun x => x.reply.body) =
    some [1, 1, 0, 150, 5, 1, 55, 0, 40, 1, 1, 25, 40, 55, 0, 0] := by decide
/-- A body of 2 bytes has presence absent (R181). -/
theorem test_presence_length : requestOf { kind := 0x19, body := [0, 2] } = .bad 0x19 .badLength
    ∧ requestOf { kind := 0x12, body := [0, 1] } = .bad 0x12 .badLength := by decide
theorem test_band : (after (.bandWrite 1 (some { start := 60, mult := 20, quiet := true })) State.reset).nv.bands[1] =
    some { start := 60, mult := 50, quiet := true } := by decide
theorem test_range : (after (.rangeWrite 7 (some { low := 3, high := 3, cls := 0 })) State.reset).nv.ranges[7] =
    some { low := 3, high := 3, cls := .blocked } := by decide
theorem test_settings : (after (.settingsWrite [(1, 91), (6, 9)]) State.reset).nv.settings =
    { Settings.first with extensionMax := 90, silenceLimit := 10 } := by decide
theorem test_trim : (after (.trimSet 1 0xFF) openRoom).nv.trims[0] = -1
    ∧ (posAt (after (.trimSet 1 0xFF) openRoom) 0).corrected = 0
    ∧ (posAt (after (.trimSet 1 0x7F) openRoom) 0).corrected = 127 := by decide
theorem test_feed : (after (.feedSet 5000 600) State.reset).nv.feedCap = 2000
    ∧ (after (.feedSet 1 0) runningRoom).lba.overCap = true := by decide
theorem test_demand : (after (.demandLimit 3000 255) State.reset).lba.demand = some { cap := 2000, left := 144000 }
    ∧ flagIsSet .demandExpired (after .demandExpiry (after (.demandLimit 1 1) State.reset)) = true := by decide
theorem test_account_load : (findEntry (after (.accountLoad 100 700 0 0) openRoom) 100).map (fun e => e.2) =
    some { card := 100, balance := 700, held := 0, status := .good, origin := .host, stamp := 1 } := by decide
theorem test_account_credit : (findEntry (after (.accountCredit 100 999999) cachedRoom) 100).map (fun e => e.2.balance) =
    some 999999 := by decide
theorem test_account_evict : findEntry (after (.accountEvict 100) cachedRoom) 100 = none := by decide
theorem test_account_status : (findEntry (after (.accountStatus 100 1) cachedRoom) 100).map (fun e => e.2.status) =
    some .suspended := by decide
theorem test_wanted_read : ((after .wantedRead claimRoom).hlp.served.map fun x => x.reply.body) =
    some [1, 0, 0, 0, 100, 1, 0] := by decide
theorem test_service : (after (.positionService 1 1) openRoom).nv.service[0] = .outOfService
    ∧ (after (.positionService 1 1) runningRoom).nv.service[0] = .inService := by decide
theorem test_clear_lockout :
    (after (.positionClearLockout 1) (after (.silenceLimit 0) runningRoom)).nv.lockout[0] = true := by decide
theorem test_position_read : ((after (.positionRead 24) State.reset).hlp.served.map fun x => x.reply.kind) = some 0xB2 := by
  decide
theorem test_session_cancel : (after (.sessionCancel 1 5) runningRoom).nv.journal.map SettlementRecord.outcome =
    [.hostCancel] := by decide
theorem test_journal_read : ((after (.journalRead 0 8) State.reset).hlp.served.map fun x => x.reply.body) =
    some [0, 0, 0, 0, 0, 0, 0, 0, 0, 0, 0, 0, 0, 0, 1] := by decide
theorem test_journal_release :
    (after (.journalRelease 1) { openRoom with nv := (after (.sessionCancel 1 5) runningRoom).nv }).nv.journal = [] := by
  decide
theorem test_fault_read : (after (.faultRead 8) (after (.silenceLimit 0) runningRoom)).fm.ring = [] := by decide
theorem test_roster : ((after .rosterRead (after (.silenceLimit 0) runningRoom)).hlp.served.map fun x => x.reply.body) =
    some [1, 1, 1, 0, 0x40, 1]
      ∧ (after .rosterClear (after (.silenceLimit 0) runningRoom)).fm.roster = [{ position := 1, count := 1 }] := by decide
theorem test_loop_restart : (after .loopRestart openRoom).rlc.loop = .enrolling := by decide
theorem test_terminal_gap : (lineOf (after (.terminalFrameGapTimeout .two)
    (modLine .two (fun l => { l with assembler := .assembling [] }) openRoom)) .two).assembler = .hunting := by decide
theorem test_terminal_sent : (lineOf (after (.terminalRecordSent .one) claimRoom) .one).out = [] := by decide
theorem test_tap_start_free : (sessionAt (after (.tapStart .one 5 1 2 0) openRoom) 0).map (fun x => (x.state, x.quote)) =
    some (.starting, 0) := by decide
theorem test_tap_start_account :
    (sessionAt (after (.tapStart .one 100 13 9 20) cachedRoom) 12).map (fun x => (x.quote, x.nominal)) = some (250, 60)
      ∧ (findEntry (after (.tapStart .one 100 13 9 20) cachedRoom) 100).map (fun e => e.2.held) = some 250 := by decide
theorem test_tap_balance : (lineOf (after (.tapBalance .two 100) cachedRoom) .two).out.map (fun f => (f.kind, f.body)) =
    [(0x91, [2, 0, 0, 0, 100, 0, 0, 0, 0, 0x13, 0x88, 0, 0, 0, 0, 0])] := by decide
theorem test_tap_abort : (after (.tapAbort .two 100 1) runningRoom).nv.journal.map
    (fun r => (r.outcome, r.charge)) = [(.userAbort, 250)] := by decide
theorem test_wanted_expiry : (findEntry (after (.wantedExpiry 100) claimRoom) 100).map (fun e => e.2.origin) =
    some .provisional := by decide
theorem test_minute : (sessionAt (after .minuteBoundary runningRoom) 0).map Session.r = some 1 := by decide
/-- The row of a limit acts right after a boundary, and a limit lowered since then waits for the next (R18). -/
theorem test_budget_timeout :
    let waiting := boundaryRoom { washerSession .waitingBudget with w := 10 }
    (after (.budgetTimeout 0) waiting).nv.journal.map SettlementRecord.outcome = [.budgetTimeout]
      ∧ (after (.budgetTimeout 0) (after (.settingsWrite [(5, 1)]) waiting)).nv.journal = [] := by decide
theorem test_overrun : (after (.overrun 0) (boundaryRoom { washerSession .running with r := 24 })).nv.journal.map
    (fun r => (r.outcome, r.cause)) = [(.fault, some .overrun)] := by decide
/-- An end cut off after its append is not recorded again, also where the recovery is cut off in its turn (R167). -/
theorem test_cut_end_recorded_once :
    (recoverSlots .powerLost cutRoom).nv.journal.map SettlementRecord.position = [12, 0]
      ∧ ((recoverSlots .powerLost cutRoom).undo.map fun nv => (unrecordedSlots nv, nv.journal.length)) =
          [([], 2), ([0], 1), ([0], 1)] := by decide
/-- R107, Table 12-3: the header of a running sweep without directives; its flags byte is 0 by log 58. -/
theorem test_sweep_send : flownRoom.rlc.inFlight.map sweepBytes = some [0, 1, 255, 0, 0, 0] := by decide
theorem test_held_offer :
    let held := { openRoom with rlc := { openRoom.rlc with heldRlc := [{ pos := 3, order := .identify }] } }
    (after (.heldBackOffer .rlc 0) held).rlc.queue.map (fun e => e.dir.pos) = [3]
      ∧ (after (.heldBackOffer .rlc 0) { held with rlc := { held.rlc with loop := .broken } }).rlc.queue = [] := by decide
theorem test_sweep_timeout : (after .sweepReturnTimeout flownRoom).rlc.badSweeps = 1 := by decide
theorem test_sweep_return : (posAt (after (.runningSweepReturn ⟨false, markSweep 1⟩) flownRoom) 0).hold = true
    ∧ (posAt (after (.runningSweepReturn ⟨false, markSweep 0⟩) flownRoom) 12).missing = 1 := by decide
theorem test_loop_break :
    (after .loopBreak { runningRoom with rlc := { runningRoom.rlc with badSweeps := 3 } }).rlc.loop = .broken := by decide
theorem test_resend_due :
    (after (.directiveResendDue 0) { runningRoom with rlc := { runningRoom.rlc with queue := [{
      dir := { pos := 0, order := .lockDoor }, seq := some 1, sends := 3, good := 2, since := 2, flying := false,
      withdrawn := false }] } }).nv.journal.map SettlementRecord.cause = [some .adapterSilent] := by decide
theorem test_missing_limit :
    (sessionAt (after (.missingMarkLimit 0) (modPos 0 (fun q => { q with missing := 6 }) runningRoom)) 0).map
      Session.state = some .suspended := by decide
theorem test_heater_dead :
    (after (.heaterDead 0) (modPos 0 (fun q => { q with low := 6 }) runningRoom)).nv.lockout[0] = true := by decide
theorem test_start_timeout :
    (after (.startTimeout 0) (modPos 0 (fun q => { q with startCount := some 20 })
      (sessionRoom (washerSession .starting)))).nv.journal.map SettlementRecord.outcome = [.startFailed] := by decide
theorem test_enrol_retry :
    (after .enrolRetryTimer { openRoom with rlc := { openRoom.rlc with retryLeft := some 1 } }).rlc.inFlight.isSome = true
    := by decide
theorem test_enrol_return : (posAt (after (.enrolSweepReturn ⟨false, enrolSweep⟩) State.reset) 0).serial = some 7
    ∧ (after (.enrolSweepReturn ⟨false, enrolSweep⟩) State.reset).rlc.loop = .running := by decide
/-- What Loop Restart discarded is taken by no block, though its number is that of the new sweep. -/
theorem test_discarded_sweeps :
    (after (.enrolSweepReturn ⟨true, enrolSweep⟩) State.reset).rlc.loop = .enrolling
      ∧ (after (.runningSweepReturn ⟨true, markSweep 1⟩) flownRoom).rlc.inFlight.isSome = true := by decide
theorem test_silence_limit : (after (.silenceLimit 0) runningRoom).nv.journal.map SettlementRecord.cause =
    [some .adapterSilent] := by decide
theorem test_flood : (after .floodInActivation runningRoom).rcs.mode = .alarm
    ∧ (after .floodInActivation runningRoom).nv.journal.map SettlementRecord.outcome = [.roomStop]
    ∧ (after .floodInRelease (after .floodInActivation runningRoom)).fm.floodActive = false := by decide
theorem test_stop : (after .stopInActivation runningRoom).rcs.mode = .closed
    ∧ (after .stopInRelease (after .stopInActivation runningRoom)).fm.stopActive = false := by decide
/-- A wrong-length TAP_BALANCE is refused with position 0 (R181). -/
theorem test_bad_balance : (lineOf (after (.terminalBadFrame .one (frameBytes 2 [0, 0, 0, 9, 8])) openRoom) .one).out.map
    (fun f => f.body.drop 5) = [[0, 1]] := by decide
/-- At a reconciliation the own tag with ENDED completes a waiting session (Table 6-4). -/
theorem test_waiting_session_completes :
    (reconcile 0 false { switch := 1, cls := .washer, serial := 7, cycle := .ended, tag := 5, phase := 0 }
      (sessionRoom (washerSession .waitingBudget))).nv.journal.map SettlementRecord.outcome = [.completed] := by decide
/-- A draw-changing directive that no list keeps is lost with a settling event (R103, R115). -/
theorem test_lost_directive_settles :
    let full := { runningRoom with
      rlc := { runningRoom.rlc with heldLba := List.replicate 64 { pos := 1, order := .shed } } }
    (posAt (holdBack .lba { pos := 0, order := .shed } full) 0).settle = 0
      ∧ (holdBack .lba { pos := 0, order := .shed } full).rlc.lost = [0] := by decide
/-- A power-up while RESET_N is held sends nothing (R169). -/
theorem test_held_power_up : (after .powerUp heldRoom).rlc.loop = .down ∧ (after .powerUp heldRoom).rlc.inFlight = none :=
  by decide
theorem test_terminal_bad_frame : (lineOf (after (.terminalBadFrame .one (frameBytes 9 [])) openRoom) .one).out.map
    Frame.kind = [0x93] := by decide
theorem test_no_word : decodeTableWord 8 0 = none ∧ State.reset.withFetchWord 8 0 = State.reset := ⟨rfl, rfl⟩

/-! ### A state and operands for every obligation's hypotheses -/

theorem taking_of {s : State} (h : takes s = true ∧ s.lba.evalDue = false ∧ s.rlc.lost = []) : Taking s := ⟨h.1, h.2⟩

theorem serving_of {s : State} (h : takes s = true ∧ s.lba.evalDue = false ∧ s.rlc.lost = [] ∧ s.hlp.served = none) :
    Serving s := ⟨⟨h.1, h.2.1, h.2.2.1⟩, h.2.2.2⟩

theorem roomHeld_of {s : State}
    (h : ∀ b ∈ allBlocks, (heldOf b s).length + (waitingOrder s).length + 48 ≤ 64) : RoomHeld s :=
  fun b => h b (by cases b <;> decide)

/-- A test of the live sessions, position by position. -/
theorem sessions_of {s : State} {P : Session → Bool} (h : ∀ p : Pos, (sessionAt s p).all P = true) (p : Pos)
    (ses : Session) (hs : sessionAt s p = some ses) : P ses = true := by
  simpa [hs] using h p

theorem oneHeld_of {s : State} (h : ∀ b ∈ allBlocks, (heldOf b s).length < 64) : OneHeld s :=
  fun b => h b (by cases b <;> decide)

theorem reset_serving : Serving State.reset := serving_of (by decide)
theorem open_serving : Serving openRoom := serving_of (by decide)
theorem open_roomHeld : RoomHeld openRoom := roomHeld_of (by decide)
theorem cached_serving : Serving cachedRoom := serving_of (by decide)
theorem session_serving (ses : Session) : Serving (sessionRoom ses) := serving_of ⟨rfl, rfl, rfl, rfl⟩
theorem session_roomHeld (ses : Session) : RoomHeld (sessionRoom ses) := fun b => by cases b <;> exact Nat.le_of_ble_eq_true rfl
theorem claim_serving : Serving claimRoom := serving_of (by decide)
theorem claim_roomHeld : RoomHeld claimRoom := roomHeld_of (by decide)

theorem witness_StepTakesFrontCommand :
    ({ State.reset with pending := [.identify] }).pending = .identify :: [] ∧ State.reset.pending = [] := ⟨rfl, rfl⟩

/-- A room in which every timer has just more than a tenth of a second to run. -/
def quietRoom : State :=
  { openRoom with
    rcs := { openRoom.rcs with minuteLeft := 2 }
    lba := { openRoom.lba with demand := some { cap := 100, left := 2 } }
    cru := { openRoom.cru with wanted := [{ card := 100, age := 78, waiters := [] }] }
    rlc := { openRoom.rlc with sweepClock := 3, retryLeft := some 2 }
    positions := openRoom.positions.set 0 { enrolled 7 .washer with silence := 1198 } }

theorem witness_IdleStepPassesOneTenth : quietRoom.pending = [] ∧ Taking quietRoom ∧ QuietTenth quietRoom := by
  refine ⟨rfl, taking_of ⟨rfl, rfl, rfl⟩, ?_, ?_, ?_, rfl, ?_, ?_, ?_⟩
  · intro d h
    have : d = { cap := 100, left := 2 } := (Option.some.inj h).symm
    subst this; decide
  · decide
  · decide
  · intro n h
    have : n = 2 := (Option.some.inj h).symm
    omega
  · decide
  · decide

theorem witness_NothingIsTakenWhileDown :
    takes downRoom = false ∧ downRoom.supply = false ∧ takes heldRoom = false ∧ heldRoom.supply = true := by decide

theorem witness_WarmResetKeepsTheClock :
    (heldRoom.supply = true ∧ heldRoom.resetHeld = true) ∧ (servingRoom.supply = true ∧ servesPartReset servingRoom = true)
      ∧ (openRoom.supply = true ∧ openRoom.resetHeld = false ∧ servesPartReset openRoom = false)
      ∧ downRoom.supply = false := by decide

theorem witness_RecoveryRecordsEachSessionOnce :
    let ses := snapshotOf (washerSession .running)
    let cut := writeNv (appended (settlementOf runningRoom 0 (washerSession .running) .fault none)) runningRoom
    openRoom.nv.slots[(0 : Pos)] = none ∧ runningRoom.nv.slots[(0 : Pos)] = some ses
      ∧ alreadyRecorded runningRoom.nv 0 ses = false ∧ runningRoom.nv.exhausted = false
      ∧ cut.nv.slots[(0 : Pos)] = some ses ∧ alreadyRecorded cut.nv 0 ses = true
      ∧ (unrecordedSlots twoSlots.nv).length ≤ numbersLeft twoSlots.nv
      ∧ (heldRoom.supply = true ∧ heldRoom.resetHeld = true) := by decide

theorem witness_CutsLeaveWholeWrites :
    openRoom.supply = true ∧ downRoom.supply = false ∧ heldRoom.resetHeld = true
      ∧ (State.reset.resetHeld = false ∧ State.reset.supply = true ∧ State.reset.recovering = true)
      ∧ (beginTaking openRoom).resetHeld = false ∧ (beginTaking openRoom).recovering = false
      ∧ State.reset.undo = [] ∧ takes heldRoom = false ∧ heldRoom.pending = [] := by decide

theorem witness_FramesAreReadBack : (List.replicate 250 (0 : Byte)).length ≤ 250 := by decide

theorem witness_HostFrameIsItsRequest :
    openRoom.hlp.assembler = .hunting ∧ requestOf { kind := 1, body := [] } = .good .identify
      ∧ requestOf { kind := 1, body := [0] } = .bad 1 .badLength
      ∧ requestOf { kind := 6, body := [] } = .bad 6 .unknownType ∧ Serving openRoom :=
  ⟨rfl, by decide, by decide, by decide, open_serving⟩

theorem witness_TerminalFramesAndRecords_abandoned :
    Taking openRoom ∧ isAbandonedFrame [0xA5, 251] = true ∧ isAbandonedFrame [0xA5, 0, 1, 0x0D, 0x2F] = true
      ∧ openRoom.hlp.assembler = .hunting ∧ (lineOf openRoom .two).assembler = .hunting :=
  ⟨open_serving.1, by decide, by decide, rfl, rfl⟩

theorem witness_TerminalFramesAndRecords_unknown :
    Taking openRoom ∧ (lineOf openRoom .one).assembler = .hunting
      ∧ terminalBodyLength 2 ≠ some ([0, 0, 0, 9, 8] : List Byte).length
      ∧ terminalBodyLength 1 ≠ some ([0, 0, 0, 9, 1, 2] : List Byte).length
      ∧ terminalBodyLength 4 ≠ some ([] : List Byte).length :=
  ⟨open_serving.1, rfl, by decide, by decide, by decide⟩

/-- A room where HLP serves a Status, a further request waits, and a number of LINK_BUSY replies stand. -/
def busyLink (busy ahead : Nat) : State :=
  let s := after .status openRoom
  { s with hlp := { s.hlp with
    waiting := some (.good .identify), busy := List.replicate busy { kind := 0xFF, body := [1, 10] }, ahead } }

theorem witness_HostRequestsTakeTheirTurn_sent :
    (Taking (busyLink 1 1) ∧ sendingBusy (busyLink 1 1) = true)
      ∧ (Taking servingRoom ∧ sendingBusy servingRoom = false ∧ servesPartReset servingRoom = true)
      ∧ (sendingBusy openRoom = false ∧ servesPartReset openRoom = false ∧ openRoom.hlp.waiting = none)
      ∧ (Taking (busyLink 0 0) ∧ sendingBusy (busyLink 0 0) = false ∧ servesPartReset (busyLink 0 0) = false
        ∧ (busyLink 0 0).hlp.served ≠ none ∧ (busyLink 0 0).hlp.waiting = some (.good .identify)) := by
  refine ⟨⟨taking_of ?_, ?_⟩, ⟨taking_of ?_, ?_⟩, ?_, taking_of ?_, ?_⟩ <;> decide

theorem witness_HostRequestsTakeTheirTurn_busy :
    (Taking (after .status openRoom) ∧ (after .status openRoom).hlp.served ≠ none
        ∧ (after .status openRoom).hlp.waiting = none)
      ∧ (Taking (busyLink 3 0) ∧ (busyLink 3 0).hlp.waiting ≠ none ∧ (busyLink 3 0).hlp.busy.length < 4)
      ∧ (Taking (busyLink 4 0) ∧ (busyLink 4 0).hlp.waiting ≠ none ∧ 4 ≤ (busyLink 4 0).hlp.busy.length) := by
  refine ⟨⟨taking_of ?_, ?_⟩, ⟨taking_of ?_, ?_⟩, taking_of ?_, ?_⟩ <;> decide

theorem witness_IdentityAndAttention : Serving State.reset ∧ Serving openRoom := ⟨reset_serving, open_serving⟩

theorem witness_ClockSetWritesTheClock :
    Serving openRoom ∧ 10079 < (10080#16).toNat ∧ (10079#16).toNat ≤ 10079 :=
  ⟨open_serving, by decide, by decide⟩

/-- A room with a set clock and one quiet band, at a minute of week. -/
def bandRoom (start minute : Nat) : State :=
  { openRoom with
    nv := { openRoom.nv with bands := openRoom.nv.bands.set 0 (some { start, mult := 100, quiet := true }) }
    rcs := { openRoom.rcs with clockSet := true, minuteOfWeek := minute } }

theorem witness_BandModeAndDistance :
    (∃ i : Fin 8, (State.reset.nv.bands[i]).isSome) ∧ State.reset.rcs.clockSet = false
      ∧ (bandInForce (bandRoom 60 60)).2.start ≤ 60 ∧ 59 < (bandInForce (bandRoom 60 59)).2.start
      ∧ effectiveMode (bandRoom 60 59) = .quiet ∧ lateDistance (bandRoom 60 60) = some 10080
      ∧ lateDistance (bandRoom 60 59) = some 1 := by
  refine ⟨⟨0, ?_⟩, ?_⟩ <;> decide

/-- A room in ALARM, with FLOOD_IN active or released. -/
def alarmRoom (flood : Bool) : State :=
  { openRoom with rcs := { openRoom.rcs with mode := .alarm }, fm := { openRoom.fm with floodActive := flood } }

theorem witness_RoomModeSetTakesItsTests :
    (Serving (alarmRoom true) ∧ (alarmRoom true).fm.floodActive = true) ∧ (Serving (alarmRoom false)
      ∧ (alarmRoom false).fm.floodActive = false ∧ ∀ p, (posAt (alarmRoom false) p).causes.contains .leak = false)
      ∧ Serving openRoom := by
  refine ⟨⟨serving_of ?_, rfl⟩, ⟨serving_of ?_, rfl, ?_⟩, open_serving⟩ <;> decide

/-- A program record's fields with a base, an hour's worth of washing. -/
def someFields (cls : Byte) (base : Half) : ProgramFields where
  cls := cls
  base := base
  rate := 0
  phases := [{ lu := 120, wu := 40, minutes := 60, flags := 0, shedLu := 0 }]

theorem witness_ProgramWriteStoresTheRecord :
    (Serving runningRoom ∧ 16 ≤ (16#8).toNat ∧ (15 : ProgramId).val = (15#8).toNat ∧ (2 : ProgramId).val = (2#8).toNat)
      ∧ 0 < programUsers runningRoom 2 ∧ programUsers runningRoom 15 = 0 ∧ classOf (someFields 2 0).cls = none
      ∧ classOf (someFields 1 0).cls = some .dryer ∧ programValid .dryer (someFields 1 20001) = false
      ∧ programValid .dryer (someFields 1 20000) = true :=
  ⟨⟨session_serving _, by decide, by decide, by decide⟩, by decide⟩

theorem witness_BandAndRangeWritesStoreTheEntry_band :
    Serving openRoom ∧ 8 ≤ (8#8).toNat ∧ (7 : Fin 8).val = (7#8).toNat ∧ (0 : Fin 8).val = (0#8).toNat
      ∧ (∀ j : Fin 8, j ≠ 0 → openRoom.nv.bands[j] = none)
      ∧ (∃ j : Fin 8, j ≠ 7 ∧ (openRoom.nv.bands[j]).isSome) ∧ 10079 < (10080#16).toNat
      ∧ (∃ j : Fin 8, ∃ b, j ≠ 7 ∧ openRoom.nv.bands[j] = some b ∧ b.start = (0#16).toNat)
      ∧ (10079#16).toNat ≤ 10079
      ∧ (∀ (j : Fin 8) (b : Band), j ≠ 7 → openRoom.nv.bands[j] = some b → b.start ≠ (10079#16).toNat) := by
  refine ⟨open_serving, by decide, by decide, by decide, by decide, ⟨0, by decide⟩, by decide,
    ⟨0, { start := 0, mult := 100, quiet := false }, by decide⟩, by decide, ?_⟩
  intro j b _ h
  have all : ∀ j : Fin 8, (openRoom.nv.bands[j]).all (fun b => b.start != 10079) = true := by decide
  simpa [h] using all j

theorem witness_BandAndRangeWritesStoreTheEntry_range :
    Serving openRoom ∧ 8 ≤ (8#8).toNat ∧ (7 : Fin 8).val = (7#8).toNat ∧ rangeClassOf 3 = none
      ∧ (5#32).toNat < (6#32).toNat ∧ rangeClassOf 2 = some .service ∧ (5#32).toNat ≤ (5#32).toNat
      ∧ rangeClassAt openRoom.nv 30 = none ∧ rangeClassAt openRoom.nv 29 = some .blocked :=
  ⟨open_serving, by decide⟩

theorem witness_SettingsWriteStoresTogether :
    Serving openRoom ∧ ([] : List (Byte × Half)).length < 1 ∧ 13 < (List.replicate 14 ((1, 1) : Byte × Half)).length
      ∧ namedTwice [(1, 5), (1, 6)] = true
      ∧ storeSettings (greatestCardCount openRoom) [(9, 2)] openRoom.nv.settings = none
      ∧ namedTwice [(1, 90), (6, 600)] = false
      ∧ storeSettings (greatestCardCount openRoom) [(1, 90), (6, 600)] openRoom.nv.settings =
          some { Settings.first with extensionMax := 90, silenceLimit := 600 }
      ∧ openRoom.nv.settings.silenceLimit ≤ 600 ∧ (0#8 = 0 ∨ 14 ≤ (14#8).toNat) ∧ 9 ≤ (9#8).toNat
      ∧ 2 ≤ (2#16).toNat :=
  ⟨open_serving, by decide⟩

/-- A room with both polarities ACTIVE_HIGH and the lines' states given. -/
def highRoom (flood stop : Bool) : State :=
  { openRoom with
    nv := { openRoom.nv with settings := { Settings.first with floodPolarity := .activeHigh, stopPolarity := .activeHigh } }
    fm := { openRoom.fm with floodActive := flood, stopActive := stop } }

/-- The settings that a lowered SilenceLimit leaves, and a running room whose position 1 is silent beyond it. -/
def lowSilence : Settings := { Settings.first with silenceLimit := 60 }
def silentRoom : State := modPos 0 (fun q => { q with silence := 600 }) runningRoom

theorem witness_SettingsWriteStoresTogether_effects :
    (Serving silentRoom ∧ RoomHeld silentRoom ∧ storeSettings 1 [(6, 60)] silentRoom.nv.settings = some lowSilence
        ∧ lowSilence.silenceLimit < silentRoom.nv.settings.silenceLimit
        ∧ silenceDue (storedAs { silentRoom.nv with settings := lowSilence } silentRoom) 0 = true
        ∧ (∀ q, q ≠ 0 → silenceDue (storedAs { silentRoom.nv with settings := lowSilence } silentRoom) q = false)
        ∧ (sessionAt silentRoom 0).isSome = true ∧ greatestCardCount silentRoom = 1)
      ∧ (Serving openRoom ∧ RoomHeld openRoom
        ∧ storeSettings 0 [(10, 0)] Settings.first = some { Settings.first with floodPolarity := .activeHigh }
        ∧ storeSettings 0 [(11, 0)] Settings.first = some { Settings.first with stopPolarity := .activeHigh }
        ∧ isActiveLevel openRoom.floodLevel .activeHigh = true ∧ isActiveLevel openRoom.stopLevel .activeHigh = true
        ∧ openRoom.fm.floodActive = false ∧ openRoom.fm.stopActive = false ∧ greatestCardCount openRoom = 0)
      ∧ (Serving (highRoom true true)
        ∧ isActiveLevel (highRoom true true).floodLevel .activeLow = false
        ∧ isActiveLevel (highRoom true true).stopLevel .activeLow = false
        ∧ (storeSettings 0 [(10, 1)] (highRoom true true).nv.settings).isSome = true
        ∧ (storeSettings 0 [(11, 1)] (highRoom true true).nv.settings).isSome = true) :=
  ⟨⟨serving_of ⟨rfl, rfl, rfl, rfl⟩, roomHeld_of (by decide), by decide⟩, ⟨open_serving, open_roomHeld, by decide⟩,
    serving_of ⟨rfl, rfl, rfl, rfl⟩, by decide⟩

theorem witness_PositionRequestsAreWritten_trim :
    Serving openRoom ∧ posOfNumber (0#8).toNat = none ∧ posOfNumber (25#8).toNat = none
      ∧ posOfNumber (1#8).toNat = some 0 ∧ posOfNumber (24#8).toNat = some 23 :=
  ⟨open_serving, by decide⟩

theorem witness_AccountRequestsChangeOneEntry :
    Serving cachedRoom ∧ (0#32).toNat = 0 ∧ 999999 < (1000000#32).toNat ∧ (999999#32).toNat ≤ 999999
      ∧ 2 ≤ (2#8).toNat ∧ (1#8).toNat < 2 ∧ findEntry cachedRoom 101 = none
      ∧ findEntry cachedRoom 100 = some (12, entry 0) ∧ (entry 0).held = 0
      ∧ findEntry runningRoom 100 = some (12, entry 250) ∧ 0 < (entry 250).held :=
  ⟨cached_serving, by decide⟩

/-- A room whose set of card 100 is full of pinned entries of other cards. -/
def pinnedRoom : State :=
  let pin := fun i card s => setEntry i (some { entry 1 with card := card }) s
  pin 14 36 (pin 13 20 (pin 12 4 openRoom))

theorem witness_AccountLoadWritesTheEntry :
    (BitVec.ofInt 32 (-1000000)).toInt < -999999 ∧ 999999 < (1000000#32).toInt ∧ 2 ≤ (2#8).toNat
      ∧ -999999 ≤ (BitVec.ofInt 32 (-999999)).toInt ∧ (BitVec.ofInt 32 (-999999)).toInt ≤ 999999 ∧ (1#8).toNat < 2
      ∧ (Serving pinnedRoom ∧ findEntry pinnedRoom 100 = none ∧ allocate pinnedRoom 100 = none)
      ∧ (Serving cachedRoom ∧ cachedRoom.cru.useCounter < 4294967295 ∧ wantedFor cachedRoom 100 = none
        ∧ findEntry cachedRoom 100 = some (12, entry 0))
      ∧ (Serving openRoom ∧ findEntry openRoom 100 = none ∧ allocate openRoom 100 = some 12)
      ∧ (Serving claimRoom ∧ allocate claimRoom 100 ≠ none ∧ RoomHeld claimRoom) := by
  refine ⟨?_, ?_, ?_, ?_, ?_, ?_, ⟨serving_of ?_, ?_⟩, ⟨cached_serving, ?_⟩, ⟨open_serving, ?_⟩, claim_serving, ?_,
    claim_roomHeld⟩ <;> decide

theorem witness_AllocationAndUseOfEntries :
    let top := { cachedRoom with cru := { cachedRoom.cru with useCounter := 4294967295 } }
    allocate openRoom 100 = some 12 ∧ allocate pinnedRoom 100 = none
      ∧ (entryAt cachedRoom 12 = some (entry 0) ∧ cachedRoom.cru.useCounter < 4294967295)
      ∧ (entryAt top 12 = some (entry 0) ∧ top.cru.useCounter = 4294967295) := by decide

theorem witness_ReadsChangeNothing :
    Serving openRoom ∧ 16 ≤ (16#8).toNat ∧ openRoom.nv.programs[(15 : ProgramId)] = none
      ∧ openRoom.nv.programs[(2 : ProgramId)] = some washerProgram ∧ posOfNumber (24#8).toNat = some 23
      ∧ posOfNumber (25#8).toNat = none :=
  ⟨open_serving, by decide⟩

theorem witness_FeedSetStoresBothCaps :
    Serving runningRoom ∧ RoomHeld runningRoom ∧ waitingOrder runningRoom = [] ∧ runningRoom.lba.overCap = false
      ∧ withinCaps (storedAs { runningRoom.nv with feedCap := 2, waterCap := 12 } runningRoom) = true :=
  ⟨session_serving _, session_roomHeld _, by decide⟩

theorem witness_DemandLimitBoundsTheCap :
    (Taking openRoom ∧ RoomHeld openRoom ∧ openRoom.hlp.served = none ∧ openRoom.lba.demand = none)
      ∧ (Taking quietRoom ∧ RoomHeld quietRoom ∧ quietRoom.lba.demand ≠ none) :=
  ⟨⟨open_serving.1, open_roomHeld, rfl, rfl⟩, taking_of ⟨rfl, rfl, rfl⟩, roomHeld_of (by decide), by decide⟩

/-- A room whose waiting order has one entry of each kind: a shed dryer at position 13, the step-up of the washer at
position 1, and a start at position 2 that three grants have passed. A demand limit is in force. -/
def waitRoom (cap : Nat) : State :=
  let washer := { washerSession .running with pendingStep := some 1 }
  let dryer := { washerSession .running with number := 6, program := 9, nominal := 40, shed := true }
  { openRoom with
    lba := { openRoom.lba with
      demand := some { cap, left := 600 }
      restoreList := [{ pos := 12, bypass := 0 }], stepList := [{ pos := 0, target := 1, bypass := 0 }]
      startQueue := [{ pos := 1, bypass := 3 }] }
    positions := ((openRoom.positions.set 0 { enrolled 7 .washer with occupancy := .live washer, lu := 2, wu := 12 }).set 1
      { enrolled 8 .washer with occupancy := .live { washerSession .waitingBudget with number := 7 } }).set 12
      { enrolled 9 .dryer with occupancy := .live dryer, lu := 25, shed := true } }

theorem witness_WaitingOrderIsWalked :
    (OneHeld (waitRoom 30) ∧ waitingOrder (waitRoom 30) = [.restore 12, .step 0, .start 1]
        ∧ (sessionAt (waitRoom 30) 0).isSome = true)
      ∧ (itemFits (waitRoom 30) (.restore 12) = false ∧ bypassOf (waitRoom 30) (.restore 12) < 3)
      ∧ itemFits (waitRoom 30) (.start 1) = true
      ∧ (itemFits (waitRoom 28) (.start 1) = false ∧ 3 ≤ bypassOf (waitRoom 28) (.start 1))
      ∧ (sessionAt (waitRoom 30) 0).map Session.pendingStep = some (some 1)
      ∧ (withinCaps (waitRoom 30) = true ∧ withinCaps (waitRoom 26) = false)
      ∧ (Taking (waitRoom 30) ∧ (waitRoom 30).lba.demand = some { cap := 30, left := 600 }
        ∧ 30 < (waitRoom 30).nv.feedCap ∧ (waitRoom 30).lba.overCap = false ∧ RoomHeld { waitRoom 30 with rlc := Rlc.fresh }) :=
  ⟨⟨oneHeld_of (by decide), by decide⟩, by decide, by decide, by decide, by decide, by decide,
    taking_of ⟨rfl, rfl, rfl⟩, by decide, by decide, by decide, roomHeld_of (by decide)⟩

/-- The dryer of position 13 with a session that is not shed, under a demand limit. -/
def dryerRoom (cap : Nat) : State :=
  { openRoom with
    lba := { openRoom.lba with demand := some { cap, left := 600 } }
    positions := openRoom.positions.set 12 { enrolled 9 .dryer with
      occupancy := .live { washerSession .running with number := 6, program := 9, nominal := 40 }, lu := 55, settle := 2,
      corrected := 3, low := 5 } }

theorem witness_FeedSetStoresBothCaps_sheds :
    let lowered := storedAs { (dryerRoom 55).nv with feedCap := 54, waterCap := 60 } (dryerRoom 55)
    (Serving (dryerRoom 55) ∧ RoomHeld (dryerRoom 55)) ∧ effectiveCap lowered < effectiveCap (dryerRoom 55)
      ∧ nextShed lowered = some 12 :=
  ⟨⟨serving_of ⟨rfl, rfl, rfl, rfl⟩, roomHeld_of (by decide)⟩, by decide⟩

theorem witness_StepsAndShedsChangeReservations :
    (nextShed (dryerRoom 55) = none ∧ nextShed (dryerRoom 54) = some 12)
      ∧ (OneHeld (dryerRoom 54) ∧ (sessionAt (dryerRoom 54) 12).isSome = true)
      ∧ (sessionAt runningRoom 0).map Session.pendingStep = some none
      ∧ (sessionAt (waitRoom 30) 0).map Session.pendingStep = some (some 1) :=
  ⟨by decide, ⟨oneHeld_of (by decide), by decide⟩, by decide, by decide⟩

theorem witness_PositionRequestsAreWritten :
    Serving runningRoom ∧ posOfNumber (1#8).toNat = some 0 ∧ 2 ≤ (2#8).toNat
      ∧ (∃ cls, sessionClassAt runningRoom 0 = some cls ∧ cls ≠ .service)
      ∧ serviceOf 1 = some .outOfService ∧ sessionClassAt runningRoom 12 = none
      ∧ (∀ c ∈ (posAt runningRoom 0).causes, locks c = false)
      ∧ (Serving (setCauses 0 [.leak] openRoom) ∧ ∃ c ∈ (posAt (setCauses 0 [.leak] openRoom) 0).causes, locks c = true) :=
  by
  refine ⟨session_serving _, by decide, by decide, ⟨.account, by decide⟩, by decide, by decide,
    by decide, serving_of (by decide), ⟨.leak, by decide⟩⟩

theorem witness_SessionCancelEndsOrDrops :
    sessionNumberAt runningRoom 0 ≠ some 6
      ∧ (Serving claimRoom ∧ claimAt claimRoom 0 =
          some { number := 1, terminal := .one, card := 100, cls := .account, program := 2, ext := 0 }
        ∧ (lineOf claimRoom .one).flight = some (.start 100 0))
      ∧ (Serving runningRoom ∧ RoomHeld runningRoom ∧ sessionAt runningRoom 0 = some (washerSession .running)
        ∧ (washerSession .running).number = 5) :=
  ⟨by decide, ⟨claim_serving, by decide⟩, session_serving _, session_roomHeld _, by decide⟩

theorem witness_JournalAndFaultReads_journal :
    Serving openRoom ∧ (0#8).toNat = 0 ∧ 8 < (9#8).toNat ∧ 1 ≤ (1#8).toNat ∧ (8#8).toNat ≤ 8
      ∧ openRoom.nv.exhausted = false ∧ openRoom.nv.nextSeq ≤ (1#32).toNat ∧ (0#32).toNat < openRoom.nv.nextSeq :=
  ⟨open_serving, by decide⟩

theorem witness_JournalAndFaultReads_faults :
    Serving runningRoom ∧ (0#8).toNat = 0 ∧ 8 < (9#8).toNat ∧ 1 ≤ (1#8).toNat ∧ (8#8).toNat ≤ 8
      ∧ ∃ e ∈ (after (.silenceLimit 0) runningRoom).fm.roster, e.position = (0 : Pos).succ :=
  ⟨session_serving _, by decide, by decide, by decide, by decide, ⟨{ position := 1, count := 1 }, by decide⟩⟩

theorem witness_QuoteExtensionAndCharge :
    (∃ f ∈ dryerProgram.phases, f.heating = true) ∧ dryerProgram.cls = .dryer ∧ washerProgram.cls = .washer :=
  ⟨⟨_, List.mem_cons_self, rfl⟩, rfl, rfl⟩

/-- A room with a number of records in the output queue of terminal 1. -/
def fullLine (n : Nat) (s : State) : State :=
  modLine .one (fun l => { l with out := List.replicate n { kind := 0x91, body := [] } }) s

/-- What the checks find of a card at position 1 of a room. -/
def admitted (cls : CardClass) : Admitted := { pos := 0, cls, program := 2, prog := washerProgram, ext := 0 }

theorem witness_TapStartChecksInOrder :
    (Taking (fullLine 6 openRoom) ∧ 6 ≤ (lineOf (fullLine 6 openRoom) .one).out.length)
      ∧ (Taking (fullLine 5 claimRoom) ∧ (lineOf (fullLine 5 claimRoom) .one).out.length < 6
        ∧ (lineOf (fullLine 5 claimRoom) .one).flight ≠ none)
      ∧ (Idle (fullLine 5 openRoom) .one ∧ firstPass (fullLine 5 openRoom) 100 0 2 0 = .error .positionUnknown)
      ∧ (alarmRoom true).rcs.mode = .alarm ∧ State.reset.rcs.mode = .closed ∧ openRoom.rcs.mode = .opened
      ∧ (∀ p, posOfNumber (24#8).toNat = some p → (posAt openRoom p).presence ≠ .enrolled)
      ∧ (posOfNumber (1#8).toNat = some 0 ∧ (posAt openRoom 0).presence = .enrolled)
      ∧ rangeClassAt openRoom.nv 20 = some .blocked
      ∧ cardClassOf (rangeClassAt openRoom.nv 30) = some .account := by
  refine ⟨⟨taking_of ?_, ?_⟩, ⟨taking_of ?_, ?_⟩, ⟨⟨?_, ?_⟩, ?_⟩, rfl, rfl, rfl, ?_, ?_⟩
  case refine_8 =>
    intro p h
    have : p = 23 := (Option.some.inj (h.symm.trans (show posOfNumber (24#8).toNat = some 23 by decide)))
    subst this; decide
  all_goals decide

theorem witness_TapStartHoldsFreeCards :
    Taking openRoom ∧ Idle openRoom .one ∧ firstPass openRoom 5 1 2 0 = .ok (admitted .free)
      ∧ firstPass openRoom 10 1 2 0 = .ok (admitted .service) ∧ (admitted .free).cls ≠ .account
      ∧ waitingOrder openRoom = [] ∧ openRoom.lba.overCap = false
      ∧ (limitedPositions openRoom 5).length < openRoom.nv.settings.cardSessionLimit
      ∧ openRoom.rlc.queue.length < 32
      ∧ (∀ e ∈ openRoom.rlc.queue, e.dir.pos = 0 → isStart e.dir.order = false)
      ∧ electricSum openRoom + (phaseOf openRoom 2 0).lu ≤ effectiveCap openRoom
      ∧ effectiveCap { openRoom with lba := { openRoom.lba with demand := some { cap := 1, left := 600 } } }
        < electricSum openRoom + (phaseOf openRoom 2 0).lu := by
  refine ⟨open_serving.1, ⟨?_, ?_⟩, ?_⟩ <;> decide

/-- A running room whose cards may hold one session each. -/
def limitRoom (ses : Session) : State :=
  let s := sessionRoom ses
  { s with nv := { s.nv with settings := { s.nv.settings with cardSessionLimit := 1 } } }

theorem witness_TapStartHoldsFreeCards_limit :
    let free := { washerSession .running with card := 5, cls := .free }
    (Taking (limitRoom free) ∧ Idle (limitRoom free) .one ∧ RoomHeld (limitRoom free)
        ∧ firstPass (limitRoom free) 5 13 9 0 =
          .ok { pos := 12, cls := .free, program := 9, prog := dryerProgram, ext := 0 }
        ∧ (limitRoom free).nv.settings.cardSessionLimit ≤ (limitedPositions (limitRoom free) 5).length)
      ∧ RoomHeld openRoom :=
  ⟨⟨taking_of ⟨rfl, rfl, rfl⟩, ⟨by decide, by decide⟩, roomHeld_of (by decide), by decide, by decide⟩, open_roomHeld⟩

theorem witness_TapStartResolvesAccounts :
    (Taking cachedRoom ∧ Idle cachedRoom .one ∧ firstPass cachedRoom 100 1 2 0 = .ok (admitted .account)
        ∧ waitingOrder cachedRoom = [] ∧ cachedRoom.lba.overCap = false ∧ cachedRoom.cru.useCounter < 4294967295
        ∧ cachedRoom.rlc.queue = [] ∧ (limitedPositions cachedRoom 100).length < cachedRoom.nv.settings.cardSessionLimit
        ∧ findEntry cachedRoom 100 = some (12, entry 0) ∧ floorOf cachedRoom.nv.settings (entry 0) = 0)
      ∧ (Taking openRoom ∧ firstPass openRoom 100 1 2 0 = .ok (admitted .account) ∧ findEntry openRoom 100 = none
        ∧ allocate openRoom 100 ≠ none ∧ wantedFor openRoom 100 = none ∧ openRoom.cru.wanted.length < 4)
      ∧ (firstPass pinnedRoom 100 1 2 0 = .ok (admitted .account) ∧ allocate pinnedRoom 100 = none) := by
  refine ⟨⟨cached_serving.1, ⟨?_, ?_⟩, ?_⟩, ⟨open_serving.1, ?_⟩, ?_⟩ <;> decide

/-- An open room whose wanted list is full, with an allowance. -/
def fullListRoom (allowance : Nat) : State :=
  { openRoom with
    nv := { openRoom.nv with settings := { Settings.first with offlineAllowance := allowance } }
    cru := { openRoom.cru with wanted := [101, 102, 103, 104].map fun c => { card := c, age := 0, waiters := [] } } }

theorem witness_TapStartResolvesAccounts_tests :
    let limited := limitRoom (washerSession .running)
    let suspended := setEntry 12 (some { entry 0 with status := .suspended }) cachedRoom
    let poor := setEntry 12 (some { entry 0 with balance := 249 }) cachedRoom
    (Taking limited ∧ Idle limited .one
        ∧ firstPass limited 100 13 9 0 =
          .ok { pos := 12, cls := .account, program := 9, prog := dryerProgram, ext := 0 }
        ∧ limited.nv.settings.cardSessionLimit ≤ (limitedPositions limited 100).length)
      ∧ firstPass suspended 100 1 2 0 = .ok (admitted .account)
      ∧ (firstPass poor 100 1 2 0 = .ok (admitted .account)
        ∧ (249 : Int) - quoteOf washerProgram 0 (bandInForce poor).2.mult poor.nv.settings.quoteCeiling < 0)
      ∧ (Taking claimRoom ∧ Idle claimRoom .two
        ∧ firstPass claimRoom 100 13 9 0 =
          .ok { pos := 12, cls := .account, program := 9, prog := dryerProgram, ext := 0 }
        ∧ (limitedPositions claimRoom 100).length < claimRoom.nv.settings.cardSessionLimit
        ∧ wantedFor claimRoom 100 ≠ none ∧ allocate claimRoom 100 ≠ none)
      ∧ ∀ k ∈ [0, 249, 250], firstPass (fullListRoom k) 100 1 2 0 = .ok (admitted .account)
        ∧ 4 ≤ (fullListRoom k).cru.wanted.length ∧ allocate (fullListRoom k) 100 = some 12
        ∧ wantedFor (fullListRoom k) 100 = none
        ∧ quoteOf washerProgram 0 (bandInForce (fullListRoom k)).2.mult (fullListRoom k).nv.settings.quoteCeiling = 250 :=
  ⟨⟨taking_of ⟨rfl, rfl, rfl⟩, ⟨by decide, by decide⟩, by decide⟩, by decide, by decide,
    ⟨claim_serving.1, ⟨by decide, by decide⟩, by decide⟩, by decide⟩

/-- The waiting claim at position 1, its card's entry written and its wanted entry taken away. -/
def resumeRoom (e : Account) : State :=
  { claimRoom with cru := { claimRoom.cru with wanted := [], cache := claimRoom.cru.cache.set 12 (some e) } }

theorem witness_RequestsResumeInOrder :
    (∀ e ∈ [entry 0, { entry 0 with status := .suspended }, { entry 0 with balance := 249 }],
        (claimAt (resumeRoom e) 0).map (fun c => (c.card, c.cls, c.terminal)) = some (100, .account, .one)
        ∧ (lineOf (resumeRoom e) .one).flight = some (.start 100 0) ∧ findEntry (resumeRoom e) 100 = some (12, e)
        ∧ (resumeRoom e).cru.wanted = [] ∧ placeOf (resumeRoom e) 0 = none)
      ∧ RoomHeld (resumeRoom (entry 0)) ∧ secondPass (resumeRoom (entry 0)) .account 14 = none
      ∧ (Serving claimRoom ∧ RoomHeld claimRoom ∧ claimRoom.cru.useCounter < 4294967295
        ∧ (wantedFor claimRoom 100).map Wanted.waiters = some [(.one, .start)] ∧ findEntry claimRoom 100 = none
        ∧ allocate claimRoom 100 = some 12 ∧ claimRoom.nv.settings.offlineAllowance ≠ 0)
      ∧ (let poor := { claimRoom with nv := { claimRoom.nv with
          settings := { Settings.first with offlineAllowance := 0 } } }
        Taking poor ∧ RoomHeld poor ∧ (wantedFor poor 100).map Wanted.waiters = some [(.one, .start)]) :=
  ⟨by decide, roomHeld_of (by decide), by decide, ⟨claim_serving, claim_roomHeld, by decide⟩,
    taking_of ⟨rfl, rfl, rfl⟩, roomHeld_of (by decide), by decide⟩

theorem witness_TapBalanceAnswers :
    (Taking (fullLine 6 openRoom) ∧ 6 ≤ (lineOf (fullLine 6 openRoom) .one).out.length)
      ∧ ((lineOf claimRoom .one).out.length < 6 ∧ (lineOf claimRoom .one).flight ≠ none) ∧ Idle openRoom .two
      ∧ rangeClassAt openRoom.nv 20 = some .blocked ∧ rangeClassAt openRoom.nv 9 = some .free
      ∧ rangeClassAt openRoom.nv 10 = some .service ∧ rangeClassAt openRoom.nv 100 = none
      ∧ findEntry cachedRoom 100 = some (12, entry 0) ∧ findEntry openRoom 100 = none
      ∧ allocate openRoom 100 ≠ none ∧ wantedFor openRoom 100 = none := by
  refine ⟨⟨taking_of ?_, ?_⟩, ?_, ⟨?_, ?_⟩, ?_⟩ <;> decide

theorem witness_TapBalanceAnswers_misses :
    (∀ s ∈ [pinnedRoom, claimRoom, fullListRoom 0, fullListRoom 1], takes s = true ∧ AtRest s ∧ Idle s .two
        ∧ rangeClassAt s.nv 100 = none ∧ findEntry s 100 = none)
      ∧ allocate pinnedRoom 100 = none ∧ (wantedFor claimRoom 100 ≠ none ∧ allocate claimRoom 100 = some 12)
      ∧ ∀ k ∈ [0, 1], allocate (fullListRoom k) 100 = some 12 ∧ wantedFor (fullListRoom k) 100 = none
        ∧ 4 ≤ (fullListRoom k).cru.wanted.length ∧ (fullListRoom k).cru.useCounter < 4294967295 := by
  unfold AtRest Idle
  decide

theorem witness_TapAbortEndsTheSession :
    (posOfNumber (25#8).toNat = none ∧ ((cardAt runningRoom 0).map Prod.fst) ≠ some 101)
      ∧ (Taking claimRoom ∧ (lineOf claimRoom .one).out.length < 5
        ∧ (lineOf claimRoom .one).flight = some (.start 100 0) ∧ (claimAt claimRoom 0).isSome)
      ∧ (Taking runningRoom ∧ (lineOf runningRoom .one).out.length < 6
        ∧ sessionAt runningRoom 0 = some (washerSession .running) ∧ RoomHeld runningRoom) :=
  ⟨by decide, ⟨claim_serving.1, by decide⟩, (session_serving _).1, by decide, by decide,
    session_roomHeld _⟩

theorem witness_WantedExpiryDecidesOffline :
    (Taking openRoom ∧ wantedFor openRoom 100 = none)
      ∧ (Taking quietRoom ∧ (wantedFor quietRoom 100).map Wanted.waiters = some [])
      ∧ ((wantedFor (after (.tapBalance .two 100) openRoom) 100).map Wanted.waiters = some [(.two, .balance)]
        ∧ (lineOf (after (.tapBalance .two 100) openRoom) .two).flight = some (.balance 100))
      ∧ (Taking claimRoom ∧ RoomHeld claimRoom ∧ (wantedFor claimRoom 100).map Wanted.waiters = some [(.one, .start)]
        ∧ claimRoom.nv.settings.offlineAllowance ≠ 0 ∧ allocate claimRoom 100 = some 12
        ∧ claimRoom.cru.useCounter < 4294967295) :=
  ⟨⟨open_serving.1, by decide⟩, ⟨taking_of ⟨rfl, rfl, rfl⟩, by decide⟩, by decide,
    claim_serving.1, claim_roomHeld, by decide⟩

theorem witness_MinuteBoundaryCountsAndEnds_counts :
    Taking runningRoom ∧ ∀ p ses, sessionAt runningRoom p = some ses →
      let n := countMinute runningRoom.nv.settings.overrunTolerance ses
      waitedOut runningRoom n = false ∧ overran runningRoom n = false := by
  refine ⟨(session_serving _).1, fun p ses h => ?_⟩
  have := sessions_of (s := runningRoom) (P := fun ses =>
    let n := countMinute runningRoom.nv.settings.overrunTolerance ses
    !waitedOut runningRoom n && !overran runningRoom n) (by decide) p ses h
  simpa using this

theorem witness_MinuteBoundaryCountsAndEnds_limits :
    let waiting := { washerSession .waitingBudget with w := 10 }
    let late := { washerSession .running with r := 24 }
    (Taking (boundaryRoom waiting) ∧ RoomHeld (boundaryRoom waiting) ∧ (boundaryRoom waiting).boundary = true
        ∧ sessionAt (boundaryRoom waiting) 0 = some waiting
        ∧ (boundaryRoom waiting).nv.settings.startWaitLimit ≤ waiting.w)
      ∧ (Taking (boundaryRoom late) ∧ sessionAt (boundaryRoom late) 0 = some late
        ∧ late.nominal + (boundaryRoom late).nv.settings.overrunTolerance ≤ late.r)
      ∧ (sessionRoom late).boundary = false :=
  ⟨⟨taking_of ⟨rfl, rfl, rfl⟩, roomHeld_of (by decide), by decide⟩, ⟨taking_of ⟨rfl, rfl, rfl⟩, by decide⟩, rfl⟩

/-- Rooms whose budget agrees: nothing is shed and no step waits. -/
theorem budgetAgrees_of {s : State}
    (reserved : ∀ p, (posAt s p).shed = false ∧ (match sessionAt s p with
      | some ses => !ses.shed && (if ses.state = .waitingBudget then
            decide ((posAt s p).lu = 0 ∧ (posAt s p).wu = 0 ∧ ses.phase = 0 ∧ ses.pendingStep = none)
          else decide ((posAt s p).lu = (currentPhase s ses).lu ∧ (posAt s p).wu = (currentPhase s ses).wu))
      | none => decide ((posAt s p).lu = 0 ∧ (posAt s p).wu = 0)) = true)
    (queue : (s.lba.startQueue.map WaitEntry.pos).Nodup ∧ s.lba.startQueue.length ≤ 8
      ∧ ∀ p, decide (p ∈ s.lba.startQueue.map WaitEntry.pos) = (sessionAt s p).any fun x => x.state == .waitingBudget)
    (rest : s.lba.restoreList = [] ∧ s.lba.stepList = []) : BudgetAgrees s := by
  intro _
  refine ⟨fun p => ?_, ⟨queue.1, queue.2.1, fun p => ?_⟩, ⟨by simp [rest.1], fun p => by simp [rest.1, reserved p]⟩,
    by simp [rest.2], by simp [rest.2]⟩
  · have h := reserved p
    rcases hs : sessionAt s p with _ | ses <;> simp only [ReservationAgrees, hs] at h ⊢
    · simpa [h.1] using h.2
    · by_cases hw : ses.state = .waitingBudget <;> simp_all
  · have h := queue.2.2 p
    rcases hs : sessionAt s p with _ | ses <;> rw [hs] at h
    · simpa using h
    · rw [← decide_eq_true_iff (p := p ∈ _), h]
      simp

theorem witness_MinuteBoundaryCountsAndEnds_ends :
    let counted := countMinute 10
    let late := sessionRoom { washerSession .running with r := 23 }
    let waiting := modPos 0 (fun q => { q with lu := 0, wu := 0 }) { sessionRoom { washerSession .waitingBudget with w := 9 }
      with lba := { openRoom.lba with startQueue := [{ pos := 0, bypass := 0 }] } }
    (Taking late ∧ RoomHeld late ∧ BudgetAgrees late) ∧ (Taking waiting ∧ RoomHeld waiting ∧ BudgetAgrees waiting)
      ∧ ∀ s ∈ [late, waiting], (liveSessions s).length ≤ numbersLeft s.nv ∧ s.nv.settings.overrunTolerance = 10
        ∧ (sessionAt s 0).any (fun ses => waitedOut s (counted ses) || overran s (counted ses)) = true :=
  ⟨⟨(session_serving _).1, session_roomHeld _, budgetAgrees_of (by decide) (by decide) ⟨rfl, rfl⟩⟩,
    ⟨taking_of (by decide), roomHeld_of (by decide), budgetAgrees_of (by decide) (by decide) ⟨rfl, rfl⟩⟩, by decide⟩

theorem witness_FloodInPutsTheRoomInAlarm_claims :
    Taking claimRoom ∧ RoomHeld claimRoom ∧ claimRoom.fm.floodActive = false ∧ claimRoom.fm.stopActive = false
      ∧ isWasher claimRoom 0 = true ∧ (claimAt claimRoom 0).map Claim.terminal = some .one :=
  ⟨claim_serving.1, claim_roomHeld, by decide⟩

theorem witness_FloodInPutsTheRoomInAlarm :
    (Taking runningRoom ∧ runningRoom.fm.floodActive = false ∧ runningRoom.rcs.mode ≠ .alarm ∧ RoomHeld runningRoom)
      ∧ (Taking (alarmRoom false) ∧ (alarmRoom false).fm.floodActive = false ∧ (alarmRoom false).rcs.mode = .alarm)
      ∧ (Taking (alarmRoom true) ∧ (alarmRoom true).fm.floodActive = true) :=
  ⟨⟨(session_serving _).1, rfl, by decide, session_roomHeld _⟩, ⟨taking_of ⟨rfl, rfl, rfl⟩, rfl, rfl⟩,
    taking_of ⟨rfl, rfl, rfl⟩, rfl⟩

theorem witness_StopInEndsEverySession :
    (Taking runningRoom ∧ runningRoom.fm.stopActive = false ∧ RoomHeld runningRoom)
      ∧ (Taking { runningRoom with fm := { runningRoom.fm with stopActive := true } }) :=
  ⟨⟨(session_serving _).1, rfl, session_roomHeld _⟩, taking_of ⟨rfl, rfl, rfl⟩⟩

theorem witness_RunningSweepCarriesFour :
    (Taking openRoom ∧ openRoom.rlc.loop = .running ∧ openRoom.rlc.inFlight = none
        ∧ ∀ b, (heldOf b openRoom).length ≤ 64)
      ∧ (State.reset.rlc.loop ≠ .running ∧ flownRoom.rlc.inFlight ≠ none) := by
  refine ⟨⟨open_serving.1, rfl, rfl, fun b => ?_⟩, by decide⟩
  have := open_roomHeld b
  omega

/-- A room where a granted start waits to be carried, and one where its START is in flight. -/
def startRoom : State := after (.tapStart .one 5 1 2 0) openRoom
def startFlown : State := after .runningSweepSend startRoom

theorem witness_RunningSweepCarriesFour_chosen :
    Taking startRoom ∧ startRoom.rlc.loop = .running ∧ startRoom.rlc.inFlight = none ∧ (∀ b, heldOf b startRoom = [])
      ∧ startRoom.rlc.queue.length = 1 ∧ startFlown.rlc.inFlight.map (fun x => x.carried.length) = some 1 := by
  refine ⟨taking_of (by decide), by decide, by decide, fun b => ?_, by decide, by decide⟩
  cases b <;> decide

/-- A room whose running sweep is in flight, with its count of bad sweeps and of failed tries in a loop state. -/
def badRoom (loop : LoopState) (bad failed : Nat) : State :=
  { flownRoom with rlc := { flownRoom.rlc with loop := loop, badSweeps := bad, failedTries := failed } }

theorem witness_BadSweepsBreakTheLoop :
    (Taking openRoom ∧ openRoom.rlc.inFlight = none ∧ returnedOf [0, 1] = none)
      ∧ (∀ k ∈ [(LoopState.running, 1, 0), (.running, 2, 0), (.enrolling, 0, 1), (.enrolling, 0, 2), (.broken, 0, 0)],
        (badRoom k.1 k.2.1 k.2.2).rlc.inFlight.isSome = true ∧ takes (badRoom k.1 k.2.1 k.2.2) = true)
      ∧ breakDue (badRoom .running 2 0) = false ∧ breakDue (badRoom .running 3 0) = true
      ∧ breakDue (badRoom .enrolling 0 3) = true := by
  refine ⟨⟨open_serving.1, ?_⟩, ?_⟩ <;> decide

theorem witness_EnrolmentBuildsTheRoster :
    (openRoom.rlc.retryLeft = none ∧ quietRoom.rlc.retryLeft ≠ none)
      ∧ (Taking State.reset ∧ (State.reset.rlc.inFlight.map fun x => (x.kind, x.number)) = some (.enrol, 0)
        ∧ (returnedOf enrolSweep).map (fun r => (r.kind, r.number)) = some (1, 0)
        ∧ (returnedOf (sweepOf [1, 9, 255, 1, 0])).map (fun r => (r.kind, r.number)) = some (1, 9)
        ∧ (returnedOf enrolSweep).map (fun r => (recordsFor 0 (enrolRecords r.records)).length) = some 1
        ∧ (returnedOf enrolSweep).map (fun r => (recordsFor 23 (enrolRecords r.records)).length) = some 0) := by
  refine ⟨?_, reset_serving.1, ?_⟩ <;> decide

theorem witness_EnrolmentBuildsTheRoster_changes :
    let flown := { openRoom with rlc := { openRoom.rlc with
      inFlight := some { kind := .enrol, number := 0, lastGood := 255, restart := true, carried := [] } } }
    let washer : List Byte := [3, 1, 0, 0, 0, 0, 7, 0, 0, 0]
    let same := sweepOf ([1, 0, 255, 1, 0] ++ washer ++ [3, 13, 1, 0, 0, 0, 9, 0, 0, 0])
    let twice := sweepOf ([1, 0, 255, 1, 0] ++ washer ++ washer)
    (Taking flown ∧ RoomHeld flown)
      ∧ (returnedOf same).map (fun r => (r.kind, r.number)) = some (1, 0)
      ∧ (returnedOf same).map (fun r => [0, 12].map fun p => (recordsFor p (enrolRecords r.records)).length) = some [1, 1]
      ∧ (∀ p, (posAt (after (.enrolSweepReturn ⟨false, same⟩) flown) p).presence = (posAt flown p).presence
        ∧ (posAt (after (.enrolSweepReturn ⟨false, same⟩) flown) p).serial = (posAt flown p).serial)
      ∧ (returnedOf twice).map (fun r => (recordsFor 0 (enrolRecords r.records)).length) = some 2
      ∧ (posAt (after (.enrolSweepReturn ⟨false, twice⟩) flown) 0).presence = .duplicate :=
  ⟨⟨taking_of ⟨rfl, rfl, rfl⟩, roomHeld_of (by decide)⟩, by decide⟩

theorem witness_ReconciliationFollowsTheVerdicts :
    (∀ k ∈ [LiveState.waitingBudget, .starting, .running, .suspended],
        (sessionAt (sessionRoom (washerSession k)) 0).map Session.state = some k
        ∧ (posAt (sessionRoom (washerSession k)) 0).cls = some .washer)
      ∧ (∀ ses, AtRest (sessionRoom ses) ∧ RoomHeld (sessionRoom ses))
      ∧ (AtRest claimRoom ∧ RoomHeld claimRoom ∧ (claimAt claimRoom 0).isSome = true
        ∧ (lineOf claimRoom .one).flight = some (.start 100 0) ∧ (posAt claimRoom 0).cls = some .washer)
      ∧ ((posAt openRoom 0).occupancy = .vacant ∧ (posAt State.reset 0).cls = none)
      ∧ (alarmRoom true).rcs.mode = .alarm
      ∧ (posAt (setOccupancy 0 (.unloading 5) openRoom) 0).occupancy = .unloading 5 :=
  ⟨by decide, fun ses => ⟨(session_serving ses).1.2, session_roomHeld ses⟩,
    ⟨claim_serving.1.2, claim_roomHeld, by decide⟩, by decide, by decide, by decide⟩

/-- A running sweep that comes back without records. -/
def emptySweep : List Byte := sweepOf [0, 1, 255, 0, 0]

/-- A washer that runs in phase 1, with the first carriage of its STEP_GRANT in flight. -/
def stepFlown : State :=
  let s := sessionRoom { washerSession .running with phase := 1, pendingStep := some 1 }
  { s with rlc := { flownRoom.rlc with queue := [{
    dir := { pos := 0, order := .stepGrant 1 }, seq := some 1, sends := 0, good := 0, since := 0, flying := true,
    withdrawn := false }] } }

theorem witness_GoodSweepsCountMarks_queue :
    (Taking startFlown ∧ RoomHeld startFlown ∧ startFlown.rlc.inFlight.map Sweep.number = some 1
        ∧ returnedOf emptySweep = some { kind := 0, number := 1, records := [] }
        ∧ (sessionAt startFlown 0).map Session.state = some .starting
        ∧ startFlown.rlc.queue.map (fun e => (isStart e.dir.order, e.flying, e.sends, e.withdrawn)) = [(true, true, 0, false)]
        ∧ ∀ p, (posAt startFlown p).startCount = none)
      ∧ (Taking stepFlown ∧ RoomHeld stepFlown
        ∧ (sessionAt stepFlown 0).map (fun x => (x.phase, x.pendingStep)) = some (1, some 1))
      ∧ ∀ p, (posAt flownRoom p).low < 5 :=
  ⟨⟨taking_of (by decide), roomHeld_of (by decide), by decide⟩, ⟨taking_of ⟨rfl, rfl, rfl⟩, roomHeld_of (by decide),
    by decide⟩, by decide⟩

theorem witness_JoinsSecondMarksAndDoors :
    let join : EnrolRecord := { switch := 1, cls := .washer, serial := 7, cycle := .idle, tag := 0, phase := 0 }
    let twoMarks := sweepOf [0, 1, 255, 0, 0, 1, 1, 0, 0, 1, 1, 0, 0]
    let mark : Mark := { position := 1, hold := false, accepted := 0, report := none }
    (posOfNumber (25#8).toNat = none ∧ posOfNumber join.switch.toNat = some 0)
      ∧ ((posAt openRoom 0).presence = .enrolled ∧ (posAt openRoom 0).serial = some join.serial
        ∧ joinsFor [.join join] 0 < 2 ∧ 2 ≤ joinsFor [.join join, .join join] 0
        ∧ (posAt openRoom 0).serial ≠ some 8 ∧ (posAt State.reset 0).presence = .absent)
      ∧ (AtRest openRoom ∧ RoomHeld openRoom ∧ AtRest State.reset ∧ RoomHeld State.reset ∧ OneHeld openRoom)
      ∧ (Taking flownRoom ∧ RoomHeld flownRoom ∧ flownRoom.rlc.queue = []
        ∧ returnedOf twoMarks = some { kind := 0, number := 1, records := [.mark mark, .mark mark] }
        ∧ ∀ p, (posAt flownRoom p).startCount = none)
      ∧ ((posAt openRoom 0).occupancy = .vacant ∧ doorDirectiveStands 0 openRoom = false
        ∧ openRoom.nv.service[(0 : Pos)] = .inService ∧ openRoom.nv.lockout[(0 : Pos)] = false
        ∧ (after (.positionService 1 1) openRoom).nv.service[(0 : Pos)] = .outOfService)
      ∧ (queueRefuses openRoom { pos := 0, order := .lockDoor } = false
        ∧ queueRefuses startRoom { pos := 0, order := .start 3 2 0 [] } = true ∧ OneHeld startRoom) :=
  ⟨by decide, by decide, ⟨open_serving.1.2, open_roomHeld, reset_serving.1.2, roomHeld_of (by decide),
    oneHeld_of (by decide)⟩, ⟨taking_of (by decide), roomHeld_of (by decide), by decide⟩, by decide, by decide, by decide,
    oneHeld_of (by decide)⟩

/-- A calm report, of a cycle that runs with a tag, and the same from a drum too hot. -/
def calm (tag : Byte) : Report where
  door := .locked
  water := 0
  drum := .turning
  temp := 40
  leak := .dry
  draw := 2
  cycle := .running
  tag := tag
  phase := 0
  step := 0
  code := 0

/-- A running washer with a running sweep in flight, and that sweep with its report. -/
def runningFlown : State := { runningRoom with rlc := flownRoom.rlc }
def reportSweep (temp : Byte) : List Byte :=
  sweepOf [0, 1, 255, 0, 0, 1, 1, 2, 0, 2, 0, 1, temp, 0, 0, 2, 1, 5, 0, 0, 0]

/-- A step request and the onset that ends its session owe one evaluation, after the end: the step is not granted (R92). -/
theorem test_one_evaluation_after_the_end :
    (takeReport 0 { calm 5 with step := 1, leak := .wet } runningRoom).rlc.queue.map (fun e => e.dir.order) =
      [.stop 5, .haltWater] := by decide

theorem witness_ReportsAreJudged :
    let onsets := fun (s : State) (r : Report) => allCauses.filter fun c => judgeCause s 0 r c == some true
    (AtRest runningRoom ∧ RoomHeld runningRoom ∧ sessionAt runningRoom 0 = some (washerSession .running)
        ∧ isSettled runningRoom 0 = true
        ∧ isSettled (modPos 0 (fun q => { q with settle := 0 }) runningRoom) 0 = false)
      ∧ (onsets runningRoom (calm 5) = [] ∧ onsets runningRoom { calm 5 with temp := 96 } = [.overtemp]
        ∧ onsets runningRoom { calm 5 with leak := .wet } = [.leak])
      ∧ ((posAt openRoom 0).occupancy = .vacant ∧ (claimAt claimRoom 0).isSome = true
        ∧ (lineOf claimRoom .one).flight = some (.start 100 0) ∧ isWasher openRoom 0 = true)
      ∧ ((smTake 0 .running 5 runningRoom).agrees = true
        ∧ sessionAt (smTake 0 .running 5 runningRoom).state 0 = some (washerSession .running)
        ∧ (smTake 0 .running 6 runningRoom).agrees = false)
      ∧ (Taking runningFlown ∧ RoomHeld runningFlown ∧ runningFlown.rlc.queue = []
        ∧ (∀ q, (posAt runningFlown q).startCount = none) ∧ (currentPhase runningFlown (washerSession .running)).heating = false)
      ∧ ∀ temp ∈ [40, 96], returnedOf (reportSweep temp) = some { kind := 0, number := 1, records := [.mark {
          position := 1, hold := false, accepted := 0, report := some { calm 5 with temp := temp } }] } :=
  ⟨⟨(session_serving _).1.2, session_roomHeld _, by decide⟩, by decide, by decide, by decide,
    ⟨taking_of (by decide), roomHeld_of (by decide), by decide⟩, by decide⟩

theorem witness_GoodSweepsCountMarks :
    Taking flownRoom ∧ (flownRoom.rlc.inFlight.map fun x => (x.kind, x.number)) = some (.running, 1)
      ∧ (returnedOf (markSweep 1)).map (fun r => (r.kind, r.number, r.records)) =
          some (0, 1, [.mark { position := 1, hold := true, accepted := 0, report := none }])
      ∧ (returnedOf (sweepOf [0, 2, 255, 0, 0])).map (fun r => (r.kind, r.number)) = some (0, 2)
      ∧ (posAt flownRoom 0).presence = .enrolled
      ∧ marksFor [.mark { position := 1, hold := true, accepted := 0, report := none }] 12 = 0 := by
  refine ⟨taking_of ?_, ?_⟩ <;> decide

theorem witness_ReportsConfirmAndResume :
    ∀ k ∈ [LiveState.waitingBudget, .starting, .running, .suspended],
      sessionAt (sessionRoom (washerSession k)) 0 = some (washerSession k) ∧ tagOf (washerSession k).number = 5
        ∧ (4 : Byte) ≠ tagOf (washerSession k).number := by decide

theorem witness_ReportsConfirmAndResume_sweeps :
    let unloading := setOccupancy 0 (.unloading 9) flownRoom
    let join : EnrolRecord := { switch := 1, cls := .washer, serial := 7, cycle := .idle, tag := 0, phase := 0 }
    ((posAt openRoom 0).occupancy = .vacant ∧ (claimAt claimRoom 0).isSome = true)
      ∧ (∀ s ∈ [runningFlown, unloading, flownRoom], takes s = true ∧ s.lba.evalDue = false ∧ s.rlc.lost = []
        ∧ s.rlc.queue = [] ∧ (∀ q, (posAt s q).startCount = none) ∧ (posAt s 0).presence = .enrolled
        ∧ (posAt s 0).low < 5)
      ∧ (RoomHeld unloading ∧ (posAt unloading 0).occupancy = .unloading 9)
      ∧ (∀ ses, sessionAt runningFlown 0 = some ses → (6 : Byte) ≠ tagOf ses.number)
      ∧ returnedOf (sweepOf [0, 1, 255, 0, 0, 2, 1, 0, 0, 0, 0, 7, 0, 0, 0]) =
        some { kind := 0, number := 1, records := [.join join] } := by
  refine ⟨?_, ?_, ⟨roomHeld_of ?_, ?_⟩, ?_, ?_⟩ <;> decide

theorem witness_SweepLimitsActOnce_missing :
    let six := modPos 0 (fun q => { q with missing := 6 }) runningRoom
    (Taking runningRoom ∧ (posAt runningRoom 0).missing ≠ 6) ∧ (Taking six ∧ (posAt six 0).missing = 6
      ∧ sessionAt six 0 = some (washerSession .running)) :=
  ⟨⟨(session_serving _).1, by decide⟩, taking_of ⟨rfl, rfl, rfl⟩, by decide⟩

theorem witness_SweepLimitsActOnce_faults :
    let low := modPos 0 (fun q => { q with low := 6, startCount := some 20 }) (sessionRoom (washerSession .starting))
    let dropped := { runningRoom with rlc := { runningRoom.rlc with queue := [{
      dir := { pos := 0, order := .lockDoor }, seq := some 1, sends := 3, good := 2, since := 2, flying := false,
      withdrawn := false }] } }
    (silenceRuns (posAt State.reset 0) = false ∧ startTimeoutDue runningRoom 0 = false ∧ (posAt runningRoom 0).low ≠ 6)
      ∧ (Taking runningRoom ∧ RoomHeld runningRoom ∧ (posAt runningRoom 0).silent = false)
      ∧ (Taking dropped ∧ RoomHeld dropped
        ∧ (dropped.rlc.queue.filter fun e => dropDue e && e.dir.pos == 0).length = 1)
      ∧ (Taking low ∧ RoomHeld low ∧ (posAt low 0).low = 6 ∧ .heaterDead ∉ (posAt low 0).causes
        ∧ (posAt low 0).startCount = some 20) := by
  refine ⟨?_, ⟨(session_serving _).1, session_roomHeld _, ?_⟩, ⟨taking_of ⟨rfl, rfl, rfl⟩, roomHeld_of ?_, ?_⟩,
    taking_of ⟨rfl, rfl, rfl⟩, roomHeld_of ?_, ?_⟩ <;> decide

theorem witness_RunningSweepCarriesFour_offers :
    let held := { openRoom with rlc := { openRoom.rlc with heldRlc := [{ pos := 3, order := .identify }] } }
    let full := { held with rlc := { held.rlc with queue := List.replicate 32 {
      dir := { pos := 3, order := .identify }, seq := none, sends := 0, good := 0, since := 0, flying := false,
      withdrawn := false } } }
    (Taking openRoom ∧ (heldOf .sm openRoom)[0]? = none)
      ∧ (∀ b ∈ allBlocks, (heldOf b held).length ≤ 64)
      ∧ (Taking held ∧ (heldOf .rlc held)[0]? = some { pos := 3, order := .identify } ∧ held.rlc.queue.length < 32
        ∧ isStart (Directive.mk 3 .identify).order = false)
      ∧ (Taking full ∧ (heldOf .rlc full)[0]? = some { pos := 3, order := .identify } ∧ 32 ≤ full.rlc.queue.length)
      ∧ (held.rlc.loop = .running ∧ held.rlc.inFlight = none ∧ queueRefuses held { pos := 3, order := .identify } = false
        ∧ State.reset.rlc.loop ≠ .running ∧ flownRoom.rlc.inFlight ≠ none
        ∧ queueRefuses startRoom { pos := 0, order := .start 3 2 0 [] } = true
        ∧ queueRefuses startRoom { pos := 0, order := .lockDoor } = false) :=
  ⟨⟨open_serving.1, by decide⟩, by decide, ⟨taking_of ⟨rfl, rfl, rfl⟩, by decide⟩, ⟨taking_of ⟨rfl, rfl, rfl⟩,
    by decide⟩, by decide⟩

theorem witness_SweepLimitsActOnce_sweep :
    let once (good : Nat) : State := { runningFlown with rlc := { runningFlown.rlc with queue := [{
      dir := { pos := 0, order := .lockDoor }, seq := some 1, sends := 3, good, since := 1, flying := false,
      withdrawn := false }] } }
    let starting (n : Nat) : State := modPos 0 (fun q => { q with startCount := some n })
      { sessionRoom (washerSession .starting) with rlc := flownRoom.rlc }
    (Taking (once 1) ∧ RoomHeld (once 1) ∧ (once 1).rlc.inFlight.map (fun x => (x.kind, x.number)) = some (.running, 1)
        ∧ returnedOf emptySweep = some { kind := 0, number := 1, records := [] }
        ∧ sessionAt (once 1) 0 = some (washerSession .running)
        ∧ ((once 1).rlc.queue.filter fun e => !e.withdrawn && decide (3 ≤ e.sends) && decide (1 ≤ e.good)).length = 1)
      ∧ ∀ n ∈ [18, 19], Taking (starting n) ∧ RoomHeld (starting n) ∧ (starting n).rlc.queue = []
        ∧ (posAt (starting n) 0).startCount = some n ∧ sessionAt (starting n) 0 = some (washerSession .starting)
        ∧ ∀ q, q ≠ 0 → (posAt (starting n) q).startCount = none := by
  refine ⟨⟨taking_of (by decide), roomHeld_of (by decide), by decide⟩, fun n hn => ?_⟩
  have : n = 18 ∨ n = 19 := by simpa using hn
  rcases this with rfl | rfl <;> exact ⟨taking_of (by decide), roomHeld_of (by decide), by decide⟩

theorem witness_SweepLimitsActOnce_heater :
    let lit := dryerRoom 300
    let warm := modPos 12 (fun q => { q with corrected := 138 }) lit
    let moved := modPos 12 (fun q => { q with settle := 1 }) lit
    (AtRest lit ∧ RoomHeld lit ∧ (sessionAt lit 12).map (fun x => (x.state, (currentPhase lit x).heating)) =
        some (.running, true))
      ∧ (isSettled lit 12 = true ∧ 2 * (posAt lit 12).corrected < 5 * (posAt lit 12).lu ∧ 5 ≤ (posAt lit 12).low
        ∧ .heaterDead ∉ (posAt lit 12).causes)
      ∧ (isSettled warm 12 = true ∧ 5 * (posAt warm 12).lu ≤ 2 * (posAt warm 12).corrected)
      ∧ isSettled moved 12 = false ∧ (sessionAt runningRoom 0).map (fun x => (currentPhase runningRoom x).heating) =
        some false :=
  ⟨⟨⟨rfl, rfl⟩, roomHeld_of (by decide), by decide⟩, by decide, by decide, by decide, by decide⟩

theorem witness_LoopRestartBeginsAgain :
    Serving runningRoom ∧ ∀ b, (heldOf b runningRoom).length + runningRoom.rlc.queue.length ≤ 64 := by
  refine ⟨session_serving _, fun b => ?_⟩
  cases b <;> decide

/-- A property of a vector's entries, tested at each. -/
theorem entries_of {α : Type} {n : Nat} {v : Vector (Option α) n} {P : α → Bool}
    (h : ∀ i : Fin n, (v[i]).all P = true) (i : Fin n) (a : α) (ha : v[i] = some a) : P a = true := by
  simpa [ha] using h i

/-- The open room keeps every invariant, and a step of it, or of it with a command waiting, answers a next state. -/
theorem witness_StoreStaysSound :
    StoreAlways JournalOrdered openRoom ∧ StoreAlways StoreInRange openRoom
      ∧ (∃ t, step openRoom = .next t) ∧ ∃ t, step { openRoom with pending := [.identify] } = .next t := by
  have noUndo : openRoom.undo = [] := rfl
  refine ⟨⟨?_, by simp [noUndo]⟩, ⟨⟨?_, ?_, ?_, ?_, ?_, ?_, ?_, ⟨0, by decide⟩, ?_⟩, by simp [noUndo]⟩, ⟨_, rfl⟩, _, rfl⟩
  · unfold JournalOrdered; decide
  · unfold SettingsInRange; decide
  · decide
  · decide
  · decide
  · intro i prog h
    have : prog = washerProgram ∨ prog = dryerProgram := by
      have all := entries_of (v := openRoom.nv.programs) (P := fun x => x == washerProgram || x == dryerProgram)
        (by decide) i prog h
      simpa using all
    rcases this with rfl | rfl <;> unfold ProgramInRange <;> decide
  · intro i e h
    have all := entries_of (v := openRoom.nv.ranges) (P := fun x => decide (x.low.toNat ≤ x.high.toNat)) (by decide) i e h
    simpa using all
  · intro i b h
    have all := entries_of (v := openRoom.nv.bands)
      (P := fun x => decide (x.start ≤ 10079 ∧ 50 ≤ x.mult ∧ x.mult ≤ 250)) (by decide) i b h
    simpa using all
  · have one : ∀ i : Fin 8, (openRoom.nv.bands[i]).isSome = true → i = 0 := by decide
    intro i j b c hb hc _
    rw [one i (by rw [hb]; rfl), one j (by rw [hc]; rfl)]

theorem witness_Invariants :
    CapsKept openRoom ∧ AtRest openRoom ∧ (QueuesBounded openRoom ∧ FaultLogBounded openRoom)
      ∧ (ClockSound openRoom ∧ HostLinkSound openRoom) ∧ (CacheSound openRoom ∧ WantedBounded openRoom)
      ∧ PositionsSound openRoom := by
  refine ⟨fun _ => Or.inl (by decide), ⟨rfl, rfl⟩, ⟨⟨by decide, fun b => by cases b <;> decide, by decide⟩, by decide,
    by decide, by decide⟩, ⟨⟨by decide, by decide, by decide, by decide⟩, by decide, by decide, by decide⟩,
    ⟨⟨?_, ?_, by decide⟩, by decide, by decide, by decide⟩, ?_⟩
  · intro i a h
    have empty : ∀ i : Fin 48, openRoom.cru.cache[i] = none := by decide
    simp [empty i] at h
  · intro i j a b h
    have empty : ∀ i : Fin 48, openRoom.cru.cache[i] = none := by decide
    simp [empty i] at h
  · have quiet : ∀ p : Pos, (posAt openRoom p).startCount = none := by decide
    intro p
    refine ⟨?_, ?_, ?_, ?_, ?_, fun n h => by simp [quiet p] at h, ?_, ?_⟩ <;> revert p <;> decide

theorem witness_SessionsAgreeWithTheStore :
    SlotsAgree runningRoom ∧ JournalFits runningRoom.nv ∧ StoreAlways JournalFitsCut runningRoom
      ∧ OutOfUseSound runningRoom ∧ CountsSound runningRoom := by
  refine ⟨fun _ => ?_, by unfold JournalFits JournalHasRoom; decide,
    ⟨by unfold JournalFitsCut JournalHasRoom; decide, nofun⟩, fun _ p h => ?_, fun p ses h => ?_⟩
  · decide
  · have none : ∀ p, outOfUse runningRoom p = false := by decide
    simp [none p] at h
  · have := sessions_of (s := runningRoom) (P := fun x => decide (x.s ≤ x.r ∧ x.r ≤ x.nominal + 60)) (by decide) p ses h
    simpa using this

theorem witness_BudgetStaysInAgreement : BudgetAgrees openRoom := budgetAgrees_of (by decide) (by decide) ⟨rfl, rfl⟩

theorem witness_TerminalsStayInAgreement : TerminalsAgree openRoom := by
  have none : ∀ p, claimAt openRoom p = none := by decide
  refine ⟨fun l => ?_, by decide, fun p c h => by simp [none p] at h⟩
  cases l <;> exact ⟨by decide, nofun⟩

theorem witness_CacheStaysSound_held : HeldAgrees openRoom := by
  intro card
  have empty : ∀ i : Fin 48, openRoom.cru.cache[i] = none := by decide
  have live : liveSessions openRoom = [] := by decide
  have none : findEntry openRoom card = none := by simp [findEntry, findWay, waysOf, entryAt, empty]
  simp [heldAmount, quotesOf, none, live]

end Sys2Proof.Tests
end

section
/-!
What a step can do to the Retained Store, the account cache, the wanted list and the live sessions, said once: `Move` is
one such change, `Moves` a sequence of them. The invariants of the store (R148, R150) and of the accounts (R42, R47,
R66) are then proved for each kind of change alone.
-/
namespace Sys2Proof.Machine.Settlement

/-! ### The kinds of change -/

/-- What an account is charged by of its session stands: class, card and quote. -/
def SameQuote (a b : Session) : Prop := b.cls = a.cls ∧ b.card = a.card ∧ b.quote = a.quote

/-- A retained write that keeps the journal in order and every item in its range. -/
def KeepsStore (a b : Retained) : Prop :=
  (JournalOrdered a → JournalOrdered b) ∧ (StoreInRange a → StoreInRange b)

/-- The store, the accounts and the live sessions stand as they were. -/
structure Aside (s t : State) : Prop where
  nv : t.nv = s.nv
  undo : t.undo = s.undo
  cru : t.cru = s.cru
  session : ∀ p, sessionAt t p = sessionAt s p

/-- A change to the wanted list that adds no card and lets none grow older than 8 s. -/
def WantedKept (a b : List Wanted) : Prop :=
  (b.map Wanted.card).Sublist (a.map Wanted.card) ∧ ((∀ w ∈ a, w.age ≤ 80) → ∀ w ∈ b, w.age ≤ 80)

/-- One change, by what it does to the store, the accounts and the live sessions. -/
inductive Move : State → State → Prop
  /-- Anything else changes. -/
  | aside {s t : State} (h : Aside s t) : Move s t
  /-- A new event begins, where a fall of the supply may have taken writes of the latest taking back (R165; log 15). -/
  | begun {s t : State} (nv : t.nv = s.nv ∨ t.nv ∈ s.undo) (undo : t.undo = []) (cru : t.cru = s.cru)
      (session : ∀ p, sessionAt t p = sessionAt s p) : Move s t
  /-- A reset leaves the store alone, no account and no session (R166, R169). -/
  | reset {s t : State} (nv : t.nv = s.nv) (undo : t.undo = []) (cru : t.cru = Cru.fresh)
      (session : ∀ p, sessionAt t p = none) : Move s t
  /-- A retained write (R165). -/
  | write (f : Retained → Retained) (s : State) (h : KeepsStore s.nv (f s.nv)) : Move s (writeNv f s)
  /-- Grants, sheds and evaluations (R94, R98). -/
  | budget {s t : State} (h : BudgetOnly s t) : Move s t
  /-- A live session's record changes, and not what its account is charged by. -/
  | session {p : Pos} {a b : Session} {s : State} (h : sessionAt s p = some a) (same : SameQuote a b) :
      Move s (setSession p b s)
  /-- A live session ends and its account is settled (R22, R42). -/
  | ended {p : Pos} {ses : Session} {s : State} (outcome : EndOutcome) (cause : Option Cause)
      (h : sessionAt s p = some ses) : Move s (endHere p ses outcome cause s)
  /-- A hold is placed: the session is live, and its quote is held on its card's entry (R11, R56). -/
  | held {p : Pos} {ses : Session} {s : State} (h : sessionAt s p = none)
      (entry : ses.cls = .account → (findEntry s ses.card).isSome) :
      Move s (setSession p ses (if ses.cls = .account then raiseHeld ses.card ses.quote s else s))
  /-- Wanted entries leave, age or change their waiters (R53 to R55). -/
  | wanted (l : List Wanted) (s : State) (h : WantedKept s.cru.wanted l) : Move s (setWanted l s)
  /-- A card with no entry joins the wanted list (R53). -/
  | wants {card : Word} {s : State} (waiters : List (Terminal × WaitKind)) (room : s.cru.wanted.length < 4)
      (new : wantedFor s card = none) (miss : findEntry s card = none) :
      Move s (setWanted (s.cru.wanted ++ [{ card, age := 0, waiters }]) s)
  /-- An entry is used (R48). -/
  | used (i : Fin 48) (s : State) : Move s (useEntry i s)
  /-- An entry changes its balance, status or origin (R60, R63, R65). -/
  | entry {i : Fin 48} {a b : Account} {s : State} (h : entryAt s i = some a) (card : b.card = a.card)
      (held : b.held = a.held)
      (balance : b.balance = a.balance ∨ -999999 ≤ b.balance ∧ b.balance ≤ 999999
        ∨ a.balance ≤ b.balance ∧ b.balance ≤ 999999) :
      Move s (setEntry i (some b) s)
  /-- An entry with nothing held leaves (R64). -/
  | evicted {i : Fin 48} {a : Account} {s : State} (h : findEntry s a.card = some (i, a)) (free : a.held = 0) :
      Move s (setEntry i none s)
  /-- An entry is created for a card that has none, or that is wanted and so has none; the card is wanted no more (R50,
  R55, R60). -/
  | created {i : Fin 48} {card : Word} {balance : Int} {s : State} (status : AccountStatus) (origin : Origin)
      (miss : findEntry s card = none ∨ (wantedFor s card).isSome) (way : allocate s card = some i)
      (range : -999999 ≤ balance ∧ balance ≤ 999999) :
      Move s (createEntry i card balance status origin (removeWanted card s))

/-- A sequence of changes. -/
abbrev Moves : State → State → Prop := Relation.ReflTransGen Move

theorem Move.moves {s t : State} (h : Move s t) : Moves s t := .single h

/-! ### Changes aside -/

theorem Aside.refl (s : State) : Aside s s := ⟨rfl, rfl, rfl, fun _ => rfl⟩

theorem Aside.trans {s t u : State} (h : Aside s t) (k : Aside t u) : Aside s u :=
  ⟨k.nv.trans h.nv, k.undo.trans h.undo, k.cru.trans h.cru, fun p => (k.session p).trans (h.session p)⟩

theorem Aside.moves {s t : State} (h : Aside s t) : Moves s t := (Move.aside h).moves

/-- A change that leaves the positions alone, with the store and the accounts. -/
theorem Aside.of_positions {s t : State} (nv : t.nv = s.nv) (undo : t.undo = s.undo) (cru : t.cru = s.cru)
    (positions : t.positions = s.positions) : Aside s t :=
  ⟨nv, undo, cru, fun p => sessionAt_congr (by rw [posAt_congr positions p])⟩

theorem aside_modPos {p : Pos} {f : Position → Position} {s : State}
    (h : (f (posAt s p)).occupancy = (posAt s p).occupancy) : Aside s (modPos p f s) :=
  ⟨rfl, rfl, rfl, fun _ => sessionAt_modPos_of h⟩

/-- An occupancy without a live session takes the place of another. -/
theorem aside_setOccupancy {p : Pos} {o : Occupancy} {s : State} (h : sessionAt s p = none) (ho : ∀ x, o ≠ .live x) :
    Aside s (setOccupancy p o s) := by
  refine ⟨rfl, rfl, rfl, fun q => ?_⟩
  by_cases e : q = p
  · subst e
    rw [h, Option.eq_none_iff_forall_ne_some]
    intro x hx
    rw [sessionAt_eq_some, setOccupancy, posAt_modPos_self] at hx
    exact ho x hx
  · exact sessionAt_congr (by rw [setOccupancy, posAt_modPos_ne e])

theorem aside_of_queueOnly {s t : State} (h : QueueOnly s t) : Aside s t :=
  ⟨h.nv, h.undo, h.cru, h.sessionAt⟩

theorem aside_setFlag (f : AttnFlag) (s : State) : Aside s (setFlag f s) := .of_positions rfl rfl rfl rfl
theorem aside_modFm (f : Fm → Fm) (s : State) : Aside s (modFm f s) := .of_positions rfl rfl rfl rfl
theorem aside_modRlc (f : Rlc → Rlc) (s : State) : Aside s (modRlc f s) := .of_positions rfl rfl rfl rfl
theorem aside_modLba (f : Lba → Lba) (s : State) : Aside s (modLba f s) := .of_positions rfl rfl rfl rfl
theorem aside_modHlp (f : Hlp → Hlp) (s : State) : Aside s (modHlp f s) := .of_positions rfl rfl rfl rfl
theorem aside_setMode (m : RoomMode) (s : State) : Aside s (setMode m s) := .of_positions rfl rfl rfl rfl
theorem aside_setQueue (q : List QueueEntry) (s : State) : Aside s (setQueue q s) := .of_positions rfl rfl rfl rfl
theorem aside_oweEvaluation (s : State) : Aside s (oweEvaluation s) := aside_modLba _ s

theorem aside_modLine (l : Terminal) (f : TerminalLine → TerminalLine) (s : State) : Aside s (modLine l f s) := by
  rw [modLine_does]; exact .of_positions rfl rfl rfl rfl

theorem aside_pushAnswer (l : Terminal) (f : Frame) (s : State) : Aside s (pushAnswer l f s) := aside_modLine l _ s

theorem aside_answerTap (l : Terminal) (f : Frame) (s : State) : Aside s (answerTap l f s) := by
  rw [answerTap_does]; exact .of_positions rfl rfl rfl rfl

theorem aside_beginFlight (l : Terminal) (flight : InFlight) (s : State) : Aside s (beginFlight l flight s) := by
  unfold beginFlight pushRecord
  exact Aside.trans (aside_modLine l (fun x => { x with flight := some flight }) s) (aside_modLine l _ _)

theorem aside_writeFault (position : Option Pos) (session : Option Half) (event : FaultEvent) (causes : List Cause)
    (snapshot : Option LastReport) (s : State) : Aside s (writeFault position session event causes snapshot s) := by
  rw [writeFault_does]; exact .of_positions rfl rfl rfl rfl

theorem aside_writeInput (e : InputEvent) (s : State) : Aside s (writeInput e s) := aside_writeFault _ _ _ _ _ s

theorem aside_advanceClock (s : State) : Aside s (advanceClock s) := by
  unfold advanceClock
  split
  · exact .of_positions rfl rfl rfl rfl
  · exact Aside.refl s

theorem aside_settlingEvent (p : Pos) (s : State) : Aside s (settlingEvent p s) := aside_modPos rfl

theorem aside_setCauses (p : Pos) (set : List Cause) (s : State) : Aside s (setCauses p set s) := aside_modPos rfl

theorem aside_restSilence (p : Pos) (s : State) : Aside s (restSilence p s) := aside_modPos (by split <;> rfl)

/-- A loop whose turns change things aside does so. -/
theorem aside_forPositions (ps : List Pos) (act : Pos → State → State) (h : ∀ p s, Aside s (act p s)) (s : State) :
    Aside s (forPositions ps act s) := forPositions_rel Aside.refl (fun _ _ _ => Aside.trans) ps act h s

theorem moves_forPositions (ps : List Pos) (act : Pos → State → State) (h : ∀ p s, Moves s (act p s)) (s : State) :
    Moves s (forPositions ps act s) :=
  forPositions_rel (fun _ => .refl) (fun _ _ _ => Relation.ReflTransGen.trans) ps act h s

theorem moves_foldl {α : Type} (l : List α) (act : State → α → State) (h : ∀ s a, Moves s (act s a)) (s : State) :
    Moves s (l.foldl act s) := by
  induction l generalizing s with
  | nil => exact .refl
  | cons a l ih => exact (h s a).trans (ih _)

theorem moves_ite {c : Prop} [Decidable c] {s t u : State} (h : c → Moves s t) (k : ¬ c → Moves s u) :
    Moves s (if c then t else u) := by
  split
  · next hc => exact h hc
  · next hc => exact k hc

/-! ### Retained writes -/

/-- A write of what neither the journal nor a range is of. -/
theorem KeepsStore.of_eq {a b : Retained} (hp : b.programs = a.programs) (hr : b.ranges = a.ranges)
    (hb : b.bands = a.bands) (hs : b.settings = a.settings) (hf : b.feedCap = a.feedCap) (hw : b.waterCap = a.waterCap)
    (ht : b.trims = a.trims) (hj : b.journal = a.journal) (hn : b.nextSeq = a.nextSeq)
    (hx : b.exhausted = a.exhausted) : KeepsStore a b :=
  ⟨fun h => h.congr hj hn hx, fun h => h.congr hp hr hb hs hf hw ht⟩

/-- A write of the host's tables keeps the journal. -/
theorem KeepsStore.of_range {a b : Retained} (h : StoreInRange a → StoreInRange b) (hj : b.journal = a.journal)
    (hn : b.nextSeq = a.nextSeq) (hx : b.exhausted = a.exhausted) : KeepsStore a b :=
  ⟨fun k => k.congr hj hn hx, h⟩

theorem keepsStore_appended (r : SettlementRecord) (nv : Retained) : KeepsStore nv (appended r nv) := by
  refine ⟨fun h => journalOrdered_appended h r, fun h => ?_⟩
  rw [nv_appended]
  exact h.congr rfl rfl rfl rfl rfl rfl rfl

theorem moves_writeSlot (p : Pos) (x : Option Session) (s : State) : Moves s (writeSlot p x s) :=
  (Move.write (fun nv => { nv with slots := nv.slots.set p x }) s
    (.of_eq rfl rfl rfl rfl rfl rfl rfl rfl rfl rfl)).moves

/-! ### Sessions -/

/-- A session's record is rewritten with its snapshot (R21). -/
theorem moves_putSession {p : Pos} {a b : Session} {s : State} (h : sessionAt s p = some a) (same : SameQuote a b) :
    Moves s (putSession p b s) := (Move.session h same).moves.trans (moves_writeSlot p _ _)

theorem moves_budget {s t : State} (h : BudgetOnly s t) : Moves s t := (Move.budget h).moves

theorem moves_evaluateIfDue (s : State) : Moves s (evaluateIfDue s) := moves_budget (budgetOnly_evaluateIfDue s)

theorem moves_endSession (p : Pos) (outcome : EndOutcome) (cause : Option Cause) (s : State) :
    Moves s (endSession p outcome cause s) := by
  unfold endSession
  split
  · next ses h => exact (Move.ended outcome cause h).moves
  · exact .refl

theorem sessionAt_of_claimAt {s : State} {p : Pos} {c : Claim} (h : claimAt s p = some c) : sessionAt s p = none := by
  unfold claimAt at h
  unfold sessionAt
  split at h
  · next e => rw [e]
  · cases h

/-- A position without a live session becomes VACANT. -/
theorem aside_vacate {p : Pos} {s : State} (h : sessionAt s p = none) : Aside s (vacate p s) :=
  (aside_setOccupancy h fun _ e => by cases e).trans (aside_restSilence p _)

theorem moves_withdrawWaiter (l : Terminal) (s : State) : Moves s (withdrawWaiter l s) := by
  refine (Move.wanted _ s ⟨?_, fun h w hw => ?_⟩).moves
  · rw [List.map_map]; exact List.Sublist.refl _
  · obtain ⟨x, hx, rfl⟩ := List.mem_map.mp hw
    exact h x hx

theorem moves_removeWanted (card : Word) (s : State) : Moves s (removeWanted card s) :=
  (Move.wanted _ s ⟨List.filter_sublist.map _, fun h w hw => h w (List.mem_of_mem_filter hw)⟩).moves

theorem moves_dropClaim (p : Pos) (reason : Reason) (s : State) : Moves s (dropClaim p reason s) := by
  unfold dropClaim
  split
  · exact .refl
  · next c h =>
    exact ((aside_vacate (sessionAt_of_claimAt h)).moves.trans (moves_withdrawWaiter _ _)).trans
      (aside_answerTap _ _ _).moves

theorem moves_stopAt (p : Pos) (reason : Reason) (s : State) : Moves s (stopAt p reason s) := by
  refine Relation.ReflTransGen.trans ?_ (moves_dropClaim p reason _)
  exact moves_ite (fun _ => (moves_evaluateIfDue s).trans (moves_endSession _ _ _ _)) fun _ => .refl

theorem moves_suspendSession (p : Pos) (s : State) : Moves s (suspendSession p s) := by
  unfold suspendSession
  split
  · next ses h => exact moves_ite (fun _ => moves_putSession h ⟨rfl, rfl, rfl⟩) fun _ => .refl
  · exact .refl

theorem moves_confirmSession {p : Pos} {ses : Session} {s : State} (h : sessionAt s p = some ses) :
    Moves s (confirmSession p ses s) :=
  (moves_putSession h (b := { ses with state := .running, startMinute := some (stampNow s) }) ⟨rfl, rfl, rfl⟩).trans
    (aside_modPos rfl).moves

theorem moves_resumeSession {p : Pos} {ses : Session} {s : State} (h : sessionAt s p = some ses) :
    Moves s (resumeSession p ses s).1 := moves_putSession h ⟨rfl, rfl, rfl⟩

theorem moves_completeSession {p : Pos} {ses : Session} {s : State} (h : sessionAt s p = some ses) :
    Moves s (completeSession p ses s) := by
  refine Relation.ReflTransGen.trans ?_ (moves_endSession p .completed none _)
  cases ses.state with
  | starting => exact moves_confirmSession h
  | suspended => exact moves_putSession h ⟨rfl, rfl, rfl⟩
  | waitingBudget => exact .refl
  | running => exact .refl

theorem sameQuote_countMinute (tolerance : Nat) (ses : Session) : SameQuote ses (countMinute tolerance ses) := by
  unfold countMinute
  cases ses.state with
  | waitingBudget => exact ⟨rfl, rfl, rfl⟩
  | starting => exact ⟨rfl, rfl, rfl⟩
  | suspended => exact ⟨rfl, rfl, rfl⟩
  | running => dsimp only; split_ifs <;> exact ⟨rfl, rfl, rfl⟩

theorem moves_countMinutes (s : State) : Moves s (countMinutes s) := by
  refine moves_forPositions _ _ (fun p s => ?_) s
  unfold updateSession
  split
  · next ses h => exact moves_putSession h (sameQuote_countMinute _ ses)
  · exact .refl

/-! ### Budget (chapter 5) -/

theorem moves_capChanged (oldCap oldWater : Nat) (s : State) : Moves s (capChanged oldCap oldWater s).1 := by
  unfold capChanged
  simp only
  refine Relation.ReflTransGen.trans ?_ (moves_evaluateIfDue _)
  refine Relation.ReflTransGen.trans ?_ (moves_ite (fun _ => (aside_oweEvaluation _).moves) fun _ => .refl)
  refine Relation.ReflTransGen.trans (b := (if effectiveCap s < oldCap ∧ effectiveCap s < electricSum s
    then shedDown 24 s else (s, 0)).1) ?_ ?_
  · split
    · exact moves_budget (budgetOnly_shedDown 24 s)
    · exact .refl
  · refine moves_ite (fun _ => (aside_modLba _ _).moves) fun _ => moves_ite (fun _ => ?_) fun _ => .refl
    exact ((aside_modLba _ _).trans (aside_setFlag _ _)).moves

theorem moves_stepAtOnce {p : Pos} {ses : Session} {s : State} (j : Nat) (h : sessionAt s p = some ses) :
    Moves s (stepAtOnce p ses j s) := by
  have entered : Moves s (settlingEvent p (enterPhase p ses j s)) :=
    (moves_budget (budgetOnly_enterPhase j h)).trans (aside_settlingEvent p _).moves
  unfold stepAtOnce
  extract_lets before entry lowered left owing
  have owed : Moves s owing := entered.trans (moves_ite (fun _ => (aside_oweEvaluation _).moves) fun _ => .refl)
  exact moves_ite (fun _ => owed.trans (moves_budget (budgetOnly_shedDown 24 _))) fun _ => owed

theorem moves_newStep {p : Pos} {ses : Session} {s : State} (j : Nat) (h : sessionAt s p = some ses) :
    Moves s (newStep p ses j s) := by
  refine moves_ite (fun _ => moves_stepAtOnce j h) fun _ => ?_
  exact (aside_modLba _ s).moves.trans (moves_putSession ((sessionAt_modLba _ p s).trans h) ⟨rfl, rfl, rfl⟩)

theorem moves_stepRequest {p : Pos} {ses : Session} {s : State} (j : Nat) (h : sessionAt s p = some ses) :
    Moves s (stepRequest p ses j s).1 := by
  unfold stepRequest
  split
  · exact .refl
  · exact .refl
  · exact moves_newStep j h

/-! ### Faults (chapter 7) -/

theorem moves_lockPosition (onsets : List Cause) (p : Pos) (s : State) : Moves s (lockPosition onsets p s) :=
  moves_ite (fun _ => (Move.write (fun nv => { nv with lockout := nv.lockout.set p true }) s
    (.of_eq rfl rfl rfl rfl rfl rfl rfl rfl rfl rfl)).moves) fun _ => .refl

theorem moves_endByFault (p : Pos) (primary : Cause) (s : State) : Moves s (endByFault p primary s) := by
  unfold endByFault
  split
  · exact moves_endSession _ _ _ _
  · exact moves_dropClaim _ _ _

theorem aside_queueHaltWater (p : Pos) (s : State) : Aside s (queueHaltWater p s) :=
  aside_of_queueOnly (queueOnly_queueHaltWater p s)

theorem moves_enterAlarm (s : State) : Moves s (enterAlarm s) := by
  refine Relation.ReflTransGen.trans ?_ (moves_forPositions _ _ (fun p s => ?_) _)
  · refine (aside_setMode .alarm s).moves.trans (moves_forPositions _ _ (fun p s => ?_) _)
    exact moves_ite (fun _ => moves_stopAt p .roomAlarm s) fun _ => .refl
  · exact moves_ite (fun _ => (aside_queueHaltWater p s).moves) fun _ => .refl

theorem moves_raiseAlarm (s : State) : Moves s (raiseAlarm s) :=
  moves_ite (fun _ => .refl) fun _ => moves_enterAlarm s

theorem moves_leakActions (p : Pos) (s : State) : Moves s (leakActions p s) :=
  (moves_ite (fun _ => (aside_queueHaltWater p s).moves) fun _ => .refl).trans (moves_raiseAlarm _)

theorem moves_actOnOnsets (p : Pos) (onsets : List Cause) (snapshot : Option LastReport) (s : State) :
    Moves s (actOnOnsets p onsets snapshot s) := by
  unfold actOnOnsets
  split
  · exact .refl
  · refine Relation.ReflTransGen.trans ?_ (moves_ite (fun _ => moves_leakActions p _) fun _ => .refl)
    exact ((aside_writeFault _ _ _ _ _ s).moves.trans (moves_lockPosition _ p _)).trans (moves_endByFault p _ _)

theorem moves_handCause (p : Pos) (c : Cause) (s : State) : Moves s (handCause p c s) :=
  ((aside_setCauses p _ s).moves.trans (moves_actOnOnsets p _ _ _)).trans (moves_evaluateIfDue _)

theorem moves_drainLost (n : Nat) (s : State) : Moves s (drainLost n s) := by
  induction n generalizing s with
  | zero => exact .refl
  | succ n ih =>
    unfold drainLost
    split
    · exact .refl
    · exact ((aside_modRlc _ s).moves.trans (moves_handCause _ _ _)).trans (ih _)

theorem moves_closeTaking (s : State) : Moves s (closeTaking s) :=
  (moves_evaluateIfDue s).trans (moves_drainLost _ _)

theorem moves_reportJudgment (p : Pos) (r : Report) (handed : List Cause) (s : State) :
    Moves s (reportJudgment p r handed s) :=
  (aside_modPos rfl).moves.trans (moves_actOnOnsets p _ _ _)

theorem aside_takeHeater (p : Pos) (s : State) : Aside s (takeHeater p s).1 := by
  unfold takeHeater
  extract_lets q
  rcases judgeHeater s p with ⟨low, verdict⟩
  dsimp only
  exact aside_modPos rfl

theorem aside_takeStartCount (p : Pos) (s : State) : Aside s (takeStartCount p s).1 := by
  unfold takeStartCount
  split
  · split_ifs
    · dsimp only
      exact aside_modPos rfl
    · dsimp only
      exact aside_modPos rfl
    · exact Aside.refl s
  · exact Aside.refl s

theorem moves_sweepJudgment (p : Pos) (marked begun : Bool) (s : State) : Moves s (sweepJudgment p marked begun s) := by
  have heater : Aside s (if marked then takeHeater p s else (s, false)).1 := by
    split
    · exact aside_takeHeater p s
    · exact Aside.refl s
  have count : ∀ u, Aside u (if begun then (u, false) else takeStartCount p u).1 := fun u => by
    split
    · exact Aside.refl u
    · exact aside_takeStartCount p u
  exact ((heater.trans (count _)).moves.trans (moves_actOnOnsets p _ _ _)).trans (moves_evaluateIfDue _)

theorem moves_judgeFlood (s : State) : Moves s (judgeFlood s) := by
  refine moves_ite (fun _ => .refl) fun _ => moves_ite (fun _ => ?_) fun _ => ?_
  · exact (((aside_modFm _ s).trans (aside_setFlag _ _)).trans (aside_writeInput _ _)).moves.trans (moves_raiseAlarm _)
  · refine (aside_modFm _ s).moves.trans (moves_ite (fun _ => ?_) fun _ => .refl)
    exact ((aside_setFlag _ _).trans (aside_writeInput _ _)).moves

theorem moves_judgeStop (s : State) : Moves s (judgeStop s) := by
  refine moves_ite (fun _ => .refl) fun _ => moves_ite (fun _ => ?_) fun _ => ?_
  · refine Relation.ReflTransGen.trans ?_ (moves_forPositions _ _ (fun p s => moves_stopAt p _ s) _)
    refine Relation.ReflTransGen.trans ?_ (moves_ite (fun _ => .refl) fun _ => (aside_setMode _ _).moves)
    exact (((aside_modFm _ s).trans (aside_setFlag _ _)).trans (aside_writeInput _ _)).moves
  · refine (aside_modFm _ s).moves.trans (moves_ite (fun _ => ?_) fun _ => .refl)
    exact ((aside_setFlag _ _).trans (aside_writeInput _ _)).moves

end Sys2Proof.Machine.Settlement
end

section
/-!
What the room loop does to the store, the accounts and the sessions (chapter 6): every operation of it as `Moves`.
-/
namespace Sys2Proof.Machine.Settlement

/-! ### A report (R113) -/

theorem aside_stopStray (p : Pos) (cycle : Cycle) (tag : Byte) (s : State) : Aside s (stopStray p cycle tag s) := by
  unfold stopStray
  split
  · exact aside_of_queueOnly (queueOnly_queueStrayStop p tag s)
  · exact Aside.refl s

/-- A stray STOP is queued only where the tag is another's. -/
theorem aside_stopStray_unless (c : Prop) [Decidable c] (p : Pos) (cycle : Cycle) (tag : Byte) (s : State) :
    Aside s (if c then s else stopStray p cycle tag s) := by
  split
  · exact Aside.refl s
  · exact aside_stopStray p cycle tag s

theorem aside_judgeUnloading {p : Pos} {s : State} (cycle : Cycle) (tag : Byte) (h : sessionAt s p = none) :
    Aside s (judgeUnloading p cycle tag s) := by
  unfold judgeUnloading
  split
  · exact aside_vacate h
  · exact aside_stopStray p cycle tag s

theorem sessionAt_of_unloading {s : State} {p : Pos} {tag : Byte} (h : (posAt s p).occupancy = .unloading tag) :
    sessionAt s p = none := by unfold sessionAt; rw [h]

theorem moves_smStarting {p : Pos} {ses : Session} {s : State} (cycle : Cycle) (tag : Byte)
    (h : sessionAt s p = some ses) : Moves s (smStarting p ses cycle tag s).state := by
  unfold smStarting
  split_ifs
  · exact moves_confirmSession h
  · exact moves_completeSession h
  · exact .refl
  · exact (aside_stopStray p cycle tag s).moves

theorem moves_smRunning {p : Pos} {ses : Session} {s : State} (cycle : Cycle) (tag : Byte)
    (h : sessionAt s p = some ses) : Moves s (smRunning p ses cycle tag s).state := by
  unfold smRunning
  split
  · split
    · exact moves_resumeSession h
    · exact .refl
  · split
    · exact moves_completeSession h
    · exact (aside_stopStray_unless _ p cycle tag s).moves

theorem moves_smTake (p : Pos) (cycle : Cycle) (tag : Byte) (s : State) : Moves s (smTake p cycle tag s).state := by
  unfold smTake
  split
  · exact (aside_stopStray p cycle tag s).moves
  · exact (aside_stopStray p cycle tag s).moves
  · next h => exact (aside_judgeUnloading cycle tag (sessionAt_of_unloading h)).moves
  · next ses h =>
    have live := sessionAt_eq_some.mpr h
    split
    · exact (aside_stopStray_unless _ p cycle tag s).moves
    · exact moves_smStarting cycle tag live
    · exact moves_smRunning cycle tag live

theorem moves_lbaTake (p : Pos) (r : Report) (agrees : Bool) (s : State) : Moves s (lbaTake p r agrees s).1 := by
  have metered : Moves s (meter p r.draw s) := (aside_modPos rfl).moves
  unfold lbaTake
  extract_lets m
  split
  · split
    · next ses h => exact metered.trans (moves_stepRequest _ h)
    · exact metered
  · exact metered

theorem aside_doorRule (p : Pos) (r : Report) (s : State) : Aside s (doorRule p r s) := by
  unfold doorRule
  split_ifs
  · exact aside_of_queueOnly (queueOnly_offer _ _ s)
  · exact aside_of_queueOnly (queueOnly_offer _ _ s)
  · exact Aside.refl s
  · exact Aside.refl s

theorem moves_takeReport (p : Pos) (r : Report) (s : State) : Moves s (takeReport p r s) := by
  refine Relation.ReflTransGen.trans ?_ (aside_doorRule p r _).moves
  refine Relation.ReflTransGen.trans ?_ (moves_evaluateIfDue _)
  refine Relation.ReflTransGen.trans ?_ (moves_reportJudgment p r _ _)
  exact (moves_smTake p r.cycle r.tag s).trans (moves_lbaTake p r _ _)

/-! ### The roster and reconciliation (R109 to R111, R123) -/

theorem aside_heard (p : Pos) (s : State) : Aside s (heard p s) := aside_modPos rfl

theorem aside_leaveRoster (p : Pos) (presence : Presence) (s : State) : Aside s (leaveRoster p presence s) :=
  Aside.trans (aside_modPos rfl) (aside_restSilence p _)

theorem aside_queueIdentify (p : Pos) (s : State) : Aside s (queueIdentify p s) :=
  aside_of_queueOnly (queueOnly_queueIdentify p s)

theorem aside_makeDuplicate (p : Pos) (s : State) : Aside s (makeDuplicate p s) :=
  ((aside_leaveRoster p .duplicate s).trans (aside_setFlag _ _)).trans (aside_queueIdentify p _)

theorem aside_enrolPosition (p : Pos) (serial : Word) (s : State) : Aside s (enrolPosition p serial s) :=
  Aside.trans (aside_modPos rfl) (aside_heard p _)

theorem aside_giveClass (p : Pos) (cls : MachineClass) (s : State) : Aside s (giveClass p cls s).1 := by
  unfold giveClass
  extract_lets differs given
  have h : Aside s given := aside_modPos rfl
  dsimp only
  split
  · exact h.trans (aside_setFlag _ _)
  · exact h

theorem aside_enrolHaltWater (p : Pos) (newly : Bool) (s : State) : Aside s (enrolHaltWater p newly s) := by
  unfold enrolHaltWater
  split
  · exact aside_queueHaltWater p s
  · exact Aside.refl s

theorem moves_verdictStarting {p : Pos} {ses : Session} {s : State} (r : EnrolRecord)
    (h : sessionAt s p = some ses) : Moves s (verdictStarting p ses r s) := by
  refine moves_ite (fun _ => moves_confirmSession h) fun _ => moves_ite (fun _ => moves_completeSession h) fun _ => ?_
  exact (aside_stopStray_unless _ p r.cycle r.tag s).moves.trans (moves_handCause p _ _)

theorem moves_verdictRunning {p : Pos} {ses : Session} {s : State} (r : EnrolRecord)
    (h : sessionAt s p = some ses) : Moves s (verdictRunning p ses r s) := by
  refine moves_ite (fun _ => moves_ite (fun _ => ?_) fun _ => .refl) fun _ =>
    moves_ite (fun _ => moves_completeSession h) fun _ => ?_
  · exact (moves_resumeSession h).trans (moves_ite (fun _ => moves_handCause p _ _) fun _ => .refl)
  · exact (aside_stopStray_unless _ p r.cycle r.tag s).moves.trans (moves_handCause p _ _)

theorem moves_verdictWaiting {p : Pos} {ses : Session} {s : State} (r : EnrolRecord)
    (h : sessionAt s p = some ses) : Moves s (verdictWaiting p ses r s) :=
  moves_ite (fun _ => moves_ite (fun _ => moves_completeSession h) fun _ => .refl) fun _ =>
    (aside_stopStray p r.cycle r.tag s).moves

theorem moves_verdict (p : Pos) (r : EnrolRecord) (s : State) : Moves s (verdict p r s) := by
  unfold verdict
  split
  · exact (aside_stopStray p _ _ s).moves
  · exact (aside_stopStray p _ _ s).moves
  · next h => exact (aside_judgeUnloading _ _ (sessionAt_of_unloading h)).moves
  · next ses h =>
    have live := sessionAt_eq_some.mpr h
    split
    · exact moves_verdictWaiting r live
    · exact moves_verdictStarting r live
    · exact moves_verdictRunning r live

theorem moves_reconcile (p : Pos) (newly : Bool) (r : EnrolRecord) (s : State) : Moves s (reconcile p newly r s) := by
  refine Relation.ReflTransGen.trans ?_ (moves_evaluateIfDue _)
  refine Relation.ReflTransGen.trans ((aside_giveClass p r.cls s).trans (aside_enrolHaltWater p newly _)).moves ?_
  exact moves_ite (fun _ => (moves_handCause p _ _).trans (aside_stopStray p _ _ _).moves) fun _ => moves_verdict p r _

/-! ### Sweeps (R106 to R111, R115 to R121) -/

theorem aside_sendEnrol (s : State) : Aside s (sendEnrol s) := aside_modRlc _ s

theorem aside_setHeld (b : Block) (l : List Directive) (s : State) : Aside s (setHeld b l s) :=
  aside_of_queueOnly (queueOnly_setHeld b l s)

theorem aside_foldl {α : Type} (l : List α) (act : State → α → State) (h : ∀ s a, Aside s (act s a)) (s : State) :
    Aside s (l.foldl act s) := by
  induction l generalizing s with
  | nil => exact Aside.refl s
  | cons a l ih => exact (h s a).trans (ih _)

theorem aside_mergeOffers (n : Nat) (pending : List (Block × List Directive)) (s : State) :
    Aside s (mergeOffers n pending s) := by
  induction n generalizing pending s with
  | zero => exact Aside.refl s
  | succ n ih =>
    unfold mergeOffers
    extract_lets left i counted
    have free : Aside s counted := by
      simp only [counted]
      split
      · exact Aside.refl s
      · exact .of_positions rfl rfl rfl rfl
    split
    · exact (free.trans (aside_of_queueOnly (queueOnly_offer _ _ _))).trans (ih _ _)
    · exact free

theorem aside_offerHeld (s : State) : Aside s (offerHeld s) :=
  (aside_foldl allBlocks _ (fun s b => aside_setHeld b [] s) s).trans (aside_mergeOffers _ _ _)

theorem aside_chooseCarried (room : Nat) (older rest : List QueueEntry) (s : State) :
    Aside s (chooseCarried room older rest s).1 := by
  induction rest generalizing room older s with
  | nil => exact aside_setQueue older s
  | cons e rest ih =>
    unfold chooseCarried
    split
    · exact ih _ _ _
    · extract_lets fresh seq given carried
      have h : Aside s given := by
        simp only [given]
        split
        · exact aside_modPos rfl
        · exact Aside.refl s
      exact h.trans (ih _ _ _)

theorem aside_sendRunning (s : State) : Aside s (sendRunning s) := by
  unfold sendRunning
  exact ((aside_offerHeld s).trans (aside_chooseCarried 4 [] _ _)).trans (aside_modRlc _ _)

theorem moves_breakLoop (s : State) : Moves s (breakLoop s) :=
  ((aside_modRlc _ s).trans (aside_setFlag _ _)).moves.trans (moves_forPositions _ _ moves_suspendSession _)

theorem moves_badReturn (s : State) : Moves s (badReturn s) := by
  unfold badReturn
  split
  · exact .refl
  · extract_lets cleared raised failed
    have h : Moves s cleared := (aside_modRlc _ s).moves
    split
    · exact (h.trans (aside_modRlc _ _).moves).trans (moves_ite (fun _ => moves_breakLoop _) fun _ => .refl)
    · exact (h.trans (aside_modRlc _ _).moves).trans (moves_ite (fun _ => moves_breakLoop _) fun _ => .refl)
    · exact h.trans (aside_modRlc _ _).moves
    · exact h

theorem aside_rosterPosition (records : List EnrolRecord) (p : Pos) (s : State) :
    Aside s (rosterPosition records p s) := by
  unfold rosterPosition
  extract_lets before after
  have placed : Aside s after := by
    simp only [after]
    split
    · exact aside_leaveRoster p _ s
    · exact aside_enrolPosition p _ s
    · exact (aside_leaveRoster p _ s).trans (aside_queueIdentify p _)
  split
  · exact placed
  · exact placed.trans (aside_setFlag _ _)

theorem moves_reconcilePosition (records : List EnrolRecord) (newly : List Pos) (p : Pos) (s : State) :
    Moves s (reconcilePosition records newly p s) := by
  unfold reconcilePosition
  split
  · exact moves_reconcile p _ _ s
  · exact moves_suspendSession p s

theorem aside_raiseSettle (s : State) : Aside s (raiseSettle s) :=
  aside_forPositions _ _ (fun _ _ => aside_modPos rfl) s

theorem moves_goodEnrol (number : Byte) (records : List LoopRecord) (s : State) :
    Moves s (goodEnrol number records s) := by
  unfold goodEnrol
  extract_lets enrols newly s1 s2 s3 s4 s5
  have h3 : Moves s s3 := ((aside_modRlc _ s).trans (aside_raiseSettle _)).moves.trans
    (moves_ite (fun _ => (aside_setFlag _ _).moves) fun _ => .refl)
  have h4 : Moves s3 s4 := (aside_forPositions _ _ (aside_rosterPosition enrols) _).moves
  have h5 : Moves s4 s5 := moves_forPositions _ _ (moves_reconcilePosition enrols newly) _
  exact ((h3.trans h4).trans h5).trans (aside_modRlc _ _).moves

theorem moves_tellFirstSend (e : QueueEntry) (s : State) : Moves s (tellFirstSend e s) := by
  unfold tellFirstSend
  extract_lets p
  split
  · exact moves_ite (fun _ => (aside_modPos rfl).moves) fun _ => .refl
  · next h => exact moves_ite (fun _ => moves_putSession h ⟨rfl, rfl, rfl⟩) fun _ => .refl
  · exact .refl

theorem aside_acknowledge (p : Pos) (accepted : Byte) (s : State) : Aside s (acknowledge p accepted s) := by
  unfold acknowledge
  extract_lets named settles left
  split
  · exact (aside_setQueue _ s).trans (aside_settlingEvent p _)
  · exact aside_setQueue _ s

theorem moves_takeMark (p : Pos) (m : Mark) (s : State) : Moves s (takeMark p m s) := by
  unfold takeMark
  extract_lets s1 s2
  have h : Moves s s2 :=
    ((Aside.trans (aside_modPos rfl) (aside_heard p _)).trans (aside_acknowledge p m.accepted _)).moves
  split
  · exact h.trans (moves_takeReport p _ _)
  · exact h

theorem moves_joinPosition (p : Pos) (newly : Bool) (e : EnrolRecord) (s : State) :
    Moves s (joinPosition p newly e s) :=
  ((aside_enrolPosition p e.serial s).trans (aside_modPos rfl)).moves.trans (moves_reconcile p newly e _)

theorem moves_takeJoin (records : List LoopRecord) (e : EnrolRecord) (s : State) : Moves s (takeJoin records e s) := by
  unfold takeJoin
  split
  · exact (aside_setFlag _ s).moves
  · split
    · exact .refl
    · exact moves_ite (fun _ => (aside_makeDuplicate _ s).moves) fun _ =>
        (aside_setFlag _ s).moves.trans (moves_joinPosition _ _ e _)
    · exact moves_ite (fun _ => (aside_makeDuplicate _ s).moves) fun _ => moves_joinPosition _ _ e s

theorem moves_takeRecord (records : List LoopRecord) (t : SweepTaking) (r : LoopRecord) :
    Moves t.state (takeRecord records t r).state := by
  unfold takeRecord
  split
  · split
    · exact .refl
    · split_ifs
      · exact (aside_makeDuplicate _ _).moves
      · exact moves_takeMark _ _ _
      · exact .refl
  · exact moves_takeJoin records _ _
  · exact .refl

theorem moves_takeRecords (all records : List LoopRecord) (t : SweepTaking) :
    Moves t.state (records.foldl (takeRecord all) t).state := by
  induction records generalizing t with
  | nil => exact .refl
  | cons r records ih => exact (moves_takeRecord all t r).trans (ih _)

theorem moves_countMissing (marked : List Pos) (p : Pos) (s : State) : Moves s (countMissing marked p s) :=
  moves_ite (fun _ => .refl) fun _ => Relation.ReflTransGen.trans (Aside.moves (aside_modPos rfl))
    (moves_ite (fun _ => moves_suspendSession p _) fun _ => .refl)

theorem aside_dropEntries (test : QueueEntry → Bool) (s : State) : Aside s (dropEntries test s) :=
  (aside_setQueue _ s).trans (aside_forPositions _ _ aside_settlingEvent _)

theorem moves_closePosition (dropped marked begun : List Pos) (p : Pos) (s : State) :
    Moves s (closePosition dropped marked begun p s) :=
  (moves_foldl _ _ (fun s _ => moves_handCause p _ s) s).trans (moves_sweepJudgment p _ _ _)

theorem moves_goodRunning (number : Byte) (records : List LoopRecord) (s : State) :
    Moves s (goodRunning number records s) := by
  unfold goodRunning
  extract_lets first begun s1 s2 s3 taking s4 dropped s5
  have h3 : Moves s s3 := ((aside_modRlc _ s).trans (aside_raiseSettle _)).moves.trans
    (moves_foldl _ _ (fun s e => moves_tellFirstSend e s) _)
  have h4 : Moves s3 s4 := (moves_takeRecords records records { state := s3, marked := [] }).trans
    (moves_forPositions _ _ (moves_countMissing taking.marked) _)
  have h5 : Moves s4 s5 := (aside_dropEntries dropDue _).moves
  exact ((h3.trans h4).trans h5).trans (moves_forPositions _ _ (moves_closePosition dropped taking.marked begun) _)

theorem moves_sweepReturn (kind : SweepKind) (home : SweepHome) (s : State) : Moves s (sweepReturn kind home s) := by
  unfold sweepReturn
  split
  · exact .refl
  · refine moves_ite (fun _ => ?_) fun _ => .refl
    split
    · exact moves_badReturn s
    · refine moves_ite (fun _ => ?_) fun _ => .refl
      split
      · exact moves_goodRunning _ _ s
      · exact moves_goodEnrol _ _ s

/-! ### Loop Restart (R124, R125) -/

theorem aside_emptyEntry (e : QueueEntry) (s : State) : Aside s (emptyEntry e s) := by
  unfold emptyEntry
  split
  · exact Aside.refl s
  · extract_lets settled
    have h : Aside s settled := by
      simp only [settled]
      split
      · exact aside_settlingEvent _ s
      · exact Aside.refl s
    split
    · exact h.trans (aside_of_queueOnly (queueOnly_holdBack _ _ _))
    · exact h

theorem aside_restartLoop (s : State) : Aside s (restartLoop s) :=
  ((((aside_setQueue [] s).trans (aside_foldl s.rlc.queue _ (fun s e => aside_emptyEntry e s) _)).trans
    (aside_forPositions _ _ (fun _ _ => aside_modPos rfl) _)).trans (aside_modRlc _ _)).trans (aside_sendEnrol _)

theorem moves_silenceReached (p : Pos) (s : State) : Moves s (silenceReached p s) :=
  Relation.ReflTransGen.trans (Aside.moves (aside_modPos rfl)) (moves_handCause p _ _)

/-- The measures that have reached SilenceLimit are taken (R122). -/
theorem moves_silencesReached (s : State) :
    Moves s (forPositions allPositions (fun p s => if silenceDue s p then silenceReached p s else s) s) :=
  moves_forPositions _ _ (fun p s => moves_ite (fun _ => moves_silenceReached p s) fun _ => .refl) s

end Sys2Proof.Machine.Settlement
end

section
/-!
What cards and terminals do to the store, the accounts and the sessions (chapters 3 and 4), as `Moves`.
-/
namespace Sys2Proof.Machine.Settlement

/-! ### Claims and holds (R9 to R11, R56, R74) -/

theorem findEntry_of_findWay {s : State} {card : Word} (h : findWay s card = none) : findEntry s card = none := by
  unfold findEntry; rw [h]

theorem aside_answerStart (p : Pos) (l : Terminal) (s : State) : Aside s (answerStart p l s) := by
  unfold answerStart
  split
  · exact aside_answerTap _ _ s
  · exact Aside.refl s

theorem moves_joinStartQueue (p : Pos) (s : State) : Moves s (joinStartQueue p s) :=
  (aside_modLba _ s).moves.trans (moves_budget (budgetOnly_evaluate _))

/-- A hold is placed for a claim, on the entry of an ACCOUNT card (R11, R56). -/
theorem moves_placeHold {p : Pos} {c : Claim} {s : State} (quote nominal : Nat) (origin : Option Origin)
    (h : claimAt s p = some c) (entry : c.cls = .account → (findEntry s c.card).isSome) :
    Moves s (placeHold p c quote nominal origin s) := by
  have live := (Move.held (ses := heldSession s c quote nominal origin) (sessionAt_of_claimAt h) entry).moves
  exact ((live.trans (moves_writeSlot p _ _)).trans (moves_joinStartQueue p _)).trans (aside_answerStart p _ _).moves

theorem moves_finishClaim {p : Pos} {c : Claim} {s : State} (quote : Nat) (origin : Option Origin)
    (h : claimAt s p = some c) (entry : c.cls = .account → (findEntry s c.card).isSome) :
    Moves s (finishClaim p c quote origin s) := by
  unfold finishClaim
  extract_lets nominal
  split
  · exact moves_dropClaim p _ s
  · exact moves_placeHold quote nominal origin h entry

theorem moves_admitAccount {p : Pos} {c : Claim} {s : State} (h : claimAt s p = some c) :
    Moves s (admitAccount p c s) := by
  unfold admitAccount
  split
  · exact .refl
  · next hit =>
    exact moves_ite (fun _ => moves_dropClaim p _ s) fun _ => moves_ite (fun _ => moves_dropClaim p _ s) fun _ =>
      moves_finishClaim _ _ h fun _ => by rw [hit]; rfl

theorem aside_answerBalance (l : Terminal) (card : Word) (s : State) : Aside s (answerBalance l card s) := by
  unfold answerBalance
  split
  · exact Aside.refl s
  · split
    · exact aside_answerTap l _ s
    · exact aside_answerTap l _ s

theorem moves_serveAsker (card : Word) (asker : Asker) (s : State) : Moves s (serveAsker card asker s) := by
  unfold serveAsker
  split
  · split
    · next h => exact moves_admitAccount h
    · exact .refl
  · exact (aside_answerBalance _ card s).moves

theorem moves_serveAskers (card : Word) (askers : List Asker) (s : State) : Moves s (serveAskers card askers s) :=
  moves_foldl askers _ (fun s a => moves_serveAsker card a s) s

theorem moves_failAsker (card : Word) (reason : Reason) (asker : Asker) (s : State) :
    Moves s (failAsker card reason asker s) := by
  cases asker with
  | start p => exact moves_dropClaim p reason s
  | balance l => exact (aside_answerTap l _ s).moves

/-! ### Entries and the wanted list (R50, R52 to R55) -/

theorem removeWanted_of_none {s : State} {card : Word} (h : wantedFor s card = none) : removeWanted card s = s := by
  have all : s.cru.wanted.filter (fun w => w.card != card) = s.cru.wanted := by
    rw [List.filter_eq_self]
    intro w hw
    have := List.find?_eq_none.mp h w hw
    simpa using this
  unfold removeWanted setWanted
  rw [all]

/-- The offline decision, as the card's wanted entry leaves the list (R55). -/
theorem moves_offlineDecision {card : Word} {s : State} (askers : List Asker)
    (miss : findEntry s card = none ∨ (wantedFor s card).isSome) :
    Moves s (offlineDecision card askers (removeWanted card s)) := by
  have fails : ∀ reason, Moves s (askers.foldl (fun s a => failAsker card reason a s) (removeWanted card s)) :=
    fun reason => (moves_removeWanted card s).trans (moves_foldl _ _ (fun s a => moves_failAsker card reason a s) _)
  unfold offlineDecision
  refine moves_ite (fun _ => fails _) fun _ => ?_
  split
  · next i way =>
    exact (Move.created .good .provisional miss way ⟨by decide, by decide⟩).moves.trans (moves_serveAskers _ _ _)
  · exact fails _

theorem moves_expireWanted (card : Word) (s : State) : Moves s (expireWanted card s) := by
  unfold expireWanted
  split
  · exact .refl
  · next w h =>
    exact moves_ite (fun _ => moves_removeWanted card s) fun _ => moves_offlineDecision _ (.inr (by rw [h]; rfl))

theorem moves_resolveMiss {card : Word} {s : State} (l : Terminal) (asker : Asker) (miss : findEntry s card = none) :
    Moves s (resolveMiss l card asker s) := by
  unfold resolveMiss
  rcases askerFlight card asker with ⟨flight, kind⟩
  refine moves_ite (fun _ => moves_failAsker _ _ _ s) fun _ => moves_ite (fun _ => ?_) fun new =>
    moves_ite (fun room => ?_) fun _ => ?_
  · refine Relation.ReflTransGen.trans (Move.wanted _ s ⟨?_, fun old w hw => ?_⟩).moves (aside_beginFlight _ _ _).moves
    · rw [List.map_map]
      have same : ∀ w ∈ s.cru.wanted, Wanted.card (if w.card = card then { w with waiters := w.waiters ++ [(l, kind)] }
          else w) = w.card := fun w _ => by split <;> rfl
      exact (List.map_congr_left same) ▸ List.Sublist.refl _
    · obtain ⟨x, hx, rfl⟩ := List.mem_map.mp hw
      split <;> exact old x hx
  · have new : wantedFor s card = none := by simpa using new
    exact (Move.wants _ room new miss).moves.trans ((aside_setFlag _ _).trans (aside_beginFlight _ _ _)).moves
  · have new : wantedFor s card = none := by simpa using new
    have := moves_offlineDecision [asker] (.inl miss)
    rwa [removeWanted_of_none new] at this

theorem moves_resolveAccount (l : Terminal) (card : Word) (asker : Asker) (s : State) :
    Moves s (resolveAccount l card asker s) := by
  unfold resolveAccount
  split
  · exact (Move.used _ s).moves.trans (moves_serveAsker _ _ _)
  · next h => exact moves_resolveMiss l asker (findEntry_of_findWay h)

/-! ### Terminal requests (R69 to R79) -/

theorem claimAt_setOccupancy (p : Pos) (c : Claim) (s : State) :
    claimAt (setOccupancy p (.claimed c) s) p = some c := by
  unfold claimAt setOccupancy
  rw [posAt_modPos_self]

theorem keepsStore_sessionCounter (n : Half) (nv : Retained) : KeepsStore nv { nv with sessionCounter := n } :=
  .of_eq rfl rfl rfl rfl rfl rfl rfl rfl rfl rfl

/-- The claim of a VACANT position (R9). -/
theorem moves_claimPosition {a : Admitted} {s : State} (l : Terminal) (card : Word)
    (h : (posAt s a.pos).occupancy = .vacant) : Moves s (claimPosition l card a s).1 := by
  refine (Move.write _ s (keepsStore_sessionCounter _ _)).moves.trans
    (aside_setOccupancy ?_ fun _ e => by cases e).moves
  show sessionAt s a.pos = none
  unfold sessionAt
  rw [h]

theorem moves_resolveClaim {p : Pos} {c : Claim} {s : State} (l : Terminal) (h : claimAt s p = some c) :
    Moves s (resolveClaim l p c s) :=
  moves_ite (fun _ => moves_dropClaim p _ s) fun _ => moves_ite (fun _ => moves_resolveAccount l _ _ s) fun other =>
    moves_finishClaim 0 none h fun e => absurd e other

/-- A TAP_START passes its checks only at a VACANT position (R71, check 8). -/
theorem vacant_of_firstPass {s : State} {card : Word} {position program extension : Byte} {a : Admitted}
    (h : firstPass s card position program extension = .ok a) : (posAt s a.pos).occupancy = .vacant := by
  unfold firstPass at h
  split at h
  · cases h
  split at h
  · cases h
  split at h
  · cases h
  split at h
  · cases h
  next free =>
  split at h
  · cases h
  dsimp only at h
  split at h
  · cases h
  cases h
  unfold checkPosition at free
  by_contra busy
  rw [if_neg busy] at free
  simp at free

theorem moves_takeTapStart (l : Terminal) (card : Word) (position program extension : Byte) (s : State) :
    Moves s (takeTapStart l card position program extension s) := by
  unfold takeTapStart
  extract_lets refuse
  refine moves_ite (fun _ => .refl) fun _ => moves_ite (fun _ => (aside_pushAnswer l _ s).moves) fun _ => ?_
  split
  · exact (aside_pushAnswer l _ s).moves
  · next a h =>
    exact (moves_claimPosition l card (vacant_of_firstPass h)).trans (moves_resolveClaim l (claimAt_setOccupancy _ _ _))

theorem moves_takeTapBalance (l : Terminal) (card : Word) (s : State) : Moves s (takeTapBalance l card s) := by
  unfold takeTapBalance
  extract_lets refuse
  refine moves_ite (fun _ => .refl) fun _ => moves_ite (fun _ => (aside_pushAnswer l _ s).moves) fun _ => ?_
  split
  · exact (aside_pushAnswer l _ s).moves
  · exact moves_resolveAccount l card _ s
  · exact (aside_pushAnswer l _ s).moves

theorem moves_abortAt (l : Terminal) (card : Word) (p : Pos) (s : State) : Moves s (abortAt l card p s) := by
  unfold abortAt
  split
  · exact (moves_dropClaim p _ s).trans (aside_pushAnswer l _ _).moves
  · exact (moves_endSession p _ _ s).trans (aside_pushAnswer l _ _).moves
  · exact .refl

theorem moves_takeTapAbort (l : Terminal) (card : Word) (position : Byte) (s : State) :
    Moves s (takeTapAbort l card position s) := by
  unfold takeTapAbort
  extract_lets refuse
  split
  · exact (aside_pushAnswer l _ s).moves
  · exact moves_ite (fun _ => moves_abortAt l card _ s) fun _ => (aside_pushAnswer l _ s).moves

theorem moves_takeTap (l : Terminal) (frame : Frame) (s : State) : Moves s (takeTap l frame s) := by
  unfold takeTap
  split
  · exact moves_takeTapStart l _ _ _ _ s
  · exact moves_takeTapBalance l _ s
  · exact moves_takeTapAbort l _ _ s
  · exact (aside_pushAnswer l _ s).moves

theorem moves_terminalBytes (l : Terminal) (bytes : List Byte) (s : State) : Moves s (terminalBytes l bytes s) := by
  unfold terminalBytes
  exact (aside_modLine l _ s).moves.trans (moves_foldl _ _ (fun s f => moves_takeTap l f s) _)

/-! ### Account Load (R59 to R61) -/

/-- A use begins by renumbering where the counter stands at its top (R48). -/
def renumberAtTop (s : State) : State := if s.cru.useCounter = topStamp then renumber s else s

/-- The use counter advances (R48). -/
def advanceCounter (s : State) : State := { s with cru := { s.cru with useCounter := s.cru.useCounter + 1 } }

/-- The entry of a way takes the counter's value as its stamp (R48). -/
def stampEntry (i : Fin 48) (s : State) : State :=
  match entryAt s i with
  | some a => setEntry i (some { a with stamp := s.cru.useCounter }) s
  | none => s

theorem useEntry_eq (i : Fin 48) (s : State) : useEntry i s = stampEntry i (advanceCounter (renumberAtTop s)) := rfl

theorem createEntry_eq (i : Fin 48) (card : Word) (balance : Int) (status : AccountStatus) (origin : Origin)
    (s : State) : createEntry i card balance status origin s = useEntry i (setEntry i
      (some { card, balance, held := 0, status, origin, stamp := 0 }) (renumberAtTop (setEntry i none s))) := rfl

theorem entryAt_setWanted (i : Fin 48) (l : List Wanted) (s : State) : entryAt (setWanted l s) i = entryAt s i := rfl

theorem setEntry_setWanted (i : Fin 48) (a : Option Account) (l : List Wanted) (s : State) :
    setEntry i a (setWanted l s) = setWanted l (setEntry i a s) := rfl

theorem renumber_setWanted (l : List Wanted) (s : State) : renumber (setWanted l s) = setWanted l (renumber s) := by
  unfold renumber setWanted cachedAccounts entryAt
  dsimp only

theorem renumberAtTop_setWanted (l : List Wanted) (s : State) :
    renumberAtTop (setWanted l s) = setWanted l (renumberAtTop s) := by
  unfold renumberAtTop
  rw [renumber_setWanted, setWanted_cru]
  split <;> rfl

theorem advanceCounter_setWanted (l : List Wanted) (s : State) :
    advanceCounter (setWanted l s) = setWanted l (advanceCounter s) := rfl

theorem stampEntry_setWanted (i : Fin 48) (l : List Wanted) (s : State) :
    stampEntry i (setWanted l s) = setWanted l (stampEntry i s) := by
  unfold stampEntry
  rw [entryAt_setWanted]
  split
  · rw [setEntry_setWanted, setWanted_cru]
  · rfl

theorem useEntry_setWanted (i : Fin 48) (l : List Wanted) (s : State) :
    useEntry i (setWanted l s) = setWanted l (useEntry i s) := by
  rw [useEntry_eq, useEntry_eq, renumberAtTop_setWanted, advanceCounter_setWanted, stampEntry_setWanted]

/-- The wanted list has no part in the creation of an entry. -/
theorem createEntry_setWanted (i : Fin 48) (card : Word) (balance : Int) (status : AccountStatus) (origin : Origin)
    (l : List Wanted) (s : State) : createEntry i card balance status origin (setWanted l s) =
      setWanted l (createEntry i card balance status origin s) := by
  rw [createEntry_eq, createEntry_eq, setEntry_setWanted, renumberAtTop_setWanted, setEntry_setWanted,
    useEntry_setWanted]

theorem wanted_useEntry (i : Fin 48) (s : State) : (useEntry i s).cru.wanted = s.cru.wanted := by
  have h : useEntry i s = setWanted s.cru.wanted (useEntry i s) := useEntry_setWanted i s.cru.wanted s
  rw [h, setWanted_cru]

theorem wanted_createEntry (i : Fin 48) (card : Word) (balance : Int) (status : AccountStatus) (origin : Origin)
    (s : State) : (createEntry i card balance status origin s).cru.wanted = s.cru.wanted := by
  have h : createEntry i card balance status origin s =
      setWanted s.cru.wanted (createEntry i card balance status origin s) :=
    createEntry_setWanted i card balance status origin s.cru.wanted s
  rw [h, setWanted_cru]

theorem removeWanted_createEntry (i : Fin 48) (card : Word) (balance : Int) (status : AccountStatus) (origin : Origin)
    (s : State) : removeWanted card (createEntry i card balance status origin s) =
      createEntry i card balance status origin (removeWanted card s) := by
  unfold removeWanted
  rw [createEntry_setWanted, wanted_createEntry]

theorem moves_matchWanted (card : Word) (s : State) : Moves s (matchWanted card s) := by
  unfold matchWanted
  split
  · exact .refl
  · exact (moves_removeWanted card s).trans (moves_serveAskers card _ _)

/-- A new entry is created and the card's waiting requests resume (R60, R61). -/
theorem moves_matchWanted_createEntry {i : Fin 48} {card : Word} {balance : Int} {s : State} (status : AccountStatus)
    (origin : Origin) (miss : findEntry s card = none) (way : allocate s card = some i)
    (range : -999999 ≤ balance ∧ balance ≤ 999999) :
    Moves s (matchWanted card (createEntry i card balance status origin s)) := by
  have made := (Move.created status origin (.inl miss) way range).moves
  unfold matchWanted wantedFor
  rw [wanted_createEntry, removeWanted_createEntry]
  split
  · next new => rwa [removeWanted_of_none new] at made
  · exact made.trans (moves_serveAskers card _ _)

theorem clampBalance_range (b : Int) : -999999 ≤ clampBalance b ∧ clampBalance b ≤ 999999 := by
  unfold clampBalance clampInt; omega

theorem entryAt_of_findEntry {s : State} {card : Word} {i : Fin 48} {a : Account} (h : findEntry s card = some (i, a)) :
    entryAt s i = some a ∧ a.card = card := by
  unfold findEntry at h
  split at h
  · next j hj =>
    obtain ⟨b, hb, e⟩ := Option.map_eq_some_iff.mp h
    cases e
    refine ⟨hb, ?_⟩
    have test := List.find?_some hj
    rw [hb] at test
    simpa using test
  · cases h

theorem moves_loadExisting {i : Fin 48} {a : Account} {balance : Int} {s : State} (status : AccountStatus)
    (h : entryAt s i = some a) (range : -999999 ≤ balance ∧ balance ≤ 999999) :
    Moves s (loadExisting i a balance status s) :=
  (Move.entry (b := { a with balance, status, origin := .host }) h rfl rfl (.inr (.inl range))).moves.trans
    (Move.used i _).moves

end Sys2Proof.Machine.Settlement
end

section
/-!
What the host's writes keep of the Retained Store (R28 to R31, R45, R81, R101, R153, R159, R178).
-/
namespace Sys2Proof.Machine.Settlement

/-- One entry of a table is replaced. -/
theorem getElem_set_fin {α : Type} {n : Nat} (v : Vector α n) (i j : Fin n) (x : α) :
    (v.set i x)[j] = if j = i then x else v[j] := by
  by_cases h : j = i
  · subst h; simp
  · have h' : i.val ≠ j.val := fun e => h (Fin.ext e.symm)
    simp [h, Vector.getElem_set_ne _ _ h']

/-! ### Programs (R28, R29, R31) -/

theorem storedPhase_inRange {cls : MachineClass} {f : PhaseFields} (h : phaseValid cls f = true) :
    (storedPhase f).lu ≤ 120 ∧ (storedPhase f).wu ≤ 40 ∧ (1 ≤ (storedPhase f).minutes ∧ (storedPhase f).minutes ≤ 120)
      ∧ (storedPhase f).shedLu ≤ (storedPhase f).lu ∧ ((storedPhase f).sheddable = true → cls = .dryer)
      ∧ ((storedPhase f).sheddable = false → (storedPhase f).shedLu = 0) := by
  unfold phaseValid at h
  simp only [Bool.and_eq_true, decide_eq_true_eq, Bool.not_eq_true', Bool.or_eq_true] at h
  obtain ⟨⟨⟨lu, wu, least, most⟩, washer⟩, shed⟩ := h
  refine ⟨lu, wu, ⟨least, most⟩, ?_, ?_, ?_⟩
  · show (if f.flags.getLsbD 1 then f.shedLu.toNat else 0) ≤ f.lu.toNat
    split
    · next on => exact shed.resolve_left (by simp [on])
    · exact Nat.zero_le _
  · intro on
    have on : f.flags.getLsbD 1 = true := on
    cases cls with
    | washer => rw [on] at washer; cases washer
    | dryer => rfl
  · intro off
    have off : f.flags.getLsbD 1 = false := off
    exact if_neg (by rw [off]; exact Bool.false_ne_true)

/-- A record that Program Write accepts is stored in range (R31). -/
theorem storedProgram_inRange {cls : MachineClass} {f : ProgramFields} (h : programValid cls f = true) :
    ProgramInRange (storedProgram cls f) := by
  unfold programValid at h
  simp only [Bool.and_eq_true, decide_eq_true_eq, Bool.not_eq_true', List.all_eq_true] at h
  obtain ⟨⟨⟨⟨base, rate⟩, count⟩, valid⟩, total⟩ := h
  refine ⟨base, fun dryer => ?_, fun washer => ?_, ?_, ?_, fun x hx => ?_⟩
  · have dryer : cls = .dryer := dryer
    subst dryer
    simpa [storedProgram] using rate
  · have washer : cls = .washer := washer
    simp [storedProgram, washer]
  · simpa [storedProgram] using count
  · simpa [nominalMinutes, storedProgram, storedPhase, Function.comp_def] using total
  · obtain ⟨y, hy, rfl⟩ := List.mem_map.mp hx
    exact storedPhase_inRange (valid y hy)

theorem keepsStore_program {nv : Retained} (id : ProgramId) (prog : Option Program)
    (h : ∀ x, prog = some x → ProgramInRange x) : KeepsStore nv { nv with programs := nv.programs.set id prog } := by
  refine .of_range (fun ⟨settings, feed, water, trims, programs, rest⟩ => ?_) rfl rfl rfl
  refine ⟨settings, feed, water, trims, fun i x hx => ?_, rest⟩
  rw [getElem_set_fin] at hx
  split at hx
  · exact h x hx
  · exact programs i x hx

/-! ### Bands and ranges (R45, R159) -/

theorem keepsStore_range {nv : Retained} (i : Fin 8) (entry : Option RangeEntry)
    (h : ∀ e, entry = some e → e.low.toNat ≤ e.high.toNat) :
    KeepsStore nv { nv with ranges := nv.ranges.set i entry } := by
  refine .of_range (fun ⟨settings, feed, water, trims, programs, ranges, rest⟩ => ?_) rfl rfl rfl
  refine ⟨settings, feed, water, trims, programs, fun j e he => ?_, rest⟩
  rw [getElem_set_fin] at he
  split at he
  · exact h e he
  · exact ranges j e he

theorem mem_presentBands {bands : Vector (Option Band) 8} {i : Fin 8} {b : Band} :
    (i, b) ∈ presentBands bands ↔ bands[i] = some b := by
  unfold presentBands
  have all : ∀ j : Fin 8, j ∈ allBandIndexes := by decide
  constructor
  · intro h
    obtain ⟨j, -, hj⟩ := List.mem_filterMap.mp h
    obtain ⟨c, hc, e⟩ := Option.map_eq_some_iff.mp hj
    cases e
    exact hc
  · intro h
    exact List.mem_filterMap.mpr ⟨i, all i, by rw [h]; rfl⟩

/-- A Band Write keeps the bands in range where the entry is, another is left present, and no other starts with it
(R159). -/
theorem keepsStore_band {nv : Retained} (i : Fin 8) (entry : Option Band)
    (range : ∀ b, entry = some b → b.start ≤ 10079 ∧ 50 ≤ b.mult ∧ b.mult ≤ 250)
    (left : entry = none → presentBands (nv.bands.set i none) ≠ [])
    (distinct : ∀ b, entry = some b → ∀ j : Fin 8, j ≠ i → ∀ c, nv.bands[j] = some c → c.start ≠ b.start) :
    KeepsStore nv { nv with bands := nv.bands.set i entry } := by
  refine .of_range (fun ⟨settings, feed, water, trims, programs, ranges, bands, one, apart⟩ => ?_) rfl rfl rfl
  refine ⟨settings, feed, water, trims, programs, ranges, fun j b hb => ?_, ?_, fun j k b c hb hc e => ?_⟩
  · rw [getElem_set_fin] at hb
    split at hb
    · exact range b hb
    · exact bands j b hb
  · cases he : entry with
    | some b => exact ⟨i, by rw [getElem_set_fin]; simp⟩
    | none =>
      obtain ⟨⟨j, b⟩, hm⟩ := List.exists_mem_of_ne_nil _ (left he)
      exact ⟨j, by rw [mem_presentBands.mp hm]; rfl⟩
  · rw [getElem_set_fin] at hb hc
    split at hb <;> split at hc
    · next hj hk => rw [hj, hk]
    · next hj hk => exact absurd e.symm (distinct b hb k hk c hc)
    · next hj hk => exact absurd e (distinct c hc j hj b hb)
    · exact apart j k b c hb hc e

/-! ### Caps, trims and settings (R81, R101, R178) -/

theorem keepsStore_caps {nv : Retained} {feed water : Nat} (hf : feed ≤ 2000) (hw : water ≤ 500) :
    KeepsStore nv { nv with feedCap := feed, waterCap := water } :=
  .of_range (fun ⟨settings, _, _, rest⟩ => ⟨settings, hf, hw, rest⟩) rfl rfl rfl

theorem keepsStore_trim {nv : Retained} (p : Pos) {value : Int} (h : -128 ≤ value ∧ value ≤ 127) :
    KeepsStore nv { nv with trims := nv.trims.set p value } := by
  refine .of_range (fun ⟨settings, feed, water, trims, rest⟩ => ?_) rfl rfl rfl
  refine ⟨settings, feed, water, fun q => ?_, rest⟩
  rw [getElem_set_fin]
  split
  · exact h
  · exact trims q

theorem clampNat_range {lo hi : Nat} (h : lo ≤ hi) (n : Nat) : lo ≤ clampNat lo hi n ∧ clampNat lo hi n ≤ hi := by
  unfold clampNat; omega

/-- No card is named by more sessions than there are positions (R51). -/
theorem greatestCardCount_le (s : State) : greatestCardCount s ≤ 24 := by
  have bound : ∀ (l : List Nat) (m : Nat), m ≤ 24 → (∀ n ∈ l, n ≤ 24) → l.foldl max m ≤ 24 := by
    intro l
    induction l with
    | nil => exact fun m hm _ => hm
    | cons n l ih =>
      exact fun m hm hl => ih _ (Nat.max_le.mpr ⟨hm, hl n List.mem_cons_self⟩)
        fun x hx => hl x (List.mem_cons_of_mem n hx)
  refine bound _ 0 (by decide) fun n hn => ?_
  obtain ⟨p, -, rfl⟩ := List.mem_map.mp hn
  split
  · exact (List.length_filter_le _ _).trans (by decide : allPositions.length ≤ 24)
  · exact Nat.zero_le _

/-- A value that is not one of a setting's two is refused, and either keeps the ranges. -/
theorem inRange_of_named {v : Nat} {a b new : Settings}
    (h : (if v = 0 then some a else if v = 1 then some b else none) = some new) (ha : SettingsInRange a)
    (hb : SettingsInRange b) : SettingsInRange new := by
  split_ifs at h <;> cases h
  · exact ha
  · exact hb

/-- A setting is stored in its range (R178). -/
theorem inRange_storeSetting {greatest : Nat} (hg : greatest ≤ 24) {number : Byte} {value : Half} {old new : Settings}
    (range : SettingsInRange old) (h : storeSetting greatest number value old = some new) : SettingsInRange new := by
  obtain ⟨extension, ceiling, grace, overrun, wait, silence, allowance, limit⟩ := id range
  have c1 := clampNat_range (lo := 0) (hi := 90) (by decide) value.toNat
  have c2 := clampNat_range (lo := 1) (hi := 60000) (by decide) value.toNat
  have c3 := clampNat_range (lo := 0) (hi := 10) (by decide) value.toNat
  have c4 := clampNat_range (lo := 0) (hi := 60) (by decide) value.toNat
  have c5 := clampNat_range (lo := 1) (hi := 30) (by decide) value.toNat
  have c6 := clampNat_range (lo := 10) (hi := 600) (by decide) value.toNat
  have c7 := clampNat_range (lo := 0) (hi := 5000) (by decide) value.toNat
  have c8 := clampNat_range (lo := 1) (hi := 4) (by decide) value.toNat
  unfold storeSetting at h
  dsimp only at h
  split at h
  · cases h; exact ⟨c1.2, ceiling, grace, overrun, wait, silence, allowance, limit⟩
  · cases h; exact ⟨extension, c2, grace, overrun, wait, silence, allowance, limit⟩
  · cases h; exact ⟨extension, ceiling, c3.2, overrun, wait, silence, allowance, limit⟩
  · cases h; exact ⟨extension, ceiling, grace, c4.2, wait, silence, allowance, limit⟩
  · cases h; exact ⟨extension, ceiling, grace, overrun, c5, silence, allowance, limit⟩
  · cases h; exact ⟨extension, ceiling, grace, overrun, wait, c6, allowance, limit⟩
  · cases h; exact ⟨extension, ceiling, grace, overrun, wait, silence, c7.2, limit⟩
  · cases h
    exact ⟨extension, ceiling, grace, overrun, wait, silence, allowance, by dsimp only; omega, by dsimp only; omega⟩
  · exact inRange_of_named h range range
  · exact inRange_of_named h range range
  · exact inRange_of_named h range range
  · exact inRange_of_named h range range
  · exact inRange_of_named h range range
  · cases h

theorem inRange_storeSettings {greatest : Nat} (hg : greatest ≤ 24) (settings : List (Byte × Half)) {old new : Settings}
    (range : SettingsInRange old) (h : storeSettings greatest settings old = some new) : SettingsInRange new := by
  induction settings generalizing old with
  | nil => cases h; exact range
  | cons e rest ih =>
    obtain ⟨mid, hm, h⟩ := Option.bind_eq_some_iff.mp h
    exact ih (inRange_storeSetting hg range hm) h

theorem keepsStore_settings {nv : Retained} {new : Settings} (h : SettingsInRange nv.settings → SettingsInRange new) :
    KeepsStore nv { nv with settings := new } :=
  .of_range (fun ⟨settings, rest⟩ => ⟨h settings, rest⟩) rfl rfl rfl

/-! ### The journal (R153) -/

/-- The records that a release leaves stand in their order (R153). -/
theorem keepsStore_release {nv : Retained} (test : SettlementRecord → Bool) :
    KeepsStore nv { nv with journal := nv.journal.filter test } := by
  refine ⟨fun ⟨order, first, last, below⟩ => ?_, fun h => h.congr rfl rfl rfl rfl rfl rfl rfl⟩
  exact ⟨order.sublist (List.filter_sublist.map _), first, last, fun r hr => below r (List.mem_of_mem_filter hr)⟩

end Sys2Proof.Machine.Settlement
end

section
/-!
A step, whatever its command, is a sequence of `Moves` (chapters 10 and 11, and every row of the table).
-/
namespace Sys2Proof.Machine.Settlement

/-! ### The host's requests (Table 11-3) -/

theorem moves_acceptClosed (s : State) (body : State → List Byte) : Moves s (acceptClosed s body).1 :=
  moves_closeTaking s

theorem moves_withPosition (position : Byte) (s : State) (act : Pos → State × Reply) (h : ∀ p, Moves s (act p).1) :
    Moves s (withPosition position s act).1 := by
  unfold withPosition
  split
  · exact h _
  · exact .refl

theorem moves_reqClockSet (epoch : Word) (minute : Half) (s : State) : Moves s (reqClockSet epoch minute s).1 := by
  unfold reqClockSet
  split
  · exact .refl
  · exact Aside.moves (Aside.of_positions rfl rfl rfl rfl)

theorem moves_reqRoomModeSet (mode : Byte) (s : State) : Moves s (reqRoomModeSet mode s).1 := by
  unfold reqRoomModeSet
  split
  · exact .refl
  · split_ifs with flood stop alarm
    · exact .refl
    · exact .refl
    · have drop := aside_of_queueOnly (queueOnly_discardHeld .fm (fun d => d.order == .haltWater) s)
      have withdraw := drop.trans (aside_of_queueOnly (queueOnly_withdrawQueued (fun d => d.order == .haltWater) _))
      exact (withdraw.trans (aside_setMode _ _)).moves
    · exact (aside_setMode _ s).moves

theorem moves_storeProgram {s : State} (id : ProgramId) (prog : Option Program)
    (h : ∀ x, prog = some x → ProgramInRange x) : Moves s (storeProgram id prog s) :=
  (Move.write (fun nv => { nv with programs := nv.programs.set id prog }) s (keepsStore_program id prog h)).moves

theorem moves_reqProgramWrite (id : Byte) (record : Option ProgramFields) (s : State) :
    Moves s (reqProgramWrite id record s).1 := by
  unfold reqProgramWrite
  split
  · exact .refl
  · split
    · split
      · exact .refl
      · rcases Config.absentFigures id with ⟨nominal, lu, wu⟩
        exact moves_storeProgram _ none nofun
    · split
      · exact .refl
      · split_ifs with invalid used
        · exact .refl
        · exact .refl
        · refine moves_storeProgram _ (some (storedProgram _ _)) fun x hx => ?_
          cases hx
          exact storedProgram_inRange (by simpa using invalid)

theorem moves_reqProgramRead (id : Byte) (s : State) : Moves s (reqProgramRead id s).1 := by
  unfold reqProgramRead
  split
  · exact .refl
  · split <;> exact .refl

/-- A Band Write that R159 accepts. -/
theorem moves_storeBand {s : State} (i : Fin 8) (entry : Option Band) (clamped : Bool)
    (range : ∀ b, entry = some b → b.start ≤ 10079 ∧ 50 ≤ b.mult ∧ b.mult ≤ 250)
    (left : entry = none → presentBands (s.nv.bands.set i none) ≠ [])
    (distinct : ∀ b, entry = some b → ∀ j : Fin 8, j ≠ i → ∀ c, s.nv.bands[j] = some c → c.start ≠ b.start) :
    Moves s (storeBand i entry clamped s).1 :=
  (Move.write (fun nv => { nv with bands := nv.bands.set i entry }) s
    (keepsStore_band i entry range left distinct)).moves

theorem moves_reqBandWrite (index : Byte) (entry : Option BandFields) (s : State) :
    Moves s (reqBandWrite index entry s).1 := by
  unfold reqBandWrite
  split
  · exact .refl
  · next i _ =>
    split
    · split
      · exact .refl
      · next left => exact moves_storeBand i none false nofun (fun _ => left) nofun
    · next f =>
      split
      · exact .refl
      · next ok =>
        obtain ⟨late, apart⟩ := not_or.mp ok
        have apart : ∀ e ∈ presentBands s.nv.bands, ¬ (e.1 != i && e.2.start == f.start.toNat) = true := by
          simpa using apart
        refine moves_storeBand i (some _) _ (fun b hb => ?_) nofun fun b hb j hj c hc e => ?_
        · cases hb
          exact ⟨not_lt.mp late, clampNat_range (by decide) _⟩
        · cases hb
          exact apart (j, c) (mem_presentBands.mpr hc) (by simp [hj, e])

theorem moves_storeRange {s : State} (i : Fin 8) (entry : Option RangeEntry)
    (h : ∀ e, entry = some e → e.low.toNat ≤ e.high.toNat) : Moves s (storeRange i entry s).1 :=
  (Move.write (fun nv => { nv with ranges := nv.ranges.set i entry }) s (keepsStore_range i entry h)).moves

theorem moves_reqRangeWrite (index : Byte) (entry : Option RangeFields) (s : State) :
    Moves s (reqRangeWrite index entry s).1 := by
  unfold reqRangeWrite
  split
  · exact .refl
  · split
    · exact moves_storeRange _ none nofun
    · split
      · exact .refl
      · split
        · exact .refl
        · next ok =>
          refine moves_storeRange _ (some _) fun e he => ?_
          cases he
          exact not_lt.mp ok

theorem moves_silenceTakesEffect (old : Settings) (s : State) : Moves s (silenceTakesEffect old s) :=
  moves_ite (fun _ => moves_silencesReached s) fun _ => .refl

theorem moves_settingsTakeEffect (old : Settings) (s : State) : Moves s (settingsTakeEffect old s) :=
  ((moves_silenceTakesEffect old s).trans (moves_ite (fun _ => .refl) fun _ => moves_judgeFlood _)).trans
    (moves_ite (fun _ => .refl) fun _ => moves_judgeStop _)

theorem moves_reqSettingsWrite (settings : List (Byte × Half)) (s : State) :
    Moves s (reqSettingsWrite settings s).1 := by
  unfold reqSettingsWrite
  split
  · exact .refl
  · split
    · exact .refl
    · split
      · exact .refl
      · next new h =>
        exact (Move.write _ s (keepsStore_settings fun range =>
          inRange_storeSettings (greatestCardCount_le s) settings range h)).moves.trans (moves_settingsTakeEffect _ _)

theorem moves_reqTrimSet (position trim : Byte) (s : State) : Moves s (reqTrimSet position trim s).1 := by
  refine moves_withPosition position s _ fun p => ?_
  have range : -128 ≤ clampInt (-128) 127 trim.toInt ∧ clampInt (-128) 127 trim.toInt ≤ 127 := by
    unfold clampInt; omega
  dsimp only [accept]
  refine Relation.ReflTransGen.trans (Move.write (fun nv => { nv with
    trims := nv.trims.set p (clampInt (-128) 127 trim.toInt) }) s (keepsStore_trim p range)).moves
    (Aside.moves (aside_modPos ?_))
  split <;> rfl

theorem moves_reqFeedSet (feedCap waterCap : Half) (s : State) : Moves s (reqFeedSet feedCap waterCap s).1 := by
  unfold reqFeedSet
  exact ((Move.write _ s
    (keepsStore_caps (clampNat_range (by decide) _).2 (clampNat_range (by decide) _).2)).moves.trans
      (moves_capChanged _ _ _)).trans (moves_acceptClosed _ _)

theorem moves_setDemand (d : Option Demand) (s : State) : Moves s (setDemand d s).1 :=
  (aside_modLba _ s).moves.trans (moves_capChanged _ _ _)

theorem moves_reqDemandLimit (cap : Half) (minutes : Byte) (s : State) : Moves s (reqDemandLimit cap minutes s).1 := by
  unfold reqDemandLimit
  exact (moves_setDemand _ s).trans (moves_acceptClosed _ _)

theorem moves_reqAccountLoad (card balance : Word) (status : Byte) (horizon : Word) (s : State) :
    Moves s (reqAccountLoad card balance status horizon s).1 := by
  unfold reqAccountLoad
  split
  · exact .refl
  · split
    · exact .refl
    · extract_lets effective
      split
      · next h =>
        exact ((moves_loadExisting _ (entryAt_of_findEntry h).1 (clampBalance_range _)).trans
          (moves_matchWanted card _)).trans (moves_acceptClosed _ _)
      · next miss =>
        split
        · exact .refl
        · next way =>
          exact (moves_matchWanted_createEntry _ _ miss way (clampBalance_range _)).trans (moves_acceptClosed _ _)

theorem moves_reqAccountCredit (card amount : Word) (s : State) : Moves s (reqAccountCredit card amount s).1 := by
  unfold reqAccountCredit
  split
  · exact .refl
  · split
    · exact .refl
    · next i a h =>
      refine (Move.entry (entryAt_of_findEntry h).1 ?_ ?_ ?_).moves
      · rfl
      · rfl
      · by_cases low : a.balance ≤ 999999
        · exact .inr (.inr ⟨by dsimp only; omega, by dsimp only; omega⟩)
        · exact .inr (.inl ⟨by dsimp only; omega, by dsimp only; omega⟩)

theorem moves_reqAccountEvict (card : Word) (s : State) : Moves s (reqAccountEvict card s).1 := by
  unfold reqAccountEvict
  split
  · exact .refl
  · next i a h =>
    split
    · exact .refl
    · next free =>
      have free : a.held = 0 := by simpa [isPinned] using free
      exact (Move.evicted ((entryAt_of_findEntry h).2 ▸ h) free).moves

theorem moves_reqAccountStatus (card : Word) (status : Byte) (s : State) :
    Moves s (reqAccountStatus card status s).1 := by
  unfold reqAccountStatus
  split
  · exact .refl
  · split
    · exact .refl
    · next h => exact Move.moves (Move.entry (entryAt_of_findEntry h).1 rfl rfl (.inl rfl))

theorem moves_reqPositionService (position marking : Byte) (s : State) :
    Moves s (reqPositionService position marking s).1 := by
  refine moves_withPosition position s _ fun p => ?_
  split
  · exact .refl
  · next m _ =>
    split
    · exact .refl
    · exact moves_ite (fun _ => .refl) fun _ => (Move.write (fun nv => { nv with service := nv.service.set p m }) s
        (.of_eq rfl rfl rfl rfl rfl rfl rfl rfl rfl rfl)).moves

theorem moves_cancelAt (position : Byte) (number : Half) (p : Pos) (s : State) :
    Moves s (cancelAt position number p s).1 := by
  unfold cancelAt
  split
  · split
    · exact moves_dropClaim p _ s
    · exact .refl
  · split
    · exact moves_endSession p _ _ s
    · exact .refl
  · exact .refl

theorem moves_reqJournalRead (start : Word) (count : Byte) (s : State) : Moves s (reqJournalRead start count s).1 := by
  unfold reqJournalRead
  split <;> exact .refl

theorem moves_reqJournalRelease (number : Word) (s : State) : Moves s (reqJournalRelease number s).1 := by
  unfold reqJournalRelease
  split
  · exact .refl
  · exact moves_ite (fun _ => .refl) fun _ => (Move.write
      (fun nv => { nv with journal := s.nv.journal.filter fun r => decide (number.toNat < r.seq) }) s
      (keepsStore_release _)).moves

theorem moves_reqFaultRead (count : Byte) (s : State) : Moves s (reqFaultRead count s).1 := by
  unfold reqFaultRead
  split
  · exact .refl
  · exact (aside_modFm (fun f => { f with ring := f.ring.drop count.toNat }) s).moves

theorem moves_reqPositionClearLockout (position : Byte) (s : State) :
    Moves s (reqPositionClearLockout position s).1 := by
  refine moves_withPosition position s _ fun p => ?_
  split
  · exact .refl
  · exact moves_ite (fun _ => (Move.write (fun nv => { nv with lockout := nv.lockout.set p false }) s
      (.of_eq rfl rfl rfl rfl rfl rfl rfl rfl rfl rfl)).moves) fun _ => .refl

theorem moves_takeRequest (r : Request) (s : State) : Moves s (takeRequest r s).1 := by
  cases r with
  | identify => exact .refl
  | status => exact .refl
  | attentionRead => exact .refl
  | attentionClear mask => exact Aside.moves (Aside.of_positions rfl rfl rfl rfl)
  | attentionEnable mask => exact Aside.moves (Aside.of_positions rfl rfl rfl rfl)
  | clockSet epoch minute => exact moves_reqClockSet epoch minute s
  | roomModeSet mode => exact moves_reqRoomModeSet mode s
  | programWrite id record => exact moves_reqProgramWrite id record s
  | programRead id => exact moves_reqProgramRead id s
  | bandWrite index entry => exact moves_reqBandWrite index entry s
  | rangeWrite index entry => exact moves_reqRangeWrite index entry s
  | settingsWrite settings => exact moves_reqSettingsWrite settings s
  | trimSet position trim => exact moves_reqTrimSet position trim s
  | feedSet feedCap waterCap => exact moves_reqFeedSet feedCap waterCap s
  | demandLimit cap minutes => exact moves_reqDemandLimit cap minutes s
  | accountLoad card balance status horizon => exact moves_reqAccountLoad card balance status horizon s
  | accountCredit card amount => exact moves_reqAccountCredit card amount s
  | accountEvict card => exact moves_reqAccountEvict card s
  | accountStatus card status => exact moves_reqAccountStatus card status s
  | wantedRead => exact .refl
  | positionService position marking => exact moves_reqPositionService position marking s
  | positionClearLockout position => exact moves_reqPositionClearLockout position s
  | positionRead position => exact moves_withPosition position s _ fun _ => .refl
  | sessionCancel position number => exact moves_withPosition position s _ fun p => moves_cancelAt position number p s
  | journalRead start count => exact moves_reqJournalRead start count s
  | journalRelease number => exact moves_reqJournalRelease number s
  | faultRead count => exact moves_reqFaultRead count s
  | rosterRead => exact .refl
  | rosterClear => exact (aside_modFm (fun f => { f with roster := f.roster.filter (rosterKeeps s) }) s).moves
  | loopRestart => exact (aside_restartLoop s).moves
  | partReset => exact .refl

/-! ### The host link (R171, R172) -/

theorem moves_serve (r : HostRequest) (s : State) : Moves s (serve r s) := by
  have taken : Moves s (takeHeld r s).1 := by
    cases r with
    | good request => exact moves_takeRequest request s
    | bad type code => exact .refl
  unfold serve
  exact taken.trans (aside_modHlp _ _).moves

theorem moves_arrive (r : HostRequest) (s : State) : Moves s (arrive r s) :=
  moves_ite (fun _ => moves_serve r s) fun _ => moves_ite (fun _ => (aside_modHlp _ s).moves) fun _ =>
    moves_ite (fun _ => (aside_modHlp _ s).moves) fun _ => .refl

theorem moves_hostBytes (bytes : List Byte) (s : State) : Moves s (hostBytes bytes s) := by
  unfold hostBytes
  exact (aside_modHlp _ s).moves.trans (moves_foldl _ _ (fun s f => moves_arrive (requestOf f) s) _)

theorem moves_replySent (s : State) : Moves s (replySent s) := by
  unfold replySent
  refine moves_ite (fun _ => (aside_modHlp _ s).moves) fun _ => ?_
  split
  · exact .refl
  · generalize s.hlp.waiting = next
    cases next with
    | some r => exact (aside_modHlp _ s).moves.trans (moves_serve r _)
    | none => exact Aside.moves (aside_modHlp _ s)

/-! ### Power-up and warm reset (R166 to R170) -/

theorem moves_emptySlot {p : Pos} {s : State} (ses : Session) (h : sessionAt s p = none) :
    Moves s (emptySlot p ses s) :=
  (moves_writeSlot p none s).trans
    (aside_setOccupancy (s := writeSlot p none s) h fun _ e => by cases e).moves

theorem sessionAt_emptySlot {s : State} (h : ∀ q, sessionAt s q = none) (p : Pos) (ses : Session) (q : Pos) :
    sessionAt (emptySlot p ses s) q = none :=
  ((aside_setOccupancy (s := writeSlot p none s) (h p) fun _ e => by cases e).session q).trans (h q)

/-- A recovery runs on positions without a session, and leaves none (R167). -/
theorem moves_recoverSlots (outcome : EndOutcome) {s : State} (h : ∀ q, sessionAt s q = none) :
    Moves s (recoverSlots outcome s) := by
  have cleared : Moves s (forPositions allPositions clearRecorded s)
      ∧ ∀ q, sessionAt (forPositions allPositions clearRecorded s) q = none := by
    refine forPositions_induct (P := fun t => Moves s t ∧ ∀ q, sessionAt t q = none) _ _ (fun p _ t ht => ?_) s
      ⟨.refl, h⟩
    obtain ⟨path, none⟩ := ht
    rcases clearRecorded_does p t with e | ⟨ses, -, -, e⟩ <;> rw [e]
    · exact ⟨path, none⟩
    · exact ⟨path.trans (moves_emptySlot ses (none p)), sessionAt_emptySlot none p ses⟩
  refine (forPositions_induct (P := fun t => Moves s t ∧ ∀ q, sessionAt t q = none) _ _ (fun p _ t ht => ?_) _
    cleared).1
  obtain ⟨path, none⟩ := ht
  unfold recoverSlot
  split
  · next ses _ =>
    have record := (Move.write (appended { settlementOf t p ses outcome Option.none with terminal := Option.none }) t
      (keepsStore_appended _ _)).moves
    exact ⟨(path.trans record).trans (moves_emptySlot ses (none p)),
      sessionAt_emptySlot (s := writeNv _ t) none p ses⟩
  · exact ⟨path, none⟩

theorem moves_recover (outcome : EndOutcome) {s : State} (h : ∀ q, sessionAt s q = none) :
    Moves s (recover outcome s) := by
  unfold recover
  extract_lets slots judged
  have path : Moves s judged :=
    ((moves_recoverSlots outcome h).trans (moves_judgeFlood slots)).trans (moves_judgeStop _)
  have enrols : Moves judged (sendEnrol (modRlc (fun r => { r with loop := .enrolling }) judged)) :=
    ((aside_modRlc _ judged).trans (aside_sendEnrol _)).moves
  exact path.trans (moves_ite (fun _ => .refl) fun _ => enrols)

theorem sessionAt_fresh {s : State} (h : s.positions = Vector.replicate 24 Position.fresh) (p : Pos) :
    sessionAt s p = none := by
  have vacant : (posAt s p).occupancy = .vacant := by
    unfold posAt
    rw [h, Fin.getElem_fin, Vector.getElem_replicate]
    rfl
  unfold sessionAt
  rw [vacant]

theorem sessionAt_freshVolatile (s : State) (p : Pos) : sessionAt (freshVolatile s) p = none :=
  sessionAt_fresh (s := freshVolatile s) rfl p

theorem moves_freshVolatile (s : State) : Moves s (freshVolatile s) :=
  (Move.reset (s := s) (t := freshVolatile s) rfl rfl rfl (sessionAt_freshVolatile s)).moves

theorem moves_powerUp (s : State) : Moves s (powerUp s) := by
  have risen : Aside s { s with supply := true } := .of_positions rfl rfl rfl rfl
  unfold powerUp
  extract_lets emptied
  have unset : Aside emptied { emptied with
      rcs := { emptied.rcs with clockSet := false, epoch := 0, minuteOfWeek := 0, minuteLeft := 600 } } :=
    .of_positions rfl rfl rfl rfl
  exact ((risen.moves.trans (moves_freshVolatile _)).trans unset.moves).trans
    (moves_recover _ fun q => (unset.session q).trans (sessionAt_freshVolatile _ q))

theorem moves_warmReset (s : State) : Moves s (warmReset s) := by
  have released : Aside s { s with resetHeld := false } := .of_positions rfl rfl rfl rfl
  exact (released.moves.trans (moves_freshVolatile _)).trans (moves_recover _ (sessionAt_freshVolatile _))

/-! ### A taking and the timers -/

/-- A new event begins with the store as it stands. -/
theorem moves_begun {s t : State} (nv : t.nv = s.nv) (undo : t.undo = []) (cru : t.cru = s.cru)
    (positions : t.positions = s.positions) : Moves s t :=
  (Move.begun (.inl nv) undo cru fun p => sessionAt_congr (by rw [posAt_congr positions p])).moves

theorem moves_beginTaking (s : State) : Moves s (beginTaking s) := moves_begun rfl rfl rfl rfl

theorem moves_taking {act : State → State} (h : ∀ s, Moves s (act s)) (s : State) : Moves s (taking act s) :=
  moves_ite (fun _ => ((moves_beginTaking s).trans (h _)).trans (moves_closeTaking _)) fun _ => moves_beginTaking s

theorem moves_expireDemand (s : State) : Moves s (expireDemand s) := by
  unfold expireDemand
  split
  · exact (aside_setFlag _ s).moves.trans (moves_setDemand none _)
  · exact .refl

theorem moves_takeLimit (p : Pos) (s : State) : Moves s (takeLimit p s) := by
  unfold takeLimit
  split
  · exact moves_ite (fun _ => (moves_endSession p _ _ s).trans (moves_evaluateIfDue _)) fun _ =>
      moves_ite (fun _ => moves_handCause p _ s) fun _ => .refl
  · exact .refl

theorem moves_minuteBoundary (s : State) : Moves s (minuteBoundary s) := by
  refine Relation.ReflTransGen.trans ?_ (moves_forPositions _ _ moves_takeLimit _)
  refine Relation.ReflTransGen.trans (Aside.moves (Aside.trans ?_ (aside_advanceClock _))) (moves_countMinutes _)
  exact .of_positions rfl rfl rfl rfl

theorem moves_sweepTimers (s : State) : Moves s (sweepTimers s) := by
  refine Relation.ReflTransGen.trans ?_ (moves_ite (fun _ => (aside_sendRunning _).moves) fun _ => .refl)
  refine Relation.ReflTransGen.trans ?_ (moves_ite (fun _ => (aside_sendEnrol _).moves) fun _ => .refl)
  exact moves_ite (fun _ => moves_badReturn s) fun _ => .refl

/-- Time passes on the wanted entries, none of which grows older than 8 s (R53, R55). -/
theorem moves_passTenth (s : State) : Moves s (passTenth s) := by
  have aged : WantedKept s.cru.wanted (s.cru.wanted.map fun w => { w with age := min (w.age + 1) 80 }) := by
    refine ⟨?_, fun _ w hw => ?_⟩
    · rw [List.map_map]; exact List.Sublist.refl _
    · obtain ⟨x, -, rfl⟩ := List.mem_map.mp hw
      exact Nat.min_le_right _ _
  refine Relation.ReflTransGen.trans ?_ (Aside.moves (aside_forPositions _ _ (fun p u => aside_modPos ?_) _))
  · exact (Move.wanted _ s aged).moves.trans (Aside.moves (Aside.of_positions rfl rfl rfl rfl))
  · split <;> rfl

theorem moves_fireTimers (s : State) : Moves s (fireTimers s) := by
  unfold fireTimers
  extract_lets s1 expired s2 s3 s4
  have demand : Moves s s1 := by
    simp only [s1]
    split
    · exact moves_ite (fun _ => moves_expireDemand s) fun _ => .refl
    · exact .refl
  have wanted : Moves s1 s2 := moves_foldl _ _ (fun s card => moves_expireWanted card s) _
  have silence : Moves s2 s3 := moves_silencesReached s2
  have minute : Moves s3 s4 := moves_ite (fun _ => moves_minuteBoundary s3) fun _ => .refl
  exact (((demand.trans wanted).trans silence).trans minute).trans (moves_sweepTimers s4)

theorem moves_heldBoundary (s : State) : Moves s (heldBoundary s) := by
  have begun : Moves s { beginTaking s with rcs := { s.rcs with minuteLeft := 600 } } := moves_begun rfl rfl rfl rfl
  exact begun.trans (aside_advanceClock _).moves

theorem moves_tick (s : State) : Moves s (tick s) :=
  moves_ite (fun _ => moves_taking (fun s => (moves_passTenth s).trans (moves_fireTimers _)) s) fun _ =>
    moves_ite (fun _ => moves_ite (fun _ => moves_heldBoundary s) fun _ => moves_begun rfl rfl rfl rfl) fun _ =>
      moves_beginTaking s

/-! ### Supply, reset and the other rows -/

/-- The supply's fall, or RESET_N inside a recovery, may take the last writes back (R165, R169). -/
theorem moves_cut {s t : State} (cut : Nat) (nv : t.nv = cutStore cut s) (undo : t.undo = []) (cru : t.cru = s.cru)
    (positions : t.positions = s.positions) : Moves s t :=
  (Move.begun (nv ▸ cutStore_mem cut s) undo cru fun p => sessionAt_congr (by rw [posAt_congr positions p])).moves

theorem moves_powerFail (cut : Nat) (s : State) : Moves s (powerFail cut s) :=
  moves_ite (fun _ => moves_cut cut rfl rfl rfl rfl) fun _ => moves_beginTaking s

theorem moves_assertReset (cut : Nat) (s : State) : Moves s (assertReset cut s) := by
  unfold assertReset
  extract_lets nv
  by_cases inside : (!s.resetHeld && s.supply && s.recovering) = true
  · exact moves_cut cut (if_pos inside) rfl rfl rfl
  · exact moves_begun (if_neg inside) rfl rfl rfl

theorem moves_takeWarmReset (s : State) : Moves s (takeWarmReset s) :=
  moves_ite (fun _ => moves_ite (fun _ => moves_warmReset s) fun _ => moves_beginTaking s) fun _ =>
    moves_begun rfl rfl rfl rfl

theorem moves_takeReplySent (s : State) : Moves s (takeReplySent s) :=
  moves_ite (fun _ => moves_warmReset s) fun _ => moves_replySent s

theorem moves_takeHeldOffer (b : Block) (place : Nat) (s : State) : Moves s (takeHeldOffer b place s) := by
  unfold takeHeldOffer
  split
  · exact moves_ite (fun _ => ((aside_setHeld b _ s).trans (aside_of_queueOnly (queueOnly_joinQueue _ _))).moves)
      fun _ => .refl
  · exact .refl

theorem moves_takeResendDue (p : Pos) (s : State) : Moves s (takeResendDue p s) := by
  refine (aside_setQueue _ s).moves.trans (moves_foldl _ _ (fun s e => ?_) _)
  exact (moves_ite (fun _ => (aside_settlingEvent p s).moves) fun _ => .refl).trans (moves_handCause p _ _)

theorem moves_takeHeaterDead (p : Pos) (s : State) : Moves s (takeHeaterDead p s) :=
  moves_ite (fun _ => (aside_setCauses p _ s).moves.trans (moves_actOnOnsets p _ _ _)) fun _ => .refl

theorem moves_takeStartTimeout (p : Pos) (s : State) : Moves s (takeStartTimeout p s) :=
  moves_ite (fun _ => Relation.ReflTransGen.trans (Aside.moves (aside_modPos rfl)) (moves_actOnOnsets p _ _ _))
    fun _ => .refl

theorem moves_takeBoundary (s : State) : Moves s (takeBoundary s) :=
  moves_ite (fun _ => moves_heldBoundary s) fun _ => moves_taking moves_minuteBoundary s

theorem moves_takeBudgetTimeout (p : Pos) (atBoundary : Bool) (s : State) :
    Moves s (takeBudgetTimeout p atBoundary s) := by
  unfold takeBudgetTimeout
  split
  · exact moves_ite (fun _ => moves_endSession p _ _ s) fun _ => .refl
  · exact .refl

theorem moves_takeOverrun (p : Pos) (atBoundary : Bool) (s : State) : Moves s (takeOverrun p atBoundary s) := by
  unfold takeOverrun
  split
  · exact moves_ite (fun _ => moves_handCause p _ s) fun _ => .refl
  · exact .refl

/-- An input line's level is set and judged (R145, R146). -/
theorem moves_judged {judge : State → State} (h : ∀ s, Moves s (judge s)) {s t : State} (e : Aside s t) :
    Moves s (taking judge t) := e.moves.trans (moves_taking h t)

/-! ### A step -/

/-- What a row does: the state it answers is reached by a sequence of changes. -/
def MovesTo (s : State) (r : Result) : Prop := ∃ t, r = .next t ∧ Moves s t

theorem movesTo_taking {act : State → State} (h : ∀ s, Moves s (act s)) (s : State) :
    MovesTo s (.next (taking act s)) := ⟨_, rfl, moves_taking h s⟩

theorem movesTo_requestRow (r : Request) (s : State) : MovesTo s (exec (requestRow r) s) := by
  rw [exec_requestRow]; exact movesTo_taking (moves_arrive _) s

/-- Each row of the table: a request's row is a taking that serves the request, and any other row is its own. -/
theorem movesTo_exec (c : Instr) (s : State) : MovesTo s (exec c s) := by
  cases c with
  | powerUp => exact ⟨_, rfl, moves_powerUp s⟩
  | powerFail cut => exact ⟨_, rfl, moves_powerFail cut s⟩
  | resetNAsserted cut => exact ⟨_, rfl, moves_assertReset cut s⟩
  | warmReset => exact ⟨_, rfl, moves_takeWarmReset s⟩
  | hostFrame bytes => exact movesTo_taking (moves_hostBytes bytes) s
  | hostFrameGapTimeout => exact movesTo_taking (fun s => (aside_modHlp _ s).moves) s
  | hostReplySent => exact movesTo_taking moves_takeReplySent s
  | identify => exact movesTo_requestRow .identify s
  | status => exact movesTo_requestRow .status s
  | attentionRead => exact movesTo_requestRow .attentionRead s
  | attentionClear mask => exact movesTo_requestRow (.attentionClear mask) s
  | attentionEnable mask => exact movesTo_requestRow (.attentionEnable mask) s
  | clockSet epoch minute => exact movesTo_requestRow (.clockSet epoch minute) s
  | roomModeSet mode => exact movesTo_requestRow (.roomModeSet mode) s
  | programWrite id record => exact movesTo_requestRow (.programWrite id record) s
  | programRead id => exact movesTo_requestRow (.programRead id) s
  | bandWrite index entry => exact movesTo_requestRow (.bandWrite index entry) s
  | rangeWrite index entry => exact movesTo_requestRow (.rangeWrite index entry) s
  | settingsWrite settings => exact movesTo_requestRow (.settingsWrite settings) s
  | trimSet position trim => exact movesTo_requestRow (.trimSet position trim) s
  | feedSet feedCap waterCap => exact movesTo_requestRow (.feedSet feedCap waterCap) s
  | demandLimit cap minutes => exact movesTo_requestRow (.demandLimit cap minutes) s
  | demandExpiry => exact movesTo_taking moves_expireDemand s
  | accountLoad card balance status horizon => exact movesTo_requestRow (.accountLoad card balance status horizon) s
  | accountCredit card amount => exact movesTo_requestRow (.accountCredit card amount) s
  | accountEvict card => exact movesTo_requestRow (.accountEvict card) s
  | accountStatus card status => exact movesTo_requestRow (.accountStatus card status) s
  | wantedRead => exact movesTo_requestRow .wantedRead s
  | positionService position marking => exact movesTo_requestRow (.positionService position marking) s
  | positionClearLockout position => exact movesTo_requestRow (.positionClearLockout position) s
  | positionRead position => exact movesTo_requestRow (.positionRead position) s
  | sessionCancel position number => exact movesTo_requestRow (.sessionCancel position number) s
  | journalRead start count => exact movesTo_requestRow (.journalRead start count) s
  | journalRelease number => exact movesTo_requestRow (.journalRelease number) s
  | faultRead count => exact movesTo_requestRow (.faultRead count) s
  | rosterRead => exact movesTo_requestRow .rosterRead s
  | rosterClear => exact movesTo_requestRow .rosterClear s
  | loopRestart => exact movesTo_requestRow .loopRestart s
  | partReset => exact movesTo_requestRow .partReset s
  | terminalFrameGapTimeout l => exact movesTo_taking (fun s => (aside_modLine l _ s).moves) s
  | terminalRecordSent l => exact movesTo_taking (fun s => (aside_modLine l _ s).moves) s
  | tapStart l card position program extension =>
    exact movesTo_taking (moves_takeTapStart l card position program extension) s
  | tapBalance l card => exact movesTo_taking (moves_takeTapBalance l card) s
  | tapAbort l card position => exact movesTo_taking (moves_takeTapAbort l card position) s
  | wantedExpiry card => exact movesTo_taking (moves_expireWanted card) s
  | minuteBoundary => exact ⟨_, rfl, moves_takeBoundary s⟩
  | budgetTimeout p => exact movesTo_taking (moves_takeBudgetTimeout p s.boundary) s
  | overrun p => exact movesTo_taking (moves_takeOverrun p s.boundary) s
  | runningSweepSend =>
    exact movesTo_taking (fun s => moves_ite (fun _ => (aside_sendRunning s).moves) fun _ => .refl) s
  | heldBackOffer b place => exact movesTo_taking (moves_takeHeldOffer b place) s
  | sweepReturnTimeout => exact movesTo_taking moves_badReturn s
  | runningSweepReturn home => exact movesTo_taking (moves_sweepReturn .running home) s
  | loopBreak => exact movesTo_taking (fun s => moves_ite (fun _ => moves_breakLoop s) fun _ => .refl) s
  | directiveResendDue p => exact movesTo_taking (moves_takeResendDue p) s
  | missingMarkLimit p => exact movesTo_taking (fun s => moves_ite (fun _ => moves_suspendSession p s) fun _ => .refl) s
  | heaterDead p => exact movesTo_taking (moves_takeHeaterDead p) s
  | startTimeout p => exact movesTo_taking (moves_takeStartTimeout p) s
  | enrolRetryTimer => exact movesTo_taking (fun s => moves_ite (fun _ => (aside_sendEnrol s).moves) fun _ => .refl) s
  | enrolSweepReturn home => exact movesTo_taking (moves_sweepReturn .enrol home) s
  | silenceLimit p => exact movesTo_taking (fun s => moves_ite (fun _ => moves_silenceReached p s) fun _ => .refl) s
  | floodInActivation => exact ⟨_, rfl, moves_judged moves_judgeFlood (.of_positions rfl rfl rfl rfl)⟩
  | floodInRelease => exact ⟨_, rfl, moves_judged moves_judgeFlood (.of_positions rfl rfl rfl rfl)⟩
  | stopInActivation => exact ⟨_, rfl, moves_judged moves_judgeStop (.of_positions rfl rfl rfl rfl)⟩
  | stopInRelease => exact ⟨_, rfl, moves_judged moves_judgeStop (.of_positions rfl rfl rfl rfl)⟩
  | hostBadFrame bytes => exact movesTo_taking (moves_hostBytes bytes) s
  | terminalBadFrame l bytes => exact movesTo_taking (moves_terminalBytes l bytes) s

/-- Whatever a step does to the store, the accounts and the live sessions, it does by a sequence of `Moves`. -/
theorem moves_step {s t : State} (h : step s = .next t) : Moves s t := by
  unfold step at h
  split at h
  · next c rest _ =>
    have taken : Aside s { s with pending := rest } := .of_positions rfl rfl rfl rfl
    obtain ⟨u, e, path⟩ := movesTo_exec c { s with pending := rest }
    rw [e] at h
    cases h
    exact taken.moves.trans path
  · cases h
    exact moves_tick s

end Sys2Proof.Machine.Settlement
end

section
/-!
Every step keeps the store sound (R28, R29, R45, R81, R101, R148, R150, R159, R165, R178), and the account cache and the
wanted list (R47, R53, R55).
-/
namespace Sys2Proof.Machine.Settlement

/-! ### Changes of the accounts alone -/

theorem stampEntry_does (i : Fin 48) (s : State) : stampEntry i s = { s with cru := (stampEntry i s).cru } := by
  unfold stampEntry
  split <;> rfl

theorem renumberAtTop_does (s : State) : renumberAtTop s = { s with cru := (renumberAtTop s).cru } := by
  unfold renumberAtTop
  split <;> rfl

theorem useEntry_does (i : Fin 48) (s : State) : useEntry i s = { s with cru := (useEntry i s).cru } := by
  rw [useEntry_eq, stampEntry_does, advanceCounter, renumberAtTop_does]

theorem createEntry_does (i : Fin 48) (card : Word) (balance : Int) (status : AccountStatus) (origin : Origin)
    (s : State) : createEntry i card balance status origin s =
      { s with cru := (createEntry i card balance status origin s).cru } := by
  rw [createEntry_eq, useEntry_does, setEntry, renumberAtTop_does, setEntry]

theorem raiseHeld_does (card : Word) (quote : Nat) (s : State) :
    raiseHeld card quote s = { s with cru := (raiseHeld card quote s).cru } := by
  unfold raiseHeld
  split <;> rfl

/-- A hold changes the accounts, whatever the class of its card. -/
theorem heldBase_does (ses : Session) (s : State) :
    (if ses.cls = .account then raiseHeld ses.card ses.quote s else s) =
      { s with cru := (if ses.cls = .account then raiseHeld ses.card ses.quote s else s).cru } := by
  split
  · exact raiseHeld_does _ _ s
  · rfl

/-! ### The store -/

/-- What every sound write keeps of the store, every change keeps, in all that a fall of the supply could leave. -/
theorem Move.storeAlways {P : Retained → Prop} (hP : ∀ a b, KeepsStore a b → P a → P b) {s t : State} (h : Move s t)
    (k : StoreAlways P s) : StoreAlways P t := by
  have slots : ∀ nv slots, P nv → P { nv with slots := slots } := fun nv slots =>
    hP _ _ (.of_eq rfl rfl rfl rfl rfl rfl rfl rfl rfl rfl)
  cases h with
  | aside h => exact k.congr h.nv h.undo
  | begun nv undo cru session =>
    refine ⟨?_, by rw [undo]; exact fun _ h => absurd h List.not_mem_nil⟩
    rcases nv with nv | nv
    · rw [nv]; exact k.1
    · exact k.2 _ nv
  | reset nv undo cru session => exact ⟨nv ▸ k.1, by rw [undo]; exact fun _ h => absurd h List.not_mem_nil⟩
  | write f s h => exact storeAlways_writeNv k (hP _ _ h)
  | budget h => exact h.storeAlways slots k
  | session h same => exact k.congr rfl rfl
  | ended outcome cause h => exact storeAlways_endHere slots (fun nv r => hP _ _ (keepsStore_appended r nv)) k
  | held h entry => rw [heldBase_does]; exact k.congr rfl rfl
  | wanted l s h => exact k.congr rfl rfl
  | wants waiters room new miss => exact k.congr rfl rfl
  | used i s => rw [useEntry_does]; exact k.congr rfl rfl
  | entry h card held balance => exact k.congr rfl rfl
  | evicted h free => exact k.congr rfl rfl
  | created status origin miss way range => rw [createEntry_does]; exact k.congr rfl rfl

/-- What every change keeps, a sequence of changes keeps. -/
theorem Moves.keeps {P : State → Prop} (hP : ∀ {s t}, Move s t → P s → P t) {s t : State} (h : Moves s t) (k : P s) :
    P t := by
  induction h with
  | refl => exact k
  | tail _ move ih => exact hP move ih

/-- Settles O51: every change is a write that keeps the order of the journal and the ranges, or leaves the store as it
was or could have been. -/
theorem storeStaysSound : Obligations.StoreStaysSound := by
  intro s t ordered range h
  have path := moves_step h
  exact ⟨Moves.keeps (Move.storeAlways fun _ _ keeps => keeps.1) path ordered,
    Moves.keeps (Move.storeAlways fun _ _ keeps => keeps.2) path range⟩

/-! ### Stamps -/

/-- An entry but for its stamp. -/
def unstamped (x : Option Account) : Option Account := x.map fun a => { a with stamp := 0 }

/-- The entries of two states differ in their stamps alone. -/
def Restamped (s t : State) : Prop := ∀ i, unstamped (entryAt t i) = unstamped (entryAt s i)

theorem Restamped.trans {s t u : State} (h : Restamped s t) (k : Restamped t u) : Restamped s u :=
  fun i => (k i).trans (h i)

theorem Restamped.entry {s t : State} (h : Restamped s t) {i : Fin 48} {b : Account} (hb : entryAt t i = some b) :
    ∃ a, entryAt s i = some a ∧ b = { a with stamp := b.stamp } := by
  have hi := h i
  rw [hb] at hi
  cases ha : entryAt s i with
  | none => rw [ha] at hi; cases hi
  | some a =>
    rw [ha] at hi
    have same : ({ b with stamp := 0 } : Account) = { a with stamp := 0 } := Option.some.inj hi
    refine ⟨a, rfl, ?_⟩
    injection same with card balance held status origin
    cases b
    simp only at card balance held status origin ⊢
    rw [card, balance, held, status, origin]

theorem restamped_setCache {s : State} {cache : Vector (Option Account) 48} {useCounter : Nat}
    (h : ∀ i : Fin 48, unstamped cache[i] = unstamped (entryAt s i)) :
    Restamped s { s with cru := { s.cru with cache, useCounter } } := h

theorem restamped_renumber (s : State) : Restamped s (renumber s) := by
  unfold renumber
  dsimp only
  apply restamped_setCache
  refine List.foldlRecOn (motive := fun cache => ∀ i : Fin 48, unstamped cache[i] = unstamped (entryAt s i)) _ _
    (fun _ => rfl) fun cache kept j _ i => ?_
  split
  · next a ha =>
    rw [getElem_set_fin]
    split
    · next e => rw [e, entryAt, ha]; rfl
    · exact kept i
  · exact kept i

theorem restamped_renumberAtTop (s : State) : Restamped s (renumberAtTop s) := by
  unfold renumberAtTop
  split
  · exact restamped_renumber s
  · exact fun _ => rfl

theorem entryAt_setEntry (i j : Fin 48) (a : Option Account) (s : State) :
    entryAt (setEntry i a s) j = if j = i then a else entryAt s j := getElem_set_fin s.cru.cache i j a

theorem restamped_stampEntry (i : Fin 48) (s : State) : Restamped s (stampEntry i s) := fun j => by
  unfold stampEntry
  split
  · next a ha =>
    rw [entryAt_setEntry]
    split
    · next e => rw [e, ha]; rfl
    · rfl
  · rfl

theorem restamped_useEntry (i : Fin 48) (s : State) : Restamped s (useEntry i s) := by
  have counted : Restamped (renumberAtTop s) (advanceCounter (renumberAtTop s)) := fun _ => rfl
  rw [useEntry_eq]
  exact ((restamped_renumberAtTop s).trans counted).trans (restamped_stampEntry i _)

/-! ### The cache and the wanted list -/

/-- Every entry was there before, with its card, and no balance leaves its range. -/
def EntriesFrom (s t : State) : Prop :=
  ∀ i b, entryAt t i = some b → ∃ a, entryAt s i = some a ∧ b.card = a.card
    ∧ (-999999 ≤ a.balance ∧ a.balance ≤ 999999 → -999999 ≤ b.balance ∧ b.balance ≤ 999999)

/-- No entry is a card's. -/
def NoAccount (s : State) (card : Word) : Prop := ∀ i a, entryAt s i = some a → a.card ≠ card

theorem cacheSound_congr {s t : State} (h : CacheSound s) (e : t.cru = s.cru) : CacheSound t := by
  unfold CacheSound; rw [e]; exact h

theorem wantedBounded_congr {s t : State} (h : WantedBounded s) (e : t.cru.wanted = s.cru.wanted) :
    WantedBounded t := by
  unfold WantedBounded; rw [e]; exact h

theorem cacheSound_of_entriesFrom {s t : State} (h : CacheSound s) (entries : EntriesFrom s t)
    (wanted : ∀ w ∈ t.cru.wanted, ∃ v ∈ s.cru.wanted, v.card = w.card) : CacheSound t := by
  obtain ⟨placed, once, unwanted⟩ := h
  refine ⟨fun i b hb => ?_, fun i j b c hb hc e => ?_, fun w hw i b hb => ?_⟩
  · obtain ⟨a, ha, card, range⟩ := entries i b hb
    obtain ⟨set, low, high⟩ := placed i a ha
    rw [card]
    exact ⟨set, range ⟨low, high⟩⟩
  · obtain ⟨a, ha, card, -⟩ := entries i b hb
    obtain ⟨a', ha', card', -⟩ := entries j c hc
    exact once i j a a' ha ha' (by rw [← card, ← card', e])
  · obtain ⟨a, ha, card, -⟩ := entries i b hb
    obtain ⟨v, hv, e⟩ := wanted w hw
    rw [card, ← e]
    exact unwanted v hv i a ha

theorem Restamped.entriesFrom {s t : State} (h : Restamped s t) : EntriesFrom s t := fun i b hb => by
  obtain ⟨a, ha, e⟩ := h.entry hb
  exact ⟨a, ha, by rw [e], by rw [e]; exact id⟩

/-- An entry takes the place of one of the same card. -/
theorem entriesFrom_setEntry {i : Fin 48} {a b : Account} {s : State} (h : entryAt s i = some a)
    (card : b.card = a.card)
    (range : -999999 ≤ a.balance ∧ a.balance ≤ 999999 → -999999 ≤ b.balance ∧ b.balance ≤ 999999) :
    EntriesFrom s (setEntry i (some b) s) := fun j c hc => by
  rw [entryAt_setEntry] at hc
  split at hc
  · next e => cases hc; exact ⟨a, e ▸ h, card, range⟩
  · exact ⟨c, hc, rfl, id⟩

theorem entriesFrom_clear (i : Fin 48) (s : State) : EntriesFrom s (setEntry i none s) := fun j c hc => by
  rw [entryAt_setEntry] at hc
  split at hc
  · cases hc
  · exact ⟨c, hc, rfl, id⟩

theorem EntriesFrom.refl (s : State) : EntriesFrom s s := fun _ b hb => ⟨b, hb, rfl, id⟩

theorem EntriesFrom.trans {s t u : State} (h : EntriesFrom s t) (k : EntriesFrom t u) : EntriesFrom s u :=
  fun i c hc => by
    obtain ⟨b, hb, card, range⟩ := k i c hc
    obtain ⟨a, ha, card', range'⟩ := h i b hb
    exact ⟨a, ha, card.trans card', fun r => range (range' r)⟩

theorem EntriesFrom.noAccount {s t : State} (h : EntriesFrom s t) {card : Word} (n : NoAccount s card) :
    NoAccount t card := fun i b hb => by
  obtain ⟨a, ha, e, -⟩ := h i b hb
  rw [e]
  exact n i a ha

theorem mem_waysOf {card : Word} {i : Fin 48} : i ∈ waysOf card ↔ i.val / 3 = card.toNat % 16 := by
  simp only [waysOf, wayOf, List.mem_cons, List.not_mem_nil, or_false, Fin.ext_iff]
  omega

/-- In a sound cache an entry is found by its card (R47). -/
theorem findEntry_of_entryAt {s : State} (h : CacheSound s) {i : Fin 48} {a : Account} (ha : entryAt s i = some a) :
    findEntry s a.card = some (i, a) := by
  have way : i ∈ waysOf a.card := mem_waysOf.mpr (h.1 i a ha).1
  have found : findWay s a.card = some i := by
    unfold findWay
    cases hf : (waysOf a.card).find? _ with
    | none =>
      have := List.find?_eq_none.mp hf i way
      rw [ha] at this
      exact absurd (beq_self_eq_true a.card) this
    | some j =>
      have test := List.find?_some hf
      cases hb : entryAt s j with
      | none => rw [hb] at test; cases test
      | some b =>
        rw [hb] at test
        rw [h.2.1 j i b a hb ha (by simpa using test)]
  unfold findEntry
  rw [found]
  show Option.map _ (entryAt s i) = _
  rw [ha]
  rfl

theorem noAccount_of_miss {s : State} (h : CacheSound s) {card : Word} (miss : findEntry s card = none) :
    NoAccount s card := fun i a ha e => by
  have hit := findEntry_of_entryAt h ha
  rw [e, miss] at hit
  cases hit

theorem wanted_of_wantedFor {s : State} {card : Word} {w : Wanted} (h : wantedFor s card = some w) :
    w ∈ s.cru.wanted ∧ w.card = card :=
  ⟨List.mem_of_find?_eq_some h, by simpa using List.find?_some h⟩

/-- A card that missed, or is wanted, has no entry (R55). -/
theorem noAccount_of_created {s : State} (h : CacheSound s) {card : Word}
    (miss : findEntry s card = none ∨ (wantedFor s card).isSome) : NoAccount s card := by
  rcases miss with miss | wanted
  · exact noAccount_of_miss h miss
  · obtain ⟨w, hw⟩ := Option.isSome_iff_exists.mp wanted
    obtain ⟨mem, card⟩ := wanted_of_wantedFor hw
    exact fun i a ha e => h.2.2 w mem i a ha (e.trans card.symm)

/-- A card without an entry gets one, in a way of its set. -/
theorem cacheSound_setEntry_new {s : State} (h : CacheSound s) {i : Fin 48} {a : Account} (new : NoAccount s a.card)
    (way : i ∈ waysOf a.card) (range : -999999 ≤ a.balance ∧ a.balance ≤ 999999)
    (unwanted : ∀ w ∈ s.cru.wanted, w.card ≠ a.card) : CacheSound (setEntry i (some a) s) := by
  have placed : ∀ j b, (setEntry i (some a) s).cru.cache[j] = some b → (j = i ∧ b = a) ∨ entryAt s j = some b := by
    intro j b hb
    have hb : entryAt (setEntry i (some a) s) j = some b := hb
    rw [entryAt_setEntry] at hb
    split at hb
    · next e => cases hb; exact .inl ⟨e, rfl⟩
    · exact .inr hb
  refine ⟨fun j b hb => ?_, fun j k b c hb hc e => ?_, fun w hw j b hb => ?_⟩
  · rcases placed j b hb with ⟨rfl, rfl⟩ | old
    · exact ⟨mem_waysOf.mp way, range⟩
    · exact h.1 j b old
  · rcases placed j b hb with ⟨rfl, rfl⟩ | oldb <;> rcases placed k c hc with ⟨rfl, rfl⟩ | oldc
    · rfl
    · exact absurd e.symm (new k c oldc)
    · exact absurd e (new j b oldb)
    · exact h.2.1 j k b c oldb oldc e
  · rcases placed j b hb with ⟨rfl, rfl⟩ | old
    · exact fun e => unwanted w hw e.symm
    · exact h.2.2 w hw j b old

theorem oldestUnpinned_mem {s : State} {ways : List (Fin 48)} {i : Fin 48} {a : Account}
    (h : oldestUnpinned s ways = some (i, a)) : i ∈ ways ∧ entryAt s i = some a ∧ a.held = 0 := by
  induction ways generalizing i a with
  | nil => cases h
  | cons j rest ih =>
    have later : ∀ {i a}, oldestUnpinned s rest = some (i, a) →
        i ∈ j :: rest ∧ entryAt s i = some a ∧ a.held = 0 := fun h =>
      ⟨List.mem_cons_of_mem j (ih h).1, (ih h).2⟩
    unfold oldestUnpinned at h
    split at h
    · next b hb =>
      split at h
      · exact later h
      · next free =>
        have here : j ∈ j :: rest ∧ entryAt s j = some b ∧ b.held = 0 :=
          ⟨List.mem_cons_self, hb, by simpa [isPinned] using free⟩
        split at h
        · next k c hk =>
          split at h
          · cases h; exact later hk
          · cases h; exact here
        · cases h; exact here
    · exact later h

/-- Allocation answers a way of the card's set that is empty or holds nothing pinned (R50). -/
theorem allocate_free {s : State} {card : Word} {i : Fin 48} (h : allocate s card = some i) :
    i ∈ waysOf card ∧ ∀ a, entryAt s i = some a → a.held = 0 := by
  unfold allocate at h
  split at h
  · next j hj =>
    cases h
    have empty : entryAt s i = none := by simpa using List.find?_some hj
    exact ⟨List.mem_of_find?_eq_some hj, fun a ha => by rw [empty] at ha; cases ha⟩
  · obtain ⟨⟨j, b⟩, hj, e⟩ := Option.map_eq_some_iff.mp h
    obtain ⟨mem, hb, free⟩ := oldestUnpinned_mem hj
    have e : j = i := e
    subst e
    exact ⟨mem, fun a ha => by rw [hb] at ha; cases ha; exact free⟩

/-- The cache before a new entry is written: its way emptied, the others at most renumbered (R48, R50). -/
theorem entriesFrom_renumberAtTop_clear (i : Fin 48) (s : State) :
    EntriesFrom s (renumberAtTop (setEntry i none s)) :=
  (entriesFrom_clear i s).trans (restamped_renumberAtTop _).entriesFrom

theorem wanted_renumberAtTop (s : State) : (renumberAtTop s).cru.wanted = s.cru.wanted := by
  unfold renumberAtTop
  split <;> rfl

theorem cacheSound_useEntry {s : State} (h : CacheSound s) (i : Fin 48) : CacheSound (useEntry i s) :=
  cacheSound_of_entriesFrom h (restamped_useEntry i s).entriesFrom fun w hw =>
    ⟨w, by rwa [wanted_useEntry] at hw, rfl⟩

theorem cacheSound_createEntry {s : State} (h : CacheSound s) {i : Fin 48} {card : Word} {balance : Int}
    (status : AccountStatus) (origin : Origin) (new : NoAccount s card) (way : i ∈ waysOf card)
    (range : -999999 ≤ balance ∧ balance ≤ 999999) (unwanted : ∀ w ∈ s.cru.wanted, w.card ≠ card) :
    CacheSound (createEntry i card balance status origin s) := by
  rw [createEntry_eq]
  apply cacheSound_useEntry
  have entries := entriesFrom_renumberAtTop_clear i s
  have cleared : CacheSound (renumberAtTop (setEntry i none s)) :=
    cacheSound_of_entriesFrom h entries fun w hw => ⟨w, by rwa [wanted_renumberAtTop] at hw, rfl⟩
  exact cacheSound_setEntry_new cleared (entries.noAccount new) way range
    fun w hw => unwanted w (by rwa [wanted_renumberAtTop] at hw)

theorem entriesFrom_settleAccount (ses : Session) (charge : Nat) (s : State) :
    EntriesFrom s (settleAccount ses charge s) := by
  unfold settleAccount
  split
  · split
    · next i a h => exact entriesFrom_setEntry (entryAt_of_findEntry h).1 rfl fun _ => clampBalance_range _
    · exact EntriesFrom.refl s
  · exact EntriesFrom.refl s

theorem entriesFrom_raiseHeld (card : Word) (quote : Nat) (s : State) : EntriesFrom s (raiseHeld card quote s) := by
  unfold raiseHeld
  split
  · next i a h => exact entriesFrom_setEntry (entryAt_of_findEntry h).1 rfl id
  · exact EntriesFrom.refl s

theorem wanted_settleAccount (ses : Session) (charge : Nat) (s : State) :
    (settleAccount ses charge s).cru.wanted = s.cru.wanted := by
  rw [(settleAccount_does ses charge s).2.1]

theorem wanted_raiseHeld (card : Word) (quote : Nat) (s : State) :
    (raiseHeld card quote s).cru.wanted = s.cru.wanted := by
  unfold raiseHeld
  split <;> rfl

/-- An end settles the account, and does nothing else to the accounts (R22, R42). -/
theorem cru_endHere (p : Pos) (ses : Session) (outcome : EndOutcome) (cause : Option Cause) (s : State) :
    (endHere p ses outcome cause s).cru =
      (settleAccount ses (chargeOf s.nv.settings.graceMinutes outcome ses) s).cru := by
  obtain ⟨u, hq, -, hf, -⟩ := endQueue_does p ses outcome s
  rw [endHere_eq, writeSlot_cru, (appendRecord_does _ _).1]
  exact settleAccount_cru_congr _ _ (by rw [hq.1, hf])

/-- The wanted list keeps its bounds through every change (R53, R55). -/
theorem Move.wantedBounded {s t : State} (h : Move s t) (k : WantedBounded s) : WantedBounded t := by
  have kept : ∀ {u : State} {l : List Wanted}, WantedKept u.cru.wanted l → WantedBounded u →
      WantedBounded (setWanted l u) := fun ⟨cards, ages⟩ ⟨length, nodup, young⟩ =>
    ⟨(by simpa using cards.length_le : _ ≤ _).trans length, cards.nodup nodup, ages young⟩
  cases h with
  | aside h => exact wantedBounded_congr k (by rw [h.cru])
  | begun nv undo cru session => exact wantedBounded_congr k (by rw [cru])
  | reset nv undo cru session =>
    unfold WantedBounded
    rw [cru]
    exact ⟨Nat.zero_le 4, List.nodup_nil, fun _ h => absurd h List.not_mem_nil⟩
  | write f s h => exact wantedBounded_congr k rfl
  | budget h => exact wantedBounded_congr k (by rw [h.frame])
  | session h same => exact wantedBounded_congr k rfl
  | ended outcome cause h => exact wantedBounded_congr k (by rw [cru_endHere, wanted_settleAccount])
  | held h entry =>
    refine wantedBounded_congr k ?_
    show (State.cru (if _ then _ else _)).wanted = _
    split
    · exact wanted_raiseHeld _ _ s
    · rfl
  | wanted l s h => exact kept h k
  | @wants card s waiters room new miss =>
    obtain ⟨length, nodup, young⟩ := k
    refine ⟨?_, ?_, fun w hw => ?_⟩
    · simp only [setWanted_cru, List.length_append, List.length_cons, List.length_nil]; omega
    · simp only [setWanted_cru, List.map_append, List.map_cons, List.map_nil]
      refine List.nodup_append.mpr ⟨nodup, List.nodup_singleton _, fun a ha b hb e => ?_⟩
      obtain ⟨w, hw, rfl⟩ := List.mem_map.mp ha
      have := List.find?_eq_none.mp new w hw
      rw [List.mem_singleton.mp hb] at e
      simp [e] at this
    · rcases List.mem_append.mp hw with hw | hw
      · exact young w hw
      · rw [List.mem_singleton.mp hw]; exact Nat.zero_le 80
  | used i s => exact wantedBounded_congr k (wanted_useEntry i s)
  | entry h card held balance => exact wantedBounded_congr k rfl
  | evicted h free => exact wantedBounded_congr k rfl
  | @created i card balance s status origin miss way range =>
    refine wantedBounded_congr (s := removeWanted card s) ?_ (wanted_createEntry i card balance status origin _)
    exact kept ⟨List.filter_sublist.map _, fun old w hw => old w (List.mem_of_mem_filter hw)⟩ k

/-- The cache stays sound through every change (R47, R55). -/
theorem Move.cacheSound {s t : State} (h : Move s t) (k : CacheSound s) : CacheSound t := by
  cases h with
  | aside h => exact cacheSound_congr k h.cru
  | begun nv undo cru session => exact cacheSound_congr k cru
  | reset nv undo cru session =>
    have empty : ∀ i : Fin 48, Cru.fresh.cache[i] = none := fun i => by
      rw [Fin.getElem_fin]; exact Vector.getElem_replicate _
    unfold CacheSound
    rw [cru]
    refine ⟨fun i a ha => ?_, fun i j a b ha => ?_, fun w hw => absurd hw List.not_mem_nil⟩
    · rw [empty] at ha; cases ha
    · rw [empty] at ha; cases ha
  | write f s h => exact cacheSound_congr k rfl
  | budget h => exact cacheSound_congr k (by rw [h.frame])
  | session h same => exact cacheSound_congr k rfl
  | @ended p ses s outcome cause h =>
    refine cacheSound_congr (s := settleAccount ses (chargeOf s.nv.settings.graceMinutes outcome ses) s) ?_
      (cru_endHere p ses outcome cause s)
    exact cacheSound_of_entriesFrom k (entriesFrom_settleAccount _ _ s) fun w hw =>
      ⟨w, by rwa [wanted_settleAccount] at hw, rfl⟩
  | @held p ses s h entry =>
    refine cacheSound_congr (s := if ses.cls = .account then raiseHeld ses.card ses.quote s else s) ?_ rfl
    split
    · exact cacheSound_of_entriesFrom k (entriesFrom_raiseHeld _ _ s) fun w hw =>
        ⟨w, by rwa [wanted_raiseHeld] at hw, rfl⟩
    · exact k
  | wanted l s h =>
    refine cacheSound_of_entriesFrom k (fun i b hb => ⟨b, hb, rfl, id⟩) fun w hw => ?_
    exact List.mem_map.mp (h.1.subset (List.mem_map_of_mem hw))
  | @wants card s waiters room new miss =>
    have none := noAccount_of_miss k miss
    refine ⟨k.1, k.2.1, fun w hw i a ha => ?_⟩
    rcases List.mem_append.mp hw with hw | hw
    · exact k.2.2 w hw i a ha
    · rw [List.mem_singleton.mp hw]; exact none i a ha
  | used i s => exact cacheSound_useEntry k i
  | @entry i a b s h card held balance =>
    refine cacheSound_of_entriesFrom k (entriesFrom_setEntry h card fun range => ?_) fun w hw => ⟨w, hw, rfl⟩
    omega
  | evicted h free => exact cacheSound_of_entriesFrom k (entriesFrom_clear _ s) fun w hw => ⟨w, hw, rfl⟩
  | @created i card balance s status origin miss way range =>
    have left : CacheSound (removeWanted card s) :=
      cacheSound_of_entriesFrom k (fun i b hb => ⟨b, hb, rfl, id⟩) fun w hw => ⟨w, List.mem_of_mem_filter hw, rfl⟩
    refine cacheSound_createEntry left status origin (noAccount_of_created k miss) (allocate_free way).1 range
      fun w hw => ?_
    simpa using (List.mem_filter.mp hw).2

end Sys2Proof.Machine.Settlement
end

section
/-!
The held amounts and the quotes of the live ACCOUNT sessions, as sums over the ways and over the positions, and what
each change does to the two (R42, R56, R59, R63, R66).
-/
namespace Sys2Proof.Machine.Settlement

/-! ### The two sums -/

/-- What an entry holds of a card's account. -/
def heldIn (card : Word) : Option Account → Nat
  | some a => if a.card = card then a.held else 0
  | none => 0

/-- What a live session has quoted to a card's account. -/
def quoteIn (card : Word) : Option Session → Nat
  | some ses => if ses.cls = .account ∧ ses.card = card then ses.quote else 0
  | none => 0

@[simp] theorem heldIn_none (card : Word) : heldIn card none = 0 := rfl

@[simp] theorem heldIn_some (card : Word) (a : Account) :
    heldIn card (some a) = if a.card = card then a.held else 0 := rfl

@[simp] theorem quoteIn_none (card : Word) : quoteIn card none = 0 := rfl

@[simp] theorem quoteIn_some (card : Word) (ses : Session) :
    quoteIn card (some ses) = if ses.cls = .account ∧ ses.card = card then ses.quote else 0 := rfl

theorem quoteIn_of_account {ses : Session} (h : ses.cls = .account) (card : Word) :
    quoteIn card (some ses) = if ses.card = card then ses.quote else 0 := by simp [h]

theorem quoteIn_of_other {ses : Session} (h : ses.cls ≠ .account) (card : Word) : quoteIn card (some ses) = 0 := by
  simp [h]

/-- The held amounts of a card, over the ways. -/
def heldSum (s : State) (card : Word) : Nat := ∑ i : Fin 48, heldIn card (entryAt s i)

/-- The quotes of a card's live ACCOUNT sessions, over the positions. -/
def quoteSum (s : State) (card : Word) : Nat := ∑ p : Pos, quoteIn card (sessionAt s p)

theorem quotesOf_eq (s : State) (card : Word) : quotesOf s card = quoteSum s card := by
  have list : ∀ ps : List Pos,
      ((((ps.filterMap (sessionAt s)).filter fun ses => ses.cls == .account && ses.card == card)).map
        Session.quote).sum = (ps.map fun p => quoteIn card (sessionAt s p)).sum := by
    intro ps
    induction ps with
    | nil => rfl
    | cons p ps ih =>
      cases hp : sessionAt s p with
      | none => simp [hp, ih]
      | some ses =>
        by_cases e : ses.cls = .account ∧ ses.card = card
        · simp [hp, ih, e]
        · have other : (ses.cls == .account && ses.card == card) = false := by simpa using e
          simp [hp, ih, e, other]
  have positions : allPositions = List.finRange 24 := by decide
  unfold quotesOf liveSessions quoteSum
  rw [list, positions, Fin.sum_univ_def]

theorem heldSum_of_hit {s : State} (h : CacheSound s) {card : Word} {i : Fin 48} {a : Account}
    (hit : findEntry s card = some (i, a)) : heldSum s card = a.held := by
  obtain ⟨ha, rfl⟩ := entryAt_of_findEntry hit
  unfold heldSum
  rw [Finset.sum_eq_single i]
  · rw [ha, heldIn_some, if_pos rfl]
  · intro j _ ne
    cases hb : entryAt s j with
    | none => rfl
    | some b => exact if_neg fun e => ne (h.2.1 j i b a hb ha e)
  · exact fun absent => absurd (Finset.mem_univ i) absent

theorem heldSum_of_miss {s : State} (h : CacheSound s) {card : Word} (miss : findEntry s card = none) :
    heldSum s card = 0 := by
  refine Finset.sum_eq_zero fun i _ => ?_
  cases ha : entryAt s i with
  | none => rfl
  | some a => exact if_neg (noAccount_of_miss h miss i a ha)

theorem heldAmount_eq {s : State} (h : CacheSound s) (card : Word) : heldAmount s card = heldSum s card := by
  unfold heldAmount
  cases hit : findEntry s card with
  | none => exact (heldSum_of_miss h hit).symm
  | some e => exact (heldSum_of_hit h hit).symm

/-- The two sums of every card agree. -/
def SumsAgree (s : State) : Prop := ∀ card, heldSum s card = quoteSum s card

theorem heldAgrees_iff {s : State} (h : CacheSound s) : HeldAgrees s ↔ SumsAgree s := by
  unfold HeldAgrees SumsAgree
  simp only [heldAmount_eq h, quotesOf_eq]

/-! ### What a change does to a sum -/

/-- A sum changes by what one of its terms does. -/
theorem sum_change {n : Nat} {f g : Fin n → Nat} (i : Fin n) (h : ∀ j, j ≠ i → g j = f j) :
    ∑ j, g j + f i = ∑ j, f j + g i := by
  rw [← Finset.add_sum_erase _ g (Finset.mem_univ i), ← Finset.add_sum_erase _ f (Finset.mem_univ i),
    Finset.sum_congr rfl fun j hj => h j (Finset.ne_of_mem_erase hj)]
  ring

theorem heldSum_congr {s t : State} (h : t.cru.cache = s.cru.cache) (card : Word) :
    heldSum t card = heldSum s card := by
  unfold heldSum entryAt
  rw [h]

theorem heldSum_setEntry (i : Fin 48) (a : Option Account) (s : State) (card : Word) :
    heldSum (setEntry i a s) card + heldIn card (entryAt s i) = heldSum s card + heldIn card a := by
  have change := sum_change (f := fun j => heldIn card (entryAt s j))
    (g := fun j => heldIn card (entryAt (setEntry i a s) j)) i fun j ne => by rw [entryAt_setEntry, if_neg ne]
  beta_reduce at change
  rwa [entryAt_setEntry i i, if_pos rfl] at change

theorem heldIn_unstamped (card : Word) (x : Option Account) : heldIn card (unstamped x) = heldIn card x := by
  cases x <;> rfl

theorem heldIn_of_restamped {s t : State} (h : Restamped s t) (card : Word) (i : Fin 48) :
    heldIn card (entryAt t i) = heldIn card (entryAt s i) := by
  rw [← heldIn_unstamped, h i, heldIn_unstamped]

theorem heldSum_of_restamped {s t : State} (h : Restamped s t) (card : Word) : heldSum t card = heldSum s card :=
  Finset.sum_congr rfl fun i _ => heldIn_of_restamped h card i

theorem quoteSum_of_others {s t : State} {p : Pos} (h : ∀ q, q ≠ p → sessionAt t q = sessionAt s q) (card : Word) :
    quoteSum t card + quoteIn card (sessionAt s p) = quoteSum s card + quoteIn card (sessionAt t p) :=
  sum_change (f := fun q => quoteIn card (sessionAt s q)) (g := fun q => quoteIn card (sessionAt t q)) p
    fun q ne => by rw [h q ne]

theorem quoteSum_congr {s t : State} {card : Word}
    (h : ∀ p, quoteIn card (sessionAt t p) = quoteIn card (sessionAt s p)) : quoteSum t card = quoteSum s card :=
  Finset.sum_congr rfl fun p _ => h p

theorem quoteIn_le_quoteSum (s : State) (p : Pos) (card : Word) : quoteIn card (sessionAt s p) ≤ quoteSum s card :=
  Finset.single_le_sum (f := fun q => quoteIn card (sessionAt s q)) (fun _ _ => Nat.zero_le _) (Finset.mem_univ p)

theorem SameQuote.quoteIn {a b : Session} (h : SameQuote a b) (card : Word) :
    quoteIn card (some b) = quoteIn card (some a) := by
  obtain ⟨cls, card', quote⟩ := h
  rw [quoteIn_some, quoteIn_some, cls, card', quote]

theorem sameQuote_of_granted {a b : Session} (h : b = { a with phase := b.phase, shed := b.shed, state := b.state }) :
    SameQuote a b := by
  rw [h]
  exact ⟨rfl, rfl, rfl⟩

theorem quoteIn_of_budget {s t : State} (h : BudgetOnly s t) (card : Word) (p : Pos) :
    quoteIn card (sessionAt t p) = quoteIn card (sessionAt s p) := by
  cases hp : sessionAt s p with
  | none => rw [sessionAt_congr (congrArg Position.occupancy (h.idle p hp).1), hp]
  | some a =>
    have granted := h.granted p
    rw [sessionAt_eq_some.mp hp] at granted
    obtain ⟨b, live, same⟩ := granted
    rw [sessionAt_eq_some.mpr live]
    exact (sameQuote_of_granted same).quoteIn card

theorem sessionAt_setSession_self (p : Pos) (ses : Session) (s : State) : sessionAt (setSession p ses s) p = some ses :=
  sessionAt_putSession_self p ses s

theorem sessionAt_setSession_ne {p q : Pos} (h : q ≠ p) (ses : Session) (s : State) :
    sessionAt (setSession p ses s) q = sessionAt s q := sessionAt_putSession_ne h ses s

/-! ### The end of a session and a hold -/

theorem sessionAt_endHere_ne {p q : Pos} (h : q ≠ p) (ses : Session) (outcome : EndOutcome) (cause : Option Cause)
    (s : State) : sessionAt (endHere p ses outcome cause s) q = sessionAt s q :=
  sessionAt_congr (by rw [(endsOnly_endHere p ses outcome cause s).others q h])

/-- An ended session's position unloads (R22). -/
theorem sessionAt_endHere_self (p : Pos) (ses : Session) (outcome : EndOutcome) (cause : Option Cause) (s : State) :
    sessionAt (endHere p ses outcome cause s) p = none := by
  obtain ⟨u, hq, -, -, -, here, -⟩ := endQueue_does p ses outcome s
  have unloading : sessionAt u p = none := sessionAt_of_unloading (by rw [here])
  have positions : (endHere p ses outcome cause s).positions = (endQueue p ses outcome s).positions := by
    rw [endHere_eq]
    show (appendRecord _ _).positions = _
    rw [(appendRecord_does _ _).1]
    show (settleAccount _ _ _).positions = _
    rw [(settleAccount_does _ _ _).1]
  rw [sessionAt_congr (congrArg Position.occupancy (posAt_congr positions p)), hq.sessionAt, unloading]

/-- An end takes the quote off the held amount, which covers it (R42). -/
theorem heldSum_settleAccount {s : State} (sound : CacheSound s) {ses : Session}
    (covers : ∀ card, quoteIn card (some ses) ≤ heldSum s card) (charge : Nat) (card : Word) :
    heldSum (settleAccount ses charge s) card + quoteIn card (some ses) = heldSum s card := by
  unfold settleAccount
  split
  · next account =>
    have covered := covers ses.card
    rw [quoteIn_of_account account, if_pos rfl] at covered
    rw [quoteIn_of_account account]
    split
    · next i a hit =>
      rw [heldSum_of_hit sound hit] at covered
      have change := heldSum_setEntry i
        (some { a with balance := clampBalance (a.balance - charge), held := a.held - ses.quote }) s card
      obtain ⟨ha, same⟩ := entryAt_of_findEntry hit
      rw [ha, heldIn_some, heldIn_some] at change
      dsimp only at change
      rw [← same]
      split_ifs at change ⊢ <;> omega
    · next miss =>
      rw [heldSum_of_miss sound miss] at covered
      rw [Nat.le_zero.mp covered, ite_self, Nat.add_zero]
  · next other => rw [quoteIn_of_other other, Nat.add_zero]

theorem raiseHeld_of_hit {s : State} {card : Word} {i : Fin 48} {a : Account} (hit : findEntry s card = some (i, a))
    (quote : Nat) : raiseHeld card quote s = setEntry i (some { a with held := a.held + quote }) s := by
  unfold raiseHeld
  rw [hit]

/-- A hold puts the quote on the held amount (R56). -/
theorem heldSum_heldBase {ses : Session} {s : State} (entry : ses.cls = .account → (findEntry s ses.card).isSome)
    (card : Word) : heldSum (if ses.cls = .account then raiseHeld ses.card ses.quote s else s) card =
      heldSum s card + quoteIn card (some ses) := by
  split
  · next account =>
    obtain ⟨⟨i, a⟩, hit⟩ := Option.isSome_iff_exists.mp (entry account)
    have change := heldSum_setEntry i (some { a with held := a.held + ses.quote }) s card
    obtain ⟨ha, same⟩ := entryAt_of_findEntry hit
    rw [ha, heldIn_some, heldIn_some] at change
    dsimp only at change
    rw [raiseHeld_of_hit hit, quoteIn_of_account account, ← same]
    split_ifs at change ⊢ <;> omega
  · next other => rw [quoteIn_of_other other, Nat.add_zero]

/-- A new entry holds nothing, and takes the place of none that does (R50, R60). -/
theorem heldSum_createEntry {i : Fin 48} {s : State} (free : ∀ a, entryAt s i = some a → a.held = 0) (card : Word)
    (balance : Int) (status : AccountStatus) (origin : Origin) (c : Word) :
    heldSum (createEntry i card balance status origin s) c = heldSum s c := by
  have nothing : heldIn c (entryAt s i) = 0 := by
    cases ha : entryAt s i with
    | none => rfl
    | some a => rw [heldIn_some, free a ha, ite_self]
  have new : heldIn c (some { card, balance, held := 0, status, origin, stamp := 0 }) = 0 := ite_self 0
  have cleared := heldSum_setEntry i none s c
  have restamped := restamped_renumberAtTop (setEntry i none s)
  have written := heldSum_setEntry i (some { card, balance, held := 0, status, origin, stamp := 0 })
    (renumberAtTop (setEntry i none s)) c
  rw [heldIn_of_restamped restamped, entryAt_setEntry, if_pos rfl, heldSum_of_restamped restamped, new] at written
  rw [createEntry_eq, heldSum_of_restamped (restamped_useEntry i _)]
  rw [nothing] at cleared
  rw [heldIn_none] at cleared written
  omega

/-! ### Every change keeps the sums in agreement -/

theorem SumsAgree.of_same {s t : State} (k : SumsAgree s) (held : ∀ card, heldSum t card = heldSum s card)
    (quotes : ∀ p, sessionAt t p = sessionAt s p) : SumsAgree t := fun card => by
  rw [held, k card, quoteSum_congr fun p => by rw [quotes p]]

theorem Move.sumsAgree {s t : State} (h : Move s t) (sound : CacheSound s) (k : SumsAgree s) : SumsAgree t := by
  cases h with
  | aside h => exact k.of_same (heldSum_congr (by rw [h.cru])) h.session
  | begun nv undo cru session => exact k.of_same (heldSum_congr (by rw [cru])) session
  | reset nv undo cru session =>
    intro card
    have held : heldSum t card = 0 := Finset.sum_eq_zero fun i _ => by
      unfold entryAt
      rw [cru, Fin.getElem_fin]
      exact congrArg (heldIn card) (Vector.getElem_replicate _)
    have quotes : quoteSum t card = 0 := Finset.sum_eq_zero fun p _ => by rw [session p]; rfl
    rw [held, quotes]
  | write f s h => exact k.of_same (heldSum_congr rfl) fun _ => rfl
  | budget h =>
    intro card
    have accounts : t.cru = s.cru := by rw [h.frame]
    rw [heldSum_congr (congrArg Cru.cache accounts), k card, quoteSum_congr (quoteIn_of_budget h card)]
  | @session p a b s h same =>
    intro card
    refine (k card).trans (quoteSum_congr fun q => ?_).symm
    by_cases e : q = p
    · rw [e, sessionAt_setSession_self, h, same.quoteIn]
    · rw [sessionAt_setSession_ne e]
  | @ended p ses s outcome cause h =>
    intro card
    have covers : ∀ c, quoteIn c (some ses) ≤ heldSum s c := fun c => by
      rw [k c, ← h]
      exact quoteIn_le_quoteSum s p c
    have settled := heldSum_settleAccount sound covers (chargeOf s.nv.settings.graceMinutes outcome ses) card
    rw [← heldSum_congr (congrArg Cru.cache (cru_endHere p ses outcome cause s)), k card] at settled
    have quotes := quoteSum_of_others (p := p) (fun q ne => sessionAt_endHere_ne ne ses outcome cause s) card
    rw [sessionAt_endHere_self, h] at quotes
    rw [quoteIn_none] at quotes
    omega
  | @held p ses s h entry =>
    intro card
    have raised := heldSum_heldBase entry card
    rw [heldBase_does ses s] at raised ⊢
    generalize (if ses.cls = .account then raiseHeld ses.card ses.quote s else s).cru = cru at raised ⊢
    have quotes := quoteSum_of_others (s := s) (t := setSession p ses { s with cru })
      (fun q ne => sessionAt_setSession_ne ne ses _) card
    rw [sessionAt_setSession_self, h, quoteIn_none, Nat.add_zero] at quotes
    rw [quotes, ← k card, ← raised]
    exact heldSum_congr rfl card
  | wanted l s h => exact k.of_same (heldSum_congr rfl) fun _ => rfl
  | wants waiters room new miss => exact k.of_same (heldSum_congr rfl) fun _ => rfl
  | used i s => exact k.of_same (heldSum_of_restamped (restamped_useEntry i s)) fun p => by rw [useEntry_does]; rfl
  | @entry i a b s h card held balance =>
    refine k.of_same (fun c => ?_) fun _ => rfl
    have change := heldSum_setEntry i (some b) s c
    rw [h, heldIn_some, heldIn_some, card, held] at change
    omega
  | @evicted i a s h free =>
    refine k.of_same (fun c => ?_) fun _ => rfl
    have change := heldSum_setEntry i none s c
    rw [(entryAt_of_findEntry h).1, heldIn_some, heldIn_none, free, ite_self] at change
    omega
  | @created i card balance s status origin miss way range =>
    refine k.of_same (fun c => ?_) fun p => by rw [createEntry_does]; rfl
    exact (heldSum_createEntry (s := removeWanted card s) (allocate_free way).2 card balance status origin c).trans
      (heldSum_congr rfl c)

/-- Settles O54: every change keeps the cache sound, the wanted list within its bounds, and the held amounts and the
quotes in agreement. -/
theorem cacheStaysSound : Obligations.CacheStaysSound := by
  refine ⟨fun s t sound bounded h => ?_, fun s t sound _ agrees h => ?_⟩
  · exact ⟨Moves.keeps Move.cacheSound (moves_step h) sound, Moves.keeps Move.wantedBounded (moves_step h) bounded⟩
  · have kept : CacheSound t ∧ SumsAgree t :=
      Moves.keeps (P := fun s => CacheSound s ∧ SumsAgree s)
        (fun move k => ⟨move.cacheSound k.1, move.sumsAgree k.1 k.2⟩) (moves_step h)
        ⟨sound, (heldAgrees_iff sound).mp agrees⟩
    exact (heldAgrees_iff kept.1).mpr kept.2

end Sys2Proof.Machine.Settlement
end

section
/-!
Program Write and Program Read, the reads that change nothing, and the arithmetic of the quote and the charge (R31 to
R40).
-/
namespace Sys2Proof.Machine.Settlement

/-! ### Program ids -/

theorem programIdOf_of_ge {id : Byte} (h : 16 ≤ id.toNat) : programIdOf id = none := dif_neg (by omega)

theorem programIdOf_of_val {id : Byte} {pid : ProgramId} (h : pid.val = id.toNat) : programIdOf id = some pid := by
  have below : id.toNat < 16 := h ▸ pid.isLt
  unfold programIdOf
  rw [dif_pos below]
  exact congrArg some (Fin.ext h.symm)

/-! ### Program Write (R31, R32) -/

theorem reqProgramWrite_of_no_id {id : Byte} (h : programIdOf id = none) (record : Option ProgramFields) (s : State) :
    reqProgramWrite id record s = refuse .badValue s := by
  unfold reqProgramWrite
  rw [h]

/-- A write that makes the record absent: the test of use alone. -/
theorem reqProgramWrite_absent {id : Byte} {pid : ProgramId} (h : programIdOf id = some pid) (s : State) :
    reqProgramWrite id none s = if 0 < programUsers s pid then refuse .state s else
      accept (storeProgram pid none s) ([id, (Config.absentFigures id).1, (Config.absentFigures id).2.1,
        (Config.absentFigures id).2.2] ++ flagByte false) := by
  unfold reqProgramWrite
  rw [h]

theorem reqProgramWrite_of_no_class {id : Byte} {pid : ProgramId} (h : programIdOf id = some pid) {f : ProgramFields}
    (cls : classOf f.cls = none) (s : State) : reqProgramWrite id (some f) s = refuse .badValue s := by
  unfold reqProgramWrite
  simp only [h, cls]

/-- A write of a record with a class: the test of its fields, then the test of use. -/
theorem reqProgramWrite_present {id : Byte} {pid : ProgramId} (h : programIdOf id = some pid) {f : ProgramFields}
    {cls : MachineClass} (hcls : classOf f.cls = some cls) (s : State) :
    reqProgramWrite id (some f) s = if programValid cls f = false then refuse .badValue s
      else if 0 < programUsers s pid then refuse .state s
      else accept (storeProgram pid (some (storedProgram cls f)) s)
        ([id] ++ figureBytes (storedProgram cls f) ++ flagByte (storedOtherwise cls f)) := by
  unfold reqProgramWrite
  simp only [h, hcls]

/-- A taking that stores a program answers so. -/
theorem answers_of_storeProgram {r : Request} {s : State} {pid : ProgramId} {prog : Option Program}
    {body : List Byte} (serving : Serving s)
    (h : takeRequest r (beginTaking s) = accept (storeProgram pid prog (beginTaking s)) body) :
    Answers r s (storedAs { s.nv with programs := s.nv.programs.set pid prog } s) (.ok body) :=
  answers_of_take serving h (serving.1.2.of_eq rfl rfl)

/-- Settles O16: the case of Program Write that each test leads to. -/
theorem programWriteStoresTheRecord : Obligations.ProgramWriteStoresTheRecord := by
  intro id record s serving
  refine ⟨fun ge => refuses_of_take serving (reqProgramWrite_of_no_id (programIdOf_of_ge ge) _ _), fun pid val => ?_⟩
  have named := programIdOf_of_val val
  refine ⟨?_, ?_, ?_⟩
  · rintro rfl used
    exact refuses_of_take serving ((reqProgramWrite_absent named _).trans (if_pos used))
  · rintro rfl unused
    have free : ¬ 0 < programUsers (beginTaking s) pid := Nat.not_lt.mpr unused.le
    exact ⟨_, _, _, answers_of_storeProgram serving ((reqProgramWrite_absent named _).trans (if_neg free))⟩
  · rintro f rfl
    refine ⟨fun cls => refuses_of_take serving (reqProgramWrite_of_no_class named cls _), fun cls hcls => ?_⟩
    have present := reqProgramWrite_present named hcls (beginTaking s)
    refine ⟨fun invalid => ?_, fun valid used => ?_, fun valid unused => ?_⟩
    · exact refuses_of_take serving (present.trans (if_pos invalid))
    · rw [if_neg (by rw [valid]; decide)] at present
      exact refuses_of_take serving (present.trans (if_pos used))
    · have free : ¬ 0 < programUsers (beginTaking s) pid := Nat.not_lt.mpr unused.le
      rw [if_neg (by rw [valid]; decide)] at present
      exact answers_of_storeProgram serving (present.trans (if_neg free))

/-! ### The reads (R33, R53, R141, R177, R180) -/

/-- A request that only reads answers, and changes nothing. -/
theorem answers_of_read {r : Request} {s : State} {body : List Byte} (serving : Serving s)
    (h : takeRequest r (beginTaking s) = accept (beginTaking s) body) : Answers r s (beginTaking s) (.ok body) :=
  answers_of_take serving h (atRest_beginTaking.mpr serving.1.2)

theorem counted_map {α : Type} (l : List α) (f : α → List Byte) :
    counted (l.map f) = u8 l.length ++ (l.map f).flatten := by
  unfold counted
  rw [List.length_map]

theorem reqProgramRead_of_no_id {id : Byte} (h : programIdOf id = none) (s : State) :
    reqProgramRead id s = refuse .badValue s := by
  unfold reqProgramRead
  rw [h]

theorem reqProgramRead_absent {id : Byte} {pid : ProgramId} (h : programIdOf id = some pid) {s : State}
    (absent : programAt s pid = none) : reqProgramRead id s = accept s (flagByte false) := by
  unfold reqProgramRead
  simp only [h, absent]

theorem reqProgramRead_present {id : Byte} {pid : ProgramId} (h : programIdOf id = some pid) {s : State}
    {prog : Program} (present : programAt s pid = some prog) : reqProgramRead id s =
      accept s (flagByte true ++ [classCode prog.cls] ++ u16 prog.base ++ u8 prog.rate
        ++ counted (prog.phases.map phaseBytes) ++ figureBytes prog ++ u8 (programUsers s pid)) := by
  unfold reqProgramRead
  simp only [h, present]

theorem reqPositionRead_of_none {position : Byte} (h : posOfNumber position.toNat = none) (s : State) :
    reqPositionRead position s = refuse .badValue s := by
  unfold reqPositionRead withPosition
  rw [h]

theorem reqPositionRead_of_some {position : Byte} {p : Pos} (h : posOfNumber position.toNat = some p) (s : State) :
    reqPositionRead position s =
      accept s (readState s p ++ readSession s p ++ readBudget s p ++ readLoop s p ++ readFaults s p) := by
  unfold reqPositionRead withPosition
  rw [h]

/-- Settles O20: each read accepts with its body, in the state it was taken in. -/
theorem readsChangeNothing : Obligations.ReadsChangeNothing := by
  refine ⟨fun position s serving => ⟨?_, ?_, fun none => ?_, fun p named => ?_, ?_⟩, fun id s serving =>
    ⟨fun ge => ?_, fun pid val => ⟨fun absent => ?_, fun prog present => ?_⟩⟩⟩
  · exact answers_of_read serving (congrArg (accept _) (counted_map _ _))
  · exact answers_of_read serving (congrArg (accept _) (counted_map _ _))
  · exact refuses_of_take serving (reqPositionRead_of_none none _)
  · exact answers_of_read serving (reqPositionRead_of_some named _)
  · exact answers_of_read serving rfl
  · exact refuses_of_take serving (reqProgramRead_of_no_id (programIdOf_of_ge ge) _)
  · exact answers_of_read serving (reqProgramRead_absent (programIdOf_of_val val) absent)
  · have read := reqProgramRead_present (programIdOf_of_val val) (s := beginTaking s) present
    rw [counted_map] at read
    refine answers_of_read serving (read.trans (congrArg (accept _) ?_))
    simp only [List.append_assoc]
    rfl

/-! ### The quote, the extension and the charge (R35 to R40) -/

theorem quoteOf_eq_zero_iff {prog : Program} {ext mult ceiling : Nat} (hm : 50 ≤ mult) (hc : 1 ≤ ceiling) :
    quoteOf prog ext mult ceiling = 0 ↔ prog.base + ext * prog.rate = 0 := by
  unfold quoteOf
  generalize prog.base + ext * prog.rate = price
  constructor
  · intro zero
    by_contra positive
    have least : 50 * 1 ≤ mult * price := Nat.mul_le_mul hm (Nat.one_le_iff_ne_zero.mpr positive)
    omega
  · rintro rfl
    omega

theorem extensionOf_of_heating {settings : Settings} {prog : Program} (dryer : prog.cls = .dryer)
    (heating : ∃ f ∈ prog.phases, f.heating = true) (requested : Nat) :
    extensionOf settings prog requested = min requested settings.extensionMax :=
  if_pos ⟨dryer, List.any_eq_true.mpr heating⟩

theorem extensionOf_of_none {settings : Settings} {prog : Program}
    (h : prog.cls = .washer ∨ ∀ f ∈ prog.phases, f.heating = false) (requested : Nat) :
    extensionOf settings prog requested = 0 := by
  refine if_neg fun ⟨dryer, heating⟩ => ?_
  rcases h with washer | cold
  · rw [washer] at dryer
    cases dryer
  · obtain ⟨f, mem, hot⟩ := List.any_eq_true.mp heating
    rw [cold f mem] at hot
    cases hot

theorem shedCredit_of_none {ses : Session} (h : ses.s = 0) : shedCredit ses = 0 := by
  unfold shedCredit
  rw [h, Nat.mul_zero, Nat.zero_div]

/-- The share of the quote for the minutes run is no more than the quote. -/
theorem share_le_quote (ses : Session) : ses.quote * min ses.r ses.nominal / ses.nominal ≤ ses.quote := by
  apply Nat.div_le_of_le_mul
  rw [Nat.mul_comm ses.nominal]
  exact Nat.mul_le_mul_left _ (Nat.min_le_right _ _)

theorem basisAmount_of_full {o : EndOutcome} (h : basisOf o = .full) (grace : Nat) (ses : Session) :
    basisAmount grace o ses = ses.quote := by
  unfold basisAmount
  rw [h]

theorem basisAmount_of_prorated {o : EndOutcome} (h : basisOf o = .prorated) (grace : Nat) (ses : Session) :
    basisAmount grace o ses =
      if min ses.r ses.nominal < grace then 0 else ses.quote * min ses.r ses.nominal / ses.nominal := by
  unfold basisAmount
  rw [h]

theorem basisAmount_of_zero {o : EndOutcome} (h : basisOf o = .zero) (grace : Nat) (ses : Session) :
    basisAmount grace o ses = 0 := by
  unfold basisAmount
  rw [h]

theorem basisAmount_le_quote (grace : Nat) (o : EndOutcome) (ses : Session) : basisAmount grace o ses ≤ ses.quote := by
  cases h : basisOf o with
  | full => exact (basisAmount_of_full h grace ses).le
  | prorated =>
    rw [basisAmount_of_prorated h]
    split
    · exact Nat.zero_le _
    · exact share_le_quote ses
  | zero => rw [basisAmount_of_zero h]; exact Nat.zero_le _

theorem chargeOf_eq_clamp (grace : Nat) (o : EndOutcome) (ses : Session) :
    (chargeOf grace o ses : Int) = min (max 0 ((basisAmount grace o ses : Int) - shedCredit ses)) ses.quote := by
  unfold chargeOf
  omega

/-- Settles O30: the figures of R35 to R40, each by its own lemma. -/
theorem quoteExtensionAndCharge : Obligations.QuoteExtensionAndCharge := by
  refine ⟨⟨fun prog ext mult ceiling => ⟨rfl, Nat.min_le_right _ _, quoteOf_eq_zero_iff⟩,
    fun settings prog requested => ⟨fun dryer heating => extensionOf_of_heating dryer heating requested,
      fun cold => extensionOf_of_none cold requested⟩⟩,
    fun grace ses => ⟨rfl, shedCredit_of_none, fun o full => ?_, fun o prorated => ?_, fun o zero => ?_, fun o =>
      ⟨basisAmount_le_quote grace o ses, Nat.min_le_right _ _, chargeOf_eq_clamp grace o ses⟩⟩⟩
  · exact basisAmount_of_full (by rcases full with rfl | rfl <;> rfl) grace ses
  · exact basisAmount_of_prorated (by rcases prorated with rfl | rfl | rfl | rfl | rfl <;> rfl) grace ses
  · exact basisAmount_of_zero (by rcases zero with rfl | rfl | rfl <;> rfl) grace ses

end Sys2Proof.Machine.Settlement
end

section
/-!
What it takes for a terminal's line to agree with the wanted list and the claims (R53, R68, R70), line by line: the
change of one line, and the changes that leave every line alone.
-/
namespace Sys2Proof.Machine.Cards
open Settlement

/-! ### A terminal's line -/

@[simp] theorem lineOf_modLine_self (l : Terminal) (f : TerminalLine → TerminalLine) (s : State) :
    lineOf (modLine l f s) l = f (lineOf s l) := by cases l <;> rfl

theorem lineOf_modLine_ne {l m : Terminal} (h : m ≠ l) (f : TerminalLine → TerminalLine) (s : State) :
    lineOf (modLine l f s) m = lineOf s m := by
  cases l with
  | one => cases m with
    | one => exact absurd rfl h
    | two => rfl
  | two => cases m with
    | one => rfl
    | two => exact absurd rfl h

theorem lineOf_congr {s t : State} (h : t.tli = s.tli) (l : Terminal) : lineOf t l = lineOf s l := by
  cases l <;> simp only [lineOf, h]

/-- The final record of a start or balance request ends its wait; an answer in the request's own taking joins while
fewer than 6 records wait (R68, R70). -/
theorem lineOf_answerTap_self (l : Terminal) (f : Frame) (s : State) :
    lineOf (answerTap l f s) l =
      if (lineOf s l).flight.isSome then { lineOf s l with flight := none, out := (lineOf s l).out ++ [f] }
      else if (lineOf s l).out.length < 6 then { lineOf s l with out := (lineOf s l).out ++ [f] } else lineOf s l := by
  unfold answerTap finishFlight pushRecord pushAnswer
  split <;> simp only [lineOf_modLine_self]

theorem lineOf_answerTap_ne {l m : Terminal} (h : m ≠ l) (f : Frame) (s : State) :
    lineOf (answerTap l f s) m = lineOf s m := by
  unfold answerTap finishFlight pushRecord pushAnswer
  split
  · rw [lineOf_modLine_ne h, lineOf_modLine_ne h]
  · rw [lineOf_modLine_ne h]

theorem lineOf_beginFlight_ne {l m : Terminal} (h : m ≠ l) (flight : InFlight) (s : State) :
    lineOf (beginFlight l flight s) m = lineOf s m := by
  unfold beginFlight pushRecord
  rw [lineOf_modLine_ne h, lineOf_modLine_ne h]

/-! ### Claims -/

theorem claimAt_eq_some {s : State} {p : Pos} {c : Claim} :
    claimAt s p = some c ↔ (posAt s p).occupancy = .claimed c := by
  unfold claimAt
  split
  · next x h => simp [h]
  · next h => exact ⟨fun e => (by cases e), fun e => absurd e (h c)⟩

theorem claimAt_congr {s t : State} {p : Pos} (h : (posAt t p).occupancy = (posAt s p).occupancy) :
    claimAt t p = claimAt s p := by unfold claimAt; rw [h]

theorem claimAt_of_positions {s t : State} (h : t.positions = s.positions) (p : Pos) : claimAt t p = claimAt s p :=
  claimAt_congr (by rw [posAt_congr h p])

theorem claimAt_of_granted {s t : State} {p : Pos} (h : GrantedOnly (posAt s p).occupancy (posAt t p).occupancy) :
    claimAt t p = claimAt s p := by
  cases e : (posAt s p).occupancy with
  | live x =>
    rw [e] at h
    obtain ⟨y, hy, -⟩ := h
    unfold claimAt
    rw [e, hy]
  | _ => rw [e] at h; exact claimAt_congr (by rw [e]; exact h)

theorem claimAt_setOccupancy_self {p : Pos} {o : Occupancy} (s : State) (h : ∀ c, o ≠ .claimed c) :
    claimAt (setOccupancy p o s) p = none := by
  rw [Option.eq_none_iff_forall_ne_some]
  intro c hc
  rw [claimAt_eq_some, setOccupancy, posAt_modPos_self] at hc
  exact h c hc

theorem claimAt_setOccupancy_ne {p q : Pos} (h : q ≠ p) (o : Occupancy) (s : State) :
    claimAt (setOccupancy p o s) q = claimAt s q := claimAt_congr (by rw [setOccupancy, posAt_modPos_ne h])

theorem claimAt_restSilence (p q : Pos) (s : State) : claimAt (restSilence p s) q = claimAt s q := by
  refine claimAt_congr ?_
  unfold restSilence
  rw [posAt_modPos]
  split
  · next e => subst e; split <;> rfl
  · rfl

theorem claimAt_of_live {s : State} {p : Pos} {ses : Session} (h : sessionAt s p = some ses) : claimAt s p = none := by
  rw [sessionAt_eq_some] at h
  unfold claimAt
  rw [h]

theorem claimAt_of_unclaimed {s : State} {p : Pos} (h : ∀ c, (posAt s p).occupancy ≠ .claimed c) :
    claimAt s p = none := by
  rw [Option.eq_none_iff_forall_ne_some]
  exact fun c hc => h c (claimAt_eq_some.mp hc)

/-! ### What a line agrees with -/

/-- What a terminal waits for on the wanted list: the card of each of its waits, with the kind of its request. -/
def waitsOf (wanted : List Wanted) (l : Terminal) : List (Word × WaitKind) :=
  wanted.flatMap fun w => (w.waiters.filter fun e => e.1 == l).map fun e => (w.card, e.2)

/-- What a request in flight waits for. -/
def waitOf : Option InFlight → List (Word × WaitKind)
  | none => []
  | some (.start card _) => [(card, .start)]
  | some (.balance card) => [(card, .balance)]

/-- A terminal's line agrees with the wanted list and with the claims that name the terminal. -/
structure LineAgrees (s : State) (l : Terminal) : Prop where
  room : (lineOf s l).out.length + (waitOf (lineOf s l).flight).length ≤ 8
  waits : waitsOf s.cru.wanted l = waitOf (lineOf s l).flight
  named : ∀ p c, claimAt s p = some c → c.terminal = l → (lineOf s l).flight = some (.start c.card p)
  claim : ∀ card p, (lineOf s l).flight = some (.start card p) →
    ∃ c, claimAt s p = some c ∧ c.card = card ∧ c.terminal = l

/-- No card is wanted twice, and both lines agree with the list and the claims. -/
structure Agreed (s : State) : Prop where
  once : (s.cru.wanted.map Wanted.card).Nodup
  line : ∀ l, LineAgrees s l

theorem mem_waitsOf {wanted : List Wanted} {l : Terminal} {card : Word} {k : WaitKind} :
    (card, k) ∈ waitsOf wanted l ↔ ∃ w ∈ wanted, w.card = card ∧ (l, k) ∈ w.waiters := by
  simp only [waitsOf, List.mem_flatMap, List.mem_map, List.mem_filter]
  constructor
  · rintro ⟨w, hw, ⟨m, j⟩, ⟨he, hl⟩, e⟩
    cases e
    cases eq_of_beq hl
    exact ⟨w, hw, rfl, he⟩
  · rintro ⟨w, hw, rfl, he⟩
    exact ⟨w, hw, (l, k), ⟨he, beq_self_eq_true l⟩, rfl⟩

theorem waitsOf_eq_nil {wanted : List Wanted} {l : Terminal} :
    waitsOf wanted l = [] ↔ ∀ w ∈ wanted, ∀ e ∈ w.waiters, e.1 ≠ l := by
  rw [List.eq_nil_iff_forall_not_mem]
  constructor
  · rintro h w hw ⟨m, k⟩ he rfl
    exact h (w.card, k) (mem_waitsOf.mpr ⟨w, hw, rfl, he⟩)
  · rintro h ⟨card, k⟩ hk
    obtain ⟨w, hw, -, he⟩ := mem_waitsOf.mp hk
    exact h w hw _ he rfl

/-- How often a terminal stands among the waiters. -/
theorem count_waiters (wanted : List Wanted) (l : Terminal) :
    ((wanted.flatMap Wanted.waiters).map Prod.fst).count l = (waitsOf wanted l).length := by
  induction wanted with
  | nil => rfl
  | cons w ws ih =>
    have here : (w.waiters.map Prod.fst).count l = (w.waiters.filter fun e => e.1 == l).length := by
      rw [← List.countP_eq_length_filter, List.count, List.countP_map]
      rfl
    simp only [waitsOf, List.flatMap_cons, List.map_append, List.count_append, List.length_append, List.length_map]
    rw [here, ih]
    rfl

theorem nodup_waiters_iff (wanted : List Wanted) :
    ((wanted.flatMap Wanted.waiters).map Prod.fst).Nodup ↔ ∀ l, (waitsOf wanted l).length ≤ 1 := by
  rw [List.nodup_iff_count_le_one]
  simp only [count_waiters]

theorem length_waitOf_le (flight : Option InFlight) : (waitOf flight).length ≤ 1 := by
  rcases flight with _ | _ | _ <;> simp [waitOf]

/-- A list of one element at most that has an element is that element. -/
theorem eq_singleton_of_mem {α : Type} {a : α} {l : List α} (h : a ∈ l) (short : l.length ≤ 1) : l = [a] := by
  match l with
  | [] => cases h
  | [b] => rw [List.mem_singleton.mp h]
  | b :: c :: rest => simp at short

/-- The spec's agreement of the terminals, line by line. -/
theorem terminalsAgree_iff (s : State) : TerminalsAgree s ↔ ∀ l, LineAgrees s l := by
  unfold TerminalsAgree
  rw [nodup_waiters_iff]
  constructor
  · rintro ⟨each, short, claims⟩ l
    obtain ⟨room, served⟩ := each l
    have named : ∀ p c, claimAt s p = some c → c.terminal = l → (lineOf s l).flight = some (.start c.card p) :=
      fun p c hc e => e ▸ claims p c hc
    cases hf : (lineOf s l).flight with
    | none =>
      rw [hf] at served
      exact ⟨by rw [hf]; exact room, by rw [hf]; exact waitsOf_eq_nil.mpr served, named, by rw [hf]; nofun⟩
    | some flight =>
      cases flight with
      | start card p =>
        rw [hf] at served
        obtain ⟨seven, waits, c, hc, rfl, rfl⟩ := served
        refine ⟨by rw [hf]; exact Nat.succ_le_succ seven, ?_, named, fun card q e => ?_⟩
        · rw [hf]; exact eq_singleton_of_mem (mem_waitsOf.mpr waits) (short _)
        · rw [hf] at e; cases e; exact ⟨c, hc, rfl, rfl⟩
      | balance card =>
        rw [hf] at served
        obtain ⟨seven, waits⟩ := served
        exact ⟨by rw [hf]; exact Nat.succ_le_succ seven,
          by rw [hf]; exact eq_singleton_of_mem (mem_waitsOf.mpr waits) (short l), named, by rw [hf]; nofun⟩
  · intro agrees
    refine ⟨fun l => ?_, fun l => (agrees l).waits ▸ length_waitOf_le _, fun p c hc => (agrees _).named p c hc rfl⟩
    obtain ⟨room, waits, -, claim⟩ := agrees l
    refine ⟨by omega, ?_⟩
    cases hf : (lineOf s l).flight with
    | none => rw [hf] at waits; exact waitsOf_eq_nil.mp waits
    | some flight =>
      rw [hf] at waits room
      cases flight with
      | start card p =>
        exact ⟨Nat.le_of_succ_le_succ room, mem_waitsOf.mp (waits ▸ List.mem_singleton_self _), claim card p hf⟩
      | balance card =>
        exact ⟨Nat.le_of_succ_le_succ room, mem_waitsOf.mp (waits ▸ List.mem_singleton_self _)⟩

/-! ### Lines left alone -/

/-- A terminal's line stands, with its waits and its claims. -/
structure LineKept (l : Terminal) (s t : State) : Prop where
  flight : (lineOf t l).flight = (lineOf s l).flight
  out : (lineOf t l).out = (lineOf s l).out
  waits : waitsOf t.cru.wanted l = waitsOf s.cru.wanted l
  claims : ∀ p c, c.terminal = l → (claimAt t p = some c ↔ claimAt s p = some c)

theorem LineKept.trans {l : Terminal} {s t u : State} (h : LineKept l s t) (k : LineKept l t u) : LineKept l s u :=
  ⟨k.flight.trans h.flight, k.out.trans h.out, k.waits.trans h.waits,
    fun p c e => (k.claims p c e).trans (h.claims p c e)⟩

theorem LineKept.agrees {l : Terminal} {s t : State} (h : LineKept l s t) (k : LineAgrees s l) : LineAgrees t l where
  room := by rw [h.flight, h.out]; exact k.room
  waits := by rw [h.flight, h.waits]; exact k.waits
  named p c hc e := by rw [h.flight]; exact k.named p c ((h.claims p c e).mp hc) e
  claim card p hf := by
    obtain ⟨c, hc, card, e⟩ := k.claim card p (h.flight ▸ hf)
    exact ⟨c, (h.claims p c e).mpr hc, card, e⟩

/-- Every line stands, and the wanted cards. -/
structure Silent (s t : State) : Prop where
  line : ∀ l, LineKept l s t
  cards : t.cru.wanted.map Wanted.card = s.cru.wanted.map Wanted.card

theorem Silent.trans {s t u : State} (h : Silent s t) (k : Silent t u) : Silent s u :=
  ⟨fun l => (h.line l).trans (k.line l), k.cards.trans h.cards⟩

theorem Silent.agreed {s t : State} (h : Silent s t) (k : Agreed s) : Agreed t :=
  ⟨h.cards ▸ k.once, fun l => (h.line l).agrees (k.line l)⟩

/-- A change that leaves the lines, the wanted list and the claims alone. -/
theorem Silent.of_frame {s t : State} (tli : t.tli = s.tli) (wanted : t.cru.wanted = s.cru.wanted)
    (claims : ∀ p, claimAt t p = claimAt s p) : Silent s t :=
  ⟨fun l => ⟨by rw [lineOf_congr tli], by rw [lineOf_congr tli], by rw [wanted],
    fun p c _ => by rw [claims p]⟩, by rw [wanted]⟩

theorem Silent.of_positions {s t : State} (tli : t.tli = s.tli) (wanted : t.cru.wanted = s.cru.wanted)
    (positions : t.positions = s.positions) : Silent s t := .of_frame tli wanted (claimAt_of_positions positions)

theorem Silent.refl (s : State) : Silent s s := .of_positions rfl rfl rfl

/-- What keeps the agreement. -/
def Keeps (s t : State) : Prop := Agreed s → Agreed t

theorem Keeps.refl (s : State) : Keeps s s := id

theorem Keeps.trans {s t u : State} (h : Keeps s t) (k : Keeps t u) : Keeps s u := k ∘ h

theorem Silent.keeps {s t : State} (h : Silent s t) : Keeps s t := h.agreed

end Sys2Proof.Machine.Cards
end

section
/-!
The changes of the state that leave the terminals' lines, the wanted list and the claims alone.
-/
namespace Sys2Proof.Machine.Cards
open Settlement

/-! ### Primitives -/

theorem silent_of_queueOnly {s t : State} (h : QueueOnly s t) : Silent s t :=
  .of_frame h.tli (by rw [h.cru]) fun p => claimAt_congr (h.occupancy p)

/-- Grants, sheds and evaluations touch no claim (R94, R98). -/
theorem silent_of_budget {s t : State} (h : BudgetOnly s t) : Silent s t :=
  .of_frame (by rw [h.frame]) (by rw [h.frame]) fun p => claimAt_of_granted (h.granted p)

theorem silent_modPos {p : Pos} {f : Position → Position} {s : State}
    (h : (f (posAt s p)).occupancy = (posAt s p).occupancy) : Silent s (modPos p f s) := by
  refine .of_frame rfl rfl fun q => claimAt_congr ?_
  rw [posAt_modPos]
  split
  · next e => rw [e, h]
  · rfl

/-- An occupancy that is no claim takes the place of another. -/
theorem silent_setOccupancy {p : Pos} {o : Occupancy} {s : State} (h : claimAt s p = none)
    (ho : ∀ c, o ≠ .claimed c) : Silent s (setOccupancy p o s) := by
  refine .of_frame rfl rfl fun q => ?_
  by_cases e : q = p
  · rw [e, claimAt_setOccupancy_self s ho, h]
  · exact claimAt_setOccupancy_ne e o s

theorem silent_setFlag (f : AttnFlag) (s : State) : Silent s (setFlag f s) := .of_positions rfl rfl rfl
theorem silent_modFm (f : Fm → Fm) (s : State) : Silent s (modFm f s) := .of_positions rfl rfl rfl
theorem silent_modRlc (f : Rlc → Rlc) (s : State) : Silent s (modRlc f s) := .of_positions rfl rfl rfl
theorem silent_modLba (f : Lba → Lba) (s : State) : Silent s (modLba f s) := .of_positions rfl rfl rfl
theorem silent_modHlp (f : Hlp → Hlp) (s : State) : Silent s (modHlp f s) := .of_positions rfl rfl rfl
theorem silent_setMode (m : RoomMode) (s : State) : Silent s (setMode m s) := .of_positions rfl rfl rfl
theorem silent_setQueue (q : List QueueEntry) (s : State) : Silent s (setQueue q s) := .of_positions rfl rfl rfl
theorem silent_writeNv (f : Retained → Retained) (s : State) : Silent s (writeNv f s) := .of_positions rfl rfl rfl
theorem silent_writeSlot (p : Pos) (x : Option Session) (s : State) : Silent s (writeSlot p x s) := silent_writeNv _ s
theorem silent_setEntry (i : Fin 48) (a : Option Account) (s : State) : Silent s (setEntry i a s) :=
  .of_positions rfl rfl rfl
theorem silent_oweEvaluation (s : State) : Silent s (oweEvaluation s) := silent_modLba _ s
theorem silent_beginTaking (s : State) : Silent s (beginTaking s) := .of_positions rfl rfl rfl

theorem silent_useEntry (i : Fin 48) (s : State) : Silent s (useEntry i s) :=
  .of_positions (by rw [useEntry_does]) (wanted_useEntry i s) (by rw [useEntry_does])

theorem silent_raiseHeld (card : Word) (quote : Nat) (s : State) : Silent s (raiseHeld card quote s) :=
  .of_positions (by rw [raiseHeld_does]) (wanted_raiseHeld card quote s) (by rw [raiseHeld_does])

theorem silent_createEntry (i : Fin 48) (card : Word) (balance : Int) (status : AccountStatus) (origin : Origin)
    (s : State) : Silent s (createEntry i card balance status origin s) :=
  .of_positions (by rw [createEntry_does]) (wanted_createEntry i card balance status origin s)
    (by rw [createEntry_does])

/-- A line's assembler is no part of its agreement. -/
theorem silent_modLine {l : Terminal} {f : TerminalLine → TerminalLine} {s : State}
    (flight : (f (lineOf s l)).flight = (lineOf s l).flight) (out : (f (lineOf s l)).out = (lineOf s l).out) :
    Silent s (modLine l f s) := by
  have frame := modLine_does l f s
  have claims : ∀ p, claimAt (modLine l f s) p = claimAt s p := claimAt_of_positions (by rw [frame])
  have wanted : (modLine l f s).cru.wanted = s.cru.wanted := by rw [frame]
  refine ⟨fun m => ?_, by rw [wanted]⟩
  by_cases e : m = l
  · subst e
    exact ⟨by rw [lineOf_modLine_self, flight], by rw [lineOf_modLine_self, out], by rw [wanted],
      fun p c _ => by rw [claims p]⟩
  · exact ⟨by rw [lineOf_modLine_ne e], by rw [lineOf_modLine_ne e], by rw [wanted], fun p c _ => by rw [claims p]⟩

theorem silent_writeFault (position : Option Pos) (session : Option Half) (event : FaultEvent) (causes : List Cause)
    (snapshot : Option LastReport) (s : State) : Silent s (writeFault position session event causes snapshot s) := by
  rw [writeFault_does]; exact .of_positions rfl rfl rfl

theorem silent_writeInput (e : InputEvent) (s : State) : Silent s (writeInput e s) := silent_writeFault _ _ _ _ _ s

theorem silent_advanceClock (s : State) : Silent s (advanceClock s) := by
  unfold advanceClock
  split
  · exact .of_positions rfl rfl rfl
  · exact Silent.refl s

theorem silent_settlingEvent (p : Pos) (s : State) : Silent s (settlingEvent p s) := silent_modPos rfl

theorem silent_setCauses (p : Pos) (set : List Cause) (s : State) : Silent s (setCauses p set s) := silent_modPos rfl

theorem silent_restSilence (p : Pos) (s : State) : Silent s (restSilence p s) := silent_modPos (by split <;> rfl)

theorem silent_forPositions (ps : List Pos) (act : Pos → State → State) (h : ∀ p s, Silent s (act p s)) (s : State) :
    Silent s (forPositions ps act s) := forPositions_rel Silent.refl (fun _ _ _ => Silent.trans) ps act h s

theorem silent_foldl {α : Type} (l : List α) (act : State → α → State) (h : ∀ s a, Silent s (act s a)) (s : State) :
    Silent s (l.foldl act s) := by
  induction l generalizing s with
  | nil => exact Silent.refl s
  | cons a l ih => exact (h s a).trans (ih _)

theorem silent_ite {c : Prop} [Decidable c] {s t u : State} (h : c → Silent s t) (k : ¬ c → Silent s u) :
    Silent s (if c then t else u) := by
  split
  · next hc => exact h hc
  · next hc => exact k hc

theorem keeps_forPositions (ps : List Pos) (act : Pos → State → State) (h : ∀ p s, Keeps s (act p s)) (s : State) :
    Keeps s (forPositions ps act s) := forPositions_rel Keeps.refl (fun _ _ _ => Keeps.trans) ps act h s

theorem keeps_foldl {α : Type} (l : List α) (act : State → α → State) (h : ∀ s a, Keeps s (act s a)) (s : State) :
    Keeps s (l.foldl act s) := by
  induction l generalizing s with
  | nil => exact Keeps.refl s
  | cons a l ih => exact (h s a).trans (ih _)

theorem keeps_ite {c : Prop} [Decidable c] {s t u : State} (h : c → Keeps s t) (k : ¬ c → Keeps s u) :
    Keeps s (if c then t else u) := by
  split
  · next hc => exact h hc
  · next hc => exact k hc

/-! ### Sessions -/

theorem silent_setSession {p : Pos} {a : Session} {s : State} (h : sessionAt s p = some a) (b : Session) :
    Silent s (setSession p b s) := silent_setOccupancy (claimAt_of_live h) nofun

theorem silent_putSession {p : Pos} {a : Session} {s : State} (h : sessionAt s p = some a) (b : Session) :
    Silent s (putSession p b s) := (silent_setSession h b).trans (silent_writeSlot p _ _)

theorem silent_evaluateIfDue (s : State) : Silent s (evaluateIfDue s) := silent_of_budget (budgetOnly_evaluateIfDue s)

theorem positions_endHere (p : Pos) (ses : Session) (outcome : EndOutcome) (cause : Option Cause) (s : State) :
    (endHere p ses outcome cause s).positions = (endQueue p ses outcome s).positions := by
  rw [endHere_eq, writeSlot_positions, (appendRecord_does _ _).1, (settleAccount_does _ _ _).1]

/-- The end of a live session ends no claim (R22). -/
theorem silent_endHere {p : Pos} {ses : Session} {s : State} (outcome : EndOutcome) (cause : Option Cause)
    (h : sessionAt s p = some ses) : Silent s (endHere p ses outcome cause s) := by
  have ends := endsOnly_endHere p ses outcome cause s
  obtain ⟨u, hq, -, -, -, here, others⟩ := endQueue_does p ses outcome s
  refine .of_frame (by rw [ends.frame]) (by rw [cru_endHere, wanted_settleAccount]) fun q => ?_
  rw [claimAt_of_positions (positions_endHere p ses outcome cause s), claimAt_congr (hq.occupancy q)]
  by_cases e : q = p
  · subst e
    rw [claimAt_of_live h]
    exact claimAt_of_unclaimed fun c => by rw [here]; nofun
  · exact claimAt_congr (by rw [others q e])

theorem silent_endSession (p : Pos) (outcome : EndOutcome) (cause : Option Cause) (s : State) :
    Silent s (endSession p outcome cause s) := by
  unfold endSession
  split
  · next ses h => exact silent_endHere outcome cause h
  · exact Silent.refl s

theorem silent_suspendSession (p : Pos) (s : State) : Silent s (suspendSession p s) := by
  unfold suspendSession
  split
  · next ses h => exact silent_ite (fun _ => silent_putSession h _) fun _ => Silent.refl s
  · exact Silent.refl s

theorem silent_confirmSession {p : Pos} {ses : Session} {s : State} (h : sessionAt s p = some ses) :
    Silent s (confirmSession p ses s) := Silent.trans (silent_putSession h _) (silent_modPos rfl)

theorem silent_resumeSession {p : Pos} {ses : Session} {s : State} (h : sessionAt s p = some ses) :
    Silent s (resumeSession p ses s).1 := silent_putSession h _

theorem silent_completeSession {p : Pos} {ses : Session} {s : State} (h : sessionAt s p = some ses) :
    Silent s (completeSession p ses s) := by
  refine Silent.trans ?_ (silent_endSession p .completed none _)
  cases ses.state with
  | starting => exact silent_confirmSession h
  | suspended => exact silent_putSession h _
  | waitingBudget => exact Silent.refl s
  | running => exact Silent.refl s

theorem silent_countMinutes (s : State) : Silent s (countMinutes s) := by
  refine silent_forPositions _ _ (fun p s => ?_) s
  unfold updateSession
  split
  · next ses h => exact silent_putSession h _
  · exact Silent.refl s

/-! ### Budget (chapter 5) -/

theorem silent_capChanged (oldCap oldWater : Nat) (s : State) : Silent s (capChanged oldCap oldWater s).1 := by
  unfold capChanged
  simp only
  refine Silent.trans ?_ (silent_evaluateIfDue _)
  refine Silent.trans ?_ (silent_ite (fun _ => silent_oweEvaluation _) fun _ => Silent.refl _)
  refine Silent.trans (t := (if effectiveCap s < oldCap ∧ effectiveCap s < electricSum s
    then shedDown 24 s else (s, 0)).1) ?_ ?_
  · split
    · exact silent_of_budget (budgetOnly_shedDown 24 s)
    · exact Silent.refl s
  · refine silent_ite (fun _ => silent_modLba _ _) fun _ => silent_ite (fun _ => ?_) fun _ => Silent.refl _
    exact (silent_modLba _ _).trans (silent_setFlag _ _)

theorem silent_stepAtOnce {p : Pos} {ses : Session} {s : State} (j : Nat) (h : sessionAt s p = some ses) :
    Silent s (stepAtOnce p ses j s) := by
  have entered : Silent s (settlingEvent p (enterPhase p ses j s)) :=
    (silent_of_budget (budgetOnly_enterPhase j h)).trans (silent_settlingEvent p _)
  unfold stepAtOnce
  extract_lets before entry lowered left owing
  have owed : Silent s owing := entered.trans (silent_ite (fun _ => silent_oweEvaluation _) fun _ => Silent.refl _)
  exact silent_ite (fun _ => owed.trans (silent_of_budget (budgetOnly_shedDown 24 _))) fun _ => owed

theorem silent_stepRequest {p : Pos} {ses : Session} {s : State} (j : Nat) (h : sessionAt s p = some ses) :
    Silent s (stepRequest p ses j s).1 := by
  unfold stepRequest
  split
  · exact Silent.refl s
  · exact Silent.refl s
  · exact silent_ite (fun _ => silent_stepAtOnce j h) fun _ =>
      (silent_modLba _ s).trans (silent_putSession ((sessionAt_modLba _ p s).trans h) _)

/-! ### Faults (chapter 7) -/

theorem silent_lockPosition (onsets : List Cause) (p : Pos) (s : State) : Silent s (lockPosition onsets p s) :=
  silent_ite (fun _ => silent_writeNv _ s) fun _ => Silent.refl s

theorem silent_queueHaltWater (p : Pos) (s : State) : Silent s (queueHaltWater p s) :=
  silent_of_queueOnly (queueOnly_queueHaltWater p s)

theorem silent_takeHeater (p : Pos) (s : State) : Silent s (takeHeater p s).1 := by
  unfold takeHeater
  extract_lets q
  rcases judgeHeater s p with ⟨low, verdict⟩
  dsimp only
  exact silent_modPos rfl

theorem silent_takeStartCount (p : Pos) (s : State) : Silent s (takeStartCount p s).1 := by
  unfold takeStartCount
  split
  · split_ifs
    · dsimp only
      exact silent_modPos rfl
    · dsimp only
      exact silent_modPos rfl
    · exact Silent.refl s
  · exact Silent.refl s

/-! ### A report (R113) -/

theorem silent_stopStray (p : Pos) (cycle : Cycle) (tag : Byte) (s : State) : Silent s (stopStray p cycle tag s) :=
  silent_ite (fun _ => silent_of_queueOnly (queueOnly_queueStrayStop p tag s)) fun _ => Silent.refl s

theorem silent_stopStray_unless (c : Prop) [Decidable c] (p : Pos) (cycle : Cycle) (tag : Byte) (s : State) :
    Silent s (if c then s else stopStray p cycle tag s) :=
  silent_ite (fun _ => Silent.refl s) fun _ => silent_stopStray p cycle tag s

theorem silent_judgeUnloading {p : Pos} {s : State} {old : Byte} (cycle : Cycle) (tag : Byte)
    (h : (posAt s p).occupancy = .unloading old) : Silent s (judgeUnloading p cycle tag s) := by
  have unclaimed : claimAt s p = none := claimAt_of_unclaimed fun c e => by rw [h] at e; cases e
  exact silent_ite
    (fun _ => (silent_setOccupancy unclaimed fun _ e => by cases e).trans (silent_restSilence p _)) fun _ =>
    silent_stopStray p cycle tag s

theorem silent_smStarting {p : Pos} {ses : Session} {s : State} (cycle : Cycle) (tag : Byte)
    (h : sessionAt s p = some ses) : Silent s (smStarting p ses cycle tag s).state := by
  unfold smStarting
  split_ifs
  · exact silent_confirmSession h
  · exact silent_completeSession h
  · exact Silent.refl s
  · exact silent_stopStray p cycle tag s

theorem silent_smRunning {p : Pos} {ses : Session} {s : State} (cycle : Cycle) (tag : Byte)
    (h : sessionAt s p = some ses) : Silent s (smRunning p ses cycle tag s).state := by
  unfold smRunning
  split
  · split
    · exact silent_resumeSession h
    · exact Silent.refl s
  · split
    · exact silent_completeSession h
    · exact silent_stopStray_unless _ p cycle tag s

theorem silent_smTake (p : Pos) (cycle : Cycle) (tag : Byte) (s : State) : Silent s (smTake p cycle tag s).state := by
  unfold smTake
  split
  · exact silent_stopStray p cycle tag s
  · exact silent_stopStray p cycle tag s
  · next h => exact silent_judgeUnloading cycle tag h
  · next ses h =>
    have live := sessionAt_eq_some.mpr h
    split
    · exact silent_stopStray_unless _ p cycle tag s
    · exact silent_smStarting cycle tag live
    · exact silent_smRunning cycle tag live

theorem silent_lbaTake (p : Pos) (r : Report) (agrees : Bool) (s : State) : Silent s (lbaTake p r agrees s).1 := by
  have metered : Silent s (meter p r.draw s) := silent_modPos rfl
  unfold lbaTake
  extract_lets m
  split
  · split
    · next ses h => exact metered.trans (silent_stepRequest _ h)
    · exact metered
  · exact metered

theorem silent_doorRule (p : Pos) (r : Report) (s : State) : Silent s (doorRule p r s) := by
  have offered : ∀ order, Silent s (offer .rlc { pos := p, order } s) := fun order =>
    silent_of_queueOnly (queueOnly_offer _ _ s)
  exact silent_ite (fun _ => silent_ite (fun _ => offered _) fun _ =>
    silent_ite (fun _ => offered _) fun _ => Silent.refl s) fun _ => Silent.refl s

/-! ### The roster (R109 to R111) -/

theorem silent_heard (p : Pos) (s : State) : Silent s (heard p s) := silent_modPos rfl

theorem silent_leaveRoster (p : Pos) (presence : Presence) (s : State) : Silent s (leaveRoster p presence s) :=
  Silent.trans (silent_modPos rfl) (silent_restSilence p _)

theorem silent_queueIdentify (p : Pos) (s : State) : Silent s (queueIdentify p s) :=
  silent_of_queueOnly (queueOnly_queueIdentify p s)

theorem silent_makeDuplicate (p : Pos) (s : State) : Silent s (makeDuplicate p s) :=
  ((silent_leaveRoster p .duplicate s).trans (silent_setFlag _ _)).trans (silent_queueIdentify p _)

theorem silent_enrolPosition (p : Pos) (serial : Word) (s : State) : Silent s (enrolPosition p serial s) :=
  Silent.trans (silent_modPos rfl) (silent_heard p _)

theorem silent_giveClass (p : Pos) (cls : MachineClass) (s : State) : Silent s (giveClass p cls s).1 := by
  unfold giveClass
  extract_lets differs given
  have h : Silent s given := silent_modPos rfl
  exact silent_ite (fun _ => h.trans (silent_setFlag _ _)) fun _ => h

theorem silent_enrolHaltWater (p : Pos) (newly : Bool) (s : State) : Silent s (enrolHaltWater p newly s) :=
  silent_ite (fun _ => silent_queueHaltWater p s) fun _ => Silent.refl s

theorem silent_rosterPosition (records : List EnrolRecord) (p : Pos) (s : State) :
    Silent s (rosterPosition records p s) := by
  unfold rosterPosition
  extract_lets before after
  have placed : Silent s after := by
    simp only [after]
    split
    · exact silent_leaveRoster p _ s
    · exact silent_enrolPosition p _ s
    · exact (silent_leaveRoster p _ s).trans (silent_queueIdentify p _)
  exact silent_ite (fun _ => placed) fun _ => placed.trans (silent_setFlag _ _)

/-! ### Sweeps sent and lost (R104 to R107, R115 to R119) -/

theorem silent_sendEnrol (s : State) : Silent s (sendEnrol s) := silent_modRlc _ s

theorem silent_setHeld (b : Block) (l : List Directive) (s : State) : Silent s (setHeld b l s) :=
  silent_of_queueOnly (queueOnly_setHeld b l s)

theorem silent_mergeOffers (n : Nat) (pending : List (Block × List Directive)) (s : State) :
    Silent s (mergeOffers n pending s) := by
  induction n generalizing pending s with
  | zero => exact Silent.refl s
  | succ n ih =>
    unfold mergeOffers
    extract_lets left i counted
    have free : Silent s counted := silent_ite (fun _ => Silent.refl s) fun _ => .of_positions rfl rfl rfl
    split
    · exact (free.trans (silent_of_queueOnly (queueOnly_offer _ _ _))).trans (ih _ _)
    · exact free

theorem silent_offerHeld (s : State) : Silent s (offerHeld s) :=
  (silent_foldl allBlocks _ (fun s b => silent_setHeld b [] s) s).trans (silent_mergeOffers _ _ _)

theorem silent_chooseCarried (room : Nat) (older rest : List QueueEntry) (s : State) :
    Silent s (chooseCarried room older rest s).1 := by
  induction rest generalizing room older s with
  | nil => exact silent_setQueue older s
  | cons e rest ih =>
    unfold chooseCarried
    split
    · exact ih _ _ _
    · extract_lets fresh seq given carried
      have h : Silent s given := silent_ite (fun _ => silent_modPos rfl) fun _ => Silent.refl s
      exact h.trans (ih _ _ _)

theorem silent_sendRunning (s : State) : Silent s (sendRunning s) := by
  unfold sendRunning
  exact ((silent_offerHeld s).trans (silent_chooseCarried 4 [] _ _)).trans (silent_modRlc _ _)

theorem silent_breakLoop (s : State) : Silent s (breakLoop s) :=
  ((silent_modRlc _ s).trans (silent_setFlag _ _)).trans (silent_forPositions _ _ silent_suspendSession _)

theorem silent_badReturn (s : State) : Silent s (badReturn s) := by
  unfold badReturn
  split
  · exact Silent.refl s
  · extract_lets cleared raised failed
    have h : Silent s cleared := silent_modRlc _ s
    split
    · exact (h.trans (silent_modRlc _ _)).trans (silent_ite (fun _ => silent_breakLoop _) fun _ => Silent.refl _)
    · exact (h.trans (silent_modRlc _ _)).trans (silent_ite (fun _ => silent_breakLoop _) fun _ => Silent.refl _)
    · exact h.trans (silent_modRlc _ _)
    · exact h

theorem silent_raiseSettle (s : State) : Silent s (raiseSettle s) :=
  silent_forPositions _ _ (fun _ _ => silent_modPos rfl) s

theorem silent_tellFirstSend (e : QueueEntry) (s : State) : Silent s (tellFirstSend e s) := by
  unfold tellFirstSend
  extract_lets p
  split
  · exact silent_ite (fun _ => silent_modPos rfl) fun _ => Silent.refl s
  · next h => exact silent_ite (fun _ => silent_putSession h _) fun _ => Silent.refl s
  · exact Silent.refl s

theorem silent_acknowledge (p : Pos) (accepted : Byte) (s : State) : Silent s (acknowledge p accepted s) := by
  unfold acknowledge
  extract_lets named settles left
  exact silent_ite (fun _ => (silent_setQueue _ s).trans (silent_settlingEvent p _)) fun _ => silent_setQueue _ s

theorem silent_countMissing (marked : List Pos) (p : Pos) (s : State) : Silent s (countMissing marked p s) :=
  silent_ite (fun _ => Silent.refl s) fun _ => Silent.trans (silent_modPos rfl)
    (silent_ite (fun _ => silent_suspendSession p _) fun _ => Silent.refl _)

theorem silent_dropEntries (test : QueueEntry → Bool) (s : State) : Silent s (dropEntries test s) :=
  (silent_setQueue _ s).trans (silent_forPositions _ _ silent_settlingEvent _)

theorem silent_emptyEntry (e : QueueEntry) (s : State) : Silent s (emptyEntry e s) := by
  unfold emptyEntry
  split
  · exact Silent.refl s
  · extract_lets settled
    have h : Silent s settled := silent_ite (fun _ => silent_settlingEvent _ s) fun _ => Silent.refl s
    split
    · exact h.trans (silent_of_queueOnly (queueOnly_holdBack _ _ _))
    · exact h

theorem silent_restartLoop (s : State) : Silent s (restartLoop s) :=
  ((((silent_setQueue [] s).trans (silent_foldl s.rlc.queue _ (fun s e => silent_emptyEntry e s) _)).trans
    (silent_forPositions _ _ (fun _ _ => silent_modPos rfl) _)).trans (silent_modRlc _ _)).trans (silent_sendEnrol _)

theorem silent_takeHeldOffer (b : Block) (place : Nat) (s : State) : Silent s (takeHeldOffer b place s) := by
  unfold takeHeldOffer
  split
  · exact silent_ite (fun _ => (silent_setHeld b _ s).trans (silent_of_queueOnly (queueOnly_joinQueue _ _)))
      fun _ => Silent.refl s
  · exact Silent.refl s

/-! ### Time -/

/-- A tenth of a second ages the wanted entries and ends the half-assembled frames (R53, R67). -/
theorem silent_passTenth (s : State) : Silent s (passTenth s) := by
  refine Silent.trans ?_ (silent_forPositions _ _ (fun p s => silent_modPos (by split <;> rfl)) _)
  refine ⟨fun l => ⟨by cases l <;> rfl, by cases l <;> rfl, ?_, fun _ _ _ => Iff.rfl⟩, by rw [List.map_map]; rfl⟩
  simp only [waitsOf, List.flatMap_map]

theorem silent_expireDemand (s : State) : Silent s (expireDemand s) := by
  unfold expireDemand
  split
  · exact ((silent_setFlag _ s).trans (silent_modLba _ _)).trans (silent_capChanged _ _ _)
  · exact Silent.refl s

theorem silent_sweepTimers (s : State) : Silent s (sweepTimers s) := by
  refine Silent.trans ?_ (silent_ite (fun _ => silent_sendRunning _) fun _ => Silent.refl _)
  refine Silent.trans ?_ (silent_ite (fun _ => silent_sendEnrol _) fun _ => Silent.refl _)
  exact silent_ite (fun _ => silent_badReturn s) fun _ => Silent.refl s

end Sys2Proof.Machine.Cards
end

section
/-!
A request that is answered, and what FM, the loop and the timers do to the terminals: no worse than dropping a claim
with its answer (R10, R76).
-/
namespace Sys2Proof.Machine.Cards
open Settlement

/-! ### Waits -/

theorem waitsOf_withdrawn_self (wanted : List Wanted) (l : Terminal) :
    waitsOf (wanted.map fun w => { w with waiters := w.waiters.filter fun e => e.1 != l }) l = [] := by
  refine waitsOf_eq_nil.mpr fun w hw e he => ?_
  obtain ⟨v, -, rfl⟩ := List.mem_map.mp hw
  simpa using (List.mem_filter.mp he).2

theorem waitsOf_withdrawn_ne {l m : Terminal} (h : m ≠ l) (wanted : List Wanted) :
    waitsOf (wanted.map fun w => { w with waiters := w.waiters.filter fun e => e.1 != l }) m = waitsOf wanted m := by
  unfold waitsOf
  rw [List.flatMap_map]
  refine congrArg (List.flatMap · wanted) (funext fun w => congrArg (List.map _) ?_)
  rw [List.filter_filter]
  refine List.filter_congr fun e _ => ?_
  by_cases hm : e.1 = m
  · simp [hm, h]
  · simp [hm]

/-! ### A request answered -/

/-- A terminal's request is answered: its line agrees again, and the other line stands. -/
structure Answered (l : Terminal) (s t : State) : Prop where
  agrees : LineAgrees t l
  others : ∀ m, m ≠ l → LineKept m s t
  cards : t.cru.wanted.map Wanted.card = s.cru.wanted.map Wanted.card

theorem Answered.after {l : Terminal} {s t u : State} (k : Answered l t u) (others : ∀ m, m ≠ l → LineKept m s t)
    (cards : t.cru.wanted.map Wanted.card = s.cru.wanted.map Wanted.card) : Answered l s u :=
  ⟨k.agrees, fun m e => (others m e).trans (k.others m e), k.cards.trans cards⟩

theorem Answered.agreed {l : Terminal} {s t : State} (k : Answered l s t) (once : (s.cru.wanted.map Wanted.card).Nodup)
    (h : ∀ m, m ≠ l → LineAgrees s m) : Agreed t := by
  refine ⟨k.cards ▸ once, fun m => ?_⟩
  by_cases e : m = l
  · exact e ▸ k.agrees
  · exact (k.others m e).agrees (h m e)

/-- A line that no claim and no wanted entry names agrees once nothing is in flight on it. -/
theorem lineAgrees_of_idle {s : State} {l : Terminal} (flight : (lineOf s l).flight = none)
    (out : (lineOf s l).out.length ≤ 8) (waits : waitsOf s.cru.wanted l = [])
    (free : ∀ p c, claimAt s p = some c → c.terminal ≠ l) : LineAgrees s l where
  room := by rw [flight]; exact out
  waits := by rw [flight]; exact waits
  named p c hc e := absurd e (free p c hc)
  claim card p hf := by rw [flight] at hf; cases hf

/-- The answer to a request that waits no longer and holds no claim. -/
theorem answered_answerTap {l : Terminal} {s : State} (f : Frame) (room : (lineOf s l).out.length ≤ 7)
    (waits : waitsOf s.cru.wanted l = []) (free : ∀ p c, claimAt s p = some c → c.terminal ≠ l) :
    Answered l s (answerTap l f s) := by
  have frame := answerTap_does l f s
  have claims : ∀ p, claimAt (answerTap l f s) p = claimAt s p := claimAt_of_positions (by rw [frame])
  have wanted : (answerTap l f s).cru.wanted = s.cru.wanted := by rw [frame]
  refine ⟨?_, fun m e => ⟨by rw [lineOf_answerTap_ne e], by rw [lineOf_answerTap_ne e], by rw [wanted],
    fun p c _ => by rw [claims p]⟩, by rw [wanted]⟩
  refine lineAgrees_of_idle ?_ ?_ (by rw [wanted]; exact waits) fun p c hc => free p c (claims p ▸ hc)
  · rw [lineOf_answerTap_self]
    split
    · rfl
    · next idle => split <;> simpa using idle
  · rw [lineOf_answerTap_self]
    split_ifs
    · simp only [List.length_append, List.length_singleton]; omega
    · simp only [List.length_append, List.length_singleton]; omega
    · omega

theorem claimAt_vacate_self (p : Pos) (s : State) : claimAt (vacate p s) p = none := by
  rw [vacate, claimAt_restSilence, claimAt_setOccupancy_self s fun _ e => by cases e]

theorem claimAt_vacate_ne {p q : Pos} (h : q ≠ p) (s : State) : claimAt (vacate p s) q = claimAt s q := by
  rw [vacate, claimAt_restSilence, claimAt_setOccupancy_ne h]

/-- A claim that is the only one of its terminal is dropped with the answer to its request (R10, R54, R76). -/
theorem answered_dropClaim {s : State} {p : Pos} {c : Claim} (reason : Reason) (h : claimAt s p = some c)
    (room : (lineOf s c.terminal).out.length ≤ 7)
    (sole : ∀ q d, claimAt s q = some d → d.terminal = c.terminal → q = p) :
    Answered c.terminal s (dropClaim p reason s) := by
  unfold dropClaim
  rw [h]
  let u := withdrawWaiter c.terminal (vacate p s)
  have other : ∀ q, q ≠ p → claimAt u q = claimAt s q := fun q e => claimAt_vacate_ne e s
  have here : claimAt u p = none := claimAt_vacate_self p s
  refine Answered.after (t := u) (answered_answerTap _ room (waitsOf_withdrawn_self _ _) ?_) (fun m e => ?_) ?_
  · intro q d hd e
    have ne : q ≠ p := fun e => by rw [e, here] at hd; cases hd
    exact ne (sole q d (other q ne ▸ hd) e)
  · refine ⟨rfl, rfl, waitsOf_withdrawn_ne e _, fun q d hd => ?_⟩
    by_cases hq : q = p
    · subst hq
      rw [here, h]
      exact ⟨nofun, fun same => by cases same; exact absurd hd.symm e⟩
    · rw [other q hq]
  · simp only [u, withdrawWaiter, setWanted_cru, List.map_map]
    rfl

theorem keeps_dropClaim (p : Pos) (reason : Reason) (s : State) : Keeps s (dropClaim p reason s) := fun agreed => by
  cases h : claimAt s p with
  | none => unfold dropClaim; rw [h]; exact agreed
  | some c =>
    obtain ⟨room, -, named, -⟩ := agreed.line c.terminal
    have flight := named p c h rfl
    refine (answered_dropClaim reason h ?_ fun q d hd e => ?_).agreed agreed.once fun m _ => agreed.line m
    · rw [flight] at room
      exact Nat.le_of_succ_le_succ room
    · have same := flight.symm.trans (named q d hd e)
      injection same with same
      injection same with _ same
      exact same.symm

/-- A record that answers in its own taking joins where fewer than 6 wait (R68). -/
theorem keeps_pushAnswer (l : Terminal) (f : Frame) (s : State) : Keeps s (pushAnswer l f s) := fun agreed => by
  have frame := modLine_does l (fun x => if x.out.length < 6 then { x with out := x.out ++ [f] } else x) s
  change pushAnswer l f s = _ at frame
  have claims : ∀ p, claimAt (pushAnswer l f s) p = claimAt s p := claimAt_of_positions (by rw [frame])
  have wanted : (pushAnswer l f s).cru.wanted = s.cru.wanted := by rw [frame]
  have kept : ∀ m, (lineOf (pushAnswer l f s) m).flight = (lineOf s m).flight
      ∧ ((lineOf (pushAnswer l f s) m).out.length = (lineOf s m).out.length
        ∨ (lineOf (pushAnswer l f s) m).out.length ≤ 6) := fun m => by
    unfold pushAnswer
    by_cases e : m = l
    · subst e
      rw [lineOf_modLine_self]
      split
      · exact ⟨rfl, .inr (by simp only [List.length_append, List.length_singleton]; omega)⟩
      · exact ⟨rfl, .inl rfl⟩
    · rw [lineOf_modLine_ne e]; exact ⟨rfl, .inl rfl⟩
  refine ⟨wanted ▸ agreed.once, fun m => ?_⟩
  obtain ⟨room, waits, named, claim⟩ := agreed.line m
  obtain ⟨flight, out⟩ := kept m
  have short := length_waitOf_le (lineOf s m).flight
  exact ⟨by rw [flight]; omega, by rw [wanted, flight]; exact waits, fun p c hc => flight ▸ named p c (claims p ▸ hc),
    fun card p hf => by rw [claims p]; exact claim card p (flight ▸ hf)⟩

/-! ### Faults (chapter 7) -/

theorem keeps_stopAt (p : Pos) (reason : Reason) (s : State) : Keeps s (stopAt p reason s) :=
  Keeps.trans (silent_ite (fun _ => (silent_evaluateIfDue s).trans (silent_endSession _ _ _ _))
    fun _ => Silent.refl s).keeps (keeps_dropClaim p reason _)

theorem keeps_endByFault (p : Pos) (primary : Cause) (s : State) : Keeps s (endByFault p primary s) := by
  unfold endByFault
  split
  · exact (silent_endSession _ _ _ _).keeps
  · exact keeps_dropClaim _ _ _

theorem keeps_raiseAlarm (s : State) : Keeps s (raiseAlarm s) := by
  refine keeps_ite (fun _ => Keeps.refl s) fun _ => ?_
  unfold enterAlarm
  refine Keeps.trans (Keeps.trans (silent_setMode .alarm s).keeps (keeps_forPositions _ _ (fun p s => ?_) _))
    (silent_forPositions _ _ (fun p s => ?_) _).keeps
  · exact keeps_ite (fun _ => keeps_stopAt p .roomAlarm s) fun _ => Keeps.refl s
  · exact silent_ite (fun _ => silent_queueHaltWater p s) fun _ => Silent.refl s

theorem keeps_leakActions (p : Pos) (s : State) : Keeps s (leakActions p s) :=
  (silent_ite (fun _ => silent_queueHaltWater p s) fun _ => Silent.refl s).keeps.trans (keeps_raiseAlarm _)

theorem keeps_actOnOnsets (p : Pos) (onsets : List Cause) (snapshot : Option LastReport) (s : State) :
    Keeps s (actOnOnsets p onsets snapshot s) := by
  unfold actOnOnsets
  split
  · exact Keeps.refl s
  · refine Keeps.trans ?_ (keeps_ite (fun _ => keeps_leakActions p _) fun _ => Keeps.refl _)
    exact ((silent_writeFault _ _ _ _ _ s).trans (silent_lockPosition _ p _)).keeps.trans (keeps_endByFault p _ _)

theorem keeps_handCause (p : Pos) (c : Cause) (s : State) : Keeps s (handCause p c s) :=
  ((silent_setCauses p _ s).keeps.trans (keeps_actOnOnsets p _ _ _)).trans (silent_evaluateIfDue _).keeps

theorem keeps_drainLost (n : Nat) (s : State) : Keeps s (drainLost n s) := by
  induction n generalizing s with
  | zero => exact Keeps.refl s
  | succ n ih =>
    unfold drainLost
    split
    · exact Keeps.refl s
    · exact ((silent_modRlc _ s).keeps.trans (keeps_handCause _ _ _)).trans (ih _)

theorem keeps_closeTaking (s : State) : Keeps s (closeTaking s) :=
  (silent_evaluateIfDue s).keeps.trans (keeps_drainLost _ _)

theorem keeps_reportJudgment (p : Pos) (r : Report) (handed : List Cause) (s : State) :
    Keeps s (reportJudgment p r handed s) :=
  Keeps.trans (silent_modPos rfl).keeps (keeps_actOnOnsets p _ _ _)

theorem keeps_sweepJudgment (p : Pos) (marked begun : Bool) (s : State) : Keeps s (sweepJudgment p marked begun s) := by
  have heater : Silent s (if marked then takeHeater p s else (s, false)).1 := by
    split
    · exact silent_takeHeater p s
    · exact Silent.refl s
  have count : ∀ u, Silent u (if begun then (u, false) else takeStartCount p u).1 := fun u => by
    split
    · exact Silent.refl u
    · exact silent_takeStartCount p u
  exact ((heater.trans (count _)).keeps.trans (keeps_actOnOnsets p _ _ _)).trans (silent_evaluateIfDue _).keeps

theorem keeps_judgeFlood (s : State) : Keeps s (judgeFlood s) := by
  refine keeps_ite (fun _ => Keeps.refl s) fun _ => keeps_ite (fun _ => ?_) fun _ => ?_
  · exact (((silent_modFm _ s).trans (silent_setFlag _ _)).trans (silent_writeInput _ _)).keeps.trans
      (keeps_raiseAlarm _)
  · exact ((silent_modFm _ s).trans (silent_ite
      (fun _ => (silent_setFlag _ _).trans (silent_writeInput _ _)) fun _ => Silent.refl _)).keeps

theorem keeps_judgeStop (s : State) : Keeps s (judgeStop s) := by
  refine keeps_ite (fun _ => Keeps.refl s) fun _ => keeps_ite (fun _ => ?_) fun _ => ?_
  · refine Keeps.trans (Silent.keeps ?_) (keeps_forPositions _ _ (fun p s => keeps_stopAt p _ s) _)
    refine Silent.trans ?_ (silent_ite (fun _ => Silent.refl _) fun _ => silent_setMode _ _)
    exact ((silent_modFm _ s).trans (silent_setFlag _ _)).trans (silent_writeInput _ _)
  · exact ((silent_modFm _ s).trans (silent_ite
      (fun _ => (silent_setFlag _ _).trans (silent_writeInput _ _)) fun _ => Silent.refl _)).keeps

/-! ### The room loop (chapter 6) -/

theorem keeps_takeReport (p : Pos) (r : Report) (s : State) : Keeps s (takeReport p r s) := by
  refine Keeps.trans ?_ (silent_doorRule p r _).keeps
  refine Keeps.trans ?_ (silent_evaluateIfDue _).keeps
  refine Keeps.trans ?_ (keeps_reportJudgment p r _ _)
  exact ((silent_smTake p r.cycle r.tag s).trans (silent_lbaTake p r _ _)).keeps

theorem keeps_verdictStarting {p : Pos} {ses : Session} {s : State} (r : EnrolRecord)
    (h : sessionAt s p = some ses) : Keeps s (verdictStarting p ses r s) :=
  keeps_ite (fun _ => (silent_confirmSession h).keeps) fun _ =>
    keeps_ite (fun _ => (silent_completeSession h).keeps) fun _ =>
      (silent_stopStray_unless _ p r.cycle r.tag s).keeps.trans (keeps_handCause p _ _)

theorem keeps_verdictRunning {p : Pos} {ses : Session} {s : State} (r : EnrolRecord)
    (h : sessionAt s p = some ses) : Keeps s (verdictRunning p ses r s) := by
  refine keeps_ite (fun _ => keeps_ite (fun _ => ?_) fun _ => Keeps.refl s) fun _ =>
    keeps_ite (fun _ => (silent_completeSession h).keeps) fun _ =>
      (silent_stopStray_unless _ p r.cycle r.tag s).keeps.trans (keeps_handCause p _ _)
  exact (silent_resumeSession h).keeps.trans (keeps_ite (fun _ => keeps_handCause p _ _) fun _ => Keeps.refl _)

theorem silent_verdictWaiting {p : Pos} {ses : Session} {s : State} (r : EnrolRecord)
    (h : sessionAt s p = some ses) : Silent s (verdictWaiting p ses r s) :=
  silent_ite (fun _ => silent_ite (fun _ => silent_completeSession h) fun _ => Silent.refl s) fun _ =>
    silent_stopStray p r.cycle r.tag s

theorem keeps_verdict (p : Pos) (r : EnrolRecord) (s : State) : Keeps s (verdict p r s) := by
  unfold verdict
  split
  · exact (silent_stopStray p _ _ s).keeps
  · exact (silent_stopStray p _ _ s).keeps
  · next h => exact (silent_judgeUnloading _ _ h).keeps
  · next ses h =>
    have live := sessionAt_eq_some.mpr h
    split
    · exact (silent_verdictWaiting r live).keeps
    · exact keeps_verdictStarting r live
    · exact keeps_verdictRunning r live

theorem keeps_reconcile (p : Pos) (newly : Bool) (r : EnrolRecord) (s : State) : Keeps s (reconcile p newly r s) := by
  refine Keeps.trans ?_ (silent_evaluateIfDue _).keeps
  refine Keeps.trans ((silent_giveClass p r.cls s).trans (silent_enrolHaltWater p newly _)).keeps ?_
  exact keeps_ite (fun _ => (keeps_handCause p _ _).trans (silent_stopStray p _ _ _).keeps) fun _ => keeps_verdict p r _

theorem keeps_goodEnrol (number : Byte) (records : List LoopRecord) (s : State) :
    Keeps s (goodEnrol number records s) := by
  have reconciled : ∀ enrols newly p u, Keeps u (reconcilePosition enrols newly p u) := fun enrols newly p u => by
    unfold reconcilePosition
    split
    · exact keeps_reconcile p _ _ u
    · exact (silent_suspendSession p u).keeps
  unfold goodEnrol
  extract_lets enrols newly s1 s2 s3 s4 s5
  have h3 : Silent s s3 := ((silent_modRlc _ s).trans (silent_raiseSettle _)).trans
    (silent_ite (fun _ => silent_setFlag _ _) fun _ => Silent.refl _)
  have h4 : Silent s3 s4 := silent_forPositions _ _ (silent_rosterPosition enrols) _
  have h5 : Keeps s4 s5 := keeps_forPositions _ _ (reconciled enrols newly) _
  exact ((h3.trans h4).keeps.trans h5).trans (silent_modRlc _ _).keeps

theorem keeps_takeMark (p : Pos) (m : Mark) (s : State) : Keeps s (takeMark p m s) := by
  unfold takeMark
  extract_lets s1 s2
  have h : Silent s s2 :=
    (Silent.trans (silent_modPos rfl) (silent_heard p _)).trans (silent_acknowledge p m.accepted _)
  split
  · exact h.keeps.trans (keeps_takeReport p _ _)
  · exact h.keeps

theorem keeps_joinPosition (p : Pos) (newly : Bool) (e : EnrolRecord) (s : State) :
    Keeps s (joinPosition p newly e s) :=
  ((silent_enrolPosition p e.serial s).trans (silent_modPos rfl)).keeps.trans (keeps_reconcile p newly e _)

theorem keeps_takeJoin (records : List LoopRecord) (e : EnrolRecord) (s : State) : Keeps s (takeJoin records e s) := by
  unfold takeJoin
  split
  · exact (silent_setFlag _ s).keeps
  · split
    · exact Keeps.refl s
    · exact keeps_ite (fun _ => (silent_makeDuplicate _ s).keeps) fun _ =>
        (silent_setFlag _ s).keeps.trans (keeps_joinPosition _ _ e _)
    · exact keeps_ite (fun _ => (silent_makeDuplicate _ s).keeps) fun _ => keeps_joinPosition _ _ e s

theorem keeps_takeRecord (records : List LoopRecord) (t : SweepTaking) (r : LoopRecord) :
    Keeps t.state (takeRecord records t r).state := by
  unfold takeRecord
  split
  · split
    · exact Keeps.refl _
    · split_ifs
      · exact (silent_makeDuplicate _ _).keeps
      · exact keeps_takeMark _ _ _
      · exact Keeps.refl _
  · exact keeps_takeJoin records _ _
  · exact Keeps.refl _

theorem keeps_takeRecords (all records : List LoopRecord) (t : SweepTaking) :
    Keeps t.state (records.foldl (takeRecord all) t).state := by
  induction records generalizing t with
  | nil => exact Keeps.refl _
  | cons r records ih => exact (keeps_takeRecord all t r).trans (ih _)

theorem keeps_goodRunning (number : Byte) (records : List LoopRecord) (s : State) :
    Keeps s (goodRunning number records s) := by
  have closed : ∀ dropped marked begun p u, Keeps u (closePosition dropped marked begun p u) :=
    fun dropped marked begun p u =>
      (keeps_foldl _ _ (fun s _ => keeps_handCause p _ s) u).trans (keeps_sweepJudgment p _ _ _)
  unfold goodRunning
  extract_lets first begun s1 s2 s3 taking s4 dropped s5
  have h3 : Silent s s3 := ((silent_modRlc _ s).trans (silent_raiseSettle _)).trans
    (silent_foldl _ _ (fun s e => silent_tellFirstSend e s) _)
  have h4 : Keeps s3 s4 := (keeps_takeRecords records records { state := s3, marked := [] }).trans
    (silent_forPositions _ _ (silent_countMissing taking.marked) _).keeps
  have h5 : Silent s4 s5 := silent_dropEntries dropDue _
  exact ((h3.keeps.trans h4).trans h5.keeps).trans
    (keeps_forPositions _ _ (closed dropped taking.marked begun) _)

theorem keeps_sweepReturn (kind : SweepKind) (home : SweepHome) (s : State) : Keeps s (sweepReturn kind home s) := by
  unfold sweepReturn
  split
  · exact Keeps.refl s
  · refine keeps_ite (fun _ => ?_) fun _ => Keeps.refl s
    split
    · exact (silent_badReturn s).keeps
    · refine keeps_ite (fun _ => ?_) fun _ => Keeps.refl s
      split
      · exact keeps_goodRunning _ _ s
      · exact keeps_goodEnrol _ _ s

theorem keeps_silenceReached (p : Pos) (s : State) : Keeps s (silenceReached p s) :=
  Keeps.trans (silent_modPos rfl).keeps (keeps_handCause p _ _)

/-- The measures that have reached SilenceLimit are taken (R122). -/
theorem keeps_silencesReached (s : State) :
    Keeps s (forPositions allPositions (fun p s => if silenceDue s p then silenceReached p s else s) s) :=
  keeps_forPositions _ _ (fun p s => keeps_ite (fun _ => keeps_silenceReached p s) fun _ => Keeps.refl s) s

/-! ### The timers and the other rows -/

theorem keeps_takeLimit (p : Pos) (s : State) : Keeps s (takeLimit p s) := by
  unfold takeLimit
  split
  · exact keeps_ite (fun _ => ((silent_endSession p _ _ s).trans (silent_evaluateIfDue _)).keeps) fun _ =>
      keeps_ite (fun _ => keeps_handCause p _ s) fun _ => Keeps.refl s
  · exact Keeps.refl s

theorem keeps_minuteBoundary (s : State) : Keeps s (minuteBoundary s) := by
  have marked : Silent s { s with boundary := true, rcs := { s.rcs with minuteLeft := 600 } } :=
    .of_positions rfl rfl rfl
  exact ((marked.trans (silent_advanceClock _)).trans (silent_countMinutes _)).keeps.trans
    (keeps_forPositions _ _ keeps_takeLimit _)

theorem silent_heldBoundary (s : State) : Silent s (heldBoundary s) := by
  have begun : Silent s { beginTaking s with rcs := { s.rcs with minuteLeft := 600 } } := .of_positions rfl rfl rfl
  exact begun.trans (silent_advanceClock _)

theorem keeps_taking {act : State → State} (h : ∀ s, Keeps s (act s)) (s : State) : Keeps s (taking act s) :=
  keeps_ite (fun _ => ((silent_beginTaking s).keeps.trans (h _)).trans (keeps_closeTaking _)) fun _ =>
    (silent_beginTaking s).keeps

theorem keeps_takeResendDue (p : Pos) (s : State) : Keeps s (takeResendDue p s) := by
  refine (silent_setQueue _ s).keeps.trans (keeps_foldl _ _ (fun s e => ?_) _)
  exact (silent_ite (fun _ => silent_settlingEvent p s) fun _ => Silent.refl s).keeps.trans (keeps_handCause p _ _)

theorem keeps_takeHeaterDead (p : Pos) (s : State) : Keeps s (takeHeaterDead p s) :=
  keeps_ite (fun _ => (silent_setCauses p _ s).keeps.trans (keeps_actOnOnsets p _ _ _)) fun _ => Keeps.refl s

theorem keeps_takeStartTimeout (p : Pos) (s : State) : Keeps s (takeStartTimeout p s) :=
  keeps_ite (fun _ => Keeps.trans (silent_modPos rfl).keeps (keeps_actOnOnsets p _ _ _)) fun _ => Keeps.refl s

theorem silent_takeBudgetTimeout (p : Pos) (atBoundary : Bool) (s : State) :
    Silent s (takeBudgetTimeout p atBoundary s) := by
  unfold takeBudgetTimeout
  split
  · exact silent_ite (fun _ => silent_endSession p _ _ s) fun _ => Silent.refl s
  · exact Silent.refl s

theorem keeps_takeOverrun (p : Pos) (atBoundary : Bool) (s : State) : Keeps s (takeOverrun p atBoundary s) := by
  unfold takeOverrun
  split
  · exact keeps_ite (fun _ => keeps_handCause p _ s) fun _ => Keeps.refl s
  · exact Keeps.refl s

end Sys2Proof.Machine.Cards
end

section
/-!
The requests that wait on a card are served or fail one after another, each answered before the next (R55, R57, R73).
-/
namespace Sys2Proof.Machine.Cards
open Settlement

/-! ### Entries that change no card -/

/-- The entries of two states differ in their held amounts alone. -/
def UpToHeld (s t : State) : Prop :=
  ∀ i, (entryAt t i).map (fun a => { a with held := 0 }) = (entryAt s i).map fun a => { a with held := 0 }

theorem UpToHeld.of_cache {s t : State} (h : t.cru.cache = s.cru.cache) : UpToHeld s t := fun i => by
  unfold entryAt; rw [h]

theorem UpToHeld.refl (s : State) : UpToHeld s s := .of_cache rfl

theorem UpToHeld.trans {s t u : State} (h : UpToHeld s t) (k : UpToHeld t u) : UpToHeld s u :=
  fun i => (k i).trans (h i)

theorem upToHeld_raiseHeld (card : Word) (quote : Nat) (s : State) : UpToHeld s (raiseHeld card quote s) := fun i => by
  unfold raiseHeld
  split
  · next j a hit =>
    rw [entryAt_setEntry]
    split
    · next e => rw [e, (entryAt_of_findEntry hit).1]; rfl
    · rfl
  · rfl

/-- Every way names the card it named, if any. -/
def SameCards (s t : State) : Prop := ∀ i, (entryAt t i).map Account.card = (entryAt s i).map Account.card

theorem UpToHeld.sameCards {s t : State} (h : UpToHeld s t) : SameCards s t := fun i => by
  have := congrArg (Option.map Account.card) (h i)
  simpa only [Option.map_map, Function.comp_def] using this

theorem sameCards_of_restamped {s t : State} (h : Restamped s t) : SameCards s t := fun i => by
  have := congrArg (Option.map Account.card) (h i)
  simpa only [unstamped, Option.map_map, Function.comp_def] using this

/-- A card's way is found by the cards of the ways alone (R47). -/
theorem findWay_eq (s : State) (card : Word) :
    findWay s card = (waysOf card).find? fun i => (entryAt s i).map Account.card == some card := by
  unfold findWay
  congr 1
  funext i
  cases entryAt s i <;> rfl

theorem SameCards.findWay {s t : State} (h : SameCards s t) (card : Word) :
    Machine.findWay t card = Machine.findWay s card := by
  rw [findWay_eq, findWay_eq]
  congr 1
  funext i
  rw [h i]

theorem isSome_findEntry (s : State) (card : Word) : (findEntry s card).isSome = (findWay s card).isSome := by
  unfold findEntry
  cases hw : findWay s card with
  | none => rfl
  | some i =>
    have test := List.find?_some (findWay_eq s card ▸ hw)
    cases he : entryAt s i with
    | none => rw [he] at test; cases test
    | some a => simp only [he, Option.map_some, Option.isSome_some]

theorem SameCards.hit {s t : State} (h : SameCards s t) {card : Word} (hit : (findEntry s card).isSome) :
    (findEntry t card).isSome := by
  rw [isSome_findEntry, h.findWay, ← isSome_findEntry]; exact hit

theorem hit_of_entryAt {s : State} {card : Word} {i : Fin 48} {a : Account} (way : i ∈ waysOf card)
    (entry : entryAt s i = some a) (named : a.card = card) : (findEntry s card).isSome := by
  rw [isSome_findEntry, findWay_eq, List.find?_isSome]
  exact ⟨i, way, by rw [entry, ← named]; exact beq_self_eq_true _⟩

/-- A new entry is found by its card (R47, R50). -/
theorem hit_createEntry {s : State} {card : Word} {i : Fin 48} (way : i ∈ waysOf card) (balance : Int)
    (status : AccountStatus) (origin : Origin) :
    (findEntry (createEntry i card balance status origin s) card).isSome := by
  rw [createEntry_eq]
  refine (sameCards_of_restamped (restamped_useEntry i _)).hit (hit_of_entryAt way (a :=
    { card, balance, held := 0, status, origin, stamp := 0 }) ?_ rfl)
  rw [entryAt_setEntry, if_pos rfl]

theorem cache_dropClaim (p : Pos) (reason : Reason) (s : State) :
    (dropClaim p reason s).cru.cache = s.cru.cache := by
  unfold dropClaim
  split
  · rfl
  · rw [answerTap_does]; rfl

/-! ### Requests ready for their answer -/

/-- A terminal's request, as the model names it: a start by its claim, the only one of the terminal, and a balance
enquiry by the terminal, which has no claim. -/
def Asks (card : Word) (l : Terminal) (s : State) : Asker → Prop
  | .start p => ∃ c, claimAt s p = some c ∧ c.card = card ∧ c.terminal = l
      ∧ ∀ q d, claimAt s q = some d → d.terminal = l → q = p
  | .balance m => m = l ∧ ∀ q d, claimAt s q = some d → d.terminal ≠ l

/-- A terminal's request waits for nothing but its answer. -/
structure Ready (card : Word) (l : Terminal) (s : State) (a : Asker) : Prop where
  room : (lineOf s l).out.length ≤ 7
  waits : waitsOf s.cru.wanted l = []
  asks : Asks card l s a

theorem LineKept.ready {card : Word} {l : Terminal} {s t : State} {a : Asker} (h : LineKept l s t)
    (k : Ready card l s a) : Ready card l t a := by
  refine ⟨by rw [h.out]; exact k.room, by rw [h.waits]; exact k.waits, ?_⟩
  cases a with
  | start p =>
    obtain ⟨c, hc, named, e, sole⟩ := k.asks
    exact ⟨c, (h.claims p c e).mpr hc, named, e, fun q d hd hl => sole q d ((h.claims q d hl).mp hd) hl⟩
  | balance m =>
    obtain ⟨e, free⟩ := k.asks
    exact ⟨e, fun q d hd hl => free q d ((h.claims q d hl).mp hd) hl⟩

/-- A ready start's claim is dropped. -/
theorem Ready.dropClaim {card : Word} {l : Terminal} {s : State} {p : Pos} (h : Ready card l s (.start p))
    (reason : Reason) : Answered l s (dropClaim p reason s) := by
  obtain ⟨c, hc, -, rfl, sole⟩ := h.asks
  exact answered_dropClaim reason hc h.room sole

/-- A live session stays live through an evaluation. -/
theorem live_of_budget {s t : State} (h : BudgetOnly s t) {p : Pos} {ses : Session} (live : sessionAt s p = some ses) :
    ∃ x, sessionAt t p = some x := by
  have granted := h.granted p
  rw [sessionAt_eq_some.mp live] at granted
  obtain ⟨x, hx, -⟩ := granted
  exact ⟨x, sessionAt_eq_some.mpr hx⟩

/-- The hold is placed, up to its answer. -/
def joinHold (p : Pos) (c : Claim) (quote nominal : Nat) (origin : Option Origin) (s : State) : State :=
  joinStartQueue p (putSession p (heldSession s c quote nominal origin)
    (if c.cls = .account then raiseHeld c.card quote s else s))

theorem placeHold_eq (p : Pos) (c : Claim) (quote nominal : Nat) (origin : Option Origin) (s : State) :
    placeHold p c quote nominal origin s = answerStart p c.terminal (joinHold p c quote nominal origin s) := rfl

theorem budgetOnly_joinHold (p : Pos) (c : Claim) (quote nominal : Nat) (origin : Option Origin) (s : State) :
    BudgetOnly (modLba (fun l => { l with startQueue := l.startQueue ++ [{ pos := p, bypass := 0 }] })
      (putSession p (heldSession s c quote nominal origin) (if c.cls = .account then raiseHeld c.card quote s else s)))
      (joinHold p c quote nominal origin s) := budgetOnly_evaluate _

theorem live_joinHold (p : Pos) (c : Claim) (quote nominal : Nat) (origin : Option Origin) (s : State) :
    ∃ x, sessionAt (joinHold p c quote nominal origin s) p = some x :=
  live_of_budget (budgetOnly_joinHold p c quote nominal origin s)
    ((sessionAt_modLba _ p _).trans (sessionAt_putSession_self p _ _))

/-- The accounts under a hold, whatever the class of its card. -/
theorem silent_heldBase (c : Claim) (quote : Nat) (s : State) :
    Silent s (if c.cls = .account then raiseHeld c.card quote s else s) :=
  silent_ite (fun _ => silent_raiseHeld _ _ s) fun _ => Silent.refl s

theorem claimAt_joinHold_ne {p q : Pos} (h : q ≠ p) (c : Claim) (quote nominal : Nat) (origin : Option Origin)
    (s : State) : claimAt (joinHold p c quote nominal origin s) q = claimAt s q := by
  have base : (if c.cls = .account then raiseHeld c.card quote s else s).positions = s.positions := by
    split
    · rw [raiseHeld_does]
    · rfl
  rw [claimAt_of_granted ((budgetOnly_joinHold p c quote nominal origin s).granted q)]
  refine (claimAt_setOccupancy_ne h _ _).trans (claimAt_of_positions base q)

/-- A line but the claim's own stands when its hold is placed. -/
theorem lineKept_joinHold {p : Pos} {c : Claim} {s : State} {m : Terminal} (h : claimAt s p = some c)
    (other : m ≠ c.terminal) (quote nominal : Nat) (origin : Option Origin) :
    LineKept m s (joinHold p c quote nominal origin s) := by
  have base := silent_heldBase c quote s
  have budget := silent_of_budget (budgetOnly_joinHold p c quote nominal origin s)
  refine ⟨(budget.line m).flight.trans (base.line m).flight, (budget.line m).out.trans (base.line m).out,
    (budget.line m).waits.trans (base.line m).waits, fun q d hd => ?_⟩
  by_cases e : q = p
  · obtain ⟨x, live⟩ := live_joinHold p c quote nominal origin s
    rw [e, claimAt_of_live live, h]
    exact ⟨nofun, fun same => by cases same; exact absurd hd.symm other⟩
  · rw [claimAt_joinHold_ne e]

theorem line_joinHold (p : Pos) (c : Claim) (quote nominal : Nat) (origin : Option Origin) (s : State) (l : Terminal) :
    lineOf (joinHold p c quote nominal origin s) l = lineOf s l := by
  refine lineOf_congr ?_ l
  rw [(budgetOnly_joinHold p c quote nominal origin s).frame]
  show (if c.cls = .account then raiseHeld c.card quote s else s).tli = s.tli
  split
  · rw [raiseHeld_does]
  · rfl

theorem wanted_joinHold (p : Pos) (c : Claim) (quote nominal : Nat) (origin : Option Origin) (s : State) :
    (joinHold p c quote nominal origin s).cru.wanted = s.cru.wanted := by
  rw [(budgetOnly_joinHold p c quote nominal origin s).frame]
  show (if c.cls = .account then raiseHeld c.card quote s else s).cru.wanted = s.cru.wanted
  split
  · exact wanted_raiseHeld _ _ s
  · rfl

/-- A ready start's hold is placed, and its request answered (R11, R75). -/
theorem Ready.placeHold {card : Word} {l : Terminal} {s : State} {p : Pos} {c : Claim} (h : Ready card l s (.start p))
    (claim : claimAt s p = some c) (quote nominal : Nat) (origin : Option Origin) :
    Answered l s (placeHold p c quote nominal origin s) := by
  obtain ⟨d, hd, -, rfl, sole⟩ := h.asks
  rw [claim] at hd
  cases hd
  obtain ⟨x, live⟩ := live_joinHold p c quote nominal origin s
  rw [placeHold_eq, answerStart, live]
  refine Answered.after (answered_answerTap _ ?_ ?_ fun q d hd e => ?_)
    (fun m ne => lineKept_joinHold claim ne quote nominal origin) (by rw [wanted_joinHold])
  · rw [line_joinHold]; exact h.room
  · rw [wanted_joinHold]; exact h.waits
  · have ne : q ≠ p := fun e => by rw [e, claimAt_of_live live] at hd; cases hd
    exact ne (sole q d (claimAt_joinHold_ne ne c quote nominal origin s ▸ hd) e)

theorem Ready.finishClaim {card : Word} {l : Terminal} {s : State} {p : Pos} {c : Claim}
    (h : Ready card l s (.start p)) (claim : claimAt s p = some c) (quote : Nat) (origin : Option Origin) :
    Answered l s (finishClaim p c quote origin s) := by
  unfold Machine.finishClaim
  extract_lets nominal
  split
  · exact h.dropClaim _
  · exact h.placeHold claim quote nominal origin

/-- A ready request whose card has its entry is served (R56 to R58). -/
theorem Ready.serve {card : Word} {l : Terminal} {s : State} {a : Asker} (h : Ready card l s a)
    (hit : (findEntry s card).isSome) : Answered l s (serveAsker card a s) := by
  obtain ⟨⟨i, entry⟩, found⟩ := Option.isSome_iff_exists.mp hit
  cases a with
  | start p =>
    obtain ⟨c, hc, rfl, -, -⟩ := h.asks
    simp only [serveAsker, hc, admitAccount, found]
    split_ifs
    · exact h.dropClaim _
    · exact h.dropClaim _
    · exact h.finishClaim hc _ _
  | balance m =>
    obtain ⟨rfl, free⟩ := h.asks
    simp only [serveAsker, answerBalance, found]
    split_ifs
    · exact answered_answerTap _ h.room h.waits free
    · exact answered_answerTap _ h.room h.waits free

/-- A ready request fails (R55, R73, R77). -/
theorem Ready.fail {card : Word} {l : Terminal} {s : State} {a : Asker} (h : Ready card l s a) (reason : Reason) :
    Answered l s (failAsker card reason a s) := by
  cases a with
  | start p => exact h.dropClaim reason
  | balance m =>
    obtain ⟨rfl, free⟩ := h.asks
    exact answered_answerTap _ h.room h.waits free

theorem cache_answerTap (l : Terminal) (f : Frame) (s : State) : (answerTap l f s).cru = s.cru := by
  rw [answerTap_does]

theorem cache_joinHold (p : Pos) (c : Claim) (quote nominal : Nat) (origin : Option Origin) (s : State) :
    (joinHold p c quote nominal origin s).cru.cache =
      (if c.cls = .account then raiseHeld c.card quote s else s).cru.cache := by
  rw [(budgetOnly_joinHold p c quote nominal origin s).frame]
  rfl

theorem upToHeld_placeHold (p : Pos) (c : Claim) (quote nominal : Nat) (origin : Option Origin) (s : State) :
    UpToHeld s (placeHold p c quote nominal origin s) := by
  have base : UpToHeld s (if c.cls = .account then raiseHeld c.card quote s else s) := by
    split
    · exact upToHeld_raiseHeld _ _ s
    · exact UpToHeld.refl s
  have joined := base.trans (.of_cache (cache_joinHold p c quote nominal origin s))
  rw [placeHold_eq, answerStart]
  split
  · exact joined.trans (.of_cache (by rw [cache_answerTap]))
  · exact joined

/-- A request that is served changes held amounts alone (R56). -/
theorem upToHeld_serveAsker (card : Word) (a : Asker) (s : State) : UpToHeld s (serveAsker card a s) := by
  have drop : ∀ p reason, UpToHeld s (dropClaim p reason s) := fun p reason => .of_cache (cache_dropClaim p reason s)
  have answer : ∀ l f, UpToHeld s (answerTap l f s) := fun l f => .of_cache (by rw [cache_answerTap])
  unfold serveAsker
  split
  · split
    · unfold admitAccount
      split
      · exact UpToHeld.refl s
      · dsimp only
        split_ifs
        · exact drop _ _
        · exact drop _ _
        · unfold finishClaim
          dsimp only
          split
          · exact drop _ _
          · exact upToHeld_placeHold _ _ _ _ _ s
    · exact UpToHeld.refl s
  · unfold answerBalance
    split
    · exact UpToHeld.refl s
    · split
      · exact answer _ _
      · exact answer _ _

/-! ### The waiters of a wanted card -/

theorem ready_of_kept {card : Word} {s t : State} {ls : List Terminal} {askers : List Asker}
    (ready : List.Forall₂ (fun l a => Ready card l s a) ls askers) (kept : ∀ l ∈ ls, LineKept l s t) :
    List.Forall₂ (fun l a => Ready card l t a) ls askers := by
  induction ready with
  | nil => exact .nil
  | cons first _ ih =>
    exact .cons ((kept _ List.mem_cons_self).ready first) (ih fun l hl => kept l (List.mem_cons_of_mem _ hl))

/-- Requests ready for their answers are answered one after another, while what the answers need stands (R57). -/
theorem agreed_answers {card : Word} {act : State → Asker → State} {Good : State → Prop}
    (answer : ∀ {l a s}, Good s → Ready card l s a → Answered l s (act s a))
    (good : ∀ a s, Good s → Good (act s a)) {ls : List Terminal} {askers : List Asker} {s : State}
    (ready : List.Forall₂ (fun l a => Ready card l s a) ls askers) (distinct : ls.Nodup)
    (once : (s.cru.wanted.map Wanted.card).Nodup) (others : ∀ m, m ∉ ls → LineAgrees s m) (start : Good s) :
    Agreed (askers.foldl act s) := by
  induction askers generalizing ls s with
  | nil =>
    cases ready
    exact ⟨once, fun m => others m List.not_mem_nil⟩
  | cons a askers ih =>
    cases ready with
    | @cons l _ ls _ first rest =>
      obtain ⟨fresh, distinct⟩ := List.nodup_cons.mp distinct
      have done := answer start first
      refine ih (ready_of_kept rest fun m hm => done.others m fun e => fresh (e ▸ hm)) distinct (done.cards ▸ once)
        (fun m hm => ?_) (good a s start)
      by_cases e : m = l
      · exact e ▸ done.agrees
      · exact (done.others m e).agrees (others m (by simp [e, hm]))

end Sys2Proof.Machine.Cards
end

section
/-!
The wanted list and the terminals' requests (R53 to R58, R69 to R79): how each keeps the lines in agreement.
-/
namespace Sys2Proof.Machine.Cards
open Settlement

/-! ### A wanted entry leaves -/

theorem waitsOf_removed (card : Word) (wanted : List Wanted) (l : Terminal) :
    waitsOf (wanted.filter fun w => w.card != card) l = (waitsOf wanted l).filter fun e => e.1 != card := by
  induction wanted with
  | nil => rfl
  | cons w ws ih =>
    have split : waitsOf (w :: ws) l =
        ((w.waiters.filter fun e => e.1 == l).map fun e => (w.card, e.2)) ++ waitsOf ws l := rfl
    rw [split, List.filter_append, List.filter_map, ← ih]
    by_cases h : w.card = card
    · simp [h, Function.comp_def]
    · simp [bne_iff_ne.mpr h, Function.comp_def, waitsOf]

/-- The line of a terminal that does not wait on the card stands as the card's entry leaves. -/
theorem lineKept_removeWanted {s : State} {card : Word} {l : Terminal}
    (h : ∀ w ∈ s.cru.wanted, w.card = card → ∀ e ∈ w.waiters, e.1 ≠ l) : LineKept l s (removeWanted card s) := by
  refine ⟨rfl, rfl, ?_, fun _ _ _ => Iff.rfl⟩
  rw [removeWanted, setWanted_cru, waitsOf_removed, List.filter_eq_self]
  rintro ⟨named, k⟩ he
  obtain ⟨w, hw, rfl, hk⟩ := mem_waitsOf.mp he
  simp only [bne_iff_ne, ne_eq]
  exact fun e => h w hw e _ hk rfl

theorem once_removeWanted {s : State} (card : Word) (h : (s.cru.wanted.map Wanted.card).Nodup) :
    ((removeWanted card s).cru.wanted.map Wanted.card).Nodup := h.sublist (List.filter_sublist.map _)

theorem wantedFor_eq_some {s : State} {card : Word} {w : Wanted} (h : wantedFor s card = some w) :
    w ∈ s.cru.wanted ∧ w.card = card :=
  ⟨List.mem_of_find?_eq_some h, by simpa using List.find?_some h⟩

/-- What a waiter asks, by its terminal's request in flight (R53). -/
def askerOf (s : State) (w : Terminal × WaitKind) : Option Asker :=
  match (lineOf s w.1).flight, w.2 with
  | some (.start _ p), .start => some (.start p)
  | some (.balance _), .balance => some (.balance w.1)
  | _, _ => none

theorem askersOf_eq (s : State) (waiters : List (Terminal × WaitKind)) :
    askersOf s waiters = waiters.filterMap (askerOf s) := rfl

/-- A waiter of a card's entry is ready for its answer once the entry has left. -/
theorem ready_of_waiter {s : State} (agreed : Agreed s) {w : Wanted} (hw : w ∈ s.cru.wanted)
    {e : Terminal × WaitKind} (he : e ∈ w.waiters) :
    ∃ a, askerOf s e = some a ∧ Ready w.card e.1 (removeWanted w.card s) a := by
  obtain ⟨l, k⟩ := e
  obtain ⟨room, waits, named, claim⟩ := agreed.line l
  have waited : (w.card, k) ∈ waitOf (lineOf s l).flight := waits ▸ mem_waitsOf.mpr ⟨w, hw, rfl, he⟩
  have gone : waitsOf (removeWanted w.card s).cru.wanted l = [] := by
    rw [removeWanted, setWanted_cru, waitsOf_removed, waits, List.filter_eq_nil_iff]
    intro x hx
    rw [eq_singleton_of_mem waited (length_waitOf_le _)] at hx
    simp [List.mem_singleton.mp hx]
  have seven : (lineOf s l).out.length ≤ 7 := by
    have := List.length_pos_of_mem waited
    omega
  cases hf : (lineOf s l).flight with
  | none => rw [hf] at waited; cases waited
  | some flight =>
    rw [hf] at waited
    cases flight with
    | start card p =>
      cases List.mem_singleton.mp waited
      obtain ⟨c, hc, same, rfl⟩ := claim _ p hf
      refine ⟨.start p, by simp only [askerOf, hf], seven, gone, c, hc, same, rfl, fun q d hd e => ?_⟩
      have both := hf.symm.trans (named q d hd e)
      injection both with both
      injection both with _ both
      exact both.symm
    | balance card =>
      cases List.mem_singleton.mp waited
      refine ⟨.balance l, by simp only [askerOf, hf], seven, gone, rfl, fun q d hd e => ?_⟩
      have both := hf.symm.trans (named q d hd e)
      cases both

/-- The requests that wait on a card, ready as its entry leaves. -/
theorem ready_askers {s : State} (agreed : Agreed s) {w : Wanted} (hw : w ∈ s.cru.wanted) :
    List.Forall₂ (fun l a => Ready w.card l (removeWanted w.card s) a) (w.waiters.map Prod.fst)
      (askersOf s w.waiters) := by
  rw [askersOf_eq]
  have each := fun e (he : e ∈ w.waiters) => ready_of_waiter agreed hw he
  generalize w.waiters = waiters at each
  induction waiters with
  | nil => exact .nil
  | cons e es ih =>
    obtain ⟨a, ha, ready⟩ := each e List.mem_cons_self
    rw [List.map_cons, List.filterMap_cons_some ha]
    exact .cons ready (ih fun x hx => each x (List.mem_cons_of_mem _ hx))

theorem distinct_waiters {s : State} (agreed : Agreed s) {w : Wanted} (hw : w ∈ s.cru.wanted) :
    (w.waiters.map Prod.fst).Nodup := by
  have all := (nodup_waiters_iff s.cru.wanted).mpr fun l => by
    rw [(agreed.line l).waits]; exact length_waitOf_le _
  rw [List.map_flatMap] at all
  exact (List.nodup_flatMap.mp all).1 w hw

/-- A card is wanted once: what waits on it waits on its entry. -/
theorem eq_of_wanted {s : State} (once : (s.cru.wanted.map Wanted.card).Nodup) {v w : Wanted}
    (hv : v ∈ s.cru.wanted) (hw : w ∈ s.cru.wanted) (h : v.card = w.card) : v = w :=
  List.inj_on_of_nodup_map once hv hw h

/-- The line of a terminal that is no waiter of the card stands as the card's entry leaves. -/
theorem agrees_of_other {s : State} (agreed : Agreed s) {w : Wanted} (hw : w ∈ s.cru.wanted) {m : Terminal}
    (hm : m ∉ w.waiters.map Prod.fst) : LineAgrees (removeWanted w.card s) m := by
  refine LineKept.agrees (lineKept_removeWanted fun v hv same e he hl => hm ?_) (agreed.line m)
  rw [eq_of_wanted agreed.once hv hw same] at he
  exact List.mem_map.mpr ⟨e, he, hl⟩

/-- The requests that waited on a card are answered after its entry has left (R55, R57, R61). -/
theorem agreed_of_removed {s t : State} (agreed : Agreed s) {w : Wanted} (hw : w ∈ s.cru.wanted)
    (quiet : Silent (removeWanted w.card s) t) {act : State → Asker → State} {Good : State → Prop}
    (answer : ∀ {l a s}, Good s → Ready w.card l s a → Answered l s (act s a))
    (good : ∀ a s, Good s → Good (act s a)) (start : Good t) :
    Agreed ((askersOf s w.waiters).foldl act t) :=
  agreed_answers answer good (ready_of_kept (ready_askers agreed hw) fun l _ => quiet.line l)
    (distinct_waiters agreed hw) (quiet.cards ▸ once_removeWanted _ agreed.once)
    (fun _ hm => (quiet.line _).agrees (agrees_of_other agreed hw hm)) start

theorem hit_serveAsker {card : Word} (a : Asker) (s : State) (h : (findEntry s card).isSome) :
    (findEntry (serveAsker card a s) card).isSome := (upToHeld_serveAsker card a s).sameCards.hit h

/-! ### Requests resume or fail (R55, R61) -/

theorem keeps_expireWanted (card : Word) (s : State) : Keeps s (expireWanted card s) := fun agreed => by
  unfold expireWanted
  cases hw : wantedFor s card with
  | none => exact agreed
  | some w =>
    obtain ⟨mem, rfl⟩ := wantedFor_eq_some hw
    have fails : ∀ reason, Agreed ((askersOf s w.waiters).foldl (fun s a => failAsker w.card reason a s)
        (removeWanted w.card s)) := fun reason =>
      agreed_of_removed (Good := fun _ => True) agreed mem (Silent.refl _) (fun _ h => h.fail reason)
        (fun _ _ _ => trivial) trivial
    dsimp only
    split
    · next none =>
      have := fails .accountUnavailable
      rwa [List.isEmpty_iff.mp none] at this
    · unfold offlineDecision
      split
      · exact fails _
      · split
        · next i way =>
          exact agreed_of_removed agreed mem (silent_createEntry i _ _ _ _ _) (fun hit h => h.serve hit)
            (hit_serveAsker (card := w.card)) (hit_createEntry (allocate_free way).1 _ _ _)
        · exact fails _

/-- A wanted card that has its entry now leaves the list, and its requests resume (R61). -/
theorem keeps_matchWanted {card : Word} {s : State} (hit : (findEntry s card).isSome) :
    Keeps s (matchWanted card s) := fun agreed => by
  unfold matchWanted
  cases hw : wantedFor s card with
  | none => exact agreed
  | some w =>
    obtain ⟨mem, rfl⟩ := wantedFor_eq_some hw
    exact agreed_of_removed agreed mem (Silent.refl _) (fun hit h => h.serve hit) (hit_serveAsker (card := w.card)) hit

/-! ### A request is taken (R52, R53, R73) -/

/-- A terminal asks, with nothing in flight and room for its answer. -/
structure Asking (card : Word) (l : Terminal) (s : State) (a : Asker) : Prop where
  once : (s.cru.wanted.map Wanted.card).Nodup
  others : ∀ m, m ≠ l → LineAgrees s m
  flight : (lineOf s l).flight = none
  out : (lineOf s l).out.length < 6
  waits : waitsOf s.cru.wanted l = []
  asks : Asks card l s a

theorem Asking.ready {card : Word} {l : Terminal} {s : State} {a : Asker} (h : Asking card l s a) :
    Ready card l s a := ⟨by have := h.out; omega, h.waits, h.asks⟩

theorem Asking.agreed {card : Word} {l : Terminal} {s t : State} {a : Asker} (h : Asking card l s a)
    (k : Answered l s t) : Agreed t := k.agreed h.once h.others

theorem Asking.silent {card : Word} {l : Terminal} {s t : State} {a : Asker} (h : Asking card l s a)
    (k : Silent s t) : Asking card l t a :=
  ⟨k.cards ▸ h.once, fun m e => (k.line m).agrees (h.others m e), (k.line l).flight.trans h.flight,
    by rw [(k.line l).out]; exact h.out, (k.line l).waits.trans h.waits, ((k.line l).ready h.ready).asks⟩

/-- The request is in flight, and its terminal waits for the card (R70, R73). -/
theorem Asking.begin {card : Word} {l : Terminal} {s : State} {a : Asker} (h : Asking card l s a)
    {wanted : List Wanted} (once : (wanted.map Wanted.card).Nodup)
    (here : waitsOf wanted l = [(card, (askerFlight card a).2)])
    (others : ∀ m, m ≠ l → waitsOf wanted m = waitsOf s.cru.wanted m) {t : State}
    (quiet : Silent (setWanted wanted s) t) : Agreed (beginFlight l (askerFlight card a).1 t) := by
  have frame : ∃ x, beginFlight l (askerFlight card a).1 t = { t with tli := x } := by
    refine ⟨(beginFlight l (askerFlight card a).1 t).tli, ?_⟩
    unfold beginFlight pushRecord
    rw [modLine_does, modLine_does l _ t]
  have line : ∃ f, lineOf (beginFlight l (askerFlight card a).1 t) l =
      { lineOf t l with flight := some (askerFlight card a).1, out := (lineOf t l).out ++ [f] } := by
    unfold beginFlight pushRecord
    rw [lineOf_modLine_self, lineOf_modLine_self]
    exact ⟨_, rfl⟩
  obtain ⟨f, line⟩ := line
  have other := fun m e => lineOf_beginFlight_ne (l := l) (m := m) e (askerFlight card a).1 t
  generalize beginFlight l (askerFlight card a).1 t = u at *
  obtain ⟨x, rfl⟩ := frame
  have claims : ∀ p c, c.terminal = l → (claimAt t p = some c ↔ claimAt s p = some c) := (quiet.line l).claims
  have short : (lineOf t l).out.length < 6 := (quiet.line l).out ▸ h.out
  refine ⟨quiet.cards ▸ once, fun m => ?_⟩
  by_cases e : m = l
  · subst e
    refine ⟨?_, ?_, fun p c hc hl => ?_, fun named p hf => ?_⟩
    · have := length_waitOf_le (some (askerFlight card a).1)
      rw [line]
      simp only [List.length_append, List.length_singleton]
      omega
    · rw [line, (quiet.line m).waits, setWanted_cru, here]
      cases a <;> rfl
    · rw [line]
      have hc := (claims p c hl).mp hc
      have asks := h.asks
      cases a with
      | start q =>
        obtain ⟨d, hd, rfl, -, sole⟩ := asks
        cases sole p c hc hl
        rw [hc] at hd
        cases hd
        rfl
      | balance k => exact absurd hl (asks.2 p c hc)
    · rw [line] at hf
      have asks := h.asks
      cases a with
      | start q =>
        obtain ⟨d, hd, rfl, hl, -⟩ := asks
        cases hf
        exact ⟨d, (claims _ d hl).mpr hd, rfl, hl⟩
      | balance k => cases hf
  · have kept : LineKept m s t :=
      LineKept.trans (t := setWanted wanted s) ⟨rfl, rfl, others m e, fun _ _ _ => Iff.rfl⟩ (quiet.line m)
    refine LineKept.agrees ⟨by rw [other m e, kept.flight], by rw [other m e, kept.out], kept.waits, kept.claims⟩
      (h.others m e)

/-- The terminal joins the waiters of a card's entry. -/
def joinedBy (card : Word) (e : Terminal × WaitKind) (w : Wanted) : Wanted :=
  if w.card = card then { w with waiters := w.waiters ++ [e] } else w

theorem card_joinedBy (card : Word) (e : Terminal × WaitKind) (w : Wanted) : (joinedBy card e w).card = w.card := by
  unfold joinedBy; split <;> rfl

theorem cards_joinedBy (card : Word) (e : Terminal × WaitKind) (wanted : List Wanted) :
    (wanted.map (joinedBy card e)).map Wanted.card = wanted.map Wanted.card := by
  rw [List.map_map]
  exact List.map_congr_left fun w _ => card_joinedBy card e w

theorem waitsOf_joinedBy_ne {l m : Terminal} (h : m ≠ l) (card : Word) (k : WaitKind) (wanted : List Wanted) :
    waitsOf (wanted.map (joinedBy card (l, k))) m = waitsOf wanted m := by
  unfold waitsOf
  rw [List.flatMap_map]
  refine congrArg (List.flatMap · wanted) (funext fun w => ?_)
  unfold joinedBy
  split
  · simp [Ne.symm h]
  · rfl

theorem length_waitsOf_joinedBy (l : Terminal) (card : Word) (k : WaitKind) (wanted : List Wanted) :
    (waitsOf (wanted.map (joinedBy card (l, k))) l).length =
      (waitsOf wanted l).length + (wanted.map Wanted.card).count card := by
  induction wanted with
  | nil => rfl
  | cons w ws ih =>
    simp only [waitsOf, List.map_cons, List.flatMap_cons, List.length_append, List.length_map, List.count_cons]
      at ih ⊢
    rw [ih]
    unfold joinedBy
    split
    · next e => simp [e]; omega
    · next e => simp [e]; omega

/-- A miss (R52, R53): refused, set to wait, or decided offline. -/
theorem agreed_resolveMiss {card : Word} {l : Terminal} {s : State} {a : Asker} (h : Asking card l s a) :
    Agreed (resolveMiss l card a s) := by
  unfold resolveMiss
  have flight : askerFlight card a = ((askerFlight card a).1, (askerFlight card a).2) := rfl
  rw [flight]
  dsimp only
  split_ifs with pinned wanted room
  · exact h.agreed (h.ready.fail _)
  · obtain ⟨w, hw⟩ := Option.isSome_iff_exists.mp wanted
    obtain ⟨mem, rfl⟩ := wantedFor_eq_some hw
    refine h.begin (wanted := s.cru.wanted.map (joinedBy w.card (l, (askerFlight w.card a).2))) ?_ ?_ (fun m e =>
      waitsOf_joinedBy_ne e _ _ _) (Silent.refl _)
    · rw [cards_joinedBy]; exact h.once
    · refine eq_singleton_of_mem (mem_waitsOf.mpr ⟨_, List.mem_map_of_mem mem, card_joinedBy _ _ w, ?_⟩) ?_
      · simp [joinedBy]
      · rw [length_waitsOf_joinedBy, h.waits]
        simpa using List.nodup_iff_count_le_one.mp h.once w.card
  · have new : wantedFor s card = none := by simpa using wanted
    have apart : card ∉ s.cru.wanted.map Wanted.card := by
      intro mem
      obtain ⟨w, hw, e⟩ := List.mem_map.mp mem
      exact List.find?_eq_none.mp new w hw (by simp [e])
    have added : ∀ m, waitsOf (s.cru.wanted ++ [{ card, age := 0, waiters := [(l, (askerFlight card a).2)] }]) m =
        waitsOf s.cru.wanted m ++ if m = l then [(card, (askerFlight card a).2)] else [] := fun m => by
      by_cases e : m = l
      · simp [waitsOf, e]
      · simp [waitsOf, e, Ne.symm e]
    refine h.begin (wanted := s.cru.wanted ++ [{ card, age := 0, waiters := [(l, (askerFlight card a).2)] }]) ?_ ?_
      (fun m e => ?_) (silent_setFlag _ _)
    · rw [List.map_append, List.nodup_append_comm]
      exact List.nodup_cons.mpr ⟨apart, h.once⟩
    · rw [added, h.waits, if_pos rfl, List.nil_append]
    · rw [added, if_neg e, List.append_nil]
  · unfold offlineDecision
    split
    · exact h.agreed (h.ready.fail _)
    · split
      · next i way =>
        have made := silent_createEntry i card 0 .good .provisional s
        exact (h.silent made).agreed ((h.silent made).ready.serve (hit_createEntry (allocate_free way).1 _ _ _))
      · exact h.agreed (h.ready.fail _)

theorem agreed_resolveAccount {card : Word} {l : Terminal} {s : State} {a : Asker} (h : Asking card l s a) :
    Agreed (resolveAccount l card a s) := by
  unfold resolveAccount
  split
  · next i way =>
    have used := h.silent (silent_useEntry i s)
    have hit : (findEntry s card).isSome := by rw [isSome_findEntry, way]; rfl
    exact used.agreed (used.ready.serve ((sameCards_of_restamped (restamped_useEntry i s)).hit hit))
  · exact agreed_resolveMiss h

/-! ### Terminal requests (R69 to R79) -/

theorem keeps_takeTapBalance (l : Terminal) (card : Word) (s : State) : Keeps s (takeTapBalance l card s) := by
  unfold takeTapBalance
  extract_lets refuse
  refine keeps_ite (fun _ => Keeps.refl s) fun full => keeps_ite (fun _ => keeps_pushAnswer l _ s) fun idle => ?_
  split
  · exact keeps_pushAnswer l _ s
  · intro agreed
    have idle : (lineOf s l).flight = none := by simpa [isWaiting] using idle
    have out : (lineOf s l).out.length < 6 := by simpa [lineFull] using full
    obtain ⟨-, waits, named, -⟩ := agreed.line l
    rw [idle] at waits
    refine agreed_resolveAccount ⟨agreed.once, fun m _ => agreed.line m, idle, out, waits, rfl, fun q d hd e => ?_⟩
    have both := idle.symm.trans (named q d hd e)
    cases both
  · exact keeps_pushAnswer l _ s

/-- The claim of a VACANT position, at an idle terminal (R9). -/
theorem asking_claimPosition {s : State} (agreed : Agreed s) {l : Terminal} {card : Word} {a : Admitted}
    (vacant : (posAt s a.pos).occupancy = .vacant) (idle : (lineOf s l).flight = none)
    (out : (lineOf s l).out.length < 6) :
    Asking card l (claimPosition l card a s).1 (.start a.pos)
      ∧ (claimPosition l card a s).2.card = card
      ∧ claimAt (claimPosition l card a s).1 a.pos = some (claimPosition l card a s).2 := by
  have here : claimAt (claimPosition l card a s).1 a.pos = some (claimPosition l card a s).2 :=
    claimAt_setOccupancy _ _ _
  have other : ∀ q, q ≠ a.pos → claimAt (claimPosition l card a s).1 q = claimAt s q := fun q e =>
    claimAt_setOccupancy_ne e _ (writeNv _ s)
  have free : claimAt s a.pos = none := claimAt_of_unclaimed fun c e => by rw [vacant] at e; cases e
  obtain ⟨-, waits, named, -⟩ := agreed.line l
  rw [idle] at waits
  refine ⟨⟨agreed.once, fun m e => LineKept.agrees (s := s) ⟨rfl, rfl, rfl, fun q d hd => ?_⟩ (agreed.line m),
    idle, out, waits,
    _, here, rfl, rfl, fun q d hd e => ?_⟩, rfl, here⟩
  · by_cases hq : q = a.pos
    · rw [hq, here, free]
      exact ⟨fun same => by cases same; exact absurd hd.symm e, nofun⟩
    · rw [other q hq]
  · by_contra hq
    have both := idle.symm.trans (named q d (other q hq ▸ hd) e)
    cases both

theorem keeps_takeTapStart (l : Terminal) (card : Word) (position program extension : Byte) (s : State) :
    Keeps s (takeTapStart l card position program extension s) := by
  unfold takeTapStart
  extract_lets refuse
  refine keeps_ite (fun _ => Keeps.refl s) fun full => keeps_ite (fun _ => keeps_pushAnswer l _ s) fun idle => ?_
  split
  · exact keeps_pushAnswer l _ s
  · next a passed =>
    intro agreed
    have idle : (lineOf s l).flight = none := by simpa [isWaiting] using idle
    have out : (lineOf s l).out.length < 6 := by simpa [lineFull] using full
    obtain ⟨asking, named, claim⟩ := asking_claimPosition (card := card) agreed (vacant_of_firstPass passed) idle out
    generalize claimPosition l card a s = made at *
    obtain ⟨t, c⟩ := made
    dsimp only at *
    subst named
    unfold resolveClaim
    split_ifs
    · exact asking.agreed (asking.ready.dropClaim _)
    · exact agreed_resolveAccount asking
    · exact asking.agreed (asking.ready.finishClaim claim _ _)

theorem keeps_takeTapAbort (l : Terminal) (card : Word) (position : Byte) (s : State) :
    Keeps s (takeTapAbort l card position s) := by
  unfold takeTapAbort
  extract_lets refuse
  split
  · exact keeps_pushAnswer l _ s
  · refine keeps_ite (fun _ => ?_) fun _ => keeps_pushAnswer l _ s
    unfold abortAt
    split
    · exact (keeps_dropClaim _ _ s).trans (keeps_pushAnswer l _ _)
    · exact (silent_endSession _ _ _ s).keeps.trans (keeps_pushAnswer l _ _)
    · exact Keeps.refl s

theorem keeps_terminalBytes (l : Terminal) (bytes : List Byte) (s : State) : Keeps s (terminalBytes l bytes s) := by
  have taken : ∀ u f, Keeps u (takeTap l f u) := fun u f => by
    unfold takeTap
    split
    · exact keeps_takeTapStart l _ _ _ _ u
    · exact keeps_takeTapBalance l _ u
    · exact keeps_takeTapAbort l _ _ u
    · exact keeps_pushAnswer l _ u
  unfold terminalBytes
  exact Keeps.trans (Silent.keeps (silent_modLine rfl rfl)) (keeps_foldl _ _ taken _)

/-- A record has left the line (R68). -/
theorem keeps_recordSent (l : Terminal) (s : State) : Keeps s (modLine l (fun x => { x with out := x.out.drop 1 }) s) :=
  fun agreed => by
    have frame := modLine_does l (fun x => { x with out := x.out.drop 1 }) s
    have line : ∀ m, (lineOf (modLine l (fun x => { x with out := x.out.drop 1 }) s) m).flight = (lineOf s m).flight
        ∧ (lineOf (modLine l (fun x => { x with out := x.out.drop 1 }) s) m).out.length ≤ (lineOf s m).out.length :=
      fun m => by
        by_cases e : m = l
        · subst e
          rw [lineOf_modLine_self]
          exact ⟨rfl, by rw [List.length_drop]; omega⟩
        · rw [lineOf_modLine_ne e]; exact ⟨rfl, Nat.le_refl _⟩
    generalize modLine l (fun x => { x with out := x.out.drop 1 }) s = t at *
    have claims : ∀ p, claimAt t p = claimAt s p := claimAt_of_positions (by rw [frame])
    have wanted : t.cru.wanted = s.cru.wanted := by rw [frame]
    refine ⟨wanted ▸ agreed.once, fun m => ?_⟩
    obtain ⟨room, waits, named, claim⟩ := agreed.line m
    obtain ⟨flight, out⟩ := line m
    exact ⟨by rw [flight]; omega, by rw [wanted, flight]; exact waits,
      fun p c hc => flight ▸ named p c (claims p ▸ hc),
        fun card p hf => by rw [claims p]; exact claim card p (flight ▸ hf)⟩

end Sys2Proof.Machine.Cards
end

section
/-!
Every step keeps the terminals in agreement (R53, R68, R70): O58.
-/
namespace Sys2Proof.Machine.Cards
open Settlement

/-! ### The host's requests (Table 11-3) -/

theorem keeps_withPosition (position : Byte) (s : State) (act : Pos → State × Reply) (h : ∀ p, Keeps s (act p).1) :
    Keeps s (withPosition position s act).1 := by
  unfold withPosition
  split
  · exact h _
  · exact Keeps.refl s

theorem keeps_silenceTakesEffect (old : Settings) (s : State) : Keeps s (silenceTakesEffect old s) :=
  keeps_ite (fun _ => keeps_silencesReached s) fun _ => Keeps.refl s

theorem keeps_reqSettingsWrite (settings : List (Byte × Half)) (s : State) :
    Keeps s (reqSettingsWrite settings s).1 := by
  unfold reqSettingsWrite
  split
  · exact Keeps.refl s
  · split
    · exact Keeps.refl s
    · split
      · exact Keeps.refl s
      · exact (((silent_writeNv _ s).keeps.trans (keeps_silenceTakesEffect _ _)).trans
          (keeps_ite (fun _ => Keeps.refl _) fun _ => keeps_judgeFlood _)).trans
            (keeps_ite (fun _ => Keeps.refl _) fun _ => keeps_judgeStop _)

theorem hit_loadExisting {s : State} {card : Word} {i : Fin 48} {a : Account} (hit : findEntry s card = some (i, a))
    (balance : Int) (status : AccountStatus) : (findEntry (loadExisting i a balance status s) card).isSome := by
  have same : SameCards s (setEntry i (some { a with balance, status, origin := .host }) s) := fun j => by
    rw [entryAt_setEntry]
    split
    · next e => rw [e, (entryAt_of_findEntry hit).1]; rfl
    · rfl
  exact (sameCards_of_restamped (restamped_useEntry i _)).hit (same.hit (by rw [hit]; rfl))

theorem silent_loadExisting (i : Fin 48) (a : Account) (balance : Int) (status : AccountStatus) (s : State) :
    Silent s (loadExisting i a balance status s) := (silent_setEntry i _ s).trans (silent_useEntry i _)

theorem keeps_finishLoad {card : Word} {s after : State} (loaded : Silent s after)
    (hit : (findEntry after card).isSome) (horizon : Word) (balance : Int) (existed : Bool) :
    Keeps s (finishLoad card horizon balance existed s after).1 :=
  (loaded.keeps.trans (keeps_matchWanted hit)).trans (keeps_closeTaking _)

theorem keeps_reqAccountLoad (card balance : Word) (status : Byte) (horizon : Word) (s : State) :
    Keeps s (reqAccountLoad card balance status horizon s).1 := by
  unfold reqAccountLoad
  split
  · exact Keeps.refl s
  · split
    · exact Keeps.refl s
    · extract_lets effective
      split
      · next hit =>
        exact keeps_finishLoad (silent_loadExisting _ _ _ _ s) (hit_loadExisting hit _ _) _ _ _
      · split
        · exact Keeps.refl s
        · next way =>
          exact keeps_finishLoad (silent_createEntry _ _ _ _ _ s)
            (hit_createEntry (allocate_free way).1 _ _ _) _ _ _

theorem silent_reqAccountCredit (card amount : Word) (s : State) : Silent s (reqAccountCredit card amount s).1 := by
  unfold reqAccountCredit
  split
  · exact Silent.refl s
  · split
    · exact Silent.refl s
    · exact silent_setEntry _ _ s

theorem silent_reqAccountEvict (card : Word) (s : State) : Silent s (reqAccountEvict card s).1 := by
  unfold reqAccountEvict
  split
  · exact Silent.refl s
  · split
    · exact Silent.refl s
    · exact silent_setEntry _ _ s

theorem silent_reqAccountStatus (card : Word) (status : Byte) (s : State) :
    Silent s (reqAccountStatus card status s).1 := by
  unfold reqAccountStatus
  split
  · exact Silent.refl s
  · split
    · exact Silent.refl s
    · exact silent_setEntry _ _ s

theorem silent_reqClockSet (epoch : Word) (minute : Half) (s : State) : Silent s (reqClockSet epoch minute s).1 := by
  unfold reqClockSet
  split
  · exact Silent.refl s
  · exact .of_positions rfl rfl rfl

theorem silent_reqRoomModeSet (mode : Byte) (s : State) : Silent s (reqRoomModeSet mode s).1 := by
  unfold reqRoomModeSet
  split
  · exact Silent.refl s
  · split_ifs
    · exact Silent.refl s
    · exact Silent.refl s
    · exact ((silent_of_queueOnly (queueOnly_discardHeld .fm _ s)).trans
        (silent_of_queueOnly (queueOnly_withdrawQueued _ _))).trans (silent_setMode _ _)
    · exact silent_setMode _ s

theorem silent_storeProgram (id : ProgramId) (prog : Option Program) (s : State) :
    Silent s (storeProgram id prog s) := silent_writeNv _ s

theorem silent_storeBand (i : Fin 8) (entry : Option Band) (clamped : Bool) (s : State) :
    Silent s (storeBand i entry clamped s).1 :=
  silent_writeNv (fun nv => { nv with bands := nv.bands.set i entry }) s

theorem silent_storeRange (i : Fin 8) (entry : Option RangeEntry) (s : State) : Silent s (storeRange i entry s).1 :=
  silent_writeNv (fun nv => { nv with ranges := nv.ranges.set i entry }) s

theorem silent_reqProgramWrite (id : Byte) (record : Option ProgramFields) (s : State) :
    Silent s (reqProgramWrite id record s).1 := by
  unfold reqProgramWrite
  split
  · exact Silent.refl s
  · split
    · split
      · exact Silent.refl s
      · rcases Config.absentFigures id with ⟨nominal, lu, wu⟩
        exact silent_storeProgram _ _ s
    · split
      · exact Silent.refl s
      · split_ifs
        · exact Silent.refl s
        · exact Silent.refl s
        · exact silent_storeProgram _ _ s

theorem silent_reqProgramRead (id : Byte) (s : State) : Silent s (reqProgramRead id s).1 := by
  unfold reqProgramRead
  split
  · exact Silent.refl s
  · split <;> exact Silent.refl s

theorem silent_reqBandWrite (index : Byte) (entry : Option BandFields) (s : State) :
    Silent s (reqBandWrite index entry s).1 := by
  unfold reqBandWrite
  split
  · exact Silent.refl s
  · split
    · split
      · exact Silent.refl s
      · exact silent_storeBand _ _ _ s
    · split
      · exact Silent.refl s
      · exact silent_storeBand _ _ _ s

theorem silent_reqRangeWrite (index : Byte) (entry : Option RangeFields) (s : State) :
    Silent s (reqRangeWrite index entry s).1 := by
  unfold reqRangeWrite
  split
  · exact Silent.refl s
  · split
    · exact silent_storeRange _ _ s
    · split
      · exact Silent.refl s
      · split
        · exact Silent.refl s
        · exact silent_storeRange _ _ s

theorem keeps_reqTrimSet (position trim : Byte) (s : State) : Keeps s (reqTrimSet position trim s).1 :=
  keeps_withPosition position s _ fun _ => by
    dsimp only [accept]
    refine Silent.keeps ((silent_writeNv _ s).trans (silent_modPos ?_))
    split <;> rfl

theorem keeps_reqFeedSet (feedCap waterCap : Half) (s : State) : Keeps s (reqFeedSet feedCap waterCap s).1 := by
  unfold reqFeedSet
  exact ((silent_writeNv _ s).trans (silent_capChanged _ _ _)).keeps.trans (keeps_closeTaking _)

theorem keeps_reqDemandLimit (cap : Half) (minutes : Byte) (s : State) : Keeps s (reqDemandLimit cap minutes s).1 := by
  unfold reqDemandLimit
  exact ((silent_modLba _ s).trans (silent_capChanged _ _ _)).keeps.trans (keeps_closeTaking _)

theorem keeps_reqPositionService (position marking : Byte) (s : State) :
    Keeps s (reqPositionService position marking s).1 := by
  refine keeps_withPosition position s _ fun p => ?_
  split
  · exact Keeps.refl s
  · split
    · exact Keeps.refl s
    · exact keeps_ite (fun _ => Keeps.refl s) fun _ => (silent_writeNv _ s).keeps

theorem keeps_cancelAt (position : Byte) (number : Half) (p : Pos) (s : State) :
    Keeps s (cancelAt position number p s).1 := by
  unfold cancelAt
  split
  · split
    · exact keeps_dropClaim p _ s
    · exact Keeps.refl s
  · split
    · exact (silent_endSession p _ _ s).keeps
    · exact Keeps.refl s
  · exact Keeps.refl s

theorem silent_reqJournalRead (start : Word) (count : Byte) (s : State) :
    Silent s (reqJournalRead start count s).1 := by
  unfold reqJournalRead
  split <;> exact Silent.refl s

theorem silent_reqJournalRelease (number : Word) (s : State) : Silent s (reqJournalRelease number s).1 := by
  unfold reqJournalRelease
  split
  · exact Silent.refl s
  · exact silent_ite (fun _ => Silent.refl s) fun _ => silent_writeNv _ s

theorem silent_reqFaultRead (count : Byte) (s : State) : Silent s (reqFaultRead count s).1 := by
  unfold reqFaultRead
  split
  · exact Silent.refl s
  · exact silent_modFm (fun f => { f with ring := f.ring.drop count.toNat }) s

theorem keeps_reqPositionClearLockout (position : Byte) (s : State) :
    Keeps s (reqPositionClearLockout position s).1 := by
  refine keeps_withPosition position s _ fun p => ?_
  split
  · exact Keeps.refl s
  · exact keeps_ite (fun _ => (silent_writeNv _ s).keeps) fun _ => Keeps.refl s

theorem keeps_takeRequest (r : Request) (s : State) : Keeps s (takeRequest r s).1 := by
  cases r with
  | identify => exact Keeps.refl s
  | status => exact Keeps.refl s
  | attentionRead => exact Keeps.refl s
  | attentionClear mask => exact Silent.keeps (Silent.of_positions rfl rfl rfl)
  | attentionEnable mask => exact Silent.keeps (Silent.of_positions rfl rfl rfl)
  | clockSet epoch minute => exact (silent_reqClockSet epoch minute s).keeps
  | roomModeSet mode => exact (silent_reqRoomModeSet mode s).keeps
  | programWrite id record => exact (silent_reqProgramWrite id record s).keeps
  | programRead id => exact (silent_reqProgramRead id s).keeps
  | bandWrite index entry => exact (silent_reqBandWrite index entry s).keeps
  | rangeWrite index entry => exact (silent_reqRangeWrite index entry s).keeps
  | settingsWrite settings => exact keeps_reqSettingsWrite settings s
  | trimSet position trim => exact keeps_reqTrimSet position trim s
  | feedSet feedCap waterCap => exact keeps_reqFeedSet feedCap waterCap s
  | demandLimit cap minutes => exact keeps_reqDemandLimit cap minutes s
  | accountLoad card balance status horizon => exact keeps_reqAccountLoad card balance status horizon s
  | accountCredit card amount => exact (silent_reqAccountCredit card amount s).keeps
  | accountEvict card => exact (silent_reqAccountEvict card s).keeps
  | accountStatus card status => exact (silent_reqAccountStatus card status s).keeps
  | wantedRead => exact Keeps.refl s
  | positionService position marking => exact keeps_reqPositionService position marking s
  | positionClearLockout position => exact keeps_reqPositionClearLockout position s
  | positionRead position => exact keeps_withPosition position s _ fun _ => Keeps.refl s
  | sessionCancel position number => exact keeps_withPosition position s _ fun p => keeps_cancelAt position number p s
  | journalRead start count => exact (silent_reqJournalRead start count s).keeps
  | journalRelease number => exact (silent_reqJournalRelease number s).keeps
  | faultRead count => exact (silent_reqFaultRead count s).keeps
  | rosterRead => exact Keeps.refl s
  | rosterClear => exact (silent_modFm (fun f => { f with roster := f.roster.filter (rosterKeeps s) }) s).keeps
  | loopRestart => exact (silent_restartLoop s).keeps
  | partReset => exact Keeps.refl s

/-! ### The host link (R171, R172) -/

theorem keeps_serve (r : HostRequest) (s : State) : Keeps s (serve r s) := by
  have taken : Keeps s (takeHeld r s).1 := by
    cases r with
    | good request => exact keeps_takeRequest request s
    | bad type code => exact Keeps.refl s
  unfold serve
  exact taken.trans (silent_modHlp _ _).keeps

theorem keeps_arrive (r : HostRequest) (s : State) : Keeps s (arrive r s) :=
  keeps_ite (fun _ => keeps_serve r s) fun _ => keeps_ite (fun _ => (silent_modHlp _ s).keeps) fun _ =>
    keeps_ite (fun _ => (silent_modHlp _ s).keeps) fun _ => Keeps.refl s

theorem keeps_hostBytes (bytes : List Byte) (s : State) : Keeps s (hostBytes bytes s) := by
  unfold hostBytes
  exact (silent_modHlp _ s).keeps.trans (keeps_foldl _ _ (fun s f => keeps_arrive (requestOf f) s) _)

theorem keeps_replySent (s : State) : Keeps s (replySent s) := by
  unfold replySent
  refine keeps_ite (fun _ => (silent_modHlp _ s).keeps) fun _ => ?_
  split
  · exact Keeps.refl s
  · generalize s.hlp.waiting = next
    cases next with
    | some r => exact (silent_modHlp _ s).keeps.trans (keeps_serve r _)
    | none => exact (silent_modHlp _ s).keeps

/-! ### Power-up and warm reset (R166 to R170) -/

/-- The lines are IDLE and empty, nothing is wanted, and nothing is claimed. -/
theorem agreed_freshVolatile (s : State) : Agreed (freshVolatile s) ∧ ∀ q, claimAt (freshVolatile s) q = none := by
  have vacant : ∀ q, claimAt (freshVolatile s) q = none := fun q => by
    refine claimAt_of_unclaimed fun c e => ?_
    have fresh : posAt (freshVolatile s) q = Position.fresh := by
      unfold posAt freshVolatile
      rw [Fin.getElem_fin, Vector.getElem_replicate]
    rw [fresh] at e
    cases e
  refine ⟨⟨List.nodup_nil, fun l => lineAgrees_of_idle ?_ ?_ rfl fun p c hc => ?_⟩, vacant⟩
  · cases l <;> rfl
  · cases l <;> exact Nat.zero_le 8
  · rw [vacant] at hc; cases hc

/-- A recovery runs on positions without a claim, and makes none (R167). -/
theorem agreed_recoverSlots (outcome : EndOutcome) {s : State} (agreed : Agreed s) (h : ∀ q, claimAt s q = none) :
    Agreed (recoverSlots outcome s) := by
  have emptied : ∀ p ses t, (Agreed t ∧ ∀ q, claimAt t q = none) →
      Agreed (emptySlot p ses t) ∧ ∀ q, claimAt (emptySlot p ses t) q = none := fun p ses t ⟨ha, hc⟩ => by
    have quiet : Silent t (emptySlot p ses t) := (silent_writeSlot p none t).trans
      (silent_setOccupancy (s := writeSlot p none t) (hc p) fun _ e => by cases e)
    refine ⟨quiet.agreed ha, fun q => ?_⟩
    rw [Option.eq_none_iff_forall_ne_some]
    intro c hq
    rw [((quiet.line c.terminal).claims q c rfl), hc] at hq
    cases hq
  refine (forPositions_induct (P := fun t => Agreed t ∧ ∀ q, claimAt t q = none) _ _ (fun p _ t ht => ?_) _
    (forPositions_induct (P := fun t => Agreed t ∧ ∀ q, claimAt t q = none) _ _ (fun p _ t ht => ?_) s
      ⟨agreed, h⟩)).1
  · unfold recoverSlot
    split
    · exact emptied p _ _ ⟨(silent_writeNv _ t).agreed ht.1, ht.2⟩
    · exact ht
  · rcases clearRecorded_does p t with e | ⟨ses, -, -, e⟩ <;> rw [e]
    · exact ht
    · exact emptied p ses t ht

theorem agreed_recover (outcome : EndOutcome) {s : State} (agreed : Agreed s) (h : ∀ q, claimAt s q = none) :
    Agreed (recover outcome s) := by
  have judged := keeps_judgeStop _ (keeps_judgeFlood _ (agreed_recoverSlots outcome agreed h))
  unfold recover
  exact keeps_ite (fun _ => Keeps.refl _)
    (fun _ => ((silent_modRlc _ _).trans (silent_sendEnrol _)).keeps) judged

theorem agreed_powerUp (s : State) : Agreed (powerUp s) := by
  obtain ⟨agreed, free⟩ := agreed_freshVolatile { s with supply := true }
  unfold powerUp
  extract_lets emptied
  have unset : Silent emptied { emptied with
      rcs := { emptied.rcs with clockSet := false, epoch := 0, minuteOfWeek := 0, minuteLeft := 600 } } :=
    .of_positions rfl rfl rfl
  exact agreed_recover _ (unset.agreed agreed) fun q => (claimAt_of_positions rfl q).trans (free q)

theorem agreed_warmReset (s : State) : Agreed (warmReset s) := by
  obtain ⟨agreed, free⟩ := agreed_freshVolatile { s with resetHeld := false }
  exact agreed_recover _ agreed free

/-! ### A taking, the timers, and a step -/

theorem keeps_fireTimers (s : State) : Keeps s (fireTimers s) := by
  unfold fireTimers
  extract_lets s1 expired s2 s3 s4
  have demand : Silent s s1 := by
    simp only [s1]
    split
    · exact silent_ite (fun _ => silent_expireDemand s) fun _ => Silent.refl s
    · exact Silent.refl s
  have wanted : Keeps s1 s2 := keeps_foldl _ _ (fun s card => keeps_expireWanted card s) _
  have silence : Keeps s2 s3 := keeps_silencesReached s2
  have minute : Keeps s3 s4 := keeps_ite (fun _ => keeps_minuteBoundary s3) fun _ => Keeps.refl s3
  exact (((demand.keeps.trans wanted).trans silence).trans minute).trans (silent_sweepTimers s4).keeps

theorem keeps_tick (s : State) : Keeps s (tick s) :=
  keeps_ite (fun _ => keeps_taking (fun s => (silent_passTenth s).keeps.trans (keeps_fireTimers _)) s) fun _ =>
    keeps_ite (fun _ => keeps_ite (fun _ => (silent_heldBoundary s).keeps) fun _ =>
      Silent.keeps (Silent.of_positions rfl rfl rfl)) fun _ => (silent_beginTaking s).keeps

theorem keeps_takeBoundary (s : State) : Keeps s (takeBoundary s) :=
  keeps_ite (fun _ => (silent_heldBoundary s).keeps) fun _ => keeps_taking keeps_minuteBoundary s

theorem keeps_powerFail (cut : Nat) (s : State) : Keeps s (powerFail cut s) :=
  keeps_ite (fun _ => Silent.keeps (Silent.of_positions rfl rfl rfl)) fun _ => (silent_beginTaking s).keeps

theorem keeps_takeWarmReset (s : State) : Keeps s (takeWarmReset s) :=
  keeps_ite (fun _ => keeps_ite (fun _ _ => agreed_warmReset s) fun _ => (silent_beginTaking s).keeps) fun _ =>
    Silent.keeps (Silent.of_positions rfl rfl rfl)

theorem keeps_takeReplySent (s : State) : Keeps s (takeReplySent s) :=
  keeps_ite (fun _ _ => agreed_warmReset s) fun _ => keeps_replySent s

/-- An input line's level is set and judged (R145, R146). -/
theorem keeps_judged {judge : State → State} (h : ∀ s, Keeps s (judge s)) {s t : State} (e : Silent s t) :
    Keeps s (taking judge t) := e.keeps.trans (keeps_taking h t)

/-- What a row does: the state it answers keeps the agreement. -/
def KeepsTo (s : State) (r : Result) : Prop := ∀ t, r = .next t → Keeps s t

theorem KeepsTo.next {s t : State} (h : Keeps s t) : KeepsTo s (.next t) := fun _ e => by cases e; exact h

theorem keepsTo_taking {act : State → State} (h : ∀ s, Keeps s (act s)) (s : State) :
    KeepsTo s (.next (taking act s)) := .next (keeps_taking h s)

theorem keepsTo_requestRow (r : Request) (s : State) : KeepsTo s (exec (requestRow r) s) := by
  rw [exec_requestRow]; exact keepsTo_taking (keeps_arrive _) s

/-- Each row of the table: a request's row is a taking that serves the request, and any other row is its own. -/
theorem keepsTo_exec (c : Instr) (s : State) : KeepsTo s (exec c s) := by
  cases c with
  | powerUp => exact .next fun _ => agreed_powerUp s
  | powerFail cut => exact .next (keeps_powerFail cut s)
  | resetNAsserted cut => exact .next (Silent.keeps (Silent.of_positions rfl rfl rfl))
  | warmReset => exact .next (keeps_takeWarmReset s)
  | hostFrame bytes => exact keepsTo_taking (keeps_hostBytes bytes) s
  | hostFrameGapTimeout => exact keepsTo_taking (fun s => (silent_modHlp _ s).keeps) s
  | hostReplySent => exact keepsTo_taking keeps_takeReplySent s
  | identify => exact keepsTo_requestRow .identify s
  | status => exact keepsTo_requestRow .status s
  | attentionRead => exact keepsTo_requestRow .attentionRead s
  | attentionClear mask => exact keepsTo_requestRow (.attentionClear mask) s
  | attentionEnable mask => exact keepsTo_requestRow (.attentionEnable mask) s
  | clockSet epoch minute => exact keepsTo_requestRow (.clockSet epoch minute) s
  | roomModeSet mode => exact keepsTo_requestRow (.roomModeSet mode) s
  | programWrite id record => exact keepsTo_requestRow (.programWrite id record) s
  | programRead id => exact keepsTo_requestRow (.programRead id) s
  | bandWrite index entry => exact keepsTo_requestRow (.bandWrite index entry) s
  | rangeWrite index entry => exact keepsTo_requestRow (.rangeWrite index entry) s
  | settingsWrite settings => exact keepsTo_requestRow (.settingsWrite settings) s
  | trimSet position trim => exact keepsTo_requestRow (.trimSet position trim) s
  | feedSet feedCap waterCap => exact keepsTo_requestRow (.feedSet feedCap waterCap) s
  | demandLimit cap minutes => exact keepsTo_requestRow (.demandLimit cap minutes) s
  | demandExpiry => exact keepsTo_taking (fun s => (silent_expireDemand s).keeps) s
  | accountLoad card balance status horizon => exact keepsTo_requestRow (.accountLoad card balance status horizon) s
  | accountCredit card amount => exact keepsTo_requestRow (.accountCredit card amount) s
  | accountEvict card => exact keepsTo_requestRow (.accountEvict card) s
  | accountStatus card status => exact keepsTo_requestRow (.accountStatus card status) s
  | wantedRead => exact keepsTo_requestRow .wantedRead s
  | positionService position marking => exact keepsTo_requestRow (.positionService position marking) s
  | positionClearLockout position => exact keepsTo_requestRow (.positionClearLockout position) s
  | positionRead position => exact keepsTo_requestRow (.positionRead position) s
  | sessionCancel position number => exact keepsTo_requestRow (.sessionCancel position number) s
  | journalRead start count => exact keepsTo_requestRow (.journalRead start count) s
  | journalRelease number => exact keepsTo_requestRow (.journalRelease number) s
  | faultRead count => exact keepsTo_requestRow (.faultRead count) s
  | rosterRead => exact keepsTo_requestRow .rosterRead s
  | rosterClear => exact keepsTo_requestRow .rosterClear s
  | loopRestart => exact keepsTo_requestRow .loopRestart s
  | partReset => exact keepsTo_requestRow .partReset s
  | terminalFrameGapTimeout l => exact keepsTo_taking (fun s => (silent_modLine rfl rfl).keeps) s
  | terminalRecordSent l => exact keepsTo_taking (keeps_recordSent l) s
  | tapStart l card position program extension =>
    exact keepsTo_taking (keeps_takeTapStart l card position program extension) s
  | tapBalance l card => exact keepsTo_taking (keeps_takeTapBalance l card) s
  | tapAbort l card position => exact keepsTo_taking (keeps_takeTapAbort l card position) s
  | wantedExpiry card => exact keepsTo_taking (keeps_expireWanted card) s
  | minuteBoundary => exact .next (keeps_takeBoundary s)
  | budgetTimeout p => exact keepsTo_taking (fun s => (silent_takeBudgetTimeout p _ s).keeps) s
  | overrun p => exact keepsTo_taking (keeps_takeOverrun p s.boundary) s
  | runningSweepSend =>
    exact keepsTo_taking (fun s => (silent_ite (fun _ => silent_sendRunning s) fun _ => Silent.refl s).keeps) s
  | heldBackOffer b place => exact keepsTo_taking (fun s => (silent_takeHeldOffer b place s).keeps) s
  | sweepReturnTimeout => exact keepsTo_taking (fun s => (silent_badReturn s).keeps) s
  | runningSweepReturn home => exact keepsTo_taking (keeps_sweepReturn .running home) s
  | loopBreak =>
    exact keepsTo_taking (fun s => (silent_ite (fun _ => silent_breakLoop s) fun _ => Silent.refl s).keeps) s
  | directiveResendDue p => exact keepsTo_taking (keeps_takeResendDue p) s
  | missingMarkLimit p =>
    exact keepsTo_taking (fun s => (silent_ite (fun _ => silent_suspendSession p s) fun _ => Silent.refl s).keeps) s
  | heaterDead p => exact keepsTo_taking (keeps_takeHeaterDead p) s
  | startTimeout p => exact keepsTo_taking (keeps_takeStartTimeout p) s
  | enrolRetryTimer =>
    exact keepsTo_taking (fun s => (silent_ite (fun _ => silent_sendEnrol s) fun _ => Silent.refl s).keeps) s
  | enrolSweepReturn home => exact keepsTo_taking (keeps_sweepReturn .enrol home) s
  | silenceLimit p =>
    exact keepsTo_taking (fun s => keeps_ite (fun _ => keeps_silenceReached p s) fun _ => Keeps.refl s) s
  | floodInActivation => exact .next (keeps_judged keeps_judgeFlood (.of_positions rfl rfl rfl))
  | floodInRelease => exact .next (keeps_judged keeps_judgeFlood (.of_positions rfl rfl rfl))
  | stopInActivation => exact .next (keeps_judged keeps_judgeStop (.of_positions rfl rfl rfl))
  | stopInRelease => exact .next (keeps_judged keeps_judgeStop (.of_positions rfl rfl rfl))
  | hostBadFrame bytes => exact keepsTo_taking (keeps_hostBytes bytes) s
  | terminalBadFrame l bytes => exact keepsTo_taking (keeps_terminalBytes l bytes) s

theorem keeps_step {s t : State} (h : step s = .next t) : Keeps s t := by
  unfold step at h
  split at h
  · next c rest _ =>
    have taken : Silent s { s with pending := rest } := .of_positions rfl rfl rfl
    exact taken.keeps.trans (keepsTo_exec c _ t h)
  · cases h
    exact keeps_tick s

/-- Settles O58: line by line, every operation leaves a line alone, or answers its request, or sets it to wait. -/
theorem terminalsStayInAgreement : Obligations.TerminalsStayInAgreement := by
  unfold Obligations.TerminalsStayInAgreement
  intro s t _ bounded agrees h
  exact (terminalsAgree_iff t).mpr (keeps_step h ⟨bounded.2.1, (terminalsAgree_iff s).mp agrees⟩).line

end Sys2Proof.Machine.Cards
end

section
/-!
Band Write, Range Write and the range lookup (R45, R46, R159): O17. Account Credit, Evict and Status (R63 to R65): O21.
-/
namespace Sys2Proof.Machine.Cards
open Settlement

/-! ### Indexes and codes -/

theorem indexOf_of_ge {index : Byte} (h : 8 ≤ index.toNat) : indexOf index = none := dif_neg (by omega)

theorem indexOf_of_val {index : Byte} {i : Fin 8} (h : i.val = index.toNat) : indexOf index = some i := by
  have below : index.toNat < 8 := h ▸ i.isLt
  unfold indexOf
  rw [dif_pos below]
  exact congrArg some (Fin.ext h.symm)

theorem rangeClassCode_of {b : Byte} {cls : RangeClass} (h : rangeClassOf b = some cls) : rangeClassCode cls = b := by
  unfold rangeClassOf at h
  split_ifs at h with zero one two <;> cases h
  · exact zero.symm
  · exact one.symm
  · exact two.symm

/-! ### Band Write (R159) -/

theorem presentBands_eq_nil {bands : Vector (Option Band) 8} :
    presentBands bands = [] ↔ ∀ i : Fin 8, bands[i] = none := by
  rw [List.eq_nil_iff_forall_not_mem]
  constructor
  · intro h i
    rw [Option.eq_none_iff_forall_ne_some]
    exact fun b hb => h (i, b) (mem_presentBands.mpr hb)
  · rintro h ⟨i, b⟩ hb
    have here := mem_presentBands.mp hb
    rw [h i] at here
    cases here

/-- The table is left without a band exactly where the entry that leaves is the only one. -/
theorem presentBands_without {bands : Vector (Option Band) 8} {i : Fin 8} :
    presentBands (bands.set i none) = [] ↔ ∀ j : Fin 8, j ≠ i → bands[j] = none := by
  rw [presentBands_eq_nil]
  constructor
  · intro h j ne
    have here := h j
    rwa [getElem_set_fin, if_neg ne] at here
  · intro h j
    rw [getElem_set_fin]
    split
    · rfl
    · next ne => exact h j ne

/-- Another band has the start already. -/
theorem any_presentBands {bands : Vector (Option Band) 8} {i : Fin 8} {start : Nat} :
    ((presentBands bands).any fun e => e.1 != i && e.2.start == start) = true ↔
      ∃ j : Fin 8, ∃ b, j ≠ i ∧ bands[j] = some b ∧ b.start = start := by
  rw [List.any_eq_true]
  constructor
  · rintro ⟨⟨j, b⟩, hb, test⟩
    obtain ⟨ne, same⟩ := Bool.and_eq_true_iff.mp test
    exact ⟨j, b, bne_iff_ne.mp ne, mem_presentBands.mp hb, eq_of_beq same⟩
  · rintro ⟨j, b, ne, hb, same⟩
    exact ⟨(j, b), mem_presentBands.mpr hb, Bool.and_eq_true_iff.mpr ⟨bne_iff_ne.mpr ne, beq_iff_eq.mpr same⟩⟩

/-- An accepted Band Write answers with the entry and the band in force after it. -/
theorem answers_of_storeBand {index : Byte} {entry : Option BandFields} {s : State} {i : Fin 8} {b : Option Band}
    {clamped : Bool} (serving : Serving s)
    (h : reqBandWrite index entry (beginTaking s) = storeBand i b clamped (beginTaking s)) :
    Answers (.bandWrite index entry) s (storedAs { s.nv with bands := s.nv.bands.set i b } s)
      (.ok (bandEntryBytes b ++ flagByte clamped
        ++ bandBytes (storedAs { s.nv with bands := s.nv.bands.set i b } s))) :=
  answers_of_take serving h (serving.1.2.of_eq rfl rfl)

theorem reqBandWrite_of_no_index {index : Byte} (h : indexOf index = none) (entry : Option BandFields) (s : State) :
    reqBandWrite index entry s = refuse .badValue s := by
  unfold reqBandWrite
  rw [h]

theorem reqBandWrite_absent {index : Byte} {i : Fin 8} (h : indexOf index = some i) (s : State) :
    reqBandWrite index none s =
      if presentBands (bandsWith s i none) = [] then refuse .badValue s else storeBand i none false s := by
  unfold reqBandWrite
  rw [h]

theorem reqBandWrite_present {index : Byte} {i : Fin 8} (h : indexOf index = some i) (f : BandFields) (s : State) :
    reqBandWrite index (some f) s =
      if 10079 < f.start.toNat
          ∨ ((presentBands s.nv.bands).any fun e => e.1 != i && e.2.start == f.start.toNat) = true then
        refuse .badValue s
      else storeBand i (some { start := f.start.toNat, mult := clampNat 50 250 f.mult.toNat, quiet := f.quiet })
        (clampNat 50 250 f.mult.toNat != f.mult.toNat) s := by
  unfold reqBandWrite
  rw [h]

/-! ### Range Write and the lookup (R45, R46) -/

/-- An accepted Range Write answers with the entry. -/
theorem answers_of_storeRange {index : Byte} {entry : Option RangeFields} {s : State} {i : Fin 8}
    {e : Option RangeEntry} (serving : Serving s)
    (h : reqRangeWrite index entry (beginTaking s) = storeRange i e (beginTaking s)) :
    Answers (.rangeWrite index entry) s (storedAs { s.nv with ranges := s.nv.ranges.set i e } s)
      (.ok (rangeEntryBytes e)) :=
  answers_of_take serving h (serving.1.2.of_eq rfl rfl)

theorem reqRangeWrite_of_no_index {index : Byte} (h : indexOf index = none) (entry : Option RangeFields) (s : State) :
    reqRangeWrite index entry s = refuse .badValue s := by
  unfold reqRangeWrite
  rw [h]

theorem reqRangeWrite_absent {index : Byte} {i : Fin 8} (h : indexOf index = some i) (s : State) :
    reqRangeWrite index none s = storeRange i none s := by
  unfold reqRangeWrite
  rw [h]

theorem reqRangeWrite_of_no_class {index : Byte} {i : Fin 8} (h : indexOf index = some i) {f : RangeFields}
    (cls : rangeClassOf f.cls = none) (s : State) : reqRangeWrite index (some f) s = refuse .badValue s := by
  unfold reqRangeWrite
  simp only [h, cls]

theorem reqRangeWrite_present {index : Byte} {i : Fin 8} (h : indexOf index = some i) {f : RangeFields}
    {cls : RangeClass} (hcls : rangeClassOf f.cls = some cls) (s : State) :
    reqRangeWrite index (some f) s = if f.high.toNat < f.low.toNat then refuse .badValue s
      else storeRange i (some { low := f.low, high := f.high, cls }) s := by
  unfold reqRangeWrite
  simp only [h, hcls]

/-- Whether an entry includes a card, at both ends (R46). -/
def includes (e : RangeEntry) (card : Word) : Prop := e.low.toNat ≤ card.toNat ∧ card.toNat ≤ e.high.toNat

theorem not_includes {e : RangeEntry} {card : Word} :
    ¬ includes e card ↔ card.toNat < e.low.toNat ∨ e.high.toNat < card.toNat := by
  unfold includes; omega

/-- The class that an entry of the table gives a card. -/
def classAt (nv : Retained) (card : Word) (i : Fin 8) : Option RangeClass :=
  match nv.ranges[i] with
  | some e => if e.low.toNat ≤ card.toNat ∧ card.toNat ≤ e.high.toNat then some e.cls else none
  | none => none

theorem rangeClassAt_eq (nv : Retained) (card : Word) :
    rangeClassAt nv card = allRangeIndexes.findSome? (classAt nv card) := rfl

theorem classAt_eq_some {nv : Retained} {card : Word} {i : Fin 8} {cls : RangeClass} :
    classAt nv card i = some cls ↔ ∃ e, nv.ranges[i] = some e ∧ e.cls = cls ∧ includes e card := by
  unfold classAt includes
  cases nv.ranges[i] with
  | none => simp
  | some e =>
    dsimp only
    split
    · next inside => simp [inside]
    · next outside => simpa using fun _ h => by omega

theorem classAt_eq_none {nv : Retained} {card : Word} {i : Fin 8} :
    classAt nv card i = none ↔ ∀ e, nv.ranges[i] = some e → card.toNat < e.low.toNat ∨ e.high.toNat < card.toNat := by
  rw [Option.eq_none_iff_forall_ne_some]
  constructor
  · exact fun h e he => not_includes.mp fun inside => h e.cls (classAt_eq_some.mpr ⟨e, he, rfl, inside⟩)
  · intro h cls hc
    obtain ⟨e, he, -, inside⟩ := classAt_eq_some.mp hc
    exact not_includes.mpr (h e he) inside

theorem mem_allRangeIndexes (i : Fin 8) : i ∈ allRangeIndexes := by revert i; decide

theorem allRangeIndexes_sorted : allRangeIndexes.Pairwise (· < ·) := by decide

/-- The first entry of an ascending list that gives a value: those before it give none. -/
theorem findSome?_sorted {α : Type} {f : Fin 8 → Option α} {l : List (Fin 8)} (sorted : l.Pairwise (· < ·)) {a : α}
    (h : l.findSome? f = some a) : ∃ i ∈ l, f i = some a ∧ ∀ j ∈ l, j < i → f j = none := by
  induction l with
  | nil => cases h
  | cons i l ih =>
    obtain ⟨below, sorted⟩ := List.pairwise_cons.mp sorted
    cases hi : f i with
    | some b =>
      rw [List.findSome?_cons_of_isSome (by rw [hi]; rfl), hi] at h
      cases h
      refine ⟨i, List.mem_cons_self, hi, fun j hj lt => ?_⟩
      rcases List.mem_cons.mp hj with rfl | hj
      · exact absurd lt (lt_irrefl j)
      · exact absurd (below j hj) (not_lt.mpr lt.le)
    | none =>
      rw [List.findSome?_cons, hi] at h
      obtain ⟨k, hk, hf, first⟩ := ih sorted h
      refine ⟨k, List.mem_cons_of_mem _ hk, hf, fun j hj lt => ?_⟩
      rcases List.mem_cons.mp hj with rfl | hj
      · exact hi
      · exact first j hj lt

/-- Settles O17: each write by its tests, and the lookup by the first entry that includes the card. -/
theorem bandAndRangeWritesStoreTheEntry : Obligations.BandAndRangeWritesStoreTheEntry := by
  refine ⟨fun index entry s serving => ⟨fun ge => ?_, fun i val => ?_⟩,
    fun index entry s serving => ⟨fun ge => ?_, fun i val => ?_⟩, fun nv card => ⟨?_, fun cls found => ?_⟩⟩
  · exact refuses_of_take serving (reqBandWrite_of_no_index (indexOf_of_ge ge) _ _)
  · have named := indexOf_of_val val
    refine ⟨?_, ?_, ?_⟩
    · rintro rfl others
      exact refuses_of_take serving ((reqBandWrite_absent named _).trans (if_pos (presentBands_without.mpr others)))
    · rintro rfl ⟨j, ne, other⟩
      have left : ¬ presentBands (bandsWith (beginTaking s) i none) = [] := fun e => by
        have gone : s.nv.bands[j] = none := presentBands_without.mp e j ne
        rw [gone] at other
        cases other
      exact answers_of_storeBand serving ((reqBandWrite_absent named _).trans (if_neg left))
    · rintro f rfl
      have present := reqBandWrite_present named f (beginTaking s)
      refine ⟨fun wrong => ?_, fun early apart => ?_⟩
      · exact refuses_of_take serving (present.trans (if_pos (wrong.imp_right any_presentBands.mpr)))
      · have free : ¬ (10079 < f.start.toNat ∨
            ((presentBands s.nv.bands).any fun e => e.1 != i && e.2.start == f.start.toNat) = true) := by
          rintro (late | taken)
          · omega
          · obtain ⟨j, b, ne, hb, same⟩ := any_presentBands.mp taken
            exact apart j b ne hb same
        exact answers_of_storeBand serving (present.trans (if_neg free))
  · exact refuses_of_take serving (reqRangeWrite_of_no_index (indexOf_of_ge ge) _ _)
  · have named := indexOf_of_val val
    refine ⟨?_, ?_⟩
    · rintro rfl
      exact answers_of_storeRange serving (reqRangeWrite_absent named _)
    · rintro f rfl
      refine ⟨?_, fun cls hcls ordered => ?_⟩
      · cases hcls : rangeClassOf f.cls with
        | none => exact fun _ => refuses_of_take serving (reqRangeWrite_of_no_class named hcls _)
        | some cls =>
          rintro (none | crossed)
          · cases none
          · exact refuses_of_take serving ((reqRangeWrite_present named hcls _).trans (if_pos crossed))
      · have stored := (reqRangeWrite_present named hcls (beginTaking s)).trans (if_neg (not_lt.mpr ordered))
        have answer := answers_of_storeRange serving stored
        rw [rangeEntryBytes, rangeClassCode_of hcls] at answer
        exact answer
  · rw [rangeClassAt_eq, List.findSome?_eq_none_iff]
    exact ⟨fun h i e he => classAt_eq_none.mp (h i (mem_allRangeIndexes i)) e he,
      fun h i _ => classAt_eq_none.mpr (h i)⟩
  · obtain ⟨i, -, here, first⟩ := findSome?_sorted allRangeIndexes_sorted (rangeClassAt_eq nv card ▸ found)
    obtain ⟨e, he, hc, low, high⟩ := classAt_eq_some.mp here
    exact ⟨i, e, he, hc, low, high, fun j d lt hd => classAt_eq_none.mp (first j (mem_allRangeIndexes j) lt) d hd⟩

/-! ### Account Credit, Evict and Status (R63 to R65) -/

theorem accountStatusOf_of_ge {status : Byte} (h : 2 ≤ status.toNat) : accountStatusOf status = none := by
  have zero : status ≠ 0 := by rintro rfl; revert h; decide
  have one : status ≠ 1 := by rintro rfl; revert h; decide
  unfold accountStatusOf
  rw [if_neg zero, if_neg one]

theorem accountStatusOf_of_lt {status : Byte} (h : status.toNat < 2) :
    accountStatusOf status = some (if status = 0 then .good else .suspended) := by
  have two : status = 0 ∨ status = 1 := by bv_omega
  rcases two with rfl | rfl <;> rfl

theorem reqAccountCredit_of_miss {amount : Word} (h : 1 ≤ amount.toNat ∧ amount.toNat ≤ 999999) {card : Word}
    {s : State} (miss : findEntry s card = none) : reqAccountCredit card amount s = refuse .notCached s := by
  unfold reqAccountCredit
  rw [if_neg (by omega), miss]

theorem reqAccountCredit_of_hit {amount : Word} (h : 1 ≤ amount.toNat ∧ amount.toNat ≤ 999999) {card : Word}
    {s : State} {i : Fin 48} {a : Account} (hit : findEntry s card = some (i, a)) : reqAccountCredit card amount s =
      accept (setEntry i (some { a with balance := min (a.balance + amount.toNat) 999999 }) s)
        (wordBytes card ++ u32 (min (a.balance + amount.toNat) 999999 - a.balance).toNat
          ++ i32 (min (a.balance + amount.toNat) 999999)) := by
  unfold reqAccountCredit
  rw [if_neg (by omega), hit]

theorem reqAccountStatus_of_miss {status : Byte} {st : AccountStatus} (h : accountStatusOf status = some st)
    {card : Word} {s : State} (miss : findEntry s card = none) :
    reqAccountStatus card status s = refuse .notCached s := by
  unfold reqAccountStatus
  rw [h, miss]

theorem reqAccountStatus_of_hit {status : Byte} {st : AccountStatus} (h : accountStatusOf status = some st)
    {card : Word} {s : State} {i : Fin 48} {a : Account} (hit : findEntry s card = some (i, a)) :
    reqAccountStatus card status s =
      accept (setEntry i (some { a with status := st }) s) (wordBytes card ++ [accountStatusCode st]) := by
  unfold reqAccountStatus
  rw [h, hit]

/-- A taking that changes one entry of the cache answers so. -/
theorem answers_of_entry {r : Request} {s : State} {i : Fin 48} {a : Option Account} {body : List Byte}
    (serving : Serving s) (h : takeRequest r (beginTaking s) = accept (setEntry i a (beginTaking s)) body) :
    Answers r s (cachedAs i a s) (.ok body) :=
  answers_of_take serving h (serving.1.2.of_eq rfl rfl)

/-- Settles O21: each request by its tests, in their order. -/
theorem accountRequestsChangeOneEntry : Obligations.AccountRequestsChangeOneEntry := by
  intro card amount status s serving
  refine ⟨fun wrong => ?_, fun ge => ?_, fun miss => ⟨fun low high => ?_, ?_, fun lt => ?_⟩,
    fun i a hit => ⟨fun low high => ?_, fun pinned => ?_, fun free => ?_, ?_, ?_⟩⟩
  · exact refuses_of_take serving (if_pos wrong)
  · refine refuses_of_take serving ?_
    show reqAccountStatus card status (beginTaking s) = _
    unfold reqAccountStatus
    rw [accountStatusOf_of_ge ge]
    rfl
  · have miss : findEntry (beginTaking s) card = none := miss
    exact refuses_of_take serving (reqAccountCredit_of_miss ⟨low, high⟩ miss)
  · have miss : findEntry (beginTaking s) card = none := miss
    refine refuses_of_take serving ?_
    show reqAccountEvict card (beginTaking s) = _
    unfold reqAccountEvict
    rw [miss]
    rfl
  · have miss : findEntry (beginTaking s) card = none := miss
    exact refuses_of_take serving (reqAccountStatus_of_miss (accountStatusOf_of_lt lt) miss)
  · have hit : findEntry (beginTaking s) card = some (i, a) := hit
    exact answers_of_entry serving (reqAccountCredit_of_hit ⟨low, high⟩ hit)
  · have hit : findEntry (beginTaking s) card = some (i, a) := hit
    refine refuses_of_take serving ?_
    show reqAccountEvict card (beginTaking s) = _
    unfold reqAccountEvict
    rw [hit]
    exact if_pos (decide_eq_true pinned)
  · have hit : findEntry (beginTaking s) card = some (i, a) := hit
    refine answers_of_entry serving ?_
    show reqAccountEvict card (beginTaking s) = _
    unfold reqAccountEvict
    rw [hit]
    exact if_neg (by simp [isPinned, free])
  · rintro rfl
    have hit : findEntry (beginTaking s) card = some (i, a) := hit
    exact answers_of_entry serving (reqAccountStatus_of_hit (status := 0) (st := .good) rfl hit)
  · rintro rfl
    have hit : findEntry (beginTaking s) card = some (i, a) := hit
    exact answers_of_entry serving (reqAccountStatus_of_hit (status := 1) (st := .suspended) rfl hit)

end Sys2Proof.Machine.Cards
end

section
/-!
Allocation, use, renumbering and creation of account entries (R48, R50): O23.
-/
namespace Sys2Proof.Machine.Cards
open Settlement

/-! ### Allocation (R50) -/

theorem waysOf_sorted (card : Word) : (waysOf card).Pairwise (· < ·) := by
  simp [waysOf, wayOf]

/-- The first element of an ascending list that satisfies a test: those before it do not. -/
theorem find?_sorted {n : Nat} {test : Fin n → Bool} {l : List (Fin n)} (sorted : l.Pairwise (· < ·)) {i : Fin n}
    (h : l.find? test = some i) : i ∈ l ∧ test i = true ∧ ∀ j ∈ l, j < i → test j = false := by
  obtain ⟨here, as, bs, rfl, before⟩ := List.find?_eq_some_iff_append.mp h
  refine ⟨by simp, here, fun j hj lt => ?_⟩
  rcases List.mem_append.mp hj with hj | hj
  · simpa using before j hj
  · have after := (List.pairwise_append.mp sorted).2.1
    rcases List.mem_cons.mp hj with rfl | hj
    · exact absurd lt (lt_irrefl j)
    · exact absurd ((List.pairwise_cons.mp after).1 j hj) (not_lt.mpr lt.le)

theorem oldestUnpinned_none {s : State} {l : List (Fin 48)} :
    oldestUnpinned s l = none ↔ ∀ j ∈ l, ∀ a, entryAt s j = some a → 0 < a.held := by
  induction l with
  | nil => simp [oldestUnpinned]
  | cons j l ih =>
    unfold oldestUnpinned
    cases he : entryAt s j with
    | none => simp [ih, he]
    | some a =>
      dsimp only
      split
      · next pinned => simp [ih, he, show 0 < a.held by simpa [isPinned] using pinned]
      · next free =>
        refine ⟨fun h => ?_, fun h => absurd (decide_eq_true (h j List.mem_cons_self a he)) free⟩
        split at h
        · split at h <;> cases h
        · cases h

/-- The oldest unpinned entry of some ways stands in one of them, unpinned, with no older one beside it (R48). -/
theorem oldestUnpinned_some {s : State} {l : List (Fin 48)} {i : Fin 48} {a : Account}
    (h : oldestUnpinned s l = some (i, a)) : i ∈ l ∧ entryAt s i = some a ∧ a.held = 0
      ∧ ∀ j ∈ l, ∀ b, entryAt s j = some b → b.held = 0 → a.stamp ≤ b.stamp := by
  induction l generalizing i a with
  | nil => cases h
  | cons j l ih =>
    unfold oldestUnpinned at h
    cases he : entryAt s j with
    | none =>
      rw [he] at h
      obtain ⟨mem, entry, free, oldest⟩ := ih h
      refine ⟨List.mem_cons_of_mem _ mem, entry, free, fun k hk b hb => ?_⟩
      rcases List.mem_cons.mp hk with rfl | hk
      · rw [he] at hb; cases hb
      · exact oldest k hk b hb
    | some c =>
      rw [he] at h
      dsimp only at h
      split at h
      · next pinned =>
        obtain ⟨mem, entry, free, oldest⟩ := ih h
        refine ⟨List.mem_cons_of_mem _ mem, entry, free, fun k hk b hb none => ?_⟩
        rcases List.mem_cons.mp hk with rfl | hk
        · rw [he] at hb; cases hb; simp [isPinned, none] at pinned
        · exact oldest k hk b hb none
      · next unpinned =>
        have unheld : c.held = 0 := by simpa [isPinned] using unpinned
        cases ho : oldestUnpinned s l with
        | none =>
          rw [ho] at h
          cases h
          refine ⟨List.mem_cons_self, he, unheld, fun k hk b hb none => ?_⟩
          rcases List.mem_cons.mp hk with rfl | hk
          · rw [he] at hb; cases hb; exact Nat.le_refl _
          · have := oldestUnpinned_none.mp ho k hk b hb
            omega
        | some best =>
          obtain ⟨k, d⟩ := best
          obtain ⟨mem, entry, free, oldest⟩ := ih ho
          rw [ho] at h
          dsimp only at h
          split at h
          · next older =>
            cases h
            refine ⟨List.mem_cons_of_mem _ mem, entry, free, fun m hm b hb none => ?_⟩
            rcases List.mem_cons.mp hm with rfl | hm
            · rw [he] at hb; cases hb; exact older.le
            · exact oldest m hm b hb none
          · next older =>
            cases h
            refine ⟨List.mem_cons_self, he, unheld, fun m hm b hb none => ?_⟩
            rcases List.mem_cons.mp hm with rfl | hm
            · rw [he] at hb; cases hb; exact Nat.le_refl _
            · exact (not_lt.mp older).trans (oldest m hm b hb none)

/-- The way that allocation gives: the lowest empty one, or that of the oldest unpinned entry. -/
theorem allocate_some {s : State} {card : Word} {i : Fin 48} (h : allocate s card = some i) :
    i ∈ waysOf card ∧ ((entryAt s i = none ∧ ∀ j ∈ waysOf card, j < i → entryAt s j ≠ none)
      ∨ ((∀ j ∈ waysOf card, entryAt s j ≠ none) ∧ ∃ a, entryAt s i = some a ∧ a.held = 0
        ∧ ∀ j ∈ waysOf card, ∀ b, entryAt s j = some b → b.held = 0 → a.stamp ≤ b.stamp)) := by
  unfold allocate at h
  split at h
  · next k found =>
    cases h
    obtain ⟨mem, empty, before⟩ := find?_sorted (waysOf_sorted card) found
    exact ⟨mem, .inl ⟨by simpa using empty, fun j hj lt none => by simpa [none] using before j hj lt⟩⟩
  · next full =>
    obtain ⟨⟨j, a⟩, ho, e⟩ := Option.map_eq_some_iff.mp h
    cases e
    obtain ⟨mem, entry, free, oldest⟩ := oldestUnpinned_some ho
    exact ⟨mem, .inr ⟨fun j hj => by simpa using List.find?_eq_none.mp full j hj, a, entry, free, oldest⟩⟩

theorem allocate_none {s : State} {card : Word} :
    allocate s card = none ↔ ∀ j ∈ waysOf card, ∃ a, entryAt s j = some a ∧ 0 < a.held := by
  unfold allocate
  constructor
  · intro h j hj
    split at h
    · cases h
    · next full =>
      have present : entryAt s j ≠ none := by simpa using List.find?_eq_none.mp full j hj
      obtain ⟨a, ha⟩ := Option.ne_none_iff_exists'.mp present
      exact ⟨a, ha, oldestUnpinned_none.mp (Option.map_eq_none_iff.mp h) j hj a ha⟩
  · intro pinned
    have full : (waysOf card).find? (fun i => (entryAt s i).isNone) = none := by
      rw [List.find?_eq_none]
      intro j hj
      obtain ⟨a, ha, -⟩ := pinned j hj
      simp [ha]
    rw [full]
    refine Option.map_eq_none_iff.mpr (oldestUnpinned_none.mpr fun j hj b hb => ?_)
    obtain ⟨a, ha, held⟩ := pinned j hj
    rw [ha] at hb
    cases hb
    exact held

/-! ### Renumbering (R48) -/

/-- The stamp that a renumbering gives to an entry of one: 1, and the number of older entries. -/
def restamp (s : State) (n : Nat) : Nat := 1 + ((cachedAccounts s).filter fun b => decide (b.stamp < n)).length

/-- A loop that replaces each entry by itself replaces those of its list. -/
theorem getElem_replaceEntries (f : Account → Account) (old : Vector (Option Account) 48) (l : List (Fin 48))
    (cache : Vector (Option Account) 48) (same : ∀ i : Fin 48, i ∈ l → cache[i] = old[i]) (distinct : l.Nodup)
    (j : Fin 48) : (l.foldl (fun cache i => match old[i] with
      | some a => cache.set i (some (f a))
      | none => cache) cache)[j] = if j ∈ l then (old[j]).map f else cache[j] := by
  induction l generalizing cache with
  | nil => simp
  | cons i l ih =>
    obtain ⟨fresh, distinct⟩ := List.nodup_cons.mp distinct
    rw [List.foldl_cons]
    cases hi : old[i] with
    | none =>
      rw [ih cache (fun k hk => same k (List.mem_cons_of_mem _ hk)) distinct]
      by_cases e : j = i
      · subst e; simp [fresh, hi, same j List.mem_cons_self]
      · simp [e]
    | some a =>
      dsimp only
      have left : ∀ k : Fin 48, k ∈ l → (cache.set i (some (f a)))[k] = old[k] := fun k hk => by
        rw [getElem_set_fin, if_neg fun e : k = i => fresh (e ▸ hk)]
        exact same k (List.mem_cons_of_mem _ hk)
      rw [ih _ left distinct]
      by_cases e : j = i
      · subst e; simp [fresh, hi]
      · rw [getElem_set_fin]; simp [e]

theorem entryAt_renumber (s : State) (j : Fin 48) :
    entryAt (renumber s) j = (entryAt s j).map fun a => { a with stamp := restamp s a.stamp } := by
  have each := getElem_replaceEntries (fun a => { a with stamp := restamp s a.stamp }) s.cru.cache allWays s.cru.cache
    (fun _ _ => rfl) (List.nodup_finRange 48) j
  rw [if_pos (show j ∈ allWays from List.mem_finRange j)] at each
  unfold renumber entryAt
  dsimp only
  exact each

theorem mem_cachedAccounts {s : State} {a : Account} : a ∈ cachedAccounts s ↔ ∃ i, entryAt s i = some a := by
  simp [cachedAccounts, allWays, List.mem_filterMap]

theorem length_cachedAccounts (s : State) : (cachedAccounts s).length ≤ 48 := by
  have := List.length_filterMap_le (entryAt s) allWays
  rwa [allWays, List.length_finRange] at this

theorem restamp_range {s : State} {i : Fin 48} {a : Account} (h : entryAt s i = some a) :
    1 ≤ restamp s a.stamp ∧ restamp s a.stamp ≤ (cachedAccounts s).length := by
  have own : ((cachedAccounts s).filter fun b => decide (b.stamp < a.stamp)).length < (cachedAccounts s).length :=
    List.length_filter_lt_length_iff_exists.mpr ⟨a, mem_cachedAccounts.mpr ⟨i, h⟩, by simp⟩
  unfold restamp
  omega

/-- The order of the entries by age stands through a renumbering. -/
theorem restamp_lt_iff {s : State} {i : Fin 48} {a : Account} (h : entryAt s i = some a) (n : Nat) :
    restamp s a.stamp < restamp s n ↔ a.stamp < n := by
  have mono : ∀ m k, m ≤ k → restamp s m ≤ restamp s k := fun m k le => by
    refine Nat.add_le_add_left (List.Sublist.length_le ?_) 1
    refine List.monotone_filter_right _ fun b hb => ?_
    simp only [decide_eq_true_eq] at hb ⊢
    omega
  refine ⟨fun lt => ?_, fun lt => ?_⟩
  · by_contra ge
    have := mono n a.stamp (not_lt.mp ge)
    omega
  · have split : ((cachedAccounts s).filter fun b => decide (b.stamp < n)).filter (fun b => decide (b.stamp < a.stamp))
        = (cachedAccounts s).filter fun b => decide (b.stamp < a.stamp) := by
      rw [List.filter_filter]
      refine List.filter_congr fun b _ => ?_
      rw [Bool.and_eq_left_iff_imp]
      simp only [decide_eq_true_eq]
      omega
    have own : a ∈ (cachedAccounts s).filter fun b => decide (b.stamp < n) :=
      List.mem_filter.mpr ⟨mem_cachedAccounts.mpr ⟨i, h⟩, decide_eq_true lt⟩
    have fewer := List.length_filter_lt_length_iff_exists (p := fun b : Account => decide (b.stamp < a.stamp)).mpr
      ⟨a, own, by simp⟩
    rw [split] at fewer
    exact Nat.add_lt_add_left fewer 1

/-! ### Use and creation (R48, R50) -/

theorem renumberAtTop_of_ne {s : State} (h : s.cru.useCounter ≠ topStamp) : renumberAtTop s = s := if_neg h

theorem renumberAtTop_of_top {s : State} (h : s.cru.useCounter = topStamp) : renumberAtTop s = renumber s := if_pos h

theorem stampEntry_of_entry {s : State} {i : Fin 48} {a : Account} (h : entryAt s i = some a) :
    stampEntry i s = setEntry i (some { a with stamp := s.cru.useCounter }) s := by
  unfold stampEntry
  rw [h]

/-- A use off the counter's top. -/
theorem useEntry_of_ne {s : State} {i : Fin 48} {a : Account} (h : entryAt s i = some a)
    (ne : s.cru.useCounter ≠ topStamp) : useEntry i s = { s with cru := { s.cru with
      useCounter := s.cru.useCounter + 1
      cache := s.cru.cache.set i (some { a with stamp := s.cru.useCounter + 1 }) } } := by
  rw [useEntry_eq, renumberAtTop_of_ne ne, stampEntry_of_entry (s := advanceCounter s) h]
  rfl

/-- A use at the counter's top, which renumbers first. -/
theorem useEntry_of_top {s : State} {i : Fin 48} {a : Account} (h : entryAt s i = some a)
    (top : s.cru.useCounter = topStamp) : useEntry i s = { s with cru := { s.cru with
      useCounter := (cachedAccounts s).length + 1
      cache := (renumber s).cru.cache.set i (some { a with stamp := (cachedAccounts s).length + 1 }) } } := by
  have entry : entryAt (advanceCounter (renumber s)) i = some { a with stamp := restamp s a.stamp } := by
    show entryAt (renumber s) i = _
    rw [entryAt_renumber, h]
    rfl
  rw [useEntry_eq, renumberAtTop_of_top top, stampEntry_of_entry entry]
  rfl

theorem useEntry_top_entry {s : State} {i j : Fin 48} {a : Account} (h : entryAt s i = some a)
    (top : s.cru.useCounter = topStamp) (ne : j ≠ i) :
    entryAt (useEntry i s) j = (entryAt s j).map fun b => { b with stamp := restamp s b.stamp } := by
  rw [useEntry_of_top h top, ← entryAt_renumber]
  show ((renumber s).cru.cache.set i _)[j] = _
  rw [getElem_set_fin, if_neg ne]
  rfl

/-- The counter after a creation (R48, R50; log 44). -/
def counterAfter (i : Fin 48) (s : State) : Nat :=
  if s.cru.useCounter = topStamp then (cachedAccounts (setEntry i none s)).length + 1 else s.cru.useCounter + 1

/-- The cache beside an entry that is created: renumbered where the counter stands at its top. -/
def clearedFor (i : Fin 48) (s : State) : State := renumberAtTop (setEntry i none s)

theorem counter_clearedFor (i : Fin 48) (s : State) :
    (clearedFor i s).cru.useCounter + 1 = counterAfter i s ∧ (clearedFor i s).cru.useCounter ≠ topStamp := by
  unfold clearedFor counterAfter
  by_cases top : s.cru.useCounter = topStamp
  · rw [renumberAtTop_of_top (s := setEntry i none s) top, if_pos top]
    have short := length_cachedAccounts (setEntry i none s)
    refine ⟨rfl, ?_⟩
    show (cachedAccounts (setEntry i none s)).length ≠ topStamp
    unfold topStamp
    omega
  · rw [renumberAtTop_of_ne (s := setEntry i none s) top, if_neg top]
    exact ⟨rfl, top⟩

/-- A creation renumbers the entries beside the new one where the counter stands at its top, and uses the new one. -/
theorem createEntry_of_clearedFor (i : Fin 48) (card : Word) (balance : Int) (status : AccountStatus)
    (origin : Origin) (s : State) : createEntry i card balance status origin s =
      { clearedFor i s with cru := { (clearedFor i s).cru with
        useCounter := counterAfter i s
        cache := (clearedFor i s).cru.cache.set i
          (some { card, balance, held := 0, status, origin, stamp := counterAfter i s }) } } := by
  obtain ⟨counter, ne⟩ := counter_clearedFor i s
  have entry : entryAt (setEntry i (some { card, balance, held := 0, status, origin, stamp := 0 }) (clearedFor i s)) i =
      some { card, balance, held := 0, status, origin, stamp := 0 } := by rw [entryAt_setEntry, if_pos rfl]
  rw [createEntry_eq]
  refine (useEntry_of_ne entry ne).trans ?_
  simp only [setEntry, Vector.set_set, counter]

/-- A creation off the counter's top. -/
theorem createEntry_of_ne (i : Fin 48) (card : Word) (balance : Int) (status : AccountStatus) (origin : Origin)
    {s : State} (ne : s.cru.useCounter ≠ topStamp) : createEntry i card balance status origin s =
      { s with cru := { s.cru with
        useCounter := s.cru.useCounter + 1
        cache := s.cru.cache.set i
          (some { card, balance, held := 0, status, origin, stamp := s.cru.useCounter + 1 }) } } := by
  rw [createEntry_of_clearedFor, counterAfter, if_neg ne, clearedFor, renumberAtTop_of_ne (s := setEntry i none s) ne]
  simp only [setEntry, Vector.set_set]

/-- Settles O23: allocation by its two cases, use by the counter's top, and creation as the first use of its entry. -/
theorem allocationAndUseOfEntries : Obligations.AllocationAndUseOfEntries := by
  refine ⟨fun s card => ⟨rfl, fun _ => rfl, fun i h => allocate_some h, allocate_none⟩,
    fun i a s entry => ⟨fun lt => useEntry_of_ne entry lt.ne, fun top => ?_⟩,
    fun i card balance st origin s => ?_⟩
  · dsimp only
    refine ⟨by rw [useEntry_of_top entry top], ?_, fun j ne => ⟨fun none => ?_, fun b hb => ?_⟩, ?_⟩
    · rw [useEntry_of_top entry top]
      exact (getElem_set_fin _ i i _).trans (if_pos rfl)
    · rw [useEntry_top_entry entry top ne, none]
      rfl
    · rw [useEntry_top_entry entry top ne, hb]
      obtain ⟨low, high⟩ := restamp_range hb
      exact ⟨_, low, high, rfl⟩
    · intro j k b c b' c' hj hk hb hc hb' hc'
      rw [useEntry_top_entry entry top hj, hb] at hb'
      rw [useEntry_top_entry entry top hk, hc] at hc'
      cases hb'
      cases hc'
      exact restamp_lt_iff hb _
  · refine ⟨by rw [createEntry_of_clearedFor]; rfl, ?_, wanted_createEntry i card balance st origin s,
      createEntry_does i card balance st origin s⟩
    rw [createEntry_of_clearedFor]
    exact (getElem_set_fin _ i i _).trans (if_pos rfl)

end Sys2Proof.Machine.Cards
end

section
/-!
SUPPORT. What the requests that resume leave (R54 to R57): the store but for slots and counters, and no directive lost,
since each hold spends a claim, and a grant an entry that waits (R115).
-/
namespace Sys2Proof.Machine.Cards
open Settlement

/-! ### Room for the grants to come -/

/-- No directive is lost, and the held-back lists have room for the grant of each entry that waits and for `n` more. -/
def Spare (n : Nat) (s : State) : Prop := RoomFor ((waitingOrder s).length + n) s ∧ s.rlc.lost = []

/-- A grant uses up the room of its own entry: `before` holds the entries that the walk has gone by. -/
theorem spare_walk {n : Nat} (items : List WalkItem) (earliest : Option WalkItem) (before : List WalkItem) (s : State)
    (order : (waitingOrder s).Sublist (before ++ items)) (room : RoomFor (before.length + items.length + n) s)
    (kept : s.rlc.lost = []) : Spare n (walk items earliest s) := by
  have stop : Spare n s := by
    refine ⟨room.mono ?_, kept⟩
    have := order.length_le
    rw [List.length_append] at this
    omega
  induction items generalizing earliest before s with
  | nil => exact stop
  | cons item rest ih =>
    have skip : ∀ earliest, Spare n (walk rest earliest s) := fun earliest =>
      ih earliest (before ++ [item]) s (by simpa using order)
        (room.mono (by simp only [List.length_append, List.length_cons, List.length_nil]; omega)) kept stop
    have grant : ∀ earliest u, u.rlc = (grantItem item s).rlc → waitingOrder u = waitingOrder (grantItem item s) →
        Spare n (walk rest earliest u) := by
      intro earliest u hr hw
      rcases waitingOrder_grantItem item s with e | ⟨sub, gone, -⟩
      · rw [e] at hr hw
        have room' := room.congr hr
        have kept' : u.rlc.lost = [] := by rw [hr]; exact kept
        refine ih earliest (before ++ [item]) u (by rw [hw]; simpa using order)
          (room'.mono (by simp only [List.length_append, List.length_cons, List.length_nil]; omega)) kept' ⟨?_, kept'⟩
        rw [hw]
        exact stop.1.congr hr
      · obtain ⟨room', lost⟩ := uses_grantItem item s (before.length + rest.length + n)
          (room.mono (by rw [List.length_cons]; omega))
        have order' := sublist_without (sub.trans order) gone
        have kept' : u.rlc.lost = [] := by rw [hr, lost]; exact kept
        refine ih earliest before u (by rw [hw]; exact order') (room'.congr hr) kept' ⟨?_, kept'⟩
        rw [hw]
        refine (room'.congr hr).mono ?_
        have := order'.length_le
        rw [List.length_append] at this
        omega
    unfold walk
    split
    · exact skip _
    · split
      · refine grant _ _ ?_ ?_
        · split
          · exact rlc_raiseBypass _ _
          · rfl
        · split
          · exact waitingOrder_raiseBypass _ _
          · rfl
      · split
        · exact stop
        · exact skip _

theorem Spare.evaluate {n : Nat} {s : State} (h : Spare n s) : Spare n (evaluate s) := by
  unfold Machine.evaluate
  extract_lets u
  have room : RoomFor ((waitingOrder u).length + n) u := h.1
  split
  · exact ⟨room, h.2⟩
  · exact spare_walk _ none [] _ (List.Sublist.refl _) (room.mono (by simp)) h.2

theorem Spare.mono {m n : Nat} {s : State} (h : Spare n s) (le : m ≤ n) : Spare m s :=
  ⟨h.1.mono (by omega), h.2⟩

theorem Spare.of_eq {n : Nat} {s t : State} (h : Spare n s) (hr : t.rlc = s.rlc) (hl : t.lba = s.lba) : Spare n t := by
  refine ⟨?_, by rw [hr]; exact h.2⟩
  rw [waitingOrder_congr hl]
  exact h.1.congr hr

/-! ### Claims are spent -/

/-- The count of claims. -/
def claims (s : State) : Nat := (positionsWhere fun p => (claimAt s p).isSome).length

theorem claims_le (s : State) : claims s ≤ 24 :=
  (List.length_filter_le _ _).trans (by simp [allPositions])

theorem claims_congr {s t : State} (h : ∀ p, claimAt t p = claimAt s p) : claims t = claims s := by
  unfold claims; simp only [h]

/-- A claim that becomes something else is one claim less. -/
theorem claims_lt {s t : State} {p : Pos} {c : Claim} (here : claimAt s p = some c) (gone : claimAt t p = none)
    (others : ∀ q, q ≠ p → claimAt t q = claimAt s q) : claims t + 1 ≤ claims s := by
  have sub : (positionsWhere fun q => (claimAt t q).isSome).Sublist (positionsWhere fun q => (claimAt s q).isSome) := by
    refine List.monotone_filter_right _ fun q hq => ?_
    by_cases e : q = p
    · rw [e, gone] at hq; cases hq
    · rwa [← others q e]
  refine Nat.lt_of_le_of_ne sub.length_le fun e => ?_
  have same := sub.eq_of_length e
  have mem : p ∈ positionsWhere fun q => (claimAt s q).isSome := by
    rw [positionsWhere, List.mem_filter]
    exact ⟨mem_allPositions p, by rw [here]; rfl⟩
  rw [← same, positionsWhere, List.mem_filter, gone] at mem
  cases mem.2

/-- Nothing is owed, and every claim can still take its hold and every entry its grant without a loss. -/
def Open (s : State) : Prop := s.lba.evalDue = false ∧ Spare (claims s) s

theorem open_of_room {s : State} (rest : AtRest s) (room : RoomHeld s) : Open s := by
  refine ⟨rest.1, fun b => ?_, rest.2⟩
  have := room b
  have := claims_le s
  omega

theorem Open.atRest {s : State} (h : Open s) : AtRest s := ⟨h.1, h.2.2⟩

theorem Open.of_frame {s t : State} (h : Open s) (hr : t.rlc = s.rlc) (hl : t.lba = s.lba)
    (hp : t.positions = s.positions) : Open t :=
  ⟨by rw [hl]; exact h.1, by
    rw [claims_congr (claimAt_of_positions hp)]
    exact h.2.of_eq hr hl⟩

/-! ### What resuming requests keep -/

/-- What the resumption of requests keeps: of the store, the host's tables and the journal, the room's mode and the
fault log, the cards on the wanted list, the account entries up to their held amounts, and the room for what is still to
come. -/
structure Resumed (s t : State) : Prop where
  config : ConfigKept s.nv t.nv
  journal : t.nv.journal = s.nv.journal
  rcs : t.rcs = s.rcs
  fm : t.fm = s.fm
  cards : t.cru.wanted.map Wanted.card = s.cru.wanted.map Wanted.card
  entries : UpToHeld s t
  room : Open s → Open t

theorem configKept_refl (a : Retained) : ConfigKept a a := ⟨rfl, rfl, rfl, rfl, rfl, rfl, rfl, rfl, rfl, rfl⟩

theorem configKept_trans {a b c : Retained} (h : ConfigKept a b) (k : ConfigKept b c) : ConfigKept a c := by
  obtain ⟨h1, h2, h3, h4, h5, h6, h7, h8, h9, h10⟩ := h
  obtain ⟨k1, k2, k3, k4, k5, k6, k7, k8, k9, k10⟩ := k
  exact ⟨k1.trans h1, k2.trans h2, k3.trans h3, k4.trans h4, k5.trans h5, k6.trans h6, k7.trans h7, k8.trans h8,
    k9.trans h9, k10.trans h10⟩

theorem Resumed.refl (s : State) : Resumed s s := ⟨configKept_refl _, rfl, rfl, rfl, rfl, .refl s, id⟩

theorem Resumed.trans {s t u : State} (h : Resumed s t) (k : Resumed t u) : Resumed s u :=
  ⟨configKept_trans h.config k.config, k.journal.trans h.journal, k.rcs.trans h.rcs, k.fm.trans h.fm,
    k.cards.trans h.cards,
    h.entries.trans k.entries, fun o => k.room (h.room o)⟩

theorem resumed_answerTap (l : Terminal) (f : Frame) (s : State) : Resumed s (answerTap l f s) := by
  rw [answerTap_does]
  exact ⟨configKept_refl _, rfl, rfl, rfl, rfl, .of_cache rfl, fun o => o.of_frame rfl rfl rfl⟩

theorem cards_withdrawWaiter (l : Terminal) (s : State) :
    (withdrawWaiter l s).cru.wanted.map Wanted.card = s.cru.wanted.map Wanted.card := by
  simp only [withdrawWaiter, setWanted, List.map_map, Function.comp_def]

theorem open_vacate {s : State} (h : Open s) {p : Pos} {c : Claim} (here : claimAt s p = some c) :
    Open (vacate p s) := by
  have fewer := claims_lt here (claimAt_vacate_self p s) fun q e => claimAt_vacate_ne e s
  exact ⟨h.1, (h.2.of_eq (t := vacate p s) rfl rfl).mono (by omega)⟩

theorem resumed_dropClaim (p : Pos) (reason : Reason) (s : State) : Resumed s (dropClaim p reason s) := by
  unfold dropClaim
  split
  · exact .refl s
  · next c here =>
    refine Resumed.trans ?_ (resumed_answerTap _ _ _)
    exact ⟨configKept_refl _, rfl, rfl, rfl, cards_withdrawWaiter _ _, .of_cache rfl,
      fun o => (open_vacate o here).of_frame rfl rfl rfl⟩

theorem open_joinHold {s : State} (h : Open s) {p : Pos} {c : Claim} (here : claimAt s p = some c) (quote nominal : Nat)
    (origin : Option Origin) : Open (joinHold p c quote nominal origin s) := by
  obtain ⟨x, live⟩ := live_joinHold p c quote nominal origin s
  have fewer := claims_lt here (claimAt_of_live live) fun q e => claimAt_joinHold_ne e c quote nominal origin s
  refine ⟨evalDue_evaluate _, Spare.evaluate ⟨?_, ?_⟩⟩
  · have base : (if c.cls = .account then raiseHeld c.card quote s else s).rlc = s.rlc
        ∧ (if c.cls = .account then raiseHeld c.card quote s else s).lba = s.lba := by
      split
      · rw [raiseHeld_does]; exact ⟨rfl, rfl⟩
      · exact ⟨rfl, rfl⟩
    refine (h.2.1.congr (t := modLba _ (putSession p _ _)) base.1).mono ?_
    rw [length_waitingOrder, length_waitingOrder]
    simp only [modLba, putSession, writeSlot, writeNv, setSession, setOccupancy, modPos, base.2, List.length_append,
      List.length_cons, List.length_nil]
    omega
  · show (if c.cls = .account then raiseHeld c.card quote s else s).rlc.lost = []
    split
    · rw [raiseHeld_does]; exact h.2.2
    · exact h.2.2

/-- Of the store, a hold writes a slot alone. -/
theorem nv_joinHold (p : Pos) (c : Claim) (quote nominal : Nat) (origin : Option Origin) (s : State) :
    (joinHold p c quote nominal origin s).nv =
      { s.nv with slots := (joinHold p c quote nominal origin s).nv.slots } := by
  have b := (budgetOnly_joinHold p c quote nominal origin s).nv
  have base : (if c.cls = .account then raiseHeld c.card quote s else s).nv = s.nv := by
    split
    · rw [raiseHeld_does]
    · rfl
  refine b.trans ?_
  simp only [modLba, putSession, writeSlot, writeNv, setSession, setOccupancy, modPos, base]

theorem frame_joinHold (p : Pos) (c : Claim) (quote nominal : Nat) (origin : Option Origin) (s : State) :
    (joinHold p c quote nominal origin s).rcs = s.rcs ∧ (joinHold p c quote nominal origin s).fm = s.fm
      ∧ (joinHold p c quote nominal origin s).hlp = s.hlp := by
  rw [(budgetOnly_joinHold p c quote nominal origin s).frame]
  show (if c.cls = .account then raiseHeld c.card quote s else s).rcs = s.rcs
    ∧ (if c.cls = .account then raiseHeld c.card quote s else s).fm = s.fm
    ∧ (if c.cls = .account then raiseHeld c.card quote s else s).hlp = s.hlp
  split
  · rw [raiseHeld_does]; exact ⟨rfl, rfl, rfl⟩
  · exact ⟨rfl, rfl, rfl⟩

theorem resumed_joinHold {s : State} {p : Pos} {c : Claim} (here : claimAt s p = some c) (quote nominal : Nat)
    (origin : Option Origin) : Resumed s (joinHold p c quote nominal origin s) := by
  have nv := nv_joinHold p c quote nominal origin s
  obtain ⟨rcs, fm, -⟩ := frame_joinHold p c quote nominal origin s
  refine ⟨?_, by rw [nv], rcs, fm, by rw [wanted_joinHold], ?_, fun o => open_joinHold o here quote nominal origin⟩
  · rw [nv]; exact configKept_refl _
  · refine UpToHeld.trans (t := if c.cls = .account then raiseHeld c.card quote s else s) ?_
      (.of_cache (cache_joinHold p c quote nominal origin s))
    split
    · exact upToHeld_raiseHeld _ _ s
    · exact .refl s

theorem resumed_placeHold {s : State} {p : Pos} {c : Claim} (here : claimAt s p = some c) (quote nominal : Nat)
    (origin : Option Origin) : Resumed s (placeHold p c quote nominal origin s) := by
  rw [placeHold_eq]
  refine (resumed_joinHold here quote nominal origin).trans ?_
  unfold answerStart
  split
  · exact resumed_answerTap _ _ _
  · exact .refl _

theorem resumed_finishClaim {s : State} {p : Pos} {c : Claim} (here : claimAt s p = some c) (quote : Nat)
    (origin : Option Origin) : Resumed s (finishClaim p c quote origin s) := by
  unfold finishClaim
  extract_lets nominal
  split
  · exact resumed_dropClaim _ _ s
  · exact resumed_placeHold here _ _ _

theorem resumed_serveAsker (card : Word) (a : Asker) (s : State) : Resumed s (serveAsker card a s) := by
  cases a with
  | start p =>
    unfold serveAsker
    dsimp only
    split
    · next c here =>
      unfold admitAccount
      split
      · exact .refl s
      · extract_lets quote
        split_ifs
        · exact resumed_dropClaim _ _ s
        · exact resumed_dropClaim _ _ s
        · exact resumed_finishClaim here _ _
    · exact .refl s
  | balance l =>
    unfold serveAsker answerBalance
    dsimp only
    split
    · exact .refl s
    · split_ifs
      · exact resumed_answerTap _ _ s
      · exact resumed_answerTap _ _ s

theorem resumed_failAsker (card : Word) (reason : Reason) (a : Asker) (s : State) :
    Resumed s (failAsker card reason a s) := by
  cases a with
  | start p => exact resumed_dropClaim p reason s
  | balance l => exact resumed_answerTap _ _ s

theorem resumed_foldl {act : State → Asker → State} (each : ∀ s a, Resumed s (act s a)) (askers : List Asker)
    (s : State) : Resumed s (askers.foldl act s) := by
  induction askers generalizing s with
  | nil => exact .refl s
  | cons a askers ih => exact (each s a).trans (ih _)

theorem resumed_serveAskers (card : Word) (askers : List Asker) (s : State) :
    Resumed s (serveAskers card askers s) := resumed_foldl (fun s a => resumed_serveAsker card a s) askers s

/-- A request that fails leaves every entry as it is. -/
theorem cache_failAskers (card : Word) (reason : Reason) (askers : List Asker) (s : State) :
    (askers.foldl (fun s a => failAsker card reason a s) s).cru.cache = s.cru.cache := by
  induction askers generalizing s with
  | nil => rfl
  | cons a askers ih =>
    refine (ih _).trans ?_
    cases a with
    | start p => exact cache_dropClaim p reason s
    | balance l => show (answerTap _ _ _).cru.cache = _; rw [cache_answerTap]

end Sys2Proof.Machine.Cards
end

section
/-!
Account Load, and the end of a card's wanted entry (R55, R59 to R61): O22, O36.
-/
namespace Sys2Proof.Machine.Cards
open Settlement

/-! ### Entries found -/

theorem findWay_of_findEntry {s : State} {card : Word} {i : Fin 48} {a : Account}
    (hit : findEntry s card = some (i, a)) : findWay s card = some i := by
  unfold findEntry at hit
  cases found : findWay s card with
  | none => rw [found] at hit; cases hit
  | some j =>
    rw [found] at hit
    obtain ⟨x, -, e⟩ := Option.map_eq_some_iff.mp hit
    cases e
    rfl

/-- An entry is found by its card while the cards of its set stay. -/
theorem findEntry_of_sameCards {s t : State} {card : Word} {i : Fin 48} {a b : Account}
    (hit : findEntry s card = some (i, a)) (same : SameCards s t) (entry : entryAt t i = some b) :
    findEntry t card = some (i, b) := by
  unfold findEntry
  rw [same.findWay, findWay_of_findEntry hit]
  exact congrArg (Option.map fun a => (i, a)) entry

/-- An entry whose held amount alone may have changed. -/
theorem findEntry_of_upToHeld {s t : State} {card : Word} {i : Fin 48} {a : Account}
    (hit : findEntry s card = some (i, a)) (kept : UpToHeld s t) :
    ∃ b, findEntry t card = some (i, b) ∧ b = { a with held := b.held } := by
  have entry := kept i
  rw [(entryAt_of_findEntry hit).1] at entry
  obtain ⟨b, hb, e⟩ := Option.map_eq_some_iff.mp entry
  refine ⟨b, findEntry_of_sameCards hit kept.sameCards hb, ?_⟩
  cases a; cases b; cases e; rfl

/-- The only entry of a set that names a card is found by it (R47). -/
theorem findEntry_of_only {s : State} {card : Word} {i : Fin 48} {a : Account} (way : i ∈ waysOf card)
    (entry : entryAt s i = some a) (named : a.card = card)
    (only : ∀ j ∈ waysOf card, j ≠ i → (entryAt s j).map Account.card ≠ some card) :
    findEntry s card = some (i, a) := by
  obtain ⟨⟨j, b⟩, found⟩ := Option.isSome_iff_exists.mp (hit_of_entryAt way entry named)
  obtain ⟨hb, card'⟩ := entryAt_of_findEntry found
  have e : j = i := by
    by_contra ne
    exact only j (List.mem_of_find?_eq_some (findWay_of_findEntry found)) ne (by rw [hb, ← card']; rfl)
  subst e
  rw [entry] at hb
  cases hb
  exact found

theorem ne_of_miss {s : State} {card : Word} (miss : findEntry s card = none) (j : Fin 48) (way : j ∈ waysOf card) :
    (entryAt s j).map Account.card ≠ some card := fun e => by
  obtain ⟨a, ha, named⟩ := Option.map_eq_some_iff.mp e
  have hit := hit_of_entryAt way ha named
  rw [miss] at hit
  cases hit

/-- An entry that a load writes over is found with what the load wrote (R60). -/
theorem findEntry_loadExisting {s : State} {card : Word} {i : Fin 48} {a : Account}
    (hit : findEntry s card = some (i, a)) (balance : Int) (status : AccountStatus) :
    ∃ b, findEntry (loadExisting i a balance status s) card = some (i, b)
      ∧ b = { a with balance, status, origin := .host, stamp := b.stamp } := by
  have same : SameCards s (setEntry i (some { a with balance, status, origin := .host }) s) := fun j => by
    rw [entryAt_setEntry]
    split
    · next e => rw [e, (entryAt_of_findEntry hit).1]; rfl
    · rfl
  have used := restamped_useEntry i (setEntry i (some { a with balance, status, origin := .host }) s)
  have entry := used i
  rw [entryAt_setEntry, if_pos rfl] at entry
  obtain ⟨b, hb, e⟩ := Option.map_eq_some_iff.mp entry
  refine ⟨b, findEntry_of_sameCards hit (fun j => (sameCards_of_restamped used j).trans (same j)) hb, ?_⟩
  cases a; cases b; cases e; rfl

/-- An entry that is created is found with what it was created with (R50). -/
theorem findEntry_createEntry {s : State} {card : Word} {i : Fin 48} (way : i ∈ waysOf card)
    (miss : findEntry s card = none) (balance : Int) (status : AccountStatus) (origin : Origin) :
    findEntry (createEntry i card balance status origin s) card =
      some (i, { card, balance, held := 0, status, origin, stamp := counterAfter i s }) := by
  refine findEntry_of_only way ?_ rfl fun j hj ne => ?_
  · rw [createEntry_of_clearedFor]
    exact (getElem_set_fin _ i i _).trans (if_pos rfl)
  · have other : (entryAt (createEntry i card balance status origin s) j).map Account.card =
        (entryAt s j).map Account.card := by
      rw [createEntry_eq, sameCards_of_restamped (restamped_useEntry i _) j, entryAt_setEntry, if_neg ne,
        sameCards_of_restamped (restamped_renumberAtTop _) j, entryAt_setEntry, if_neg ne]
    rw [other]
    exact ne_of_miss miss j hj

/-- The state once an entry is written and used, while the use counter stands below its top (R48). -/
def writtenUsed (i : Fin 48) (a : Account) (s : State) : State :=
  { s with cru := { s.cru with
    useCounter := s.cru.useCounter + 1
    cache := s.cru.cache.set i (some { a with stamp := s.cru.useCounter + 1 }) } }

theorem entryAt_writtenUsed (i : Fin 48) (a : Account) (s : State) :
    entryAt (writtenUsed i a s) i = some { a with stamp := s.cru.useCounter + 1 } :=
  (getElem_set_fin _ i i _).trans (if_pos rfl)

theorem useEntry_eq_writtenUsed {s : State} {i : Fin 48} {a : Account} (entry : entryAt s i = some a)
    (below : s.cru.useCounter < 4294967295) : useEntry i s = writtenUsed i a s := useEntry_of_ne entry below.ne

theorem createEntry_eq_writtenUsed (i : Fin 48) (card : Word) (balance : Int) (status : AccountStatus)
    (origin : Origin) {s : State} (below : s.cru.useCounter < 4294967295) :
    createEntry i card balance status origin s =
      writtenUsed i { card, balance, held := 0, status, origin, stamp := s.cru.useCounter + 1 } s :=
  createEntry_of_ne i card balance status origin below.ne

theorem loadExisting_eq_writtenUsed (i : Fin 48) (a : Account) (balance : Int) (status : AccountStatus) {s : State}
    (below : s.cru.useCounter < 4294967295) :
    loadExisting i a balance status s = writtenUsed i { a with balance, status, origin := .host } s := by
  unfold loadExisting
  rw [useEntry_eq_writtenUsed (s := setEntry i _ s) (by rw [entryAt_setEntry, if_pos rfl]) below]
  unfold writtenUsed setEntry
  dsimp only
  rw [Vector.set_set]

/-! ### Requests that a load resumes (R61) -/

/-- What waits on a card's wanted entry; nothing where there is none. -/
def waitersOn (s : State) (card : Word) : List Asker := ((wantedFor s card).map fun w => askersOf s w.waiters).getD []

theorem matchWanted_eq (card : Word) (s : State) :
    matchWanted card s = serveAskers card (waitersOn s card) (removeWanted card s) := by
  unfold matchWanted waitersOn
  cases h : wantedFor s card with
  | none => exact (removeWanted_of_none h).symm
  | some w => rfl

theorem matchWanted_of_none {card : Word} {s : State} (h : wantedFor s card = none) : matchWanted card s = s := by
  unfold matchWanted
  rw [h]

theorem matchWanted_of_some {card : Word} {s : State} {w : Wanted} (h : wantedFor s card = some w) :
    matchWanted card s = serveAskers card (askersOf s w.waiters) (removeWanted card s) := by
  unfold matchWanted
  rw [h]

theorem resumed_matchWanted (card : Word) (s : State) : Resumed (removeWanted card s) (matchWanted card s) := by
  rw [matchWanted_eq]
  exact resumed_serveAskers card _ _

theorem open_matchWanted {card : Word} {s : State} (h : Open s) : Open (matchWanted card s) :=
  (resumed_matchWanted card s).room (h.of_frame rfl rfl rfl)

theorem cards_removeWanted (card : Word) (s : State) :
    (removeWanted card s).cru.wanted.map Wanted.card = (s.cru.wanted.map Wanted.card).filter fun c => c != card := by
  rw [removeWanted, setWanted_cru, List.filter_map]
  rfl

/-! ### Account Load (R59 to R61) -/

/-- The balance that a load leaves: the host's, less the charges past its horizon (R59). -/
def loadedBalance (s : State) (card balance horizon : Word) : Int :=
  clampBalance (balance.toInt - horizonSum s.nv card horizon)

/-- A load within the range, with its status, before the entry is known. -/
structure Loads (balance : Word) (status : Byte) (st : AccountStatus) : Prop where
  low : -999999 ≤ balance.toInt
  high : balance.toInt ≤ 999999
  status : accountStatusOf status = some st

theorem reqAccountLoad_of_hit {card balance horizon : Word} {status : Byte} {st : AccountStatus}
    (h : Loads balance status st) {s : State} {i : Fin 48} {a : Account} (hit : findEntry s card = some (i, a)) :
    reqAccountLoad card balance status horizon s = finishLoad card horizon (loadedBalance s card balance horizon) true s
      (loadExisting i a (loadedBalance s card balance horizon) st s) := by
  obtain ⟨low, high, status⟩ := h
  unfold reqAccountLoad
  rw [if_neg (by omega), status]
  dsimp only
  rw [hit]
  rfl

theorem reqAccountLoad_of_full {card balance horizon : Word} {status : Byte} {st : AccountStatus}
    (h : Loads balance status st) {s : State} (miss : findEntry s card = none) (full : allocate s card = none) :
    reqAccountLoad card balance status horizon s = refuse .tableFull s := by
  obtain ⟨low, high, status⟩ := h
  unfold reqAccountLoad
  rw [if_neg (by omega), status]
  dsimp only
  rw [miss, full]

theorem reqAccountLoad_of_miss {card balance horizon : Word} {status : Byte} {st : AccountStatus}
    (h : Loads balance status st) {s : State} {i : Fin 48} (miss : findEntry s card = none)
    (way : allocate s card = some i) :
    reqAccountLoad card balance status horizon s =
      finishLoad card horizon (loadedBalance s card balance horizon) false s
      (createEntry i card (loadedBalance s card balance horizon) st .host s) := by
  obtain ⟨low, high, status⟩ := h
  unfold reqAccountLoad
  rw [if_neg (by omega), status]
  dsimp only
  rw [miss, way]
  rfl

/-- The reply to a load (R61). -/
def loadReply (card horizon : Word) (balance : Int) (existed : Bool) (before : State) (held : Nat) : List Byte :=
  wordBytes card ++ i32 balance ++ u32 (horizonSum before.nv card horizon)
    ++ u16 (horizonRecords before.nv card horizon).length ++ u32 held ++ flagByte existed
    ++ flagByte (wantedFor before card).isSome

/-- A load that leaves nothing owed is answered with the entry as it then stands. -/
theorem answers_of_load {card balance horizon : Word} {status : Byte} {s after : State} {effective : Int}
    {existed : Bool} (serving : Serving s) (rest : AtRest (matchWanted card after))
    (h : reqAccountLoad card balance status horizon (beginTaking s) =
      finishLoad card horizon effective existed (beginTaking s) after) :
    Answers (.accountLoad card balance status horizon) s (matchWanted card after)
      (.ok (loadReply card horizon effective existed s (heldAmount (matchWanted card after) card))) := by
  refine answers_of_take serving (h.trans ?_) rest
  unfold finishLoad
  rw [acceptClosed_eq, closeTaking_of_rest rest]
  rfl

theorem heldAmount_of_findEntry {s : State} {card : Word} {i : Fin 48} {a : Account}
    (h : findEntry s card = some (i, a)) : heldAmount s card = a.held := by
  unfold heldAmount
  rw [h]
  rfl

theorem loads_of {balance : Word} {status : Byte} (low : -999999 ≤ balance.toInt) (high : balance.toInt ≤ 999999)
    (lt : status.toNat < 2) : Loads balance status (if status = 0 then .good else .suspended) :=
  ⟨low, high, accountStatusOf_of_lt lt⟩

/-- A load with room for the holds it lets through is answered once the requests that wait on its card have resumed. -/
theorem load_answered {card balance horizon : Word} {status : Byte} {s after : State} {effective : Int}
    {existed : Bool} {i : Fin 48} {b : Account} (serving : Serving s) (room : Open after)
    (load : reqAccountLoad card balance status horizon (beginTaking s) =
      finishLoad card horizon effective existed (beginTaking s) after)
    (found : findEntry after card = some (i, b)) (wanted : after.cru.wanted = s.cru.wanted) :
    ∃ t a, Answers (.accountLoad card balance status horizon) s t
        (.ok (loadReply card horizon effective existed s a.held))
      ∧ t.cru.wanted.map Wanted.card = (s.cru.wanted.map Wanted.card).filter (fun c => c != card)
      ∧ findEntry t card = some (i, a) ∧ a = { b with held := a.held } := by
  have served := resumed_matchWanted card after
  obtain ⟨a, ha, e⟩ := findEntry_of_upToHeld (s := removeWanted card after) found served.entries
  have answer := answers_of_load serving (open_matchWanted room).atRest load
  rw [heldAmount_of_findEntry ha] at answer
  exact ⟨_, a, answer, by rw [served.cards, cards_removeWanted, wanted], ha, e⟩

/-- A load for a card on which nothing waits is answered from the entry as written. -/
theorem answers_of_plain_load {card balance horizon : Word} {status : Byte} {s : State} {effective : Int}
    {existed : Bool} {i : Fin 48} {a b : Account} (serving : Serving s) (unwanted : wantedFor s card = none)
    (h : reqAccountLoad card balance status horizon (beginTaking s) =
      finishLoad card horizon effective existed (beginTaking s) (writtenUsed i a (beginTaking s)))
    (found : findEntry (writtenUsed i a (beginTaking s)) card = some (i, b)) :
    Answers (.accountLoad card balance status horizon) s (writtenUsed i a (beginTaking s))
      (.ok (wordBytes card ++ i32 effective ++ u32 (horizonSum s.nv card horizon)
        ++ u16 (horizonRecords s.nv card horizon).length ++ u32 b.held ++ [if existed then 1 else 0, 0])) := by
  have same : matchWanted card (writtenUsed i a (beginTaking s)) = writtenUsed i a (beginTaking s) :=
    matchWanted_of_none (s := writtenUsed i a (beginTaking s)) unwanted
  have answer := answers_of_load serving (by rw [same]; exact serving.1.2.of_eq rfl rfl) h
  rw [same, heldAmount_of_findEntry found] at answer
  unfold loadReply at answer
  rw [unwanted, List.append_assoc] at answer
  exact answer

theorem findEntry_writtenUsed_of_hit {s : State} {card : Word} {i : Fin 48} {a b : Account}
    (hit : findEntry s card = some (i, a)) (named : b.card = a.card) :
    findEntry (writtenUsed i b s) card = some (i, { b with stamp := s.cru.useCounter + 1 }) := by
  refine findEntry_of_sameCards hit (fun j => ?_) ?_
  · refine (congrArg _ (getElem_set_fin s.cru.cache i j _)).trans ?_
    split
    · next e => rw [e, (entryAt_of_findEntry hit).1]; exact congrArg some named
    · rfl
  · exact entryAt_writtenUsed i b s

theorem wanted_loadExisting (i : Fin 48) (a : Account) (balance : Int) (status : AccountStatus) (s : State) :
    (loadExisting i a balance status s).cru.wanted = s.cru.wanted := wanted_useEntry i _

theorem open_loadExisting {s : State} (h : Open s) (i : Fin 48) (a : Account) (balance : Int)
    (status : AccountStatus) : Open (loadExisting i a balance status s) := by
  rw [loadExisting, useEntry_does]
  exact h.of_frame rfl rfl rfl

theorem open_createEntry {s : State} (h : Open s) (i : Fin 48) (card : Word) (balance : Int)
    (status : AccountStatus) (origin : Origin) : Open (createEntry i card balance status origin s) := by
  rw [createEntry_does]
  exact h.of_frame rfl rfl rfl

/-- Settles O22: a load by whether its card has an entry, and the requests that wait on it as `matchWanted` serves
them. -/
theorem accountLoadWritesTheEntry : Obligations.AccountLoadWritesTheEntry := by
  intro card balance status horizon s serving
  refine ⟨fun wrong => refuses_of_take serving ?_, fun low high lt => ?_⟩
  · show reqAccountLoad card balance status horizon (beginTaking s) = _
    unfold reqAccountLoad
    rcases wrong with out | out | ge
    · exact if_pos (.inl out)
    · exact if_pos (.inr out)
    · rw [accountStatusOf_of_ge ge]
      split <;> rfl
  · have loads := loads_of low high lt
    refine ⟨fun miss full => refuses_of_take serving (reqAccountLoad_of_full loads (s := beginTaking s) miss full),
      fun below unwanted => ⟨fun i a hit => ?_, fun i miss way => ?_⟩, fun known room => ?_⟩
    · have load := reqAccountLoad_of_hit loads (s := beginTaking s) (horizon := horizon) hit
      rw [loadExisting_eq_writtenUsed (s := beginTaking s) _ _ _ _ below] at load
      have answer := answers_of_plain_load serving unwanted load
        (findEntry_writtenUsed_of_hit (s := beginTaking s) hit rfl)
      unfold loadedBalance clampBalance horizonSum horizonRecords at answer
      exact answer
    · have load := reqAccountLoad_of_miss loads (s := beginTaking s) (horizon := horizon) miss way
      have found := findEntry_createEntry (s := beginTaking s) (allocate_free way).1 miss
        (loadedBalance s card balance horizon) (if status = 0 then .good else .suspended) .host
      rw [createEntry_eq_writtenUsed (s := beginTaking s) _ _ _ _ _ below] at load found
      have answer := answers_of_plain_load serving unwanted load found
      unfold loadedBalance clampBalance horizonSum horizonRecords at answer
      exact answer
    · have before := open_of_room (s := beginTaking s) serving.1.2 room
      cases hit : findEntry s card with
      | some e =>
        obtain ⟨i, b⟩ := e
        obtain ⟨c, found, e⟩ := findEntry_loadExisting (s := beginTaking s) hit
          (loadedBalance (beginTaking s) card balance horizon) (if status = 0 then .good else .suspended)
        obtain ⟨t, a, answer, cards, entry, e'⟩ := load_answered serving (open_loadExisting before i b _ _)
          (reqAccountLoad_of_hit loads hit) found (wanted_loadExisting _ _ _ _ _)
        unfold loadReply loadedBalance clampBalance horizonSum horizonRecords at answer
        exact ⟨t, i, a, answer, cards, entry, by rw [e', e]; rfl, by rw [e', e], by rw [e', e]⟩
      | none =>
        cases way : allocate s card with
        | none => exact absurd known (by simp [hit, way])
        | some i =>
          have found := findEntry_createEntry (s := beginTaking s) (allocate_free way).1 hit
            (loadedBalance (beginTaking s) card balance horizon) (if status = 0 then .good else .suspended) .host
          obtain ⟨t, a, answer, cards, entry, e⟩ := load_answered serving (open_createEntry before i card _ _ _)
            (reqAccountLoad_of_miss loads hit way) found (wanted_createEntry _ _ _ _ _ _)
          unfold loadReply loadedBalance clampBalance horizonSum horizonRecords at answer
          exact ⟨t, i, a, answer, cards, entry, by rw [e]; rfl, by rw [e], by rw [e]⟩

/-! ### The end of a wanted entry (R55) -/

theorem frame_createEntry (i : Fin 48) (card : Word) (balance : Int) (status : AccountStatus) (origin : Origin)
    (s : State) : (createEntry i card balance status origin s).nv = s.nv
      ∧ (createEntry i card balance status origin s).rcs = s.rcs
      ∧ (createEntry i card balance status origin s).fm = s.fm := by
  rw [createEntry_does]
  exact ⟨rfl, rfl, rfl⟩

/-- A final record that ends a wait (R70, R76). -/
theorem answerTap_of_flight {l : Terminal} {s : State} (h : (lineOf s l).flight ≠ none) (f : Frame) :
    answerTap l f s = modLine l (fun x => { x with flight := none, out := x.out ++ [f] }) s := by
  unfold answerTap
  rw [if_pos (Option.isSome_iff_ne_none.mpr h)]
  cases l <;> rfl

theorem expireWanted_of_none {card : Word} {s : State} (h : wantedFor s card = none) : expireWanted card s = s := by
  unfold expireWanted
  rw [h]

theorem expireWanted_of_idle {card : Word} {s : State} {w : Wanted} (h : wantedFor s card = some w)
    (idle : w.waiters = []) : expireWanted card s = removeWanted card s := by
  unfold expireWanted
  rw [h]
  dsimp only
  rw [if_pos (by rw [idle]; rfl)]

theorem expireWanted_of_waiters {card : Word} {s : State} {w : Wanted} (h : wantedFor s card = some w)
    (waited : w.waiters ≠ []) :
    expireWanted card s = offlineDecision card (askersOf s w.waiters) (removeWanted card s) := by
  unfold expireWanted
  rw [h]
  dsimp only
  rw [if_neg (by simpa using waited)]

/-- The entry that the offline decision creates (R55). -/
def provisionalEntry (card : Word) (s : State) : Account where
  card := card
  balance := 0
  held := 0
  status := .good
  origin := .provisional
  stamp := s.cru.useCounter + 1

theorem createProvisional (i : Fin 48) (card : Word) {s : State} (below : s.cru.useCounter < 4294967295) :
    createEntry i card 0 .good .provisional s = writtenUsed i (provisionalEntry card s) s :=
  createEntry_eq_writtenUsed i card 0 .good .provisional below

/-- The reason with which every request ends where no PROVISIONAL entry is created. -/
def offlineReason (s : State) : Reason :=
  if s.nv.settings.offlineAllowance = 0 then .accountUnavailable else .tableFull

theorem offlineDecision_of_none {card : Word} {s : State}
    (h : s.nv.settings.offlineAllowance = 0 ∨ allocate s card = none) (askers : List Asker) :
    offlineDecision card askers s = askers.foldl (fun u a => failAsker card (offlineReason s) a u) s := by
  unfold offlineDecision offlineReason
  split_ifs with zero
  · rfl
  · rw [h.resolve_left zero]

theorem offlineDecision_of_way {card : Word} {s : State} {i : Fin 48} (allowance : s.nv.settings.offlineAllowance ≠ 0)
    (way : allocate s card = some i) (askers : List Asker) :
    offlineDecision card askers s = serveAskers card askers (createEntry i card 0 .good .provisional s) := by
  unfold offlineDecision
  rw [if_neg allowance, way]

/-- The decision keeps room for the holds and grants to come. -/
theorem open_offlineDecision {s : State} (h : Open s) (card : Word) (askers : List Asker) :
    Open (offlineDecision card askers s) := by
  by_cases none : s.nv.settings.offlineAllowance = 0 ∨ allocate s card = none
  · rw [offlineDecision_of_none none]
    exact (resumed_foldl (fun s a => resumed_failAsker card _ a s) askers s).room h
  · obtain ⟨allowance, free⟩ := not_or.mp none
    obtain ⟨i, way⟩ := Option.ne_none_iff_exists'.mp free
    rw [offlineDecision_of_way allowance way]
    exact (resumed_serveAskers card askers _).room (open_createEntry h i card _ _ _)

/-- An expiry that leaves nothing owed is its effect. -/
theorem exec_wantedExpiry {s t : State} {card : Word} (taking : Taking s) (h : expireWanted card (beginTaking s) = t)
    (rest : AtRest t) : exec (.wantedExpiry card) s = .next t := by
  show Host.Outcome.next (Machine.taking (expireWanted card) s) = _
  rw [taking_of_takes taking.1, h, closeTaking_of_rest rest]

theorem exec_wantedExpiry_of_room {s : State} {card : Word} {w : Wanted} (taking : Taking s) (room : RoomHeld s)
    (h : wantedFor s card = some w) (waited : w.waiters ≠ []) : exec (.wantedExpiry card) s =
      .next (offlineDecision card (askersOf s w.waiters) (removeWanted card (beginTaking s))) :=
  exec_wantedExpiry taking (expireWanted_of_waiters (s := beginTaking s) h waited)
    (open_offlineDecision (s := removeWanted card (beginTaking s))
      ((open_of_room (s := beginTaking s) taking.2 room).of_frame rfl rfl rfl) card _).atRest

/-- What the decision leaves of the wanted list, the store, the room and the fault log. -/
theorem offlineDecision_keeps (card : Word) (askers : List Asker) (s : State) :
    (offlineDecision card askers s).cru.wanted.map Wanted.card = s.cru.wanted.map Wanted.card
      ∧ ConfigKept s.nv (offlineDecision card askers s).nv
      ∧ (offlineDecision card askers s).nv.journal = s.nv.journal
      ∧ (offlineDecision card askers s).rcs = s.rcs ∧ (offlineDecision card askers s).fm = s.fm := by
  by_cases none : s.nv.settings.offlineAllowance = 0 ∨ allocate s card = none
  · rw [offlineDecision_of_none none]
    have kept := resumed_foldl (fun u a => resumed_failAsker card (offlineReason s) a u) askers s
    exact ⟨kept.cards, kept.config, kept.journal, kept.rcs, kept.fm⟩
  · obtain ⟨allowance, free⟩ := not_or.mp none
    obtain ⟨i, way⟩ := Option.ne_none_iff_exists'.mp free
    rw [offlineDecision_of_way allowance way]
    have kept := resumed_serveAskers card askers (createEntry i card 0 .good .provisional s)
    obtain ⟨nv, rcs, fm⟩ := frame_createEntry i card 0 .good .provisional s
    exact ⟨by rw [kept.cards, wanted_createEntry], nv ▸ kept.config, by rw [kept.journal, nv], kept.rcs.trans rcs,
      kept.fm.trans fm⟩

/-- The entry that the decision creates stays through the requests it serves, up to its held amount. -/
theorem provisional_served (i : Fin 48) (card : Word) (askers : List Asker) {s : State}
    (below : s.cru.useCounter < 4294967295) :
    ∃ a, (serveAskers card askers (createEntry i card 0 .good .provisional s)).cru.cache[i] = some a
      ∧ a.card = card ∧ a.balance = 0 ∧ a.status = .good ∧ a.origin = .provisional := by
  rw [createProvisional i card below]
  have entry := (resumed_serveAskers card askers (writtenUsed i (provisionalEntry card s) s)).entries i
  rw [entryAt_writtenUsed] at entry
  obtain ⟨a, ha, e⟩ := Option.map_eq_some_iff.mp entry
  exact ⟨a, ha, congrArg Account.card e, congrArg Account.balance e, congrArg Account.status e,
    congrArg Account.origin e⟩

/-- Settles O36: by whether the card is wanted, and who waits on it. -/
theorem wantedExpiryDecidesOffline : Obligations.WantedExpiryDecidesOffline := by
  intro card s taking
  refine ⟨fun unwanted => ?_, fun w wanted => ⟨fun idle => ?_, fun l alone flight zero => ?_, fun waited room => ?_⟩⟩
  · exact exec_wantedExpiry taking (expireWanted_of_none (s := beginTaking s) unwanted) (taking.2.of_eq rfl rfl)
  · exact exec_wantedExpiry taking (expireWanted_of_idle (s := beginTaking s) wanted idle) (taking.2.of_eq rfl rfl)
  · have asks : askersOf (beginTaking s) w.waiters = [.balance l] := by
      have flight : (lineOf (beginTaking s) l).flight = some (.balance card) := flight
      simp [askersOf, alone, flight]
    have decided : expireWanted card (beginTaking s) =
        modLine l (fun x => { x with flight := none, out := x.out ++ [refusedRecord 2 card 0 .accountUnavailable] })
          (removeWanted card (beginTaking s)) := by
      rw [expireWanted_of_waiters (s := beginTaking s) wanted (by rw [alone]; simp), asks,
        offlineDecision_of_none (s := removeWanted card (beginTaking s)) (.inl zero), offlineReason,
        if_pos (show (removeWanted card (beginTaking s)).nv.settings.offlineAllowance = 0 from zero)]
      exact answerTap_of_flight (s := removeWanted card (beginTaking s)) (by
        show (lineOf s l).flight ≠ none
        rw [flight]; nofun) _
    refine exec_wantedExpiry taking (decided.trans ?_) ?_
    · cases l <;> rfl
    · cases l <;> exact taking.2.of_eq rfl rfl
  · refine ⟨_, exec_wantedExpiry_of_room taking room wanted waited, ?_⟩
    obtain ⟨cards, config, journal, rcs, fm⟩ :=
      offlineDecision_keeps card (askersOf s w.waiters) (removeWanted card (beginTaking s))
    refine ⟨cards.trans (cards_removeWanted card _), fun none => ?_, fun i allowance way below => ?_, config, journal,
      rcs, fm⟩
    · rw [offlineDecision_of_none (s := removeWanted card (beginTaking s)) none]
      exact cache_failAskers card _ _ _
    · rw [offlineDecision_of_way (s := removeWanted card (beginTaking s)) allowance way]
      exact provisional_served i card _ below

end Sys2Proof.Machine.Cards
end

section
/-!
The requests that wait on a wanted entry, resumed one by one (R55 to R58, R60, R61, R73, R74): O37.
-/
namespace Sys2Proof.Machine.Cards
open Settlement

/-! ### The second pass (R74) -/

/-- A check that finds a reason ends the pass. -/
theorem orElse_ite {c : Prop} [Decidable c] (r : Reason) (rest : Option Reason) :
    ((if c then some r else none) <|> rest) = if c then some r else rest := by
  split <;> rfl

theorem checkRoom_orElse (s : State) (rest : Option Reason) : (checkRoom s <|> rest) =
    if s.rcs.mode = .alarm then some .roomAlarm else if s.rcs.mode = .closed then some .roomClosed else rest := by
  unfold checkRoom
  cases s.rcs.mode <;> rfl

theorem checkQuiet_eq (s : State) (cls : CardClass) : checkQuiet s cls =
    if cls ≠ .service ∧ effectiveMode s = .quiet then some .roomQuiet else none := by
  unfold checkQuiet isTested
  simp only [Bool.and_eq_true, bne_iff_ne, beq_iff_eq]

theorem checkLate_eq (s : State) (cls : CardClass) (nominal : Nat) : checkLate s cls nominal =
    if cls ≠ .service ∧ ((lateDistance s).any fun d => decide (d < nominal)) = true then some .lateStart else none := by
  unfold checkLate isTested
  cases lateDistance s with
  | none => simp
  | some d => simp only [Bool.and_eq_true, bne_iff_ne, Option.any_some]

/-- The order of the checks at the hold. -/
theorem secondPass_eq (s : State) (cls : CardClass) (nominal : Nat) : secondPass s cls nominal =
    if s.rcs.mode = .alarm then some .roomAlarm
    else if s.rcs.mode = .closed then some .roomClosed
    else if cls ≠ .service ∧ effectiveMode s = .quiet then some .roomQuiet
    else if cls ≠ .service ∧ ((lateDistance s).any fun d => decide (d < nominal)) = true then some .lateStart
    else if 256 ≤ journalOccupancy s.nv + (liveSessions s).length then some .journalFull
    else if 8 ≤ s.lba.startQueue.length then some .queueFull
    else none := by
  unfold secondPass checkJournal checkQueue
  rw [checkRoom_orElse, checkQuiet_eq, checkLate_eq, orElse_ite, orElse_ite, orElse_ite]

/-! ### A claim that waits is dropped or held -/

theorem posAt_vacate_ne {p q : Pos} (h : q ≠ p) (s : State) : posAt (vacate p s) q = posAt s q := by
  unfold vacate restSilence setOccupancy
  rw [posAt_modPos_ne h, posAt_modPos_ne h]

theorem occupancy_vacate (p : Pos) (s : State) : (posAt (vacate p s) p).occupancy = .vacant := by
  unfold vacate restSilence setOccupancy
  rw [posAt_modPos_self, posAt_modPos_self]
  split <;> rfl

theorem dropClaim_of_claim {p : Pos} {c : Claim} {s : State} (claim : claimAt s p = some c) (reason : Reason) :
    dropClaim p reason s = answerTap c.terminal (refusedRecord 1 c.card (posByte p) reason)
      (withdrawWaiter c.terminal (vacate p s)) := by
  unfold dropClaim
  rw [claim]
  rfl

theorem claimDropped_dropClaim {s : State} {p : Pos} {c : Claim} (claim : claimAt s p = some c)
    (flight : (lineOf s c.terminal).flight ≠ none) (reason : Reason) :
    ClaimDropped s (dropClaim p reason s) p c reason := by
  have cache := cache_dropClaim p reason s
  have does := dropClaim_does p reason s
  have drop := dropClaim_of_claim claim reason
  rw [answerTap_of_flight (s := withdrawWaiter c.terminal (vacate p s)) flight] at drop
  have positions : (dropClaim p reason s).positions = (vacate p s).positions := by
    rw [drop, modLine_does]
    rfl
  refine ⟨?_, fun q ne => ?_, ?_, fun l ne => ?_, by rw [does], by rw [does], by rw [does], by rw [does], by rw [does],
    by rw [does], cache⟩
  · rw [posAt_congr positions, occupancy_vacate]
  · rw [posAt_congr positions, posAt_vacate_ne ne]
  · rw [drop, lineOf_modLine_self]
    rfl
  · rw [drop, lineOf_modLine_ne ne]
    rfl

theorem cru_joinHold (p : Pos) (c : Claim) (quote nominal : Nat) (origin : Option Origin) (s : State) :
    (joinHold p c quote nominal origin s).cru = (if c.cls = .account then raiseHeld c.card quote s else s).cru := by
  rw [(budgetOnly_joinHold p c quote nominal origin s).frame]
  rfl

theorem posAt_joinBase_ne {p q : Pos} (h : q ≠ p) (c : Claim) (ses : Session) (quote : Nat) (s : State) :
    posAt (putSession p ses (if c.cls = .account then raiseHeld c.card quote s else s)) q = posAt s q := by
  show posAt (setOccupancy p (.live ses) (if c.cls = .account then raiseHeld c.card quote s else s)) q = _
  rw [setOccupancy, posAt_modPos_ne h]
  refine posAt_congr ?_ q
  split
  · rw [raiseHeld_does]
  · rfl

theorem sessionAt_joinHold (p : Pos) (c : Claim) (quote nominal : Nat) (origin : Option Origin) (s : State) :
    ∃ ses, sessionAt (joinHold p c quote nominal origin s) p = some ses
      ∧ GrantedOnly (.live (heldSession s c quote nominal origin)) (.live ses) := by
  have granted := (budgetOnly_joinHold p c quote nominal origin s).granted p
  have base : (posAt (modLba (fun l => { l with startQueue := l.startQueue ++ [{ pos := p, bypass := 0 }] })
      (putSession p (heldSession s c quote nominal origin)
        (if c.cls = .account then raiseHeld c.card quote s else s))) p).occupancy =
      .live (heldSession s c quote nominal origin) := sessionAt_eq_some.mp (sessionAt_putSession_self p _ _)
  rw [base] at granted
  obtain ⟨ses, live, e⟩ := granted
  exact ⟨ses, sessionAt_eq_some.mpr live, ses, rfl, e⟩

theorem othersKept_joinHold (p : Pos) (c : Claim) (quote nominal : Nat) (origin : Option Origin) (s : State) :
    OthersKept [p] s (joinHold p c quote nominal origin s) := fun q out => by
  have granted := (budgetOnly_joinHold p c quote nominal origin s).granted q
  have ne : q ≠ p := fun e => out (List.mem_singleton.mpr e)
  exact posAt_joinBase_ne ne c (heldSession s c quote nominal origin) quote s ▸ granted

/-- A hold placed for a claim that waited. -/
theorem claimHeld_placeHold {s : State} {p : Pos} {c : Claim} {i : Fin 48} {e : Account}
    (claim : claimAt s p = some c) (account : c.cls = .account) (flight : (lineOf s c.terminal).flight ≠ none)
    (hit : findEntry s c.card = some (i, e)) (quote : Nat) :
    ClaimHeld s (placeHold p c quote (nominalMinutes (claimProgram s c) + c.ext) (some e.origin) s) p c quote i e := by
  obtain ⟨ses, live, granted⟩ :=
    sessionAt_joinHold p c quote (nominalMinutes (claimProgram s c) + c.ext) (some e.origin) s
  have kept := resumed_joinHold claim quote (nominalMinutes (claimProgram s c) + c.ext) (some e.origin)
  have others := othersKept_joinHold p c quote (nominalMinutes (claimProgram s c) + c.ext) (some e.origin) s
  have hlp := (frame_joinHold p c quote (nominalMinutes (claimProgram s c) + c.ext) (some e.origin) s).2.2
  have cache := cru_joinHold p c quote (nominalMinutes (claimProgram s c) + c.ext) (some e.origin) s
  have lines := line_joinHold p c quote (nominalMinutes (claimProgram s c) + c.ext) (some e.origin) s
  rw [placeHold_eq]
  generalize joinHold p c quote (nominalMinutes (claimProgram s c) + c.ext) (some e.origin) s = u at *
  unfold answerStart
  rw [live]
  dsimp only
  rw [answerTap_of_flight (by rw [lines]; exact flight)]
  have same := modLine_does c.terminal (fun x => { x with
    flight := none, out := x.out ++ [startRecord p ses (placeOf u p)] }) u
  refine ⟨ses, ?_, granted, ?_, ?_, fun l ne => ?_, ?_, ?_, ?_, ?_, ?_, ?_⟩
  · rw [same]; exact live
  · rw [same]
    show u.cru = _
    rw [cache, if_pos account, raiseHeld_of_hit hit]
    rfl
  · rw [lineOf_modLine_self, lines]
    have place : placeOf (modLine c.terminal (fun x => { x with
      flight := none, out := x.out ++ [startRecord p ses (placeOf u p)] }) u) p = placeOf u p := by rw [same]; rfl
    rw [place]
  · rw [lineOf_modLine_ne ne, lines]
  · rw [same]; exact others
  · rw [same]; exact kept.config
  · rw [same]; exact kept.journal
  · rw [same]; exact kept.rcs
  · rw [same]; exact kept.fm
  · rw [same]; exact hlp

theorem startResumed_serveAsker {card : Word} {s : State} {p : Pos} {c : Claim} {i : Fin 48} {e : Account}
    (claim : claimAt s p = some c) (account : c.cls = .account) (flight : (lineOf s c.terminal).flight ≠ none)
    (hit : findEntry s c.card = some (i, e)) : StartResumed s (serveAsker card (.start p) s) p c i e := by
  have dropped := claimDropped_dropClaim claim flight
  have served : serveAsker card (.start p) s = admitAccount p c s := by
    unfold serveAsker
    dsimp only
    rw [claim]
  rw [served]
  unfold StartResumed admitAccount
  rw [hit]
  extract_lets quote quote'
  dsimp only
  by_cases suspended : e.status = .suspended
  · rw [if_pos suspended, if_pos suspended]
    exact dropped _
  rw [if_neg suspended, if_neg suspended]
  by_cases low : e.balance - e.held - quote < floorOf s.nv.settings e
  · have low' : e.balance - e.held - quote' < floorOf s.nv.settings e := low
    rw [if_pos low, if_pos low']
    exact dropped _
  have low' : ¬ e.balance - e.held - quote' < floorOf s.nv.settings e := low
  rw [if_neg low, if_neg low']
  unfold finishClaim
  extract_lets nominal
  cases secondPass s c.cls nominal with
  | some r => exact dropped _
  | none => exact claimHeld_placeHold claim account flight hit _

/-- A balance enquiry has the figures of its card's entry, or CARD_SUSPENDED (R58, R77). -/
theorem serveAsker_balance {card : Word} {s : State} {i : Fin 48} {e : Account}
    (hit : findEntry s card = some (i, e)) (l : Terminal) : serveAsker card (.balance l) s =
      answerTap l (if e.status = .suspended then refusedRecord 2 card 0 .cardSuspended
        else balanceRecord card (e.balance - e.held) (floorOf s.nv.settings e) (liveAccountCount s card)) s := by
  show answerBalance l card s = _
  unfold answerBalance
  rw [hit]
  dsimp only
  split <;> rfl

/-- Settles O37: each kind of request on its own, then the two ways in which requests resume. -/
theorem requestsResumeInOrder : Obligations.RequestsResumeInOrder := by
  refine ⟨fun card s => ⟨rfl, fun a rest => rfl⟩, fun card p c i e s _ claim account flight hit _ _ => ?_,
    fun card l i e s flight hit => ?_, fun card reason s => ⟨fun p c claim flight => ?_, fun l flight => ?_⟩,
    secondPass_eq, fun card balance horizon w s serving room below low high wanted => ?_,
    fun card w s taking room wanted waited => ?_⟩
  · exact startResumed_serveAsker claim account (by rw [flight]; nofun) hit
  · rw [serveAsker_balance hit]
    exact answerTap_of_flight flight _
  · exact claimDropped_dropClaim claim (by rw [flight]; nofun) reason
  · exact answerTap_of_flight flight _
  · extract_lets records effective loaded
    intro i miss way
    have loads := loads_of (status := 0) low high (by decide)
    have load := reqAccountLoad_of_miss loads (s := beginTaking s) (horizon := horizon) miss way
    have answer := answers_of_load serving (open_matchWanted (open_createEntry
      (open_of_room (s := beginTaking s) serving.1.2 room) i card _ _ _)).atRest load
    rw [createEntry_eq_writtenUsed (s := beginTaking s) _ _ _ _ _ below] at answer
    rw [matchWanted_of_some (s := writtenUsed i _ (beginTaking s)) wanted] at answer
    unfold loadedBalance clampBalance horizonSum horizonRecords at answer
    exact ⟨_, answer⟩
  · have decided := exec_wantedExpiry_of_room taking room wanted waited
    extract_lets removed
    refine ⟨fun i allowance way below => ?_, fun none => ?_⟩
    · rw [decided, offlineDecision_of_way (s := removeWanted card (beginTaking s)) allowance way,
        createProvisional (s := removeWanted card (beginTaking s)) i card below]
      rfl
    · rw [decided, offlineDecision_of_none (s := removeWanted card (beginTaking s)) none]
      rfl

end Sys2Proof.Machine.Cards
end

section
/-!
TAP_BALANCE (R48 to R50, R52, R55, R58, R77): O34.
-/
namespace Sys2Proof.Machine.Cards
open Settlement

/-! ### Records that answer in their own taking (R68, R73) -/

/-- The records that a terminal's request can have in its own taking. -/
theorem pushAnswer_of_room {l : Terminal} {s : State} (room : (lineOf s l).out.length < 6) (f : Frame) :
    pushAnswer l f s = modLine l (fun x => { x with out := x.out ++ [f] }) s := by
  have room : (lineOf s l).out.length < 6 := room
  unfold pushAnswer
  cases l
  · exact congrArg (fun x => { s with tli := { s.tli with one := x } }) (if_pos room)
  · exact congrArg (fun x => { s with tli := { s.tli with two := x } }) (if_pos room)

theorem answerTap_of_idle {l : Terminal} {s : State} (idle : Idle s l) (f : Frame) :
    answerTap l f s = modLine l (fun x => { x with out := x.out ++ [f] }) s := by
  unfold answerTap
  rw [if_neg (by rw [idle.2]; nofun), pushAnswer_of_room idle.1]

theorem beginFlight_balance (l : Terminal) (card : Word) (s : State) : beginFlight l (.balance card) s =
    modLine l (fun x => { x with
      flight := some (.balance card), out := x.out ++ [{ kind := 0x90, body := 2 :: wordBytes card ++ [0] }] }) s := by
  cases l <;> rfl

theorem beginFlight_start (l : Terminal) (card : Word) (p : Pos) (s : State) : beginFlight l (.start card p) s =
    modLine l (fun x => { x with
      flight := some (.start card p)
      out := x.out ++ [{ kind := 0x90, body := 1 :: wordBytes card ++ [posByte p] }] }) s := by
  cases l <;> rfl

/-! ### The lookup of a card (R52) -/

theorem findWay_of_miss {s : State} {card : Word} (miss : findEntry s card = none) : findWay s card = none := by
  rw [← Option.isNone_iff_eq_none, ← Option.not_isSome, ← isSome_findEntry, miss]
  rfl

theorem resolveAccount_of_hit {s : State} {card : Word} {i : Fin 48} {a : Account}
    (hit : findEntry s card = some (i, a)) (below : s.cru.useCounter < 4294967295) (l : Terminal) (asker : Asker) :
    resolveAccount l card asker s = serveAsker card asker (writtenUsed i a s) := by
  unfold resolveAccount
  rw [findWay_of_findEntry hit]
  dsimp only
  rw [useEntry_eq_writtenUsed (entryAt_of_findEntry hit).1 below]

theorem resolveAccount_of_miss {s : State} {card : Word} (miss : findEntry s card = none) (l : Terminal)
    (asker : Asker) : resolveAccount l card asker s = resolveMiss l card asker s := by
  unfold resolveAccount
  rw [findWay_of_miss miss]

theorem resolveMiss_of_full {s : State} {card : Word} (full : allocate s card = none) (l : Terminal)
    (asker : Asker) : resolveMiss l card asker s = failAsker card .tableFull asker s := by
  unfold resolveMiss
  exact if_pos (show setAllPinned s card = true by rw [setAllPinned, full]; rfl)

/-- What joins the wanted list, or the waiters of an entry, with PENDING (R52, R53). -/
theorem resolveMiss_of_wanted {s : State} {card : Word} (free : allocate s card ≠ none)
    (wanted : wantedFor s card ≠ none) (l : Terminal) (asker : Asker) : resolveMiss l card asker s =
      beginFlight l (askerFlight card asker).1 (setWanted (s.cru.wanted.map fun w =>
        if w.card = card then { w with waiters := w.waiters ++ [(l, (askerFlight card asker).2)] } else w) s) := by
  unfold resolveMiss
  refine (if_neg (by simpa [setAllPinned] using free)).trans (if_pos ?_)
  exact Option.isSome_iff_ne_none.mpr wanted

theorem resolveMiss_of_new {s : State} {card : Word} (free : allocate s card ≠ none)
    (unwanted : wantedFor s card = none) (room : s.cru.wanted.length < 4) (l : Terminal) (asker : Asker) :
    resolveMiss l card asker s = beginFlight l (askerFlight card asker).1 (setFlag .accountWanted
        (setWanted (s.cru.wanted ++ [{ card, age := 0, waiters := [(l, (askerFlight card asker).2)] }]) s)) := by
  unfold resolveMiss
  refine (if_neg (by simpa [setAllPinned] using free)).trans ((if_neg ?_).trans (if_pos room))
  rw [unwanted]
  nofun

theorem resolveMiss_of_offline {s : State} {card : Word} (free : allocate s card ≠ none)
    (unwanted : wantedFor s card = none) (crowded : 4 ≤ s.cru.wanted.length) (l : Terminal) (asker : Asker) :
    resolveMiss l card asker s = offlineDecision card [asker] s := by
  unfold resolveMiss
  refine (if_neg (by simpa [setAllPinned] using free)).trans ((if_neg ?_).trans (if_neg (by omega)))
  rw [unwanted]
  nofun

/-- The entry that the offline decision creates is the card's (R50, R55). -/
theorem findEntry_provisional {s : State} {card : Word} {i : Fin 48} (way : allocate s card = some i)
    (miss : findEntry s card = none) (below : s.cru.useCounter < 4294967295) :
    findEntry (writtenUsed i (provisionalEntry card s) s) card = some (i, provisionalEntry card s) := by
  have found := findEntry_createEntry (allocate_free way).1 miss 0 .good .provisional
  rw [createProvisional i card below, counterAfter,
    if_neg (show s.cru.useCounter ≠ topStamp from below.ne)] at found
  exact found

/-! ### A balance enquiry (R58, R77) -/

theorem takeTapBalance_of_full {l : Terminal} {card : Word} {s : State} (full : 6 ≤ (lineOf s l).out.length) :
    takeTapBalance l card s = s := if_pos (decide_eq_true full)

theorem takeTapBalance_of_waiting {l : Terminal} {card : Word} {s : State} (room : (lineOf s l).out.length < 6)
    (waiting : (lineOf s l).flight ≠ none) :
    takeTapBalance l card s = pushAnswer l (refusedRecord 2 card 0 .terminalBusy) s := by
  unfold takeTapBalance
  exact (if_neg (by simp [lineFull, room])).trans (if_pos (Option.isSome_iff_ne_none.mpr waiting))

/-- The first two tests of a request pass at an IDLE terminal with room (R68, R70). -/
theorem idle_passes {l : Terminal} {s : State} (idle : Idle s l) : lineFull s l ≠ true ∧ isWaiting s l ≠ true := by
  unfold lineFull isWaiting
  rw [idle.2]
  exact ⟨by simpa using idle.1, nofun⟩

theorem takeTapBalance_of_idle {l : Terminal} {card : Word} {s : State} (idle : Idle s l) :
    (rangeClassAt s.nv card = some .blocked →
      takeTapBalance l card s = pushAnswer l (refusedRecord 2 card 0 .cardBlocked) s)
    ∧ (rangeClassAt s.nv card = some .free →
      takeTapBalance l card s = pushAnswer l { kind := 0x91, body := 2 :: wordBytes card ++ [0, 1] } s)
    ∧ (rangeClassAt s.nv card = some .service →
      takeTapBalance l card s = pushAnswer l { kind := 0x91, body := 2 :: wordBytes card ++ [0, 2] } s)
    ∧ (rangeClassAt s.nv card = none → takeTapBalance l card s = resolveAccount l card (.balance l) s) := by
  unfold takeTapBalance
  obtain ⟨notFull, notWaiting⟩ := idle_passes idle
  refine ⟨fun cls => ?_, fun cls => ?_, fun cls => ?_, fun cls => ?_⟩
  all_goals
    refine (if_neg notFull).trans ((if_neg notWaiting).trans ?_)
    rw [cls]
    rfl

/-- A balance enquiry that leaves nothing owed is its effect. -/
theorem exec_tapBalance {s t : State} {l : Terminal} {card : Word} (taking : Taking s)
    (h : takeTapBalance l card (beginTaking s) = t) (hl : t.lba = s.lba) (hr : t.rlc = s.rlc) :
    exec (.tapBalance l card) s = .next t := by
  show Host.Outcome.next (Machine.taking (takeTapBalance l card) s) = _
  rw [taking_of_takes taking.1, h, closeTaking_of_rest (taking.2.of_eq hl hr)]

/-- A balance enquiry that is answered in its own taking. -/
theorem exec_tapBalance_answered {s u : State} {l : Terminal} {card : Word} {f : Frame} (taking : Taking s)
    (h : takeTapBalance l card (beginTaking s) = modLine l (fun x => { x with out := x.out ++ [f] }) u)
    (hl : u.lba = s.lba) (hr : u.rlc = s.rlc) : exec (.tapBalance l card) s =
      .next (modLine l (fun x => { x with out := x.out ++ [f] }) u) := by
  refine exec_tapBalance taking h ?_ ?_
  · rw [modLine_does]; exact hl
  · rw [modLine_does]; exact hr

/-- A change of the accounts comes before or after a change of a line alike. -/
theorem modLine_with_cru (l : Terminal) (f : TerminalLine → TerminalLine) (cru : Cru) (s : State) :
    modLine l f { s with cru := cru } = { modLine l f s with cru := cru } := by cases l <;> rfl

/-- Settles O34: by the class of the card, then by whether its entry is cached, then by the wanted list. -/
theorem tapBalanceAnswers : Obligations.TapBalanceAnswers := by
  intro l card s taking
  refine ⟨fun full => ?_, fun room waiting => ?_, fun idle => ?_⟩
  · exact exec_tapBalance taking (takeTapBalance_of_full (s := beginTaking s) full) rfl rfl
  · exact exec_tapBalance_answered taking ((takeTapBalance_of_waiting (s := beginTaking s) room waiting).trans
      (pushAnswer_of_room (s := beginTaking s) room _)) rfl rfl
  · obtain ⟨blocked, free, service, account⟩ := takeTapBalance_of_idle (s := beginTaking s) (card := card) idle
    have answered : ∀ f, takeTapBalance l card (beginTaking s) = pushAnswer l f (beginTaking s) →
        exec (.tapBalance l card) s = .next (answeredAt l f s) := fun f h =>
      exec_tapBalance_answered taking (h.trans (pushAnswer_of_room (s := beginTaking s) idle.1 f)) rfl rfl
    have missed : rangeClassAt s.nv card = none → findEntry s card = none →
        takeTapBalance l card (beginTaking s) = resolveMiss l card (.balance l) (beginTaking s) := fun cls miss =>
      (account cls).trans (resolveAccount_of_miss (s := beginTaking s) miss _ _)
    refine ⟨fun cls => answered _ (blocked cls), fun cls => answered _ (free cls),
      fun cls => answered _ (service cls), fun i e cls below hit => ?_,
      fun cls miss free unwanted room => ?_, fun cls miss full => ?_,
      fun cls miss free wanted => ?_,
      fun i cls miss way unwanted crowded => ⟨fun zero => ?_, fun allowance below => ?_⟩⟩
    · have used := findEntry_writtenUsed_of_hit (s := beginTaking s) (b := e) hit rfl
      refine (exec_tapBalance_answered (u := writtenUsed i e (beginTaking s)) taking ((account cls).trans ?_) rfl
        rfl).trans (congrArg Host.Outcome.next (modLine_with_cru l _ _ (beginTaking s)))
      rw [resolveAccount_of_hit (s := beginTaking s) hit below, serveAsker_balance used]
      exact answerTap_of_idle (s := writtenUsed i e (beginTaking s)) idle _
    · refine exec_tapBalance taking ((missed cls miss).trans ?_) ?_ ?_
      · rw [resolveMiss_of_new (s := beginTaking s) free unwanted room]
        refine (beginFlight_balance l card _).trans ?_
        cases l <;> rfl
      · cases l <;> rfl
      · cases l <;> rfl
    · refine exec_tapBalance_answered taking ((missed cls miss).trans ?_) rfl rfl
      rw [resolveMiss_of_full (s := beginTaking s) full]
      exact answerTap_of_idle (s := beginTaking s) idle _
    · refine exec_tapBalance taking ((missed cls miss).trans ?_) ?_ ?_
      · rw [resolveMiss_of_wanted (s := beginTaking s) free wanted]
        refine (beginFlight_balance l card _).trans ?_
        cases l <;> rfl
      · cases l <;> rfl
      · cases l <;> rfl
    · have free : allocate s card ≠ none := by rw [way]; nofun
      refine exec_tapBalance_answered taking ((missed cls miss).trans ?_) rfl rfl
      rw [resolveMiss_of_offline (s := beginTaking s) free unwanted crowded,
        offlineDecision_of_none (s := beginTaking s) (.inl zero), offlineReason,
        if_pos (show (beginTaking s).nv.settings.offlineAllowance = 0 from zero)]
      exact answerTap_of_idle (s := beginTaking s) idle _
    · have free : allocate s card ≠ none := by rw [way]; nofun
      have found := findEntry_provisional (s := beginTaking s) way miss below
      refine (exec_tapBalance_answered (u := writtenUsed i (provisionalEntry card s) (beginTaking s)) taking
        ((missed cls miss).trans ?_) rfl rfl).trans
          (congrArg Host.Outcome.next (modLine_with_cru l _ _ (beginTaking s)))
      rw [resolveMiss_of_offline (s := beginTaking s) free unwanted crowded,
        offlineDecision_of_way (s := beginTaking s) allowance way,
        createProvisional (s := beginTaking s) i card below]
      show serveAsker card (.balance l) _ = _
      rw [serveAsker_balance found]
      exact answerTap_of_idle (s := writtenUsed i (provisionalEntry card (beginTaking s)) (beginTaking s)) idle _

end Sys2Proof.Machine.Cards
end

section
/-!
A TAP_START of an ACCOUNT card, from its claim to its hold or its refusal (R51 to R56, R73 to R75, R87): O33.
-/
namespace Sys2Proof.Machine.Cards
open Settlement

/-! ### What the first pass has found (R71, R72) -/

/-- What holds where the first pass admits a start. -/
structure Passed (s : State) (position : Byte) (a : Admitted) : Prop where
  named : posOfNumber position.toNat = some a.pos
  enrolled : (posAt s a.pos).presence = .enrolled
  program : programAt s a.program = some a.prog
  vacant : (posAt s a.pos).occupancy = .vacant
  second : secondPass s a.cls (nominalMinutes a.prog + a.ext) = none

theorem enrolledPosition_some {s : State} {position : Byte} {p : Pos} (h : enrolledPosition s position = some p) :
    posOfNumber position.toNat = some p ∧ (posAt s p).presence = .enrolled := by
  unfold enrolledPosition at h
  split at h
  · next q named =>
    split at h
    · next enrolled => cases h; exact ⟨named, enrolled⟩
    · cases h
  · cases h

theorem validProgram_some {s : State} {p : Pos} {b : Byte} {id : ProgramId} {prog : Program}
    (h : validProgram s p b = some (id, prog)) : programAt s id = some prog := by
  unfold validProgram at h
  split at h
  · split at h
    · next found =>
      split at h
      · cases h; exact found
      · cases h
    · cases h
  · cases h

theorem passed_of_firstPass {s : State} {card : Word} {position program extension : Byte} {a : Admitted}
    (h : firstPass s card position program extension = .ok a) : Passed s position a := by
  have vacant := vacant_of_firstPass h
  unfold firstPass at h
  split at h
  · cases h
  next room =>
  split at h
  · cases h
  next p found =>
  split at h
  · cases h
  next cls _ =>
  split at h
  · cases h
  next free =>
  split at h
  · cases h
  next id prog valid =>
  extract_lets ext at h
  split at h
  · cases h
  next figures =>
  cases h
  obtain ⟨named, enrolled⟩ := enrolledPosition_some found
  obtain ⟨quiet, -⟩ := (Option.orElse_eq_none _ _).mp free
  obtain ⟨late, rest⟩ := (Option.orElse_eq_none _ _).mp figures
  obtain ⟨-, rest⟩ := (Option.orElse_eq_none _ _).mp rest
  exact ⟨named, enrolled, validProgram_some valid, vacant, (Option.orElse_eq_none _ _).mpr ⟨room,
    (Option.orElse_eq_none _ _).mpr ⟨quiet, (Option.orElse_eq_none _ _).mpr ⟨late, rest⟩⟩⟩⟩

theorem posByte_of_named {position : Byte} {p : Pos} (h : posOfNumber position.toNat = some p) :
    posByte p = position := by
  unfold posOfNumber at h
  split at h
  · next range =>
    cases h
    unfold posByte posNumber
    dsimp only
    rw [Nat.sub_add_cancel range.1]
    exact BitVec.ofNat_toNat .. |>.trans (BitVec.setWidth_eq position)
  · cases h

/-! ### The claim (R9) -/

/-- The claim of a start that the first pass admitted. -/
def claimOf (s : State) (l : Terminal) (card : Word) (a : Admitted) : Claim :=
  { number := s.nv.sessionCounter, terminal := l, card, cls := a.cls, program := a.program, ext := a.ext }

/-- A start claimed in this taking, with what the resolution has made of the accounts. -/
def claimedWith (s : State) (l : Terminal) (card : Word) (a : Admitted) (cru : Cru) : State :=
  { (claimPosition l card a (beginTaking s)).1 with cru := cru }

theorem frame_claimedWith (s : State) (l : Terminal) (card : Word) (a : Admitted) (cru : Cru) :
    (claimedWith s l card a cru).tli = (beginTaking s).tli ∧ (claimedWith s l card a cru).lba = s.lba
      ∧ (claimedWith s l card a cru).rlc = s.rlc ∧ (claimedWith s l card a cru).rcs = s.rcs
      ∧ (claimedWith s l card a cru).fm = s.fm ∧ (claimedWith s l card a cru).hlp = s.hlp :=
  ⟨rfl, rfl, rfl, rfl, rfl, rfl⟩

theorem positions_claimedWith (s : State) (l : Terminal) (card : Word) (a : Admitted) (cru : Cru) :
    (claimedWith s l card a cru).positions =
      s.positions.set a.pos { posAt s a.pos with occupancy := .claimed (claimOf s l card a) } := rfl

theorem posAt_claimedWith_self (s : State) (l : Terminal) (card : Word) (a : Admitted) (cru : Cru) :
    posAt (claimedWith s l card a cru) a.pos = { posAt s a.pos with occupancy := .claimed (claimOf s l card a) } := by
  unfold posAt
  rw [positions_claimedWith]
  exact (getElem_set_fin _ _ _ _).trans (if_pos rfl)

theorem posAt_claimedWith_ne {p : Pos} {a : Admitted} (h : p ≠ a.pos) (s : State) (l : Terminal) (card : Word)
    (cru : Cru) : posAt (claimedWith s l card a cru) p = posAt s p := by
  show posAt (claimPosition l card a (beginTaking s)).1 p = _
  unfold claimPosition setOccupancy
  rw [posAt_modPos_ne h]
  rfl

theorem claimAt_claimedWith (s : State) (l : Terminal) (card : Word) (a : Admitted) (cru : Cru) :
    claimAt (claimedWith s l card a cru) a.pos = some (claimOf s l card a) := by
  rw [claimAt_eq_some, posAt_claimedWith_self]

theorem sessionAt_claimedWith {s : State} {a : Admitted} (vacant : (posAt s a.pos).occupancy = .vacant) (l : Terminal)
    (card : Word) (cru : Cru) (p : Pos) : sessionAt (claimedWith s l card a cru) p = sessionAt s p := by
  unfold sessionAt
  by_cases e : p = a.pos
  · rw [e, posAt_claimedWith_self, vacant]
  · rw [posAt_claimedWith_ne e]

/-- The second pass in the taking of the claim finds what the first pass found (R74). -/
theorem secondPass_claimedWith {s : State} {a : Admitted} (vacant : (posAt s a.pos).occupancy = .vacant) (l : Terminal)
    (card : Word) (cru : Cru) (cls : CardClass) (nominal : Nat) :
    secondPass (claimedWith s l card a cru) cls nominal = secondPass s cls nominal := by
  have live : liveSessions (claimedWith s l card a cru) = liveSessions s := by
    unfold liveSessions
    exact List.filterMap_congr fun p _ => sessionAt_claimedWith vacant l card cru p
  have journal : checkJournal (claimedWith s l card a cru) = checkJournal s := by
    unfold checkJournal
    rw [live]
    rfl
  unfold secondPass
  rw [journal]
  rfl

/-- The limit test does not count the session just claimed (R51). -/
theorem overCardLimit_claimedWith {s : State} {a : Admitted} (vacant : (posAt s a.pos).occupancy = .vacant)
    (l : Terminal) (card : Word) (cru : Cru) (account : a.cls = .account) :
    overCardLimit (claimedWith s l card a cru) a.pos (claimOf s l card a) =
      decide (s.nv.settings.cardSessionLimit ≤ (limitedPositions s card).length) := by
  have others : (limitedPositions (claimedWith s l card a cru) card).filter (fun q => q != a.pos) =
      limitedPositions s card := by
    unfold limitedPositions positionsWhere
    rw [List.filter_filter]
    refine List.filter_congr fun q _ => ?_
    unfold cardAt
    by_cases e : q = a.pos
    · rw [e, vacant]
      simp
    · rw [posAt_claimedWith_ne e]
      simp [e]
  unfold overCardLimit
  rw [show (claimOf s l card a).cls = .account from account]
  show (true && decide (_ ≤ ((limitedPositions (claimedWith s l card a cru) card).filter _).length)) = _
  rw [others, Bool.true_and]
  rfl

/-! ### A claim refused in its own taking -/

theorem tli_modLine {s t : State} (h : t.tli = s.tli) (l : Terminal) (f : TerminalLine → TerminalLine) :
    (modLine l f t).tli = (modLine l f s).tli := by
  cases l <;> simp only [modLine, h]

theorem idle_congr {s t : State} {l : Terminal} (h : t.tli = s.tli) (idle : Idle s l) : Idle t l := by
  unfold Idle
  rw [lineOf_congr h]
  exact idle

theorem frame_dropClaim (p : Pos) (reason : Reason) (s : State) : (dropClaim p reason s).nv = s.nv
    ∧ (dropClaim p reason s).lba = s.lba ∧ (dropClaim p reason s).rlc = s.rlc ∧ (dropClaim p reason s).rcs = s.rcs
    ∧ (dropClaim p reason s).fm = s.fm ∧ (dropClaim p reason s).hlp = s.hlp := by
  rw [dropClaim_does]
  exact ⟨rfl, rfl, rfl, rfl, rfl, rfl⟩

theorem tli_withdrawn (p : Pos) (l : Terminal) (s : State) : (withdrawWaiter l (vacate p s)).tli = s.tli := by
  simp [withdrawWaiter, vacate, restSilence, setOccupancy]

theorem claimedAndRefused_dropClaim {s : State} {l : Terminal} {position : Byte} {a : Admitted} (idle : Idle s l)
    (passed : Passed s position a) (card : Word) {cru : Cru}
    (cards : cru.wanted.map Wanted.card = s.cru.wanted.map Wanted.card) (reason : Reason) :
    ClaimedAndRefused s (dropClaim a.pos reason (claimedWith s l card a cru)) l card position reason := by
  have kept := resumed_dropClaim a.pos reason (claimedWith s l card a cru)
  have drop := dropClaim_of_claim (claimAt_claimedWith s l card a cru) reason
  have idle' : Idle (withdrawWaiter l (vacate a.pos (claimedWith s l card a cru))) l :=
    idle_congr (tli_withdrawn a.pos l _) (idle_congr (t := claimedWith s l card a cru) rfl idle)
  rw [show (claimOf s l card a).terminal = l from rfl, answerTap_of_idle idle', posByte_of_named passed.named] at drop
  obtain ⟨tli, lba, rlc, rcs, fm, hlp⟩ := frame_claimedWith s l card a cru
  obtain ⟨nv', lba', rlc', rcs', fm', hlp'⟩ := frame_dropClaim a.pos reason (claimedWith s l card a cru)
  refine ⟨positions_ext fun p => ?_, nv', ?_, kept.cards.trans cards, lba'.trans lba, rlc'.trans rlc, rcs'.trans rcs,
    fm'.trans fm, hlp'.trans hlp⟩
  · rw [drop, modLine_does]
    show posAt (vacate a.pos (claimedWith s l card a cru)) p = _
    by_cases e : p = a.pos
    · subst e
      unfold vacate restSilence setOccupancy
      rw [posAt_modPos_self, posAt_modPos_self, posAt_claimedWith_self, if_pos]
      · rw [← passed.vacant]
      · simp [silenceRuns, passed.enrolled]
    · rw [posAt_vacate_ne e, posAt_claimedWith_ne e]
  · rw [drop]
    exact tli_modLine ((tli_withdrawn a.pos l _).trans tli) l _

/-! ### A hold where nothing waits (R75, R87, R93, R94) -/

theorem lba_settled {x : Lba} (due : x.evalDue = false) (under : x.overCap = false) (b : Bool) :
    { x with evalDue := false, overCap := x.overCap && b } = x := by
  cases x
  cases due
  cases under
  rfl

theorem evaluate_of_open {s : State} (due : s.lba.evalDue = false) (under : s.lba.overCap = false) :
    evaluate s = walk (waitingOrder s) none s := by
  have same : modLba (fun l => { l with evalDue := false, overCap := l.overCap && !withinCaps s }) s = s :=
    congrArg (fun x => { s with lba := x }) (lba_settled due under _)
  unfold evaluate
  rw [same]
  exact if_neg (by rw [under]; nofun)

/-- The walk over one start: it is granted where its phase 0 fits. -/
theorem walk_start {s : State} {p : Pos} {ses : Session} (live : sessionAt s p = some ses) :
    walk [.start p] none s =
      if electricSum s + (phaseOf s ses.program 0).lu ≤ effectiveCap s
        ∧ waterSum s + (phaseOf s ses.program 0).wu ≤ s.nv.waterCap then grantStart p ses s else s := by
  have fits : itemFits s (.start p) = decide (electricSum s + (phaseOf s ses.program 0).lu ≤ effectiveCap s
      ∧ waterSum s + (phaseOf s ses.program 0).wu ≤ s.nv.waterCap) := by
    have asked : askedDraws s (.start p) = ((phaseOf s ses.program 0).lu, (phaseOf s ses.program 0).wu) := by
      unfold askedDraws
      dsimp only
      rw [live]
    unfold itemFits
    rw [asked]
    show decide (electricSum s - 0 + _ ≤ _ ∧ waterSum s - 0 + _ ≤ _) = _
    rw [Nat.sub_zero, Nat.sub_zero]
  have grant : grantItem (.start p) s = grantStart p ses s := by
    unfold grantItem
    rw [show itemPos (.start p) = p from rfl, live]
  unfold walk
  rw [if_neg (show walkPasses s (.start p) ≠ true by nofun), fits, grant]
  by_cases fit : electricSum s + (phaseOf s ses.program 0).lu ≤ effectiveCap s
      ∧ waterSum s + (phaseOf s ses.program 0).wu ≤ s.nv.waterCap
  · rw [if_pos (decide_eq_true fit), if_pos fit]
    rfl
  · rw [if_neg (by simpa using fit), if_neg fit]
    split <;> rfl

theorem positions_modPos_twice (p : Pos) (f g : Position → Position) (s : State) :
    (modPos p g (modPos p f s)).positions = s.positions.set p (g (f (posAt s p))) := by
  show (s.positions.set p (f (posAt s p))).set p (g (posAt (modPos p f s) p)) = _
  rw [posAt_modPos_self, Vector.set_set]

/-- A start's grant before its START is offered (R94). -/
def grantedStart (p : Pos) (ses : Session) (s : State) : State :=
  putSession p { ses with state := .starting } (setReservation p (phaseOf s ses.program 0).lu
    (phaseOf s ses.program 0).wu false (modLba (fun l => { l with
      startQueue := l.startQueue.filter fun e => e.pos != p }) s))

/-- A START joins a queue that has room and holds none for its position (R115). -/
theorem grantStart_queued {p : Pos} {ses : Session} {s : State} (room : s.rlc.queue.length < 32)
    (first : ∀ e ∈ s.rlc.queue, e.dir.pos = p → isStart e.dir.order = false) :
    grantStart p ses s = joinQueue (startDirective s p ses) (grantedStart p ses s) := by
  have free : queueRefuses (grantedStart p ses s) (startDirective s p ses) = false := by
    have others : inQueue (grantedStart p ses s) (fun e => e.pos == p && isStart e.order) = false := by
      unfold inQueue
      rw [List.any_eq_false]
      intro e he test
      obtain ⟨here, start⟩ := Bool.and_eq_true_iff.mp test
      rw [first e he (by simpa using here)] at start
      cases start
    unfold queueRefuses
    rw [show (startDirective s p ses).pos = p from rfl, others, Bool.and_false, Bool.or_false]
    exact decide_eq_false (Nat.not_le.mpr room)
  show offer .sm (startDirective s p ses) (grantedStart p ses s) = _
  unfold offer
  exact if_neg (by rw [free]; nofun)

theorem positions_grantedStart (p : Pos) (ses : Session) (s : State) :
    (grantedStart p ses s).positions = s.positions.set p { posAt s p with
      occupancy := .live { ses with state := .starting }, lu := (phaseOf s ses.program 0).lu,
      wu := (phaseOf s ses.program 0).wu, shed := false } :=
  positions_modPos_twice p (fun q => { q with
    lu := (phaseOf s ses.program 0).lu, wu := (phaseOf s ses.program 0).wu, shed := false })
    (fun q => { q with occupancy := .live { ses with state := .starting } })
    (modLba (fun l => { l with startQueue := l.startQueue.filter fun e => e.pos != p }) s)

/-! ### The hold of a start just claimed -/

/-- A start just claimed whose session waits at the tail of the start queue (R11, R88). -/
def waitingWith (s : State) (l : Terminal) (card : Word) (a : Admitted) (ses : Session) (cru : Cru) : State :=
  modLba (fun x => { x with startQueue := x.startQueue ++ [{ pos := a.pos, bypass := 0 }] })
    (putSession a.pos ses (claimedWith s l card a cru))

theorem positions_waitingWith (s : State) (l : Terminal) (card : Word) (a : Admitted) (ses : Session) (cru : Cru) :
    (waitingWith s l card a ses cru).positions =
      s.positions.set a.pos { posAt s a.pos with occupancy := .live ses } := by
  have same : (waitingWith s l card a ses cru).positions = (claimedWith s l card a cru).positions.set a.pos
      { posAt (claimedWith s l card a cru) a.pos with occupancy := .live ses } := rfl
  rw [same, posAt_claimedWith_self, positions_claimedWith, Vector.set_set]

theorem nv_waitingWith (s : State) (l : Terminal) (card : Word) (a : Admitted) (ses : Session) (cru : Cru) :
    (waitingWith s l card a ses cru).nv = { s.nv with
      sessionCounter := s.nv.sessionCounter + 1, slots := s.nv.slots.set a.pos (some (snapshotOf ses)) } := rfl

theorem frame_waitingWith (s : State) (l : Terminal) (card : Word) (a : Admitted) (ses : Session) (cru : Cru) :
    (waitingWith s l card a ses cru).tli = (beginTaking s).tli ∧ (waitingWith s l card a ses cru).cru = cru
      ∧ (waitingWith s l card a ses cru).rlc = s.rlc ∧ (waitingWith s l card a ses cru).rcs = s.rcs
      ∧ (waitingWith s l card a ses cru).fm = s.fm ∧ (waitingWith s l card a ses cru).hlp = s.hlp := by
  obtain ⟨tli, -, rlc, rcs, fm, hlp⟩ := frame_claimedWith s l card a cru
  unfold waitingWith putSession writeSlot writeNv setSession setOccupancy modPos modLba
  exact ⟨tli, rfl, rlc, rcs, fm, hlp⟩

end Sys2Proof.Machine.Cards
end

section
/-!
A TAP_START of an ACCOUNT card, resolved against its entry, on a miss, or offline (R51 to R56, R73, R75): O33.
-/
namespace Sys2Proof.Machine.Cards
open Settlement

/-! ### The waiting session, alone in the room's waiting order -/

theorem lba_waitingWith (s : State) (l : Terminal) (card : Word) (a : Admitted) (ses : Session) (cru : Cru) :
    (waitingWith s l card a ses cru).lba =
      { s.lba with startQueue := s.lba.startQueue ++ [{ pos := a.pos, bypass := 0 }] } := by
  unfold waitingWith putSession writeSlot writeNv setSession setOccupancy modPos modLba
  rfl

theorem posAt_waitingWith_self (s : State) (l : Terminal) (card : Word) (a : Admitted) (ses : Session) (cru : Cru) :
    posAt (waitingWith s l card a ses cru) a.pos = { posAt s a.pos with occupancy := .live ses } := by
  unfold posAt
  rw [positions_waitingWith]
  exact (getElem_set_fin _ _ _ _).trans (if_pos rfl)

theorem posAt_waitingWith_ne {p : Pos} {a : Admitted} (h : p ≠ a.pos) (s : State) (l : Terminal) (card : Word)
    (ses : Session) (cru : Cru) : posAt (waitingWith s l card a ses cru) p = posAt s p := by
  unfold posAt
  rw [positions_waitingWith]
  exact (getElem_set_fin _ _ _ _).trans (if_neg h)

theorem sessionAt_waitingWith (s : State) (l : Terminal) (card : Word) (a : Admitted) (ses : Session) (cru : Cru) :
    sessionAt (waitingWith s l card a ses cru) a.pos = some ses := by
  rw [sessionAt_eq_some, posAt_waitingWith_self]

/-- A session that waits has no reservation yet, so that the sums stand as before. -/
theorem sums_waitingWith (s : State) (l : Terminal) (card : Word) (a : Admitted) (ses : Session) (cru : Cru) :
    electricSum (waitingWith s l card a ses cru) = electricSum s
      ∧ waterSum (waitingWith s l card a ses cru) = waterSum s := by
  have same : ∀ p, (posAt (waitingWith s l card a ses cru) p).lu = (posAt s p).lu
      ∧ (posAt (waitingWith s l card a ses cru) p).wu = (posAt s p).wu := fun p => by
    by_cases e : p = a.pos
    · rw [e, posAt_waitingWith_self]; exact ⟨rfl, rfl⟩
    · rw [posAt_waitingWith_ne e]; exact ⟨rfl, rfl⟩
  unfold electricSum waterSum
  exact ⟨congrArg List.sum (List.map_congr_left fun p _ => (same p).1),
    congrArg List.sum (List.map_congr_left fun p _ => (same p).2)⟩

/-- In a room where nothing waits, the evaluation of a hold tests the new session alone (R87, R93). -/
theorem evaluate_waitingWith {s : State} (rest : AtRest s) (alone : waitingOrder s = []) (under : s.lba.overCap = false)
    (l : Terminal) (card : Word) (a : Admitted) (ses : Session) (cru : Cru) :
    evaluate (waitingWith s l card a ses cru) =
      if electricSum s + (phaseOf s ses.program 0).lu ≤ effectiveCap s
        ∧ waterSum s + (phaseOf s ses.program 0).wu ≤ s.nv.waterCap then
        grantStart a.pos ses (waitingWith s l card a ses cru) else waitingWith s l card a ses cru := by
  have lba := lba_waitingWith s l card a ses cru
  have order : waitingOrder (waitingWith s l card a ses cru) = [.start a.pos] := by
    have split : waitingOrder (waitingWith s l card a ses cru) = waitingOrder s ++ [.start a.pos] := by
      unfold waitingOrder
      rw [lba]
      simp only [List.map_append, List.map_cons, List.map_nil, List.append_assoc]
    rw [split, alone, List.nil_append]
  obtain ⟨electric, water⟩ := sums_waitingWith s l card a ses cru
  have nv := nv_waitingWith s l card a ses cru
  have phase : phaseOf (waitingWith s l card a ses cru) ses.program 0 = phaseOf s ses.program 0 := by
    unfold phaseOf phasesOf programAt
    rw [nv]
  have cap : effectiveCap (waitingWith s l card a ses cru) = effectiveCap s := by
    unfold effectiveCap
    rw [lba, nv]
  rw [evaluate_of_open (by rw [lba]; exact rest.1) (by rw [lba]; exact under), order,
    walk_start (sessionAt_waitingWith s l card a ses cru), electric, water, phase, cap, nv]

/-! ### What the hold leaves -/

/-- The accounts once a quote is held on an entry. -/
def holding (cru : Cru) (i : Fin 48) (e : Account) (quote : Nat) : Cru :=
  { cru with cache := cru.cache.set i (some { e with held := e.held + quote }) }

theorem joinHold_claimed {s : State} {l : Terminal} {card : Word} {a : Admitted} {cru : Cru} {i : Fin 48}
    {e : Account} (account : a.cls = .account) (hit : findEntry (claimedWith s l card a cru) card = some (i, e))
    (quote : Nat) (origin : Option Origin) :
    joinHold a.pos (claimOf s l card a) quote (nominalMinutes a.prog + a.ext) origin (claimedWith s l card a cru) =
      evaluate (waitingWith s l card a (heldOfTap s l card a quote origin .waitingBudget) (holding cru i e quote)) := by
  unfold joinHold
  rw [if_pos (show (claimOf s l card a).cls = .account from account),
    show (claimOf s l card a).card = card from rfl, raiseHeld_of_hit hit]
  rfl

/-- The final record of a start that was not kept waiting (R73, R75). -/
theorem answerStart_of_idle {s : State} {p : Pos} {ses : Session} {l : Terminal} (live : sessionAt s p = some ses)
    (idle : Idle s l) : answerStart p l s =
      modLine l (fun x => { x with out := x.out ++ [startRecord p ses (placeOf s p)] }) s := by
  unfold answerStart
  rw [live]
  exact answerTap_of_idle idle _

theorem empty_of_waitingOrder {s : State} (alone : waitingOrder s = []) : s.lba.startQueue = [] := by
  unfold waitingOrder at alone
  simpa using (List.append_eq_nil_iff.mp alone).2

/-- A start that does not fit waits at the head of the start queue. -/
theorem queuedFirst_answered {s : State} {l : Terminal} {card : Word} {a : Admitted} {ses : Session} {cru : Cru}
    (alone : waitingOrder s = []) (idle : Idle s l) :
    QueuedFirst s (answerStart a.pos l (waitingWith s l card a ses cru)) l a ses
      ∧ (answerStart a.pos l (waitingWith s l card a ses cru)).cru = cru := by
  obtain ⟨tli, cru', rlc, rcs, fm, hlp⟩ := frame_waitingWith s l card a ses cru
  have lba := lba_waitingWith s l card a ses cru
  have empty := empty_of_waitingOrder alone
  rw [empty, List.nil_append] at lba
  have place : placeOf (waitingWith s l card a ses cru) a.pos = some 1 := by
    unfold placeOf
    rw [lba]
    simp
  rw [answerStart_of_idle (sessionAt_waitingWith s l card a ses cru) (idle_congr (s := s) tli idle), place]
  have lines := tli_modLine tli l fun x => { x with out := x.out ++ [startRecord a.pos ses (some 1)] }
  rw [modLine_does]
  exact ⟨⟨positions_waitingWith s l card a ses cru, nv_waitingWith s l card a ses cru, lba, lines, rlc, rcs, fm, hlp⟩,
    cru'⟩

theorem frame_grantedStart (p : Pos) (ses : Session) (s : State) : (grantedStart p ses s).tli = s.tli
    ∧ (grantedStart p ses s).cru = s.cru ∧ (grantedStart p ses s).rlc = s.rlc ∧ (grantedStart p ses s).rcs = s.rcs
    ∧ (grantedStart p ses s).fm = s.fm ∧ (grantedStart p ses s).hlp = s.hlp
    ∧ (grantedStart p ses s).nv =
      { s.nv with slots := s.nv.slots.set p (some (snapshotOf { ses with state := .starting })) }
    ∧ (grantedStart p ses s).lba = { s.lba with startQueue := s.lba.startQueue.filter fun e => e.pos != p } := by
  unfold grantedStart putSession writeSlot writeNv setSession setOccupancy setReservation modPos modLba
  exact ⟨rfl, rfl, rfl, rfl, rfl, rfl, rfl, rfl⟩

/-- A start that fits is granted, and its START queued. -/
theorem grantedAtOnce_answered {s : State} {l : Terminal} {card : Word} {a : Admitted} {ses : Session} {cru : Cru}
    (alone : waitingOrder s = []) (idle : Idle s l) (named : ses.program = a.program)
    (ext : ses.ext = a.ext) (room : s.rlc.queue.length < 32)
    (first : ∀ e ∈ s.rlc.queue, e.dir.pos = a.pos → isStart e.dir.order = false) :
    GrantedAtOnce s (answerStart a.pos l (grantStart a.pos ses (waitingWith s l card a ses cru))) l a
        { ses with state := .starting }
      ∧ (answerStart a.pos l (grantStart a.pos ses (waitingWith s l card a ses cru))).cru = cru := by
  obtain ⟨tli, cru', rlc, rcs, fm, hlp⟩ := frame_waitingWith s l card a ses cru
  have nv := nv_waitingWith s l card a ses cru
  have positions := positions_waitingWith s l card a ses cru
  have here := posAt_waitingWith_self s l card a ses cru
  have lba := lba_waitingWith s l card a ses cru
  rw [empty_of_waitingOrder alone, List.nil_append] at lba
  rw [grantStart_queued (by rw [rlc]; exact room) (by rw [rlc]; exact first)]
  have phase : phaseOf (waitingWith s l card a ses cru) ses.program 0 = phaseOf s a.program 0 := by
    unfold phaseOf phasesOf programAt
    rw [nv, named]
  have draws : startDirective (waitingWith s l card a ses cru) a.pos ses =
      { pos := a.pos, order := .start (tagOf ses.number) a.program a.ext (startDraws s a.program) } := by
    unfold startDirective startDraws phasesOf programAt
    rw [nv, named, ext]
  rw [draws]
  generalize waitingWith s l card a ses cru = v at *
  obtain ⟨gtli, gcru, grlc, grcs, gfm, ghlp, gnv, glba⟩ := frame_grantedStart a.pos ses v
  have gpositions := positions_grantedStart a.pos ses v
  rw [phase, here, positions, Vector.set_set] at gpositions
  generalize grantedStart a.pos ses v = g at *
  have live : sessionAt g a.pos = some { ses with state := .starting } := by
    rw [sessionAt_eq_some]
    unfold posAt
    rw [gpositions]
    exact congrArg Position.occupancy ((getElem_set_fin _ _ _ _).trans (if_pos rfl))
  have emptied : g.lba = s.lba := by
    have filtered : ([{ pos := a.pos, bypass := 0 }] : List WaitEntry).filter (fun e => e.pos != a.pos) = [] := by simp
    rw [glba, lba, filtered]
    exact congrArg (fun q => { s.lba with startQueue := q }) (empty_of_waitingOrder alone).symm
  have place : placeOf g a.pos = none := by
    unfold placeOf
    rw [emptied, empty_of_waitingOrder alone]
    rfl
  have lines := tli_modLine (gtli.trans tli) l fun x => { x with
    out := x.out ++ [startRecord a.pos { ses with state := .starting } none] }
  have answer := answerStart_of_idle live (idle_congr (s := s) (gtli.trans tli) idle)
  rw [place] at answer
  have joined : answerStart a.pos l (joinQueue
      { pos := a.pos, order := .start (tagOf ses.number) a.program a.ext (startDraws s a.program) } g) =
      joinQueue { pos := a.pos, order := .start (tagOf ses.number) a.program a.ext (startDraws s a.program) }
        (answerStart a.pos l g) := by
    rw [answer, answerStart_of_idle (s := joinQueue _ g) live (idle_congr (s := s) (gtli.trans tli) idle),
      show placeOf (joinQueue _ g) a.pos = none from place]
    cases l <;> rfl
  rw [joined, answer, modLine_does]
  refine ⟨⟨gpositions, ?_, ?_, lines, emptied, grcs.trans rcs, gfm.trans fm, ghlp.trans hlp⟩, gcru.trans cru'⟩
  · show g.nv = _
    rw [gnv, nv, Vector.set_set]
  · exact congrArg (fun r : Rlc => { r with queue := r.queue ++ [({
      dir := { pos := a.pos, order := .start (tagOf ses.number) a.program a.ext (startDraws s a.program) }
      seq := none, sends := 0, good := 0, since := 0, flying := false, withdrawn := false } : QueueEntry)] })
      (grlc.trans rlc)

/-- The hold of a start just claimed, in a room where nothing waits (R11, R12, R75, R87). -/
theorem heldAtOnce_placeHold {s : State} {l : Terminal} {card : Word} {a : Admitted} {cru : Cru} {i : Fin 48}
    {e : Account} (rest : AtRest s) (idle : Idle s l) (account : a.cls = .account) (alone : waitingOrder s = [])
    (under : s.lba.overCap = false) (room : s.rlc.queue.length < 32)
    (first : ∀ e ∈ s.rlc.queue, e.dir.pos = a.pos → isStart e.dir.order = false)
    (hit : findEntry (claimedWith s l card a cru) card = some (i, e)) (quote : Nat) (origin : Option Origin) :
    HeldAtOnce s (placeHold a.pos (claimOf s l card a) quote (nominalMinutes a.prog + a.ext) origin
        (claimedWith s l card a cru)) l card a quote origin
      ∧ (placeHold a.pos (claimOf s l card a) quote (nominalMinutes a.prog + a.ext) origin
        (claimedWith s l card a cru)).cru = holding cru i e quote
      ∧ AtRest (placeHold a.pos (claimOf s l card a) quote (nominalMinutes a.prog + a.ext) origin
        (claimedWith s l card a cru)) := by
  rw [placeHold_eq, joinHold_claimed account hit, evaluate_waitingWith rest alone under,
    show (claimOf s l card a).terminal = l from rfl,
    show (heldOfTap s l card a quote origin .waitingBudget).program = a.program from rfl]
  unfold HeldAtOnce
  split
  · obtain ⟨granted, cru'⟩ := grantedAtOnce_answered (card := card)
      (ses := heldOfTap s l card a quote origin .waitingBudget) (cru := holding cru i e quote) alone idle rfl rfl
      room first
    refine ⟨granted, cru', ?_⟩
    obtain ⟨-, -, rlc, -, lba, -⟩ := granted
    unfold AtRest
    rw [lba, rlc]
    exact rest
  · obtain ⟨queued, cru'⟩ := queuedFirst_answered (card := card) (a := a)
      (ses := heldOfTap s l card a quote origin .waitingBudget) (cru := holding cru i e quote) alone idle
    refine ⟨queued, cru', ?_⟩
    obtain ⟨-, -, lba, -, rlc, -⟩ := queued
    unfold AtRest
    rw [lba, rlc]
    exact rest

/-! ### Admission against an entry (R56) -/

/-- What the resolution of a start just claimed leaves, where its card has the entry `e`. -/
def AdmittedAgainst (s t : State) (l : Terminal) (card : Word) (position : Byte) (a : Admitted) (i : Fin 48)
    (e : Account) : Prop :=
  let quote := quoteOf a.prog a.ext (bandInForce s).2.mult s.nv.settings.quoteCeiling
  if e.status = .suspended then
    ClaimedAndRefused s t l card position .cardSuspended ∧ t.cru.cache = s.cru.cache.set i (some e)
  else if e.balance - e.held - quote < floorOf s.nv.settings e then
    ClaimedAndRefused s t l card position .fundsLow ∧ t.cru.cache = s.cru.cache.set i (some e)
  else t.cru.cache = s.cru.cache.set i (some { e with held := e.held + quote })
    ∧ HeldAtOnce s t l card a quote (some e.origin)

/-- Against the PROVISIONAL entry the quote alone decides (R55, R56). -/
theorem provisional_of_admittedAgainst {s t : State} {l : Terminal} {card : Word} {position : Byte} {a : Admitted}
    {i : Fin 48} {quote : Nat}
    (priced : quoteOf a.prog a.ext (bandInForce s).2.mult s.nv.settings.quoteCeiling = quote)
    (h : AdmittedAgainst s t l card position a i (provisionalEntry card s)) :
    if s.nv.settings.offlineAllowance < quote then ClaimedAndRefused s t l card position .fundsLow
      ∧ t.cru.cache = s.cru.cache.set i (some (provisionalEntry card s))
    else t.cru.cache = s.cru.cache.set i (some { provisionalEntry card s with held := quote })
      ∧ HeldAtOnce s t l card a quote (some .provisional) := by
  unfold AdmittedAgainst at h
  rw [priced] at h
  dsimp only at h
  have price : (provisionalEntry card s).balance - (provisionalEntry card s).held - quote <
      floorOf s.nv.settings (provisionalEntry card s) ↔ s.nv.settings.offlineAllowance < quote := by
    show (0 : Int) - (0 : Nat) - quote < -(s.nv.settings.offlineAllowance : Int) ↔ _
    omega
  rw [if_neg (show (provisionalEntry card s).status ≠ .suspended by nofun)] at h
  by_cases dear : s.nv.settings.offlineAllowance < quote
  · rw [if_pos (price.mpr dear)] at h
    rw [if_pos dear]
    exact h
  · rw [if_neg (mt price.mp dear), show (provisionalEntry card s).held + quote = quote from Nat.zero_add quote] at h
    rw [if_neg dear]
    exact h

theorem counter_dropClaim (p : Pos) (reason : Reason) (s : State) :
    (dropClaim p reason s).cru.useCounter = s.cru.useCounter := by
  unfold dropClaim
  split
  · rfl
  · rw [answerTap_does]; rfl

theorem atRest_dropClaim {s : State} {l : Terminal} {card : Word} {a : Admitted} {cru : Cru} (rest : AtRest s)
    (reason : Reason) : AtRest (dropClaim a.pos reason (claimedWith s l card a cru)) := by
  obtain ⟨-, lba, rlc, -⟩ := frame_claimedWith s l card a cru
  obtain ⟨-, lba', rlc', -⟩ := frame_dropClaim a.pos reason (claimedWith s l card a cru)
  exact rest.of_eq (lba'.trans lba) (rlc'.trans rlc)

theorem claimQuote_claimedWith {s : State} {position : Byte} {a : Admitted} (passed : Passed s position a)
    (l : Terminal) (card : Word) (cru : Cru) :
    claimProgram (claimedWith s l card a cru) (claimOf s l card a) = a.prog
      ∧ claimQuote (claimedWith s l card a cru) (claimOf s l card a) =
        quoteOf a.prog a.ext (bandInForce s).2.mult s.nv.settings.quoteCeiling := by
  have program : claimProgram (claimedWith s l card a cru) (claimOf s l card a) = a.prog := by
    unfold claimProgram
    rw [show programAt (claimedWith s l card a cru) (claimOf s l card a).program = some a.prog from passed.program]
    rfl
  refine ⟨program, ?_⟩
  unfold claimQuote
  rw [program]
  rfl

theorem admittedAgainst_serveAsker {s : State} {l : Terminal} {card : Word} {position : Byte} {a : Admitted} {cru : Cru}
    {i : Fin 48} {e : Account} (rest : AtRest s) (idle : Idle s l) (passed : Passed s position a)
    (account : a.cls = .account) (alone : waitingOrder s = []) (under : s.lba.overCap = false)
    (room : s.rlc.queue.length < 32) (first : ∀ e ∈ s.rlc.queue, e.dir.pos = a.pos → isStart e.dir.order = false)
    (cards : cru.wanted.map Wanted.card = s.cru.wanted.map Wanted.card)
    (written : cru.cache = s.cru.cache.set i (some e))
    (hit : findEntry (claimedWith s l card a cru) card = some (i, e)) :
    AdmittedAgainst s (serveAsker card (.start a.pos) (claimedWith s l card a cru)) l card position a i e
      ∧ (serveAsker card (.start a.pos) (claimedWith s l card a cru)).cru.useCounter = cru.useCounter
      ∧ AtRest (serveAsker card (.start a.pos) (claimedWith s l card a cru)) := by
  have dropped := fun reason => claimedAndRefused_dropClaim idle passed card cards (cru := cru) reason
  have cache := fun reason => (cache_dropClaim a.pos reason (claimedWith s l card a cru)).trans written
  have counter := fun reason => counter_dropClaim a.pos reason (claimedWith s l card a cru)
  obtain ⟨program, priced⟩ := claimQuote_claimedWith passed l card cru
  have served : serveAsker card (.start a.pos) (claimedWith s l card a cru) =
      admitAccount a.pos (claimOf s l card a) (claimedWith s l card a cru) := by
    unfold serveAsker
    dsimp only
    rw [claimAt_claimedWith]
  have second :
      secondPass (claimedWith s l card a cru) (claimOf s l card a).cls (nominalMinutes a.prog + a.ext) = none :=
    (secondPass_claimedWith passed.vacant l card cru _ _).trans passed.second
  have settings : (claimedWith s l card a cru).nv.settings = s.nv.settings := rfl
  rw [served]
  unfold AdmittedAgainst admitAccount
  rw [show (claimOf s l card a).card = card from rfl, hit, priced, settings]
  generalize quoteOf a.prog a.ext (bandInForce s).2.mult s.nv.settings.quoteCeiling = quote
  dsimp only
  by_cases suspended : e.status = .suspended
  · rw [if_pos suspended, if_pos suspended]
    exact ⟨⟨dropped _, cache _⟩, counter _, atRest_dropClaim rest _⟩
  rw [if_neg suspended, if_neg suspended]
  by_cases low : e.balance - e.held - quote < floorOf s.nv.settings e
  · rw [if_pos low, if_pos low]
    exact ⟨⟨dropped _, cache _⟩, counter _, atRest_dropClaim rest _⟩
  rw [if_neg low, if_neg low]
  unfold finishClaim
  rw [program, show (claimOf s l card a).ext = a.ext from rfl]
  dsimp only
  rw [second]
  dsimp only
  obtain ⟨held, cru', rest'⟩ := heldAtOnce_placeHold rest idle account alone under room first hit quote (some e.origin)
  refine ⟨⟨?_, held⟩, by rw [cru']; rfl, rest'⟩
  rw [cru', holding, written, Vector.set_set]

/-! ### A start that waits for its account (R52, R53, R73) -/

/-- What a start leaves that is kept waiting: its claim stands, and its terminal has PENDING. -/
def KeptWaiting (s t : State) (l : Terminal) (card : Word) (position : Byte) (a : Admitted) : Prop :=
  t.positions = s.positions.set a.pos { posAt s a.pos with occupancy := .claimed (claimOf s l card a) }
    ∧ t.nv = { s.nv with sessionCounter := s.nv.sessionCounter + 1 }
    ∧ t.tli = (modLine l (fun x => { x with
        flight := some (.start card a.pos)
        out := x.out ++ [{ kind := 0x90, body := 1 :: wordBytes card ++ [position] }] }) s).tli
    ∧ t.rlc = s.rlc ∧ t.lba = s.lba ∧ t.rcs = s.rcs ∧ t.fm = s.fm

theorem keptWaiting_beginFlight {s : State} {position : Byte} {a : Admitted} (passed : Passed s position a)
    (l : Terminal) (card : Word) (cru : Cru) (hlp : Hlp) :
    KeptWaiting s (beginFlight l (.start card a.pos) { claimedWith s l card a cru with hlp := hlp }) l card position a
      ∧ (beginFlight l (.start card a.pos) { claimedWith s l card a cru with hlp := hlp }).hlp = hlp
      ∧ (beginFlight l (.start card a.pos) { claimedWith s l card a cru with hlp := hlp }).cru = cru := by
  obtain ⟨tli, lba, rlc, rcs, fm, -⟩ := frame_claimedWith s l card a cru
  have lines := tli_modLine (s := s) (t := { claimedWith s l card a cru with hlp := hlp }) tli l fun x => { x with
    flight := some (.start card a.pos), out := x.out ++ [{ kind := 0x90, body := 1 :: wordBytes card ++ [position] }] }
  rw [beginFlight_start, posByte_of_named passed.named, modLine_does]
  exact ⟨⟨positions_claimedWith s l card a cru, rfl, lines, rlc, lba, rcs, fm⟩, rfl, rfl⟩

theorem KeptWaiting.atRest {s t : State} {l : Terminal} {card : Word} {position : Byte} {a : Admitted}
    (h : KeptWaiting s t l card position a) (rest : AtRest s) : AtRest t := by
  obtain ⟨-, -, -, rlc, lba, -⟩ := h
  exact rest.of_eq lba rlc

/-! ### The whole request -/

theorem takeTapStart_of_passed {s : State} {l : Terminal} {card : Word} {position program extension : Byte}
    {a : Admitted} (idle : Idle s l) (admitted : firstPass s card position program extension = .ok a) :
    takeTapStart l card position program extension (beginTaking s) =
      resolveClaim l a.pos (claimOf s l card a) (claimedWith s l card a s.cru) := by
  have admitted : firstPass (beginTaking s) card position program extension = .ok a := admitted
  obtain ⟨notFull, notWaiting⟩ := idle_passes (s := beginTaking s) idle
  unfold takeTapStart
  refine (if_neg notFull).trans ((if_neg notWaiting).trans ?_)
  rw [admitted]
  rfl

theorem resolveClaim_of_account {s : State} {l : Terminal} {card : Word} {a : Admitted}
    (vacant : (posAt s a.pos).occupancy = .vacant) (account : a.cls = .account) :
    resolveClaim l a.pos (claimOf s l card a) (claimedWith s l card a s.cru) =
      if s.nv.settings.cardSessionLimit ≤ (limitedPositions s card).length then
        dropClaim a.pos .cardLimit (claimedWith s l card a s.cru)
      else resolveAccount l card (.start a.pos) (claimedWith s l card a s.cru) := by
  unfold resolveClaim
  rw [overCardLimit_claimedWith vacant l card s.cru account,
    if_pos (show (claimOf s l card a).cls = .account from account)]
  by_cases limit : s.nv.settings.cardSessionLimit ≤ (limitedPositions s card).length
  · rw [if_pos (decide_eq_true limit), if_pos limit]
  · rw [if_neg (by simpa using limit), if_neg limit]
    rfl

/-- Settles O33: by the limit, then by whether the card's entry is cached, then by the room of its set and of the wanted
list. -/
theorem tapStartResolvesAccounts : Obligations.TapStartResolvesAccounts := by
  intro l card position program extension a s taking idle admitted account alone under below room first
  have passed := passed_of_firstPass admitted
  have exec_of : ∀ t, resolveClaim l a.pos (claimOf s l card a) (claimedWith s l card a s.cru) = t → AtRest t →
      exec (.tapStart l card position program extension) s = .next t := fun t h rest => by
    show Host.Outcome.next (Machine.taking (takeTapStart l card position program extension) s) = _
    rw [taking_of_takes taking.1, takeTapStart_of_passed idle admitted, h, closeTaking_of_rest rest]
  have resolved := resolveClaim_of_account (l := l) (card := card) passed.vacant account
  have dropped := fun reason => claimedAndRefused_dropClaim idle passed card (cru := s.cru) rfl reason
  have cache := fun reason => cache_dropClaim a.pos reason (claimedWith s l card a s.cru)
  by_cases limit : s.nv.settings.cardSessionLimit ≤ (limitedPositions s card).length
  · rw [if_pos limit] at resolved
    refine ⟨_, exec_of _ resolved (atRest_dropClaim taking.2 _), ?_⟩
    rw [if_pos limit]
    exact dropped _
  rw [if_neg limit] at resolved
  cases hit : findEntry s card with
  | some found =>
    obtain ⟨i, e⟩ := found
    have same : writtenUsed i e (claimedWith s l card a s.cru) = claimedWith s l card a (writtenUsed i e s).cru := rfl
    rw [resolveAccount_of_hit (s := claimedWith s l card a s.cru) hit below, same] at resolved
    have found := findEntry_writtenUsed_of_hit (s := claimedWith s l card a s.cru) (b := e) hit rfl
    rw [same] at found
    obtain ⟨outcome, counter, rest⟩ := admittedAgainst_serveAsker (cru := (writtenUsed i e s).cru) taking.2 idle passed
      account alone under room first rfl rfl found
    refine ⟨_, exec_of _ resolved rest, ?_⟩
    rw [if_neg limit]
    dsimp only
    refine ⟨counter, ?_⟩
    exact outcome
  | none =>
    rw [resolveAccount_of_miss (s := claimedWith s l card a s.cru) hit] at resolved
    cases way : allocate s card with
    | none =>
      rw [resolveMiss_of_full (s := claimedWith s l card a s.cru) way] at resolved
      refine ⟨_, exec_of _ resolved (atRest_dropClaim taking.2 _), ?_⟩
      rw [if_neg limit]
      exact ⟨dropped _, cache _⟩
    | some i =>
      have free : allocate s card ≠ none := by rw [way]; nofun
      by_cases wanted : wantedFor s card ≠ none
      · obtain ⟨waits, hlp, cru⟩ := keptWaiting_beginFlight passed l card
          { s.cru with wanted := s.cru.wanted.map fun w =>
            if w.card = card then { w with waiters := w.waiters ++ [(l, .start)] } else w } s.hlp
        rw [resolveMiss_of_wanted (s := claimedWith s l card a s.cru) free wanted] at resolved
        refine ⟨_, exec_of _ resolved (waits.atRest taking.2), ?_⟩
        rw [if_neg limit]
        dsimp only
        rw [if_pos wanted]
        exact ⟨waits, hlp, cru⟩
      rw [ne_eq, not_not] at wanted
      by_cases short : s.cru.wanted.length < 4
      · obtain ⟨waits, hlp, cru⟩ := keptWaiting_beginFlight passed l card
          { s.cru with wanted := s.cru.wanted ++ [{ card, age := 0, waiters := [(l, .start)] }] }
          (setFlag .accountWanted s).hlp
        rw [resolveMiss_of_new (s := claimedWith s l card a s.cru) free wanted short] at resolved
        refine ⟨_, exec_of _ resolved (waits.atRest taking.2), ?_⟩
        rw [if_neg limit]
        dsimp only
        rw [if_neg (by rw [wanted]; simp), if_pos short]
        exact ⟨waits, hlp, cru⟩
      rw [resolveMiss_of_offline (s := claimedWith s l card a s.cru) free wanted (Nat.le_of_not_lt short)] at resolved
      by_cases zero : s.nv.settings.offlineAllowance = 0
      · rw [offlineDecision_of_none (s := claimedWith s l card a s.cru) (.inl zero), offlineReason,
          if_pos (show (claimedWith s l card a s.cru).nv.settings.offlineAllowance = 0 from zero)] at resolved
        refine ⟨_, exec_of _ resolved (atRest_dropClaim taking.2 _), ?_⟩
        rw [if_neg limit]
        dsimp only
        rw [if_neg (by rw [wanted]; simp), if_neg short, if_pos zero]
        exact ⟨dropped _, cache _⟩
      · have same :
            writtenUsed i (provisionalEntry card (claimedWith s l card a s.cru)) (claimedWith s l card a s.cru) =
            claimedWith s l card a (writtenUsed i (provisionalEntry card s) s).cru := rfl
        have found := findEntry_provisional (s := claimedWith s l card a s.cru) way hit below
        rw [offlineDecision_of_way (s := claimedWith s l card a s.cru) zero way,
          createProvisional (s := claimedWith s l card a s.cru) i card below, same] at resolved
        rw [same] at found
        obtain ⟨outcome, counter, rest⟩ := admittedAgainst_serveAsker
          (cru := (writtenUsed i (provisionalEntry card s) s).cru) taking.2 idle passed account alone under room first
          rfl rfl found
        refine ⟨_, exec_of _ resolved rest, ?_⟩
        rw [if_neg limit]
        dsimp only
        rw [if_neg (by rw [wanted]; simp), if_neg short, if_neg zero]
        refine ⟨counter, ?_⟩
        exact provisional_of_admittedAgainst rfl outcome

end Sys2Proof.Machine.Cards
end

section
/-!
SUPPORT. A stop of the sessions at some positions, one after another (R10, R22, R25): what it leaves of each position,
each terminal and the journal, and what it keeps.
-/
namespace Sys2Proof.Machine.Cards
open Settlement

/-! ### Directives that stand (R115) -/

/-- A directive that changes no draw, and stands, goes on standing. -/
def StandsKept (s t : State) : Prop := ∀ b d, drawChanging d.order = false → Stands b d s → Stands b d t

theorem StandsKept.refl (s : State) : StandsKept s s := fun _ _ _ h => h

theorem StandsKept.trans {s t u : State} (h : StandsKept s t) (k : StandsKept t u) : StandsKept s u :=
  fun b d calm stands => k b d calm (h b d calm stands)

theorem standsKept_of_rlc {s t : State} (h : t.rlc = s.rlc) : StandsKept s t := fun b d _ stands => by
  unfold Stands at stands ⊢
  cases b <;> simpa only [heldOf, h] using stands

/-- Directives that join leave the others standing. -/
theorem standsKept_of_prefix {s t : State} (queue : s.rlc.queue <+: t.rlc.queue)
    (held : ∀ b, heldOf b s <+: heldOf b t) : StandsKept s t := fun b _ _ stands =>
  stands.imp (fun q => (queue.map _).subset q) fun h => (held b).subset h

theorem standsKept_offer (b : Block) (d : Directive) (s : State) : StandsKept s (offer b d s) :=
  standsKept_of_prefix (prefix_offer b d s).1 (prefix_offer b d s).2

theorem standsKept_discardHeld {test : Directive → Bool} (only : ∀ d, test d = true → drawChanging d.order = true)
    (b : Block) (s : State) : StandsKept s (discardHeld b test s) := fun c d calm stands => by
  have out : test d = false := by
    by_contra on
    rw [only d (by simpa using on)] at calm
    cases calm
  refine stands.imp (fun q => ?_) fun h => ?_
  · rwa [discardHeld, rlc_settlingEvents, queue_setHeld]
  · rw [heldOf_discardHeld]
    split
    · next e => subst e; exact List.mem_filter.mpr ⟨h, by rw [out]; rfl⟩
    · exact h

theorem standsKept_withdrawQueued {test : Directive → Bool}
    (only : ∀ d, test d = true → drawChanging d.order = true) (s : State) :
    StandsKept s (withdrawQueued test s) := fun c d calm stands => by
  have out : test d = false := by
    by_contra on
    rw [only d (by simpa using on)] at calm
    cases calm
  refine stands.imp (fun q => ?_) fun h => ?_
  · obtain ⟨e, he, rfl⟩ := List.mem_map.mp q
    rw [queue_withdrawQueued]
    exact List.mem_map.mpr ⟨e, List.mem_filterMap.mpr ⟨e, he, by rw [out]; rfl⟩, rfl⟩
  · have same : heldOf c (withdrawQueued test s) = heldOf c s := by
      cases c <;> simp [withdrawQueued, heldOf, rlc_settlingEvents]
    rwa [same]

theorem standsKept_withdrawStart (p : Pos) (s : State) : StandsKept s (withdrawStart p s) := by
  have only : ∀ d : Directive, (d.pos == p && isStart d.order) = true → drawChanging d.order = true := by
    rintro ⟨q, order⟩ h
    cases order <;> simp_all [isStart, drawChanging]
  exact (standsKept_discardHeld only .sm s).trans (standsKept_withdrawQueued only _)

theorem standsKept_releaseBudget (p : Pos) (s : State) : StandsKept s (releaseBudget p s) := by
  have sheds : ∀ d : Directive, (d.pos == p && (d.order == .shed || d.order == .restore)) = true →
      drawChanging d.order = true := by
    rintro ⟨q, order⟩ h
    cases order <;> simp_all [drawChanging]
  have steps : ∀ d : Directive, (d.pos == p && isStepGrant d.order) = true → drawChanging d.order = true := by
    rintro ⟨q, order⟩ h
    cases order <;> simp_all [isStepGrant, drawChanging]
  unfold releaseBudget
  extract_lets due t u v
  exact ((standsKept_of_rlc (s := s) (t := u) rfl).trans (standsKept_discardHeld sheds .lba u)).trans
    (standsKept_discardHeld steps .sm v)

theorem rlc_endHere (p : Pos) (ses : Session) (outcome : EndOutcome) (cause : Option Cause) (s : State) :
    (endHere p ses outcome cause s).rlc = (endQueue p ses outcome s).rlc := by
  rw [endHere_eq]
  show (appendRecord _ _).rlc = _
  rw [(appendRecord_does _ _).1]
  show (settleAccount _ _ _).rlc = _
  rw [(settleAccount_does _ _ _).1]

theorem standsKept_endHere (p : Pos) (ses : Session) (outcome : EndOutcome) (cause : Option Cause) (s : State) :
    StandsKept s (endHere p ses outcome cause s) := by
  have same : (modPos p (fun q => { q with startCount := none })
      (setOccupancy p (.unloading (tagOf ses.number)) s)).rlc = s.rlc := by simp [setOccupancy]
  have budget : StandsKept s (endBudget p ses s) :=
    (standsKept_of_rlc same).trans (standsKept_releaseBudget p _)
  refine StandsKept.trans ?_ (standsKept_of_rlc (rlc_endHere p ses outcome cause s))
  unfold endQueue
  split
  · exact budget
  · exact (budget.trans (standsKept_withdrawStart p _)).trans (standsKept_offer _ _ _)

theorem stopStands_iff {p : Pos} {tag : Byte} {s : State} :
    stopStands p tag s = true ↔ Stands .sm { pos := p, order := .stop tag } s := by
  have isIt : ∀ d : Directive, (d.pos == p && d.order == .stop tag) = true ↔ d = { pos := p, order := .stop tag } := by
    rintro ⟨q, order⟩
    simp
  unfold stopStands inQueue Stands
  simp only [Bool.or_eq_true, List.any_eq_true, isIt, List.mem_map, heldOf]
  simp

theorem haltWaterStands_iff {p : Pos} {s : State} :
    haltWaterStands p s = true ↔ Stands .fm { pos := p, order := .haltWater } s := by
  have isIt : ∀ d : Directive, (d.pos == p && d.order == .haltWater) = true ↔
      d = { pos := p, order := .haltWater } := by
    rintro ⟨q, order⟩
    simp
  unfold haltWaterStands inQueue Stands
  simp only [Bool.or_eq_true, List.any_eq_true, isIt, List.mem_map, heldOf]
  simp

/-! ### What stops keep -/

/-- What a stop at some positions keeps: the others but for grants, the directives that stand, the store's tables, the
room's mode and the fault log. -/
structure Stopping (ps : List Pos) (s t : State) : Prop where
  others : OthersKept ps s t
  idle : ∀ q, q ∉ ps → sessionAt s q = none → (posAt t q).lu = (posAt s q).lu ∧ (posAt t q).wu = (posAt s q).wu
    ∧ (posAt t q).shed = (posAt s q).shed ∧ t.nv.slots[q] = s.nv.slots[q]
  kind : ∀ q, (posAt t q).cls = (posAt s q).cls ∧ (posAt t q).presence = (posAt s q).presence
  stands : StandsKept s t
  config : ConfigKept s.nv t.nv
  rcs : t.rcs = s.rcs
  fm : t.fm = s.fm
  hlp : HlpButFlags s.hlp t.hlp

theorem sessionAt_of_granted {s t : State} {p : Pos}
    (h : GrantedOnly (posAt s p).occupancy (posAt t p).occupancy) :
    (sessionAt s p = none ∧ sessionAt t p = none) ∨ ∃ x y, sessionAt s p = some x ∧ sessionAt t p = some y
      ∧ y = { x with phase := y.phase, shed := y.shed, state := y.state } := by
  cases e : (posAt s p).occupancy with
  | live x =>
    rw [e] at h
    obtain ⟨y, hy, same⟩ := h
    exact .inr ⟨x, y, sessionAt_eq_some.mpr e, sessionAt_eq_some.mpr hy, same⟩
  | _ =>
    rw [e] at h
    left
    unfold sessionAt
    rw [e, show (posAt t p).occupancy = _ from h]
    exact ⟨rfl, rfl⟩

theorem Stopping.append {ps qs : List Pos} {s t u : State} (h : Stopping ps s t) (k : Stopping qs t u) :
    Stopping (ps ++ qs) s u := by
  refine ⟨fun q out => ?_, fun q out none => ?_, fun q => ?_, h.stands.trans k.stands,
    configKept_trans h.config k.config, k.rcs.trans h.rcs, k.fm.trans h.fm, h.hlp.trans k.hlp⟩
  · obtain ⟨first, second⟩ := not_or.mp (mt List.mem_append.mpr out)
    exact (h.others q first).trans (k.others q second)
  · obtain ⟨first, second⟩ := not_or.mp (mt List.mem_append.mpr out)
    obtain ⟨a1, a2, a3, a4⟩ := h.idle q first none
    have still : sessionAt t q = Option.none := by
      rcases sessionAt_of_granted (h.others q first) with ⟨-, e⟩ | ⟨x, y, e, -⟩
      · exact e
      · rw [none] at e; cases e
    obtain ⟨b1, b2, b3, b4⟩ := k.idle q second still
    exact ⟨b1.trans a1, b2.trans a2, b3.trans a3, b4.trans a4⟩
  · exact ⟨(k.kind q).1.trans (h.kind q).1, (k.kind q).2.trans (h.kind q).2⟩

theorem stopping_of_budget {s t : State} (h : BudgetOnly s t) : Stopping [] s t := by
  refine ⟨fun q _ => h.granted q, fun q _ none => ?_, fun q => ?_, standsKept_of_prefix h.queue h.held, ?_, ?_, ?_, ?_⟩
  · obtain ⟨same, slot, -⟩ := h.idle q none
    exact ⟨by rw [same], by rw [same], by rw [same], slot⟩
  · exact ⟨by rw [h.position q], by rw [h.position q]⟩
  · rw [h.nv]; exact configKept_refl _
  · rw [h.frame]
  · rw [h.frame]
  · rw [h.frame]; exact HlpButFlags.refl _

theorem stopping_endHere (p : Pos) (ses : Session) (outcome : EndOutcome) (cause : Option Cause) (s : State) :
    Stopping [p] s (endHere p ses outcome cause s) := by
  have ends := endsOnly_endHere p ses outcome cause s
  have apart : ∀ q, q ∉ [p] → q ≠ p := fun q out e => out (List.mem_singleton.mpr e)
  refine ⟨fun q out => ?_, fun q out _ => ?_, fun q => ?_, standsKept_endHere p ses outcome cause s,
    ?_, ?_, ?_, ends.hlp⟩
  · rw [ends.others q (apart q out)]; exact GrantedOnly.refl _
  · refine ⟨by rw [ends.others q (apart q out)], by rw [ends.others q (apart q out)],
      by rw [ends.others q (apart q out)], ?_⟩
    rw [ends.nv]
    exact (getElem_set_fin _ _ _ _).trans (if_neg (apart q out))
  · by_cases e : q = p
    · subst e; exact ⟨by rw [ends.here], by rw [ends.here]⟩
    · rw [ends.others q e]; exact ⟨rfl, rfl⟩
  · rw [ends.nv]; exact ⟨rfl, rfl, rfl, rfl, rfl, rfl, rfl, rfl, rfl, rfl⟩
  · rw [ends.frame]
  · rw [ends.frame]

theorem positions_dropClaim_ne {p q : Pos} (h : q ≠ p) (reason : Reason) (s : State) :
    posAt (dropClaim p reason s) q = posAt s q := by
  unfold dropClaim
  split
  · rfl
  · rw [answerTap_does]
    exact posAt_vacate_ne h s

theorem kind_vacate (p : Pos) (s : State) : (posAt (vacate p s) p).cls = (posAt s p).cls
    ∧ (posAt (vacate p s) p).presence = (posAt s p).presence := by
  unfold vacate restSilence setOccupancy
  rw [posAt_modPos_self, posAt_modPos_self]
  split <;> exact ⟨rfl, rfl⟩

theorem stopping_dropClaim (p : Pos) (reason : Reason) (s : State) : Stopping [p] s (dropClaim p reason s) := by
  have does := dropClaim_does p reason s
  have apart : ∀ q, q ∉ [p] → q ≠ p := fun q out e => out (List.mem_singleton.mpr e)
  obtain ⟨nv, -, rlc, rcs, fm, hlp⟩ := frame_dropClaim p reason s
  refine ⟨fun q out => ?_, fun q out _ => ?_, fun q => ?_, standsKept_of_rlc rlc, ?_, rcs, fm, ?_⟩
  · rw [positions_dropClaim_ne (apart q out)]; exact GrantedOnly.refl _
  · rw [positions_dropClaim_ne (apart q out), nv]; exact ⟨rfl, rfl, rfl, rfl⟩
  · by_cases e : q = p
    · subst e
      unfold dropClaim
      split
      · exact ⟨rfl, rfl⟩
      · rw [answerTap_does]
        exact kind_vacate q s
    · rw [positions_dropClaim_ne e]; exact ⟨rfl, rfl⟩
  · rw [nv]; exact configKept_refl _
  · rw [hlp]; exact HlpButFlags.refl _

theorem stopping_queueHaltWater (p : Pos) (s : State) : Stopping [] s (queueHaltWater p s) := by
  have only := queueOnly_queueHaltWater p s
  have same : ∀ q, posAt (queueHaltWater p s) q = { posAt s q with settle := (posAt (queueHaltWater p s) q).settle } :=
    only.2.2
  refine ⟨fun q _ => ?_, fun q _ _ => ?_, fun q => ?_, ?_, ?_, ?_, ?_, ?_⟩
  · rw [same q]; exact GrantedOnly.refl _
  · refine ⟨by rw [same q], by rw [same q], by rw [same q], by rw [only.1]⟩
  · rw [same q]; exact ⟨rfl, rfl⟩
  · unfold queueHaltWater
    split
    · exact StandsKept.refl s
    · exact standsKept_offer _ _ s
  · rw [only.1]; exact configKept_refl _
  · rw [only.1]
  · rw [only.1]
  · rw [only.1]; exact HlpButFlags.refl _

end Sys2Proof.Machine.Cards
end

section
/-!
SUPPORT. A stop of the sessions at some positions, one after another (R10, R22, R25): what has ended, who was answered,
and what the journal gains.
-/
namespace Sys2Proof.Machine.Cards
open Settlement

/-! ### What has stopped -/

/-- A position whose session, of the tag, has ended with a STOP. -/
def Gone (t : State) (p : Pos) (tag : Byte) : Prop :=
  (posAt t p).occupancy = .unloading tag ∧ (posAt t p).lu = 0 ∧ (posAt t p).wu = 0 ∧ (posAt t p).shed = false
    ∧ t.nv.slots[p] = none ∧ stopStands p tag t = true

theorem Gone.kept {t u : State} {p : Pos} {tag : Byte} {ps : List Pos} (h : Gone t p tag) (k : Stopping ps t u)
    (out : p ∉ ps) : Gone u p tag := by
  obtain ⟨occupancy, lu, wu, shed, slot, stop⟩ := h
  have none : sessionAt t p = none := by unfold sessionAt; rw [occupancy]
  obtain ⟨lu', wu', shed', slot'⟩ := k.idle p out none
  have granted := k.others p out
  rw [occupancy] at granted
  exact ⟨granted, lu'.trans lu, wu'.trans wu, shed'.trans shed, slot'.trans slot,
    stopStands_iff.mpr (k.stands .sm _ rfl (stopStands_iff.mp stop))⟩

/-- What a record of a room stop says of its session. -/
def stopRow (grace : Nat) (p : Pos) (ses : Session) :
    Pos × Half × Word × Nat × EndOutcome × Option Cause × Nat :=
  (p, ses.number, ses.card, ses.quote, .roomStop, none, chargeOf grace .roomStop ses)

/-- The rows of the records that the live sessions of some positions have. -/
def stopRows (s : State) (ps : List Pos) : List (Pos × Half × Word × Nat × EndOutcome × Option Cause × Nat) :=
  ps.filterMap fun p => (sessionAt s p).map (stopRow s.nv.settings.graceMinutes p)

/-- The same of a record. -/
def rowOf (r : SettlementRecord) : Pos × Half × Word × Nat × EndOutcome × Option Cause × Nat :=
  (r.position, r.number, r.card, r.quote, r.outcome, r.cause, r.charge)

/-- What a stop of some positions with a reason leaves. -/
structure Stopped (ps : List Pos) (reason : Reason) (s t : State) : Prop where
  stopping : Stopping ps s t
  cleared : ∀ p ∈ ps, claimAt t p = none ∧ sessionAt t p = none
  live : ∀ p ∈ ps, ∀ ses, sessionAt s p = some ses → Gone t p (tagOf ses.number)
  claimed : ∀ p ∈ ps, ∀ c, claimAt s p = some c → (posAt t p).occupancy = .vacant
    ∧ ((lineOf s c.terminal).flight = some (.start c.card p) →
      (∀ q ∈ ps, ∀ d, claimAt s q = some d → d.terminal = c.terminal → q = p) →
      lineOf t c.terminal = { lineOf s c.terminal with
        flight := none, out := (lineOf s c.terminal).out ++ [refusedRecord 1 c.card (posByte p) reason] })
  lines : ∀ l, (∀ p ∈ ps, ∀ c, claimAt s p = some c → c.terminal ≠ l) → lineOf t l = lineOf s l
  journal : (ps.filterMap (sessionAt s)).length ≤ numbersLeft s.nv →
    ∃ new, t.nv.journal = s.nv.journal ++ new ∧ new.map rowOf = stopRows s ps
  numbers : numbersLeft s.nv ≤ numbersLeft t.nv + (ps.filterMap (sessionAt s)).length

theorem stopRow_of_granted {x y : Session} (h : y = { x with phase := y.phase, shed := y.shed, state := y.state })
    (grace : Nat) (p : Pos) : stopRow grace p y = stopRow grace p x := by rw [h]; rfl

/-- A grant changes neither which positions hold sessions nor what their records would say. -/
theorem stopRows_of_stopping {ps qs : List Pos} {s t : State} (h : Stopping ps s t) (apart : ∀ q ∈ qs, q ∉ ps) :
    stopRows t qs = stopRows s qs ∧ (qs.filterMap (sessionAt t)).length = (qs.filterMap (sessionAt s)).length := by
  obtain ⟨-, -, -, settings, -⟩ := h.config
  unfold stopRows
  rw [settings]
  induction qs with
  | nil => exact ⟨rfl, rfl⟩
  | cons q qs ih =>
    obtain ⟨rows, count⟩ := ih fun r hr => apart r (List.mem_cons_of_mem _ hr)
    rcases sessionAt_of_granted (h.others q (apart q List.mem_cons_self)) with ⟨a, b⟩ | ⟨x, y, a, b, same⟩
    · simp only [List.filterMap_cons, a, b, Option.map_none]
      exact ⟨rows, count⟩
    · simp only [List.filterMap_cons, a, b, Option.map_some, stopRow_of_granted same, List.length_cons]
      exact ⟨by rw [rows], by rw [count]⟩

theorem Stopped.append {ps qs : List Pos} {reason : Reason} {s t u : State} (h : Stopped ps reason s t)
    (k : Stopped qs reason t u) (apart : ∀ q ∈ qs, q ∉ ps) : Stopped (ps ++ qs) reason s u := by
  have claims : ∀ q ∈ qs, claimAt t q = claimAt s q := fun q hq => claimAt_of_granted (h.stopping.others q (apart q hq))
  obtain ⟨rows, count⟩ := stopRows_of_stopping h.stopping apart
  refine ⟨h.stopping.append k.stopping, fun p mem => ?_, fun p mem ses live => ?_, fun p mem c claim => ?_,
    fun l free => ?_, fun left => ?_, ?_⟩
  · by_cases second : p ∈ qs
    · exact k.cleared p second
    · obtain ⟨claim, none⟩ := h.cleared p ((List.mem_append.mp mem).resolve_right second)
      refine ⟨(claimAt_of_granted (k.stopping.others p second)).trans claim, ?_⟩
      rcases sessionAt_of_granted (k.stopping.others p second) with ⟨-, e⟩ | ⟨x, y, e, -⟩
      · exact e
      · rw [none] at e; cases e
  · rcases List.mem_append.mp mem with first | second
    · exact (h.live p first ses live).kept k.stopping fun other => apart p other first
    · rcases sessionAt_of_granted (h.stopping.others p (apart p second)) with ⟨a, -⟩ | ⟨x, y, a, b, same⟩
      · rw [live] at a; cases a
      · rw [live] at a
        cases a
        have gone := k.live p second y b
        rwa [show y.number = ses.number by rw [same]] at gone
  · rcases List.mem_append.mp mem with first | second
    · obtain ⟨vacant, answered⟩ := h.claimed p first c claim
      have out : p ∉ qs := fun other => apart p other first
      refine ⟨?_, fun flight sole => ?_⟩
      · have granted := k.stopping.others p out
        rwa [vacant] at granted
      · rw [k.lines c.terminal fun q hq d hd e => ?_]
        · exact answered flight fun q hq => sole q (List.mem_append_left _ hq)
        · rw [claims q hq] at hd
          exact out (sole q (List.mem_append_right _ hq) d hd e ▸ hq)
    · obtain ⟨vacant, answered⟩ := k.claimed p second c ((claims p second).trans claim)
      refine ⟨vacant, fun flight sole => ?_⟩
      have kept := h.lines c.terminal fun q hq d hd e =>
        apart p second (sole q (List.mem_append_left _ hq) d hd e ▸ hq)
      rw [kept] at answered
      exact answered flight fun q hq d hd => sole q (List.mem_append_right _ hq) d ((claims q hq).symm.trans hd)
  · rw [k.lines l fun q hq d hd => ?_, h.lines l fun p hp => free p (List.mem_append_left _ hp)]
    exact free q (List.mem_append_right _ hq) d ((claims q hq).symm.trans hd)
  · rw [List.filterMap_append, List.length_append] at left
    have numbers := h.numbers
    obtain ⟨new, first, r⟩ := h.journal (by omega)
    obtain ⟨new', second, r'⟩ := k.journal (by omega)
    refine ⟨new ++ new', by rw [second, first, List.append_assoc], ?_⟩
    rw [List.map_append, r, r', rows]
    exact (List.filterMap_append ..).symm
  · have a := h.numbers
    have b := k.numbers
    rw [List.filterMap_append, List.length_append]
    omega

/-- What changes neither a terminal's line nor the journal stops nothing. -/
theorem stopped_nil {reason : Reason} {s t : State} (h : Stopping [] s t) (tli : t.tli = s.tli)
    (journal : t.nv.journal = s.nv.journal) (numbers : numbersLeft t.nv = numbersLeft s.nv) :
    Stopped [] reason s t :=
  ⟨h, nofun, nofun, nofun, fun l _ => lineOf_congr tli l, fun _ => ⟨[], by rw [journal, List.append_nil], rfl⟩,
    by rw [numbers]; exact Nat.le_add_right _ _⟩

theorem stopped_of_budget {reason : Reason} {s t : State} (h : BudgetOnly s t) : Stopped [] reason s t := by
  refine stopped_nil (stopping_of_budget h) (by rw [h.frame]) (by rw [h.nv]) ?_
  rw [h.nv]
  rfl

/-! ### One position -/

theorem numbersLeft_of_exhausted {nv : Retained} (h : nv.exhausted = true) : numbersLeft nv = 0 := if_pos h

theorem numbersLeft_of_not {nv : Retained} (h : nv.exhausted = false) : numbersLeft nv = lastSeq - nv.nextSeq + 1 :=
  if_neg (by rw [h]; nofun)

/-- A record takes one number (R150, R151). -/
theorem numbersLeft_appended (r : SettlementRecord) (nv : Retained) :
    numbersLeft nv ≤ numbersLeft (appended r nv) + 1 := by
  unfold appended
  cases spent : nv.exhausted with
  | true => exact Nat.le_add_right _ _
  | false =>
    rw [numbersLeft_of_not spent, if_neg (by nofun)]
    split
    · next last => rw [last, Nat.sub_self]; exact Nat.le_add_left _ _
    · show _ ≤ numbersLeft _ + 1
      rw [numbersLeft_of_not rfl]
      dsimp only
      omega

theorem nv_endHere (p : Pos) (ses : Session) (outcome : EndOutcome) (cause : Option Cause) (s : State) :
    (endHere p ses outcome cause s).nv = { appended (settlementOf s p ses outcome cause) s.nv with
      slots := (endHere p ses outcome cause s).nv.slots } := by
  obtain ⟨u, hq, -, hf, -⟩ := endQueue_does p ses outcome s
  have settled : (settleAccount ses (chargeOf s.nv.settings.graceMinutes outcome ses) (endQueue p ses outcome s)).nv
      = s.nv := by
    rw [(settleAccount_does _ _ _).1]
    exact (by rw [hq.1, hf])
  have record := congrArg State.nv (appendRecord_does (settlementOf s p ses outcome cause)
    (settleAccount ses (chargeOf s.nv.settings.graceMinutes outcome ses) (endQueue p ses outcome s))).1
  rw [endHere_eq, writeSlot_nv, record]
  dsimp only
  rw [settled]

theorem tli_endHere (p : Pos) (ses : Session) (outcome : EndOutcome) (cause : Option Cause) (s : State) :
    (endHere p ses outcome cause s).tli = s.tli := by
  rw [(endsOnly_endHere p ses outcome cause s).frame]

/-- The ended session's position is UNLOADING with its tag (R22). -/
theorem occupancy_endHere (p : Pos) (ses : Session) (outcome : EndOutcome) (cause : Option Cause) (s : State) :
    (posAt (endHere p ses outcome cause s) p).occupancy = .unloading (tagOf ses.number) := by
  obtain ⟨u, hq, -, -, -, here, -⟩ := endQueue_does p ses outcome s
  rw [posAt_congr (positions_endHere p ses outcome cause s) p, hq.occupancy p, here]

theorem stopped_endHere {p : Pos} {ses : Session} {s : State} (live : sessionAt s p = some ses) (room : RoomFor 1 s)
    (reason : Reason) : Stopped [p] reason s (endHere p ses .roomStop none s) := by
  have ended := endedAt_endHere p ses .roomStop none s room
  have ends := endsOnly_endHere p ses .roomStop none s
  have nv := nv_endHere p ses .roomStop none s
  have claim : ∀ q ∈ [p], claimAt s q = none := fun q hq => by
    rw [List.mem_singleton.mp hq]
    exact claimAt_of_live live
  have count : ([p].filterMap (sessionAt s)).length = 1 := by simp [live]
  refine ⟨stopping_endHere p ses .roomStop none s, fun q hq => ?_, fun q hq x hx => ?_, fun q hq c hc => ?_,
    fun l _ => lineOf_congr (tli_endHere p ses .roomStop none s) l, fun left => ?_, ?_⟩
  · rw [List.mem_singleton] at hq
    subst hq
    have occupancy := occupancy_endHere q ses .roomStop none s
    exact ⟨claimAt_of_unclaimed fun c => by rw [occupancy]; nofun, by unfold sessionAt; rw [occupancy]⟩
  · rw [List.mem_singleton] at hq
    subst hq
    rw [live] at hx
    cases hx
    obtain ⟨occupancy, lu, wu, shed, -, -, -, -, stop, -, -, slot, -⟩ := ended
    exact ⟨occupancy, lu, wu, shed, slot, stop nofun⟩
  · rw [claim q hq] at hc
    cases hc
  · have fresh : s.nv.exhausted = false := by
      by_contra spent
      rw [count, numbersLeft_of_exhausted (by simpa using spent)] at left
      omega
    obtain ⟨-, -, -, -, -, -, -, -, -, -, journal, -⟩ := ended
    unfold AppendedTo at journal
    rw [if_neg (by rw [fresh]; nofun)] at journal
    refine ⟨_, journal, ?_⟩
    unfold stopRows
    simp only [List.filterMap_cons, live, Option.map_some, List.filterMap_nil]
    rfl
  · rw [count, nv]
    exact numbersLeft_appended _ _

theorem stopped_dropClaim {p : Pos} {s : State} (none : sessionAt s p = none) (reason : Reason) :
    Stopped [p] reason s (dropClaim p reason s) := by
  obtain ⟨nv, -⟩ := frame_dropClaim p reason s
  have count : [p].filterMap (sessionAt s) = [] := by simp [none]
  refine ⟨stopping_dropClaim p reason s, fun q hq => ?_, fun q hq x hx => ?_, fun q hq c claim => ?_, fun l free => ?_,
    fun _ => ⟨[], by rw [nv, List.append_nil], ?_⟩, by rw [nv]; exact Nat.le_add_right _ _⟩
  · rw [List.mem_singleton] at hq
    subst hq
    cases claim : claimAt s q with
    | none =>
      unfold dropClaim
      rw [claim]
      exact ⟨claim, none⟩
    | some c =>
      have vacant : (posAt (dropClaim q reason s) q).occupancy = .vacant := by
        rw [dropClaim_of_claim claim, answerTap_does]
        exact occupancy_vacate q s
      exact ⟨claimAt_of_unclaimed fun c => by rw [vacant]; nofun, by unfold sessionAt; rw [vacant]⟩
  · rw [List.mem_singleton.mp hq, none] at hx
    cases hx
  · rw [List.mem_singleton] at hq
    subst hq
    refine ⟨?_, fun flight _ => ?_⟩
    · rw [dropClaim_of_claim claim, answerTap_does]
      exact occupancy_vacate q s
    · exact (claimDropped_dropClaim claim (by rw [flight]; nofun) reason).2.2.1
  · cases claim : claimAt s p with
    | none =>
      unfold dropClaim
      rw [claim]
    | some c =>
      have ne : l ≠ c.terminal := fun e => free p List.mem_cons_self c claim e.symm
      rw [dropClaim_of_claim claim, lineOf_answerTap_ne ne]
      exact lineOf_congr (tli_withdrawn p c.terminal s) l
  · unfold stopRows
    simp only [List.filterMap_cons, none, Option.map_none, List.filterMap_nil, List.map_nil]

theorem stopAt_of_none {p : Pos} {s : State} (none : sessionAt s p = none) (reason : Reason) :
    stopAt p reason s = dropClaim p reason s := by
  unfold stopAt
  rw [none]
  rfl

/-- A live session ends once the evaluation that was owed has run (R92). -/
theorem stopAt_of_live {p : Pos} {s : State} {ses : Session} (live : sessionAt (evaluateIfDue s) p = some ses)
    (reason : Reason) : stopAt p reason s = endHere p ses .roomStop none (evaluateIfDue s) := by
  have before : (sessionAt s p).isSome = true := by
    rcases sessionAt_of_granted ((budgetOnly_evaluateIfDue s).granted p) with ⟨-, e⟩ | ⟨x, y, e, -⟩
    · rw [live] at e; cases e
    · rw [e]; rfl
  have gone : claimAt (endHere p ses .roomStop none (evaluateIfDue s)) p = none := by
    refine claimAt_of_unclaimed fun c => ?_
    rw [occupancy_endHere]
    nofun
  unfold stopAt
  rw [if_pos before, endSession_of_live _ _ live]
  unfold dropClaim
  rw [gone]

end Sys2Proof.Machine.Cards
end

section
/-!
SUPPORT. Room stops, position by position, and the HALT_WATERs that follow them (R25, R136, R145, R146).
-/
namespace Sys2Proof.Machine.Cards
open Settlement

/-! ### Stops that leave room -/

/-- A stop of some positions that holds back no more than `k` directives beyond those of the entries that wait. -/
def StopsWith (k : Nat) (ps : List Pos) (reason : Reason) (s t : State) : Prop :=
  ∀ n, Spare (n + k) s → Stopped ps reason s t ∧ Spare n t

theorem StopsWith.append {j k : Nat} {ps qs : List Pos} {reason : Reason} {s t u : State}
    (h : StopsWith j ps reason s t) (next : StopsWith k qs reason t u) (apart : ∀ q ∈ qs, q ∉ ps) :
    StopsWith (j + k) (ps ++ qs) reason s u := fun n spare => by
  obtain ⟨first, left⟩ := h (n + k) (spare.mono (by omega))
  obtain ⟨second, rest⟩ := next n left
  exact ⟨first.append second apart, rest⟩

theorem StopsWith.mono {j k : Nat} {ps : List Pos} {reason : Reason} {s t : State}
    (h : StopsWith j ps reason s t) (le : j ≤ k) : StopsWith k ps reason s t :=
  fun n spare => h n (spare.mono (by omega))

theorem stopsWith_refl (reason : Reason) (s : State) : StopsWith 0 [] reason s s := fun _ spare =>
  ⟨stopped_of_budget (BudgetOnly.refl s), spare⟩

theorem stopsWith_evaluateIfDue (reason : Reason) (s : State) : StopsWith 0 [] reason s (evaluateIfDue s) := by
  refine fun n spare => ⟨stopped_of_budget (budgetOnly_evaluateIfDue s), ?_⟩
  unfold evaluateIfDue
  split
  · exact Spare.evaluate spare
  · exact spare

theorem spare_of_endsOnly {p : Pos} {n : Nat} {s t : State} (h : EndsOnly p s t) (spare : Spare (n + 1) s) :
    Spare n t := by
  obtain ⟨room, lost⟩ := h.uses ((waitingOrder s).length + n) (spare.1.mono (by omega))
  have fewer := h.waiting
  exact ⟨room.mono (by omega), lost.trans spare.2⟩

theorem stopsWith_endHere {p : Pos} {ses : Session} {s : State} (live : sessionAt s p = some ses) (reason : Reason) :
    StopsWith 1 [p] reason s (endHere p ses .roomStop none s) := fun _ spare =>
  ⟨stopped_endHere live (spare.1.mono (by omega)) reason,
    spare_of_endsOnly (endsOnly_endHere p ses .roomStop none s) spare⟩

theorem stopsWith_dropClaim {p : Pos} {s : State} (none : sessionAt s p = none) (reason : Reason) :
    StopsWith 0 [p] reason s (dropClaim p reason s) := fun _ spare => by
  obtain ⟨-, lba, rlc, -⟩ := frame_dropClaim p reason s
  exact ⟨stopped_dropClaim none reason, spare.of_eq rlc lba⟩

/-- A room stop at a position stops that position (R25). -/
theorem stopsWith_stopAt (p : Pos) (reason : Reason) (s : State) : StopsWith 1 [p] reason s (stopAt p reason s) := by
  rcases sessionAt_of_granted ((budgetOnly_evaluateIfDue s).granted p) with ⟨none, -⟩ | ⟨x, y, -, live, -⟩
  · rw [stopAt_of_none none]
    exact (stopsWith_dropClaim none reason).mono (Nat.zero_le 1)
  · rw [stopAt_of_live live]
    exact (stopsWith_evaluateIfDue reason s).append (stopsWith_endHere live reason) fun _ _ => List.not_mem_nil

/-- Room stops at the positions of a class, or at all, one after another. -/
theorem stopsWith_forPositions {test : State → Pos → Bool}
    (same : ∀ ps s t, Stopping ps s t → test t = test s) (reason : Reason) (ps : List Pos) (nodup : ps.Nodup)
    (s : State) : StopsWith ps.length (ps.filter (test s)) reason s
      (forPositions ps (fun p s => if test s p then stopAt p reason s else s) s) := by
  induction ps generalizing s with
  | nil => exact stopsWith_refl reason s
  | cons p ps ih =>
    obtain ⟨fresh, nodup⟩ := List.nodup_cons.mp nodup
    rw [forPositions_cons, List.length_cons, Nat.add_comm]
    by_cases hit : test s p = true
    · rw [if_pos hit, List.filter_cons_of_pos hit]
      intro n spare
      have one := stopsWith_stopAt p reason s
      have kept : test (stopAt p reason s) = test s :=
        same [p] _ _ (one _ (spare.mono (m := 0 + 1) (by omega))).1.stopping
      have rest := ih nodup (stopAt p reason s)
      rw [kept] at rest
      refine one.append rest (fun q hq e => ?_) n spare
      rw [List.mem_singleton] at e
      exact fresh (e ▸ (List.mem_filter.mp hq).1)
    · rw [if_neg hit, List.filter_cons_of_neg hit]
      exact (ih nodup s).mono (Nat.le_add_left _ _)

/-! ### HALT_WATER -/

/-- A directive that is offered stands, in the queue or held back, while its block's list has room (R115). -/
theorem stands_offer {b : Block} {s : State} (d : Directive) (room : (heldOf b s).length < 64) :
    Stands b d (offer b d s) := by
  unfold offer
  split
  · refine .inr ?_
    unfold holdBack
    rw [if_pos room, heldOf_setHeld, if_pos rfl]
    exact List.mem_append_right _ (List.mem_singleton_self d)
  · refine .inl ?_
    simp [joinQueue, setQueue]

theorem haltWaterStands_queueHaltWater {p : Pos} {s : State} (room : RoomFor 1 s) :
    haltWaterStands p (queueHaltWater p s) = true := by
  unfold queueHaltWater
  split
  · next stands => exact stands
  · exact haltWaterStands_iff.mpr (stands_offer _ (room .fm))

theorem haltWaterStands_of_stopping {ps : List Pos} {s t : State} {p : Pos} (h : Stopping ps s t)
    (stands : haltWaterStands p s = true) : haltWaterStands p t = true :=
  haltWaterStands_iff.mpr (h.stands .fm _ rfl (haltWaterStands_iff.mp stands))

theorem stopsWith_queueHaltWater (p : Pos) (reason : Reason) (s : State) :
    StopsWith 1 [] reason s (queueHaltWater p s) := fun n spare => by
  have only := queueOnly_queueHaltWater p s
  obtain ⟨room, lost⟩ := uses_queueHaltWater p s ((waitingOrder s).length + n) (spare.1.mono (by omega))
  have nv : (queueHaltWater p s).nv = s.nv := by rw [only.1]
  refine ⟨stopped_nil (stopping_queueHaltWater p s) only.tli (by rw [nv]) (by rw [nv]), ?_, lost.trans spare.2⟩
  rw [waitingOrder_congr (by rw [only.1])]
  exact room

/-- The WASHER positions that are ENROLLED (R136). -/
def haltsWater (s : State) (p : Pos) : Bool := isWasher s p && (posAt s p).presence == .enrolled

theorem Stopping.haltsWater {ps : List Pos} {s t : State} (h : Stopping ps s t) : haltsWater t = haltsWater s := by
  funext p
  obtain ⟨cls, presence⟩ := h.kind p
  unfold Cards.haltsWater isWasher
  rw [cls, presence]

theorem Stopping.isWasher {ps : List Pos} {s t : State} (h : Stopping ps s t) : isWasher t = isWasher s := by
  funext p
  unfold Machine.isWasher
  rw [(h.kind p).1]

/-- HALT_WATERs to the positions that take them stop nothing, and stand afterwards (R136). -/
theorem halted_forPositions (reason : Reason) (ps : List Pos) (s : State) (n : Nat) (spare : Spare (n + ps.length) s) :
    let t := forPositions ps (fun p s => if haltsWater s p then queueHaltWater p s else s) s
    Stopped [] reason s t ∧ Spare n t ∧ ∀ p ∈ ps, haltsWater s p = true → haltWaterStands p t = true := by
  induction ps generalizing s with
  | nil =>
    obtain ⟨stopped, left⟩ := stopsWith_refl reason s n spare
    exact ⟨stopped, left, nofun⟩
  | cons p ps ih =>
    rw [List.length_cons, ← Nat.add_assoc] at spare
    rw [forPositions_cons]
    by_cases hit : haltsWater s p = true
    · rw [if_pos hit]
      obtain ⟨first, left⟩ := stopsWith_queueHaltWater p reason s _ spare
      obtain ⟨rest, done, stand⟩ := ih (queueHaltWater p s) left
      refine ⟨first.append rest fun _ _ => List.not_mem_nil, done, fun q mem takes => ?_⟩
      rcases List.mem_cons.mp mem with rfl | later
      · exact haltWaterStands_of_stopping rest.stopping (haltWaterStands_queueHaltWater (spare.1.mono (by omega)))
      · exact stand q later (by rw [first.stopping.haltsWater]; exact takes)
    · rw [if_neg hit]
      obtain ⟨rest, done, stand⟩ := ih s (spare.mono (by omega))
      refine ⟨rest, done, fun q mem takes => ?_⟩
      rcases List.mem_cons.mp mem with rfl | later
      · exact absurd takes hit
      · exact stand q later takes

/-! ### The room's actions -/

theorem spare_of_room {s : State} (lost : s.rlc.lost = []) (room : RoomHeld s) : Spare 48 s := ⟨room, lost⟩

/-- ALARM stops the WASHER positions, and a HALT_WATER stands for each that is ENROLLED (R136, R145). -/
theorem stopped_enterAlarm {s : State} (lost : s.rlc.lost = []) (room : RoomHeld s) :
    Stopped (positionsWhere (isWasher s)) .roomAlarm (setMode .alarm s) (enterAlarm s) ∧ Spare 0 (enterAlarm s)
      ∧ ∀ p, haltsWater s p = true → haltWaterStands p (enterAlarm s) = true := by
  have loop := stopsWith_forPositions (test := isWasher) (fun _ _ _ h => h.isWasher) .roomAlarm allPositions
    allPositions_nodup (setMode .alarm s)
  obtain ⟨first, left⟩ := loop 24 (spare_of_room lost room)
  obtain ⟨rest, done, stand⟩ := halted_forPositions .roomAlarm allPositions _ 0 left
  have both := first.append rest nofun
  rw [List.append_nil] at both
  refine ⟨both, done, fun p takes => stand p (mem_allPositions p) ?_⟩
  rw [first.stopping.haltsWater]
  exact takes

/-- A stop of every position (R146). -/
theorem stopped_everywhere {s : State} (lost : s.rlc.lost = []) (room : RoomHeld s) :
    Stopped allPositions .roomClosed s (forPositions allPositions (fun p => stopAt p .roomClosed) s)
      ∧ Spare 0 (forPositions allPositions (fun p => stopAt p .roomClosed) s) := by
  have loop := stopsWith_forPositions (test := fun _ _ => true) (fun _ _ _ _ => rfl) .roomClosed allPositions
    allPositions_nodup s
  exact loop 0 ((spare_of_room lost room).mono (Nat.le_of_ble_eq_true rfl))

end Sys2Proof.Machine.Cards
end

section
/-!
SUPPORT. The edges of the input lines (R144 to R146) in the taking of a request, and the close of such a taking.
-/
namespace Sys2Proof.Machine.Cards
open Settlement

/-! ### The close of a request's taking -/

/-- HLP's own places are no concern of an evaluation. -/
theorem budgetOnly_keepHlp {s t : State} {h : Hlp} (b : BudgetOnly { s with hlp := h } t) :
    BudgetOnly s { t with hlp := s.hlp } where
  frame := congrArg (fun e : State => { e with hlp := s.hlp }) b.frame
  rlc := b.rlc
  queue := b.queue
  held := b.held
  nv := b.nv
  undo := b.undo
  demand := b.demand
  position := b.position
  granted := b.granted
  idle := b.idle

/-- A request whose effect leaves room for the grants that it owes is answered, and then the evaluation runs (R92). -/
theorem answers_of_spare {r : Request} {s x : State} {reply : Reply} (serving : Serving s)
    (h : takeRequest r (beginTaking s) = (x, reply)) (spare : Spare 0 x) :
    ∃ t, Answers r s t reply ∧ BudgetOnly x t := by
  have b := budgetOnly_evaluateIfDue { x with hlp := servedWith r reply x.hlp }
  obtain ⟨closed, -⟩ := closeTaking_of_room (s := { x with hlp := servedWith r reply x.hlp }) spare.2 spare.1
  refine ⟨{ evaluateIfDue { x with hlp := servedWith r reply x.hlp } with hlp := x.hlp }, ?_, budgetOnly_keepHlp b⟩
  unfold Answers
  rw [exec_requestRow, taking_of_takes serving.1.1, arrive_of_none (by simpa using serving.2), serve_good, h, closed]
  generalize evaluateIfDue { x with hlp := servedWith r reply x.hlp } = e at b
  have hlp : e.hlp = servedWith r reply x.hlp := by rw [b.frame]
  show Host.Outcome.next e = Host.Outcome.next { e with hlp := servedWith r reply x.hlp }
  rw [← hlp]

/-! ### Room stops -/

theorem length_liveSessions_of_sublist {ps : List Pos} (sub : ps.Sublist allPositions) (s : State) :
    (ps.filterMap (sessionAt s)).length ≤ (liveSessions s).length := (sub.filterMap (sessionAt s)).length_le

/-- A stop seen from a state with the same positions, store and lines. -/
theorem roomStopped_of_stopped {ps : List Pos} {reason : Reason} {s x t : State} (h : Stopped ps reason x t)
    (sub : ps.Sublist allPositions) (positions : x.positions = s.positions) (nv : x.nv = s.nv) (tli : x.tli = s.tli) :
    RoomStopped s t ps reason := by
  have pos : ∀ p, posAt x p = posAt s p := posAt_congr positions
  have sessions : sessionAt x = sessionAt s := funext fun p => sessionAt_congr (by rw [pos])
  have claims : ∀ p, claimAt x p = claimAt s p := claimAt_of_positions positions
  have line : ∀ l, lineOf x l = lineOf s l := lineOf_congr tli
  have config := h.stopping.config
  rw [nv] at config
  refine ⟨fun p mem ses live => h.live p mem ses (by rw [sessions]; exact live), fun p mem c claim => ?_,
    fun l free => ?_, fun left => ?_, fun q out => ?_, config⟩
  · have answered := h.claimed p mem c ((claims p).trans claim)
    simp only [line, claims] at answered
    exact answered
  · rw [h.lines l fun p mem c claim => free p mem c ((claims p).symm.trans claim), line]
  · have enough := (length_liveSessions_of_sublist sub s).trans left
    rw [← sessions, ← nv] at enough
    obtain ⟨new, journal, rows⟩ := h.journal enough
    refine ⟨new, by rw [journal, nv], ?_⟩
    unfold stopRows at rows
    rw [sessions, nv] at rows
    exact rows
  · rw [← pos]
    exact h.stopping.others q out

/-! ### What an edge writes -/

/-- The record and the flag of an edge, with the lines' states that FM keeps. -/
structure EdgeWritten (e : InputEvent) (f : AttnFlag) (flood stop : Bool) (s t : State) : Prop where
  frame : t = { s with hlp := t.hlp, fm := t.fm }
  recorded : RecordedIn s t none none (.input e) [] none
  flag : flagIsSet f t = true
  flood : t.fm.floodActive = flood
  stop : t.fm.stopActive = stop

theorem edgeWritten_writeInput (e : InputEvent) (f : AttnFlag) (flood stop : Bool) (s : State) :
    EdgeWritten e f flood stop s
      (writeInput e (setFlag f (modFm (fun m => { m with floodActive := flood, stopActive := stop }) s))) := by
  obtain ⟨recorded, flags, fm⟩ := recordedIn_writeFault none none (.input e) [] none
    (setFlag f (modFm (fun m => { m with floodActive := flood, stopActive := stop }) s))
  have does := writeFault_does none none (.input e) [] none
    (setFlag f (modFm (fun m => { m with floodActive := flood, stopActive := stop }) s))
  unfold writeInput
  generalize writeFault none none (.input e) [] none _ = t at *
  exact ⟨does, recorded, flagIsSet_of_butFlags flags (flagIsSet_setFlag_self f _), by rw [fm]; rfl, by rw [fm]; rfl⟩

theorem recordedIn_later {s t u : State} {position : Option Pos} {session : Option Half} {event : FaultEvent}
    {causes : List Cause} {snapshot : Option LastReport} (h : RecordedIn s t position session event causes snapshot)
    (fm : u.fm = t.fm) (hlp : HlpButFlags t.hlp u.hlp) : RecordedIn s u position session event causes snapshot := by
  obtain ⟨ring, seq, roster, flag⟩ := h
  unfold RecordedIn
  rw [fm]
  exact ⟨ring, seq, roster, flagIsSet_of_butFlags hlp flag⟩

/-- What follows an edge and keeps FM leaves the edge written. -/
theorem EdgeWritten.faultLogOnly {e : InputEvent} {f : AttnFlag} {flood stop : Bool} {s t : State}
    (h : EdgeWritten e f flood stop s t) : FaultLogOnly s t := by
  unfold FaultLogOnly
  rw [h.frame]
  exact ⟨rfl, rfl, rfl, rfl, rfl, rfl, rfl⟩

theorem EdgeWritten.rest {e : InputEvent} {f : AttnFlag} {flood stop : Bool} {s t : State}
    (h : EdgeWritten e f flood stop s t) (rest : AtRest s) : AtRest t :=
  rest.of_eq (by rw [h.frame]) (by rw [h.frame])

theorem roomHeld_congr {s t : State} (rlc : t.rlc = s.rlc) (lba : t.lba = s.lba) (room : RoomHeld s) : RoomHeld t := by
  intro b
  rw [waitingOrder_congr lba]
  exact (RoomFor.congr (n := (waitingOrder s).length + 48) (fun b => room b) rlc) b

/-! ### The flood line -/

theorem edgeWritten_floodActivation (s : State) : EdgeWritten .floodActive .flood true s.fm.stopActive s
    (writeInput .floodActive (setFlag .flood (modFm (fun f => { f with floodActive := true }) s))) :=
  edgeWritten_writeInput .floodActive .flood true s.fm.stopActive s

/-- An activation in ALARM finds nothing to stop (R145). -/
theorem floodActivation_of_alarm {s : State} (alarm : s.rcs.mode = .alarm) : floodActivation s =
    writeInput .floodActive (setFlag .flood (modFm (fun f => { f with floodActive := true }) s)) := by
  have edge := edgeWritten_floodActivation s
  unfold floodActivation raiseAlarm
  exact if_pos (by rw [edge.frame]; exact alarm)

theorem floodActivated_of_alarm {s : State} (alarm : s.rcs.mode = .alarm) : FloodActivated s (floodActivation s) := by
  have edge := edgeWritten_floodActivation s
  rw [floodActivation_of_alarm alarm]
  refine ⟨edge.flood, edge.stop, edge.flag, edge.recorded, ?_⟩
  rw [if_pos alarm]
  exact edge.faultLogOnly

/-- A stop that follows an edge, with the room's mode set between them, leaves the edge written. -/
theorem EdgeWritten.stopped {e : InputEvent} {f : AttnFlag} {flood stop : Bool} {s w t : State} {ps : List Pos}
    {reason : Reason} {m : RoomMode} (edge : EdgeWritten e f flood stop s w)
    (h : Stopped ps reason (setMode m w) t) (sub : ps.Sublist allPositions) :
    t.fm.floodActive = flood ∧ t.fm.stopActive = stop ∧ flagIsSet f t = true
      ∧ RecordedIn s t none none (.input e) [] none ∧ t.rcs = { s.rcs with mode := m } ∧ RoomStopped s t ps reason := by
  have fm : t.fm = w.fm := h.stopping.fm
  have hlp : HlpButFlags w.hlp t.hlp := h.stopping.hlp
  have rcs : t.rcs = { w.rcs with mode := m } := h.stopping.rcs
  refine ⟨by rw [fm]; exact edge.flood, by rw [fm]; exact edge.stop, flagIsSet_of_butFlags hlp edge.flag,
    recordedIn_later edge.recorded fm hlp, ?_, roomStopped_of_stopped h sub ?_ ?_ ?_⟩
  · rw [rcs, edge.frame]
  · show w.positions = _; rw [edge.frame]
  · show w.nv = _; rw [edge.frame]
  · show w.tli = _; rw [edge.frame]

theorem EdgeWritten.room {e : InputEvent} {f : AttnFlag} {flood stop : Bool} {s t : State}
    (h : EdgeWritten e f flood stop s t) (room : RoomHeld s) : RoomHeld t :=
  roomHeld_congr (by rw [h.frame]) (by rw [h.frame]) room

theorem EdgeWritten.haltsWater {e : InputEvent} {f : AttnFlag} {flood stop : Bool} {s t : State}
    (h : EdgeWritten e f flood stop s t) : isWasher t = isWasher s ∧ Cards.haltsWater t = Cards.haltsWater s := by
  have pos : ∀ p, posAt t p = posAt s p := posAt_congr (by rw [h.frame])
  refine ⟨funext fun p => ?_, funext fun p => ?_⟩
  · unfold isWasher
    rw [pos]
  · unfold Cards.haltsWater isWasher
    rw [pos]

/-- An activation outside ALARM stops the WASHER positions, and leaves room for the grants it owes (R145). -/
theorem floodActivated_of_room {s : State} (quiet : s.rcs.mode ≠ .alarm) (rest : AtRest s) (room : RoomHeld s) :
    Spare 0 (floodActivation s) ∧ ∀ t, BudgetOnly (floodActivation s) t → FloodActivated s t := by
  have edge := edgeWritten_floodActivation s
  have same : floodActivation s = enterAlarm
      (writeInput .floodActive (setFlag .flood (modFm (fun f => { f with floodActive := true }) s))) := by
    unfold floodActivation raiseAlarm
    exact if_neg (by rw [edge.frame]; exact quiet)
  rw [same]
  generalize writeInput .floodActive _ = w at edge
  obtain ⟨washer, halts⟩ := edge.haltsWater
  obtain ⟨stopped, spare, stand⟩ := stopped_enterAlarm (edge.rest rest).2 (edge.room room)
  refine ⟨spare, fun t b => ?_⟩
  have all := stopped.append (stopped_of_budget b) nofun
  rw [List.append_nil, washer] at all
  obtain ⟨flood, stop, flag, recorded, rcs, stops⟩ := edge.stopped all List.filter_sublist
  refine ⟨flood, stop, flag, recorded, ?_⟩
  rw [if_neg quiet]
  refine ⟨rcs, stops, fun p isIt enrolled => ?_⟩
  refine haltWaterStands_of_stopping (stopping_of_budget b) (stand p ?_)
  rw [halts]
  unfold Cards.haltsWater
  rw [isIt, enrolled]
  rfl

theorem floodReleased_floodRelease (s : State) : FloodReleased s (floodRelease s) := by
  have edge : EdgeWritten .floodReleased .flood false s.fm.stopActive s
      (writeInput .floodReleased (setFlag .flood (modFm (fun f => { f with floodActive := false }) s))) :=
    edgeWritten_writeInput .floodReleased .flood false s.fm.stopActive s
  unfold floodRelease FloodReleased
  extract_lets t
  by_cases report : s.nv.settings.floodReportRelease = .on
  · rw [if_pos report, if_pos (show t.nv.settings.floodReportRelease = .on from report)]
    exact ⟨edge.flood, edge.faultLogOnly, edge.flag, edge.recorded⟩
  · rw [if_neg report, if_neg (show ¬ t.nv.settings.floodReportRelease = .on from report)]
    exact ⟨rfl, ⟨rfl, rfl, rfl, rfl, rfl, rfl, rfl⟩, rfl, rfl⟩

/-! ### The stop line -/

/-- The mode that an activation of STOP_IN leaves (R146). -/
def stoppedMode (m : RoomMode) : RoomMode := if m = .alarm then .alarm else .closed

theorem setMode_stoppedMode (s : State) :
    (if s.rcs.mode = .alarm then s else setMode .closed s) = setMode (stoppedMode s.rcs.mode) s := by
  unfold stoppedMode
  split
  · next alarm => rw [← alarm]; rfl
  · rfl

theorem stopActivated_of_room {s : State} (rest : AtRest s) (room : RoomHeld s) :
    Spare 0 (stopActivation s) ∧ ∀ t, BudgetOnly (stopActivation s) t → StopActivated s t := by
  have edge : EdgeWritten .stopActive .stopInput s.fm.floodActive true s
      (writeInput .stopActive (setFlag .stopInput (modFm (fun f => { f with stopActive := true }) s))) :=
    edgeWritten_writeInput .stopActive .stopInput s.fm.floodActive true s
  unfold stopActivation
  extract_lets w x
  change EdgeWritten .stopActive .stopInput s.fm.floodActive true s w at edge
  have mode : x = setMode (stoppedMode s.rcs.mode) w := by
    have rcs : w.rcs = s.rcs := by rw [edge.frame]
    rw [← rcs]
    exact setMode_stoppedMode w
  rw [mode]
  obtain ⟨stopped, spare⟩ := stopped_everywhere (s := setMode (stoppedMode s.rcs.mode) w) (edge.rest rest).2
    (edge.room room)
  refine ⟨spare, fun t b => ?_⟩
  have all := stopped.append (stopped_of_budget b) nofun
  rw [List.append_nil] at all
  obtain ⟨flood, stop, flag, recorded, rcs, stops⟩ := edge.stopped all (List.Sublist.refl _)
  exact ⟨stop, flood, flag, recorded, rcs, stops, fun p => all.cleared p (mem_allPositions p)⟩

theorem stopReleased_stopRelease (s : State) : StopReleased s (stopRelease s) := by
  have edge : EdgeWritten .stopReleased .stopInput s.fm.floodActive false s
      (writeInput .stopReleased (setFlag .stopInput (modFm (fun f => { f with stopActive := false }) s))) :=
    edgeWritten_writeInput .stopReleased .stopInput s.fm.floodActive false s
  unfold stopRelease StopReleased
  extract_lets t
  by_cases report : s.nv.settings.stopReportRelease = .on
  · rw [if_pos report, if_pos (show t.nv.settings.stopReportRelease = .on from report)]
    exact ⟨edge.stop, edge.faultLogOnly, edge.flag, edge.recorded⟩
  · rw [if_neg report, if_neg (show ¬ t.nv.settings.stopReportRelease = .on from report)]
    exact ⟨rfl, ⟨rfl, rfl, rfl, rfl, rfl, rfl, rfl⟩, rfl, rfl⟩

end Sys2Proof.Machine.Cards
end

section
/-!
SUPPORT. What a lowered SilenceLimit sets off (R122), and the judgment of each line by a new polarity (R144).
-/
namespace Sys2Proof.Machine.Cards
open Settlement

/-! ### The silence measures -/

/-- Every position's measure and presence stand. -/
def MeasureKept (s t : State) : Prop := ∀ q, (posAt t q).silence = (posAt s q).silence
  ∧ (posAt t q).silent = (posAt s q).silent ∧ (posAt t q).presence = (posAt s q).presence

theorem MeasureKept.trans {s t u : State} (h : MeasureKept s t) (k : MeasureKept t u) : MeasureKept s u := fun q => by
  obtain ⟨a, b, c⟩ := h q
  obtain ⟨a', b', c'⟩ := k q
  exact ⟨a'.trans a, b'.trans b, c'.trans c⟩

theorem measureKept_of_positions {s t : State} (h : t.positions = s.positions) : MeasureKept s t := fun q => by
  rw [posAt_congr h q]
  exact ⟨rfl, rfl, rfl⟩

theorem measureKept_setCauses (p : Pos) (set : List Cause) (s : State) : MeasureKept s (setCauses p set s) :=
  fun q => by
    unfold setCauses
    rw [posAt_modPos]
    split
    · next e => subst e; exact ⟨rfl, rfl, rfl⟩
    · exact ⟨rfl, rfl, rfl⟩

theorem measureKept_endHere (p : Pos) (ses : Session) (outcome : EndOutcome) (cause : Option Cause) (s : State) :
    MeasureKept s (endHere p ses outcome cause s) := fun q => by
  have ends := endsOnly_endHere p ses outcome cause s
  by_cases e : q = p
  · subst e
    rw [ends.here]
    exact ⟨rfl, rfl, rfl⟩
  · rw [ends.others q e]
    exact ⟨rfl, rfl, rfl⟩

theorem measureKept_of_budget {s t : State} (h : BudgetOnly s t) : MeasureKept s t := fun q => by
  rw [h.position q]
  exact ⟨rfl, rfl, rfl⟩

/-- A cause other than LEAK, handed for a live session, ends it once its record and its lockout are written (R135). -/
theorem handCause_of_live {p : Pos} {ses : Session} {c : Cause} {s : State} (other : c ≠ .leak)
    (live : sessionAt s p = some ses) : ∃ d, d.positions = (setCauses p (addCause c (posAt s p).causes) s).positions
      ∧ handCause p c s = evaluateIfDue (endHere p ses (faultOutcome ses) (some c) d) := by
  have quiet : [c].contains Cause.leak = false := by
    simp only [List.contains_cons, List.contains_nil, Bool.or_false, beq_eq_false_iff_ne]
    exact fun e => other e.symm
  let a := setCauses p (addCause c (posAt s p).causes) s
  let b := writeFault (some p) (sessionNumberAt a p) (.cause c) [c] (posAt a p).lastReport a
  have written : b.positions = a.positions := by
    show (writeFault _ _ _ _ _ _).positions = _
    rw [writeFault_does]
  have locked : (lockPosition [c] p b).positions = a.positions := by
    rw [(lockPosition_does [c] p b).1]
    exact written
  have still : sessionAt (lockPosition [c] p b) p = some ses := by
    have occupancy : (posAt a p).occupancy = (posAt s p).occupancy := by
      show (posAt (modPos p _ s) p).occupancy = _
      rw [posAt_modPos_self]
    rw [← live]
    exact sessionAt_congr (by rw [posAt_congr locked, occupancy])
  have ended : endByFault p c (lockPosition [c] p b) =
      endHere p ses (faultOutcome ses) (some c) (lockPosition [c] p b) := by
    unfold endByFault
    rw [still]
    exact endSession_of_live _ _ still
  refine ⟨lockPosition [c] p b, locked, ?_⟩
  rw [← ended]
  show evaluateIfDue (if [c].contains Cause.leak then leakActions p (endByFault p c (lockPosition [c] p b))
    else endByFault p c (lockPosition [c] p b)) = _
  rw [if_neg (by rw [quiet]; nofun)]

/-- A cause handed for a live session touches no measure. -/
theorem measureKept_handCause {p : Pos} {ses : Session} {c : Cause} {s : State} (other : c ≠ .leak)
    (live : sessionAt s p = some ses) : MeasureKept s (handCause p c s) := by
  obtain ⟨d, same, act⟩ := handCause_of_live other live
  rw [act]
  exact (((measureKept_setCauses p _ s).trans (measureKept_of_positions same)).trans
    (measureKept_endHere p ses _ _ d)).trans (measureKept_of_budget (budgetOnly_evaluateIfDue _))

/-- Whether a measure is due does not hang on the occupancy that a grant changes. -/
theorem silenceRuns_of_granted {s t : State} {q : Pos}
    (occupancy : GrantedOnly (posAt s q).occupancy (posAt t q).occupancy)
    (presence : (posAt t q).presence = (posAt s q).presence) : silenceRuns (posAt t q) = silenceRuns (posAt s q) := by
  have vacant : ((posAt t q).occupancy != .vacant) = ((posAt s q).occupancy != .vacant) := by
    cases e : (posAt s q).occupancy with
    | live x =>
      rw [e] at occupancy
      obtain ⟨y, hy, -⟩ := occupancy
      rw [hy]
      rfl
    | _ => rw [e] at occupancy; rw [show (posAt t q).occupancy = _ from occupancy]
  unfold silenceRuns
  rw [presence, vacant]

/-! ### Loops in which one position acts -/

theorem forPositions_quiet {test : State → Pos → Bool} {s : State} (quiet : ∀ q, test s q = false)
    (act : Pos → State → State) (ps : List Pos) :
    forPositions ps (fun p s => if test s p then act p s else s) s = s :=
  forPositions_id ps _ s fun p _ => if_neg (by rw [quiet p]; nofun)

theorem forPositions_once {test : State → Pos → Bool} {act : Pos → State → State} {p : Pos} {s : State}
    (hit : test s p = true) (others : ∀ q, q ≠ p → test s q = false) (after : ∀ q, test (act p s) q = false)
    {ps : List Pos} (mem : p ∈ ps) : forPositions ps (fun p s => if test s p then act p s else s) s = act p s := by
  induction ps with
  | nil => cases mem
  | cons q ps ih =>
    rw [forPositions_cons]
    by_cases e : q = p
    · rw [e, if_pos hit]
      exact forPositions_quiet after act ps
    · rw [if_neg (by rw [others q e]; nofun)]
      exact ih ((List.mem_cons.mp mem).resolve_left fun same => e same.symm)

/-! ### A lowered limit -/

/-- One position stands at or beyond the limit: its session ends with ADAPTER_SILENT, its measure stops at the limit,
and no other position follows (R122). -/
theorem silenceTakesEffect_of_due {p : Pos} {ses : Session} {old : Settings} {u : State}
    (lowered : u.nv.settings.silenceLimit < old.silenceLimit) (due : silenceDue u p = true)
    (others : ∀ q, q ≠ p → silenceDue u q = false) (live : sessionAt u p = some ses) (rest : AtRest u)
    (room : RoomHeld u) :
    let t := silenceTakesEffect old u
    FaultEnds u t p ses .adapterSilent ∧ AtRest t ∧ (posAt t p).silent = true
      ∧ (posAt t p).silence = u.nv.settings.silenceLimit * 10 := by
  let x := modPos p (fun q => { q with silence := u.nv.settings.silenceLimit * 10, silent := true }) u
  have here : posAt x p = { posAt u p with silence := u.nv.settings.silenceLimit * 10, silent := true } :=
    posAt_modPos_self _ _ _
  have away : ∀ q, q ≠ p → posAt x q = posAt u q := fun q e => posAt_modPos_ne e _ _
  have occupancy : ∀ q, (posAt x q).occupancy = (posAt u q).occupancy := fun q => by
    by_cases e : q = p
    · rw [e, here]
    · rw [away q e]
  have liveX : sessionAt x p = some ses := (sessionAt_congr (occupancy p)).trans live
  have notLeak : Cause.adapterSilent ≠ .leak := nofun
  obtain ⟨ends, settled⟩ := faultEnds_handCause notLeak liveX (rest.of_eq (t := x) rfl rfl)
    (roomHeld_congr (t := x) rfl rfl room)
  have kept := measureKept_handCause notLeak liveX
  have same : silenceReached p u = handCause p .adapterSilent x := rfl
  rw [← same] at ends settled kept
  obtain ⟨ended, recorded, causes, locked, rcs, tli, hlp⟩ := ends
  have ofU : FaultEnds u (silenceReached p u) p ses .adapterSilent := by
    refine ⟨ended.from rfl rfl rfl occupancy, ?_, by rw [causes, here], locked, rcs, tli, hlp⟩
    rw [here] at recorded
    exact recorded
  obtain ⟨-, -, -, -, -, -, -, -, -, -, -, -, config, granted⟩ := ofU.1
  obtain ⟨-, -, -, settings, -⟩ := config
  obtain ⟨silence, silent, -⟩ := kept p
  rw [here] at silence silent
  have after : ∀ q, silenceDue (silenceReached p u) q = false := fun q => by
    by_cases e : q = p
    · subst e
      unfold silenceDue
      dsimp only
      rw [silent, Bool.not_true, Bool.and_false, Bool.false_and]
    · obtain ⟨silence, silent, presence⟩ := kept q
      rw [away q e] at silence silent presence
      have runs := silenceRuns_of_granted (granted q (fun mem => e (List.mem_singleton.mp mem))) presence
      rw [← others q e]
      unfold silenceDue
      dsimp only
      rw [runs, silence, silent, settings]
  have once : silenceTakesEffect old u = silenceReached p u := by
    unfold silenceTakesEffect
    rw [if_pos lowered]
    exact forPositions_once due others after (mem_allPositions p)
  rw [once]
  exact ⟨ofU, settled, silent, silence⟩

/-- A limit that is not lowered, or that no measure reaches, ends nothing. -/
theorem silenceTakesEffect_of_none {old : Settings} {u : State}
    (none : ¬ u.nv.settings.silenceLimit < old.silenceLimit ∨ ∀ p, silenceDue u p = false) :
    silenceTakesEffect old u = u := by
  unfold silenceTakesEffect
  split
  · next lowered =>
    exact forPositions_quiet (none.resolve_left (not_not_intro lowered)) silenceReached allPositions
  · rfl

/-! ### Lines judged afresh (R144) -/

/-- Whether the level of FLOOD_IN, and of STOP_IN, is the active one. -/
def floodJudged (s : State) : Bool := isActiveLevel s.floodLevel s.nv.settings.floodPolarity
def stopJudged (s : State) : Bool := isActiveLevel s.stopLevel s.nv.settings.stopPolarity

theorem judgeFlood_of_same {s : State} (h : floodJudged s = s.fm.floodActive) : judgeFlood s = s := if_pos h

theorem judgeFlood_of_activation {s : State} (now : floodJudged s = true) (before : s.fm.floodActive = false) :
    judgeFlood s = floodActivation s := by
  unfold floodJudged at now
  unfold judgeFlood
  rw [now, before]
  rfl

theorem judgeFlood_of_release {s : State} (now : floodJudged s = false) (before : s.fm.floodActive = true) :
    judgeFlood s = floodRelease s := by
  unfold floodJudged at now
  unfold judgeFlood
  rw [now, before]
  rfl

theorem judgeStop_of_same {s : State} (h : stopJudged s = s.fm.stopActive) : judgeStop s = s := if_pos h

theorem judgeStop_of_activation {s : State} (now : stopJudged s = true) (before : s.fm.stopActive = false) :
    judgeStop s = stopActivation s := by
  unfold stopJudged at now
  unfold judgeStop
  rw [now, before]
  rfl

theorem judgeStop_of_release {s : State} (now : stopJudged s = false) (before : s.fm.stopActive = true) :
    judgeStop s = stopRelease s := by
  unfold stopJudged at now
  unfold judgeStop
  rw [now, before]
  rfl

end Sys2Proof.Machine.Cards
end

section
/-!
Settings Write (R51, R122, R144, R178): O18.
-/
namespace Sys2Proof.Machine.Cards
open Settlement

/-! ### What a value stores (R51, Table 11-4) -/

theorem storeSetting_unnamed {number : Byte} (h : number.toNat = 0 ∨ 14 ≤ number.toNat) (greatest : Nat) (value : Half)
    (old : Settings) : storeSetting greatest number value old = none := by
  unfold storeSetting
  dsimp only
  generalize number.toNat = n at h
  match n, h with
  | 0, _ => rfl
  | n + 14, _ => rfl

theorem ite_of_two_le {α : Type} {v : Nat} (h : 2 ≤ v) (a b : α) :
    (if v = 0 then some a else if v = 1 then some b else none) = none := by
  rw [if_neg (by omega), if_neg (by omega)]

/-- A setting of named values stores none but 0 and 1. -/
theorem storeSetting_unvalued {number : Byte} {value : Half} (named : 9 ≤ number.toNat) (two : 2 ≤ value.toNat)
    (greatest : Nat) (old : Settings) : storeSetting greatest number value old = none := by
  by_cases far : 14 ≤ number.toNat
  · exact storeSetting_unnamed (.inr far) greatest value old
  · unfold storeSetting
    dsimp only
    generalize number.toNat = n at named far
    obtain rfl | rfl | rfl | rfl | rfl : n = 9 ∨ n = 10 ∨ n = 11 ∨ n = 12 ∨ n = 13 := by omega
    · exact ite_of_two_le two _ _
    · exact ite_of_two_le two _ _
    · exact ite_of_two_le two _ _
    · exact ite_of_two_le two _ _
    · exact ite_of_two_le two _ _

/-! ### The request (R178) -/

/-- The body of the reply to an accepted Settings Write. -/
def settingsBody (new : Settings) (list : List (Byte × Half)) : List Byte :=
  u8 list.length ++ (list.map fun e =>
    [e.1] ++ u16 (settingValue new e.1) ++ flagByte (settingValue new e.1 != e.2.toNat)).flatten

theorem reqSettingsWrite_of_length {list : List (Byte × Half)} (h : list.length < 1 ∨ 13 < list.length) (s : State) :
    reqSettingsWrite list s = refuse .badLength s := if_pos h

theorem reqSettingsWrite_of_bad {list : List (Byte × Half)} {s : State}
    (length : ¬ (list.length < 1 ∨ 13 < list.length))
    (h : namedTwice list = true ∨ storeSettings (greatestCardCount s) list s.nv.settings = none) :
    reqSettingsWrite list s = refuse .badValue s := by
  unfold reqSettingsWrite
  rw [if_neg length]
  by_cases twice : namedTwice list = true
  · exact if_pos twice
  · rw [if_neg twice, h.resolve_left twice]

theorem reqSettingsWrite_of_good {list : List (Byte × Half)} {s : State} {new : Settings}
    (length : ¬ (list.length < 1 ∨ 13 < list.length)) (once : namedTwice list = false)
    (stored : storeSettings (greatestCardCount s) list s.nv.settings = some new) :
    reqSettingsWrite list s =
      accept (settingsTakeEffect s.nv.settings (writeNv (fun nv => { nv with settings := new }) s))
        (settingsBody new list) := by
  unfold reqSettingsWrite
  rw [if_neg length, if_neg (by rw [once]; nofun), stored]
  unfold settingsBody
  show accept _ (u8 (list.map _).length ++ _) = _
  rw [List.length_map]

/-! ### What the new settings set off -/

theorem settingsTakeEffect_of_silence {old : Settings} {u : State}
    (flood : (silenceTakesEffect old u).nv.settings.floodPolarity = old.floodPolarity)
    (stop : (silenceTakesEffect old u).nv.settings.stopPolarity = old.stopPolarity) :
    settingsTakeEffect old u = silenceTakesEffect old u := by
  unfold settingsTakeEffect
  extract_lets x y
  have same : y = x := if_pos flood
  rw [same]
  exact if_pos stop

section
variable {old : Settings} {u : State} (quiet : silenceTakesEffect old u = u)
include quiet

theorem settingsTakeEffect_of_none
    (flood : u.nv.settings.floodPolarity = old.floodPolarity ∨ floodJudged u = u.fm.floodActive)
    (stop : u.nv.settings.stopPolarity = old.stopPolarity ∨ stopJudged u = u.fm.stopActive) :
    settingsTakeEffect old u = u := by
  unfold settingsTakeEffect
  rw [quiet]
  extract_lets x y
  have same : y = u := by
    by_cases kept : u.nv.settings.floodPolarity = old.floodPolarity
    · exact if_pos kept
    · exact (if_neg kept).trans (judgeFlood_of_same (flood.resolve_left kept))
  rw [same]
  by_cases kept : u.nv.settings.stopPolarity = old.stopPolarity
  · exact if_pos kept
  · exact (if_neg kept).trans (judgeStop_of_same (stop.resolve_left kept))

theorem settingsTakeEffect_of_flood (changed : ¬ u.nv.settings.floodPolarity = old.floodPolarity)
    (kept : (judgeFlood u).nv.settings.stopPolarity = old.stopPolarity) : settingsTakeEffect old u = judgeFlood u := by
  unfold settingsTakeEffect
  rw [quiet]
  extract_lets x y
  have same : y = judgeFlood u := if_neg changed
  rw [same]
  exact if_pos kept

theorem settingsTakeEffect_of_stop (kept : u.nv.settings.floodPolarity = old.floodPolarity)
    (changed : ¬ u.nv.settings.stopPolarity = old.stopPolarity) : settingsTakeEffect old u = judgeStop u := by
  unfold settingsTakeEffect
  rw [quiet]
  extract_lets x y
  have same : y = u := if_pos kept
  rw [same]
  exact if_neg changed

end

theorem rest_of_faultLogOnly {s t : State} (h : FaultLogOnly s t) (rest : AtRest s) : AtRest t := by
  obtain ⟨-, -, -, rlc, lba, -⟩ := h
  exact rest.of_eq lba rlc

theorem settings_of_faultLogOnly {s t : State} (h : FaultLogOnly s t) : t.nv.settings = s.nv.settings := by
  obtain ⟨-, -, nv, -⟩ := h
  rw [nv]

theorem settings_of_floodActivated {s t : State} (h : FloodActivated s t) : t.nv.settings = s.nv.settings := by
  obtain ⟨-, -, -, -, left⟩ := h
  split at left
  · exact settings_of_faultLogOnly left
  · obtain ⟨-, ⟨-, -, -, -, -, config⟩, -⟩ := left
    obtain ⟨-, -, -, settings, -⟩ := config
    exact settings

/-! ### An accepted write -/

/-- The hypotheses of an accepted Settings Write. -/
structure Accepted (list : List (Byte × Half)) (s : State) (new : Settings) : Prop where
  serving : Serving s
  length : ¬ (list.length < 1 ∨ 13 < list.length)
  once : namedTwice list = false
  stored : storeSettings (greatestCardCount s) list s.nv.settings = some new

/-- The state in which the new settings are stored, and have not yet taken effect. -/
def withSettings (new : Settings) (s : State) : State := storedAs { s.nv with settings := new } s

namespace Accepted
variable {list : List (Byte × Half)} {s : State} {new : Settings} (h : Accepted list s new)
include h

theorem take : takeRequest (.settingsWrite list) (beginTaking s) =
    (settingsTakeEffect s.nv.settings (withSettings new s), .ok (settingsBody new list)) :=
  reqSettingsWrite_of_good (s := beginTaking s) h.length h.once h.stored

theorem rest : AtRest (withSettings new s) := h.serving.1.2.of_eq rfl rfl

theorem answers_of_rest {x : State} (effect : settingsTakeEffect s.nv.settings (withSettings new s) = x)
    (rest : AtRest x) : Answers (.settingsWrite list) s x (.ok (settingsBody new list)) :=
  answers_of_take h.serving (effect ▸ h.take) rest

theorem answers_spare {x : State} (effect : settingsTakeEffect s.nv.settings (withSettings new s) = x)
    (spare : Spare 0 x) : ∃ t, Answers (.settingsWrite list) s t (.ok (settingsBody new list)) ∧ BudgetOnly x t :=
  answers_of_spare h.serving (effect ▸ h.take) spare

omit h in
theorem room (held : RoomHeld s) : RoomHeld (withSettings new s) := roomHeld_congr rfl rfl held

omit h in
theorem quiet (still : ¬ new.silenceLimit < s.nv.settings.silenceLimit ∨
    ∀ p, silenceDue (withSettings new s) p = false) :
    silenceTakesEffect s.nv.settings (withSettings new s) = withSettings new s := silenceTakesEffect_of_none still

theorem answers_nothing
    (flood : new.floodPolarity = s.nv.settings.floodPolarity ∨ floodJudged (withSettings new s) = s.fm.floodActive)
    (stop : new.stopPolarity = s.nv.settings.stopPolarity ∨ stopJudged (withSettings new s) = s.fm.stopActive)
    (still : ¬ new.silenceLimit < s.nv.settings.silenceLimit ∨ ∀ p, silenceDue (withSettings new s) p = false) :
    Answers (.settingsWrite list) s (withSettings new s) (.ok (settingsBody new list)) :=
  h.answers_of_rest (settingsTakeEffect_of_none (quiet still) flood stop) h.rest

theorem answers_silence {p : Pos} {ses : Session} (flood : new.floodPolarity = s.nv.settings.floodPolarity)
    (stop : new.stopPolarity = s.nv.settings.stopPolarity)
    (lowered : new.silenceLimit < s.nv.settings.silenceLimit) (due : silenceDue (withSettings new s) p = true)
    (others : ∀ q, q ≠ p → silenceDue (withSettings new s) q = false) (live : sessionAt s p = some ses)
    (held : RoomHeld s) : ∃ t, Answers (.settingsWrite list) s t (.ok (settingsBody new list))
      ∧ FaultEnds (withSettings new s) t p ses .adapterSilent ∧ (posAt t p).silent = true
      ∧ (posAt t p).silence = new.silenceLimit * 10 := by
  obtain ⟨ends, rest, silent, silence⟩ := silenceTakesEffect_of_due (u := withSettings new s) lowered due others
    ((sessionAt_congr (s := s) (t := withSettings new s) rfl).trans live) h.rest (room held)
  have ended := ends.1
  obtain ⟨-, -, -, -, -, -, -, -, -, -, -, -, config, -⟩ := ended
  obtain ⟨-, -, -, settings, -⟩ := config
  have effect := settingsTakeEffect_of_silence (old := s.nv.settings) (u := withSettings new s)
    (by rw [settings]; exact flood) (by rw [settings]; exact stop)
  exact ⟨_, h.answers_of_rest effect rest, ends, silent, silence⟩

section
variable (level : ¬ new.silenceLimit < s.nv.settings.silenceLimit)
include level

theorem answers_floodActivation (changed : ¬ new.floodPolarity = s.nv.settings.floodPolarity)
    (kept : new.stopPolarity = s.nv.settings.stopPolarity) (now : floodJudged (withSettings new s) = true)
    (before : s.fm.floodActive = false) (held : s.rcs.mode = .alarm ∨ RoomHeld s) :
    ∃ t, Answers (.settingsWrite list) s t (.ok (settingsBody new list)) ∧ FloodActivated (withSettings new s) t := by
  have judged := judgeFlood_of_activation (s := withSettings new s) now before
  have effect : ∀ t, FloodActivated (withSettings new s) t → t = floodActivation (withSettings new s) →
      settingsTakeEffect s.nv.settings (withSettings new s) = floodActivation (withSettings new s) := by
    intro t activated same
    rw [← judged]
    refine settingsTakeEffect_of_flood (quiet (.inl level)) changed ?_
    rw [judged, ← same, settings_of_floodActivated activated]
    exact kept
  by_cases alarm : s.rcs.mode = .alarm
  · have activated := floodActivated_of_alarm (s := withSettings new s) alarm
    obtain ⟨-, -, -, -, left⟩ := id activated
    rw [if_pos (show (withSettings new s).rcs.mode = .alarm from alarm)] at left
    exact ⟨_, h.answers_of_rest (effect _ activated rfl) (rest_of_faultLogOnly left h.rest), activated⟩
  · obtain ⟨spare, activated⟩ := floodActivated_of_room (s := withSettings new s) alarm h.rest
      (room (held.resolve_left alarm))
    obtain ⟨t, answer, budget⟩ := h.answers_spare (effect _ (activated _ (BudgetOnly.refl _)) rfl) spare
    exact ⟨t, answer, activated t budget⟩

theorem answers_floodRelease (changed : ¬ new.floodPolarity = s.nv.settings.floodPolarity)
    (kept : new.stopPolarity = s.nv.settings.stopPolarity) (now : floodJudged (withSettings new s) = false)
    (before : s.fm.floodActive = true) :
    ∃ t, Answers (.settingsWrite list) s t (.ok (settingsBody new list)) ∧ FloodReleased (withSettings new s) t := by
  have judged := judgeFlood_of_release (s := withSettings new s) now before
  have released := floodReleased_floodRelease (withSettings new s)
  have only : FaultLogOnly (withSettings new s) (floodRelease (withSettings new s)) := released.2.1
  have effect : settingsTakeEffect s.nv.settings (withSettings new s) = floodRelease (withSettings new s) := by
    rw [← judged]
    refine settingsTakeEffect_of_flood (quiet (.inl level)) changed ?_
    rw [judged, settings_of_faultLogOnly only]
    exact kept
  exact ⟨_, h.answers_of_rest effect (rest_of_faultLogOnly only h.rest), released⟩

theorem answers_stopActivation (changed : ¬ new.stopPolarity = s.nv.settings.stopPolarity)
    (kept : new.floodPolarity = s.nv.settings.floodPolarity) (now : stopJudged (withSettings new s) = true)
    (before : s.fm.stopActive = false) (held : RoomHeld s) :
    ∃ t, Answers (.settingsWrite list) s t (.ok (settingsBody new list)) ∧ StopActivated (withSettings new s) t := by
  obtain ⟨spare, activated⟩ := stopActivated_of_room h.rest (room held)
  have effect := (settingsTakeEffect_of_stop (quiet (.inl level)) kept changed).trans
    (judgeStop_of_activation (s := withSettings new s) now before)
  obtain ⟨t, answer, budget⟩ := h.answers_spare effect spare
  exact ⟨t, answer, activated t budget⟩

theorem answers_stopRelease (changed : ¬ new.stopPolarity = s.nv.settings.stopPolarity)
    (kept : new.floodPolarity = s.nv.settings.floodPolarity) (now : stopJudged (withSettings new s) = false)
    (before : s.fm.stopActive = true) :
    ∃ t, Answers (.settingsWrite list) s t (.ok (settingsBody new list)) ∧ StopReleased (withSettings new s) t := by
  have released := stopReleased_stopRelease (withSettings new s)
  have only : FaultLogOnly (withSettings new s) (stopRelease (withSettings new s)) := released.2.1
  have effect := (settingsTakeEffect_of_stop (quiet (.inl level)) kept changed).trans
    (judgeStop_of_release (s := withSettings new s) now before)
  exact ⟨_, h.answers_of_rest effect (rest_of_faultLogOnly only h.rest), released⟩

end

end Accepted

/-- Settles O18. The write is stored whole, and its effects follow: a lowered limit by the judgment of the one silent
position, a changed polarity by the edge, whose stops go position by position, each with its own rule. -/
theorem settingsWriteStoresTogether : Obligations.SettingsWriteStoresTogether := by
  unfold Obligations.SettingsWriteStoresTogether
  intro list s serving
  refine ⟨fun length => refuses_of_take serving (reqSettingsWrite_of_length length _), fun low high => ?_, ?_⟩
  · have length : ¬ (list.length < 1 ∨ 13 < list.length) := by omega
    refine ⟨fun bad => refuses_of_take serving (reqSettingsWrite_of_bad (s := beginTaking s) length bad),
      fun new once stored => ?_⟩
    have h : Accepted list s new := ⟨serving, length, once, stored⟩
    exact ⟨fun flood stop still => h.answers_nothing flood stop still,
      fun p ses flood stop lowered due others live held => h.answers_silence flood stop lowered due others live held,
      fun changed kept level now before held => h.answers_floodActivation level changed kept now before held,
      fun changed kept level now before => h.answers_floodRelease level changed kept now before,
      fun changed kept level now before held => h.answers_stopActivation level changed kept now before held,
      fun changed kept level now before => h.answers_stopRelease level changed kept now before⟩
  · intro number value greatest old
    refine ⟨fun far => storeSetting_unnamed (far.imp_left fun e => by rw [e]; rfl) greatest value old, ?_, rfl, ?_, ?_,
      rfl, rfl, ?_, rfl, fun named two => storeSetting_unvalued named two greatest old,
      rfl, rfl, rfl, rfl, rfl, rfl, rfl, rfl, rfl, rfl⟩
    · exact congrArg (fun v => some { old with extensionMax := v }) (Nat.zero_max _)
    · exact congrArg (fun v => some { old with graceMinutes := v }) (Nat.zero_max _)
    · exact congrArg (fun v => some { old with overrunTolerance := v }) (Nat.zero_max _)
    · exact congrArg (fun v => some { old with offlineAllowance := v }) (Nat.zero_max _)

end Sys2Proof.Machine.Cards
end
